-- ==== Sys2Proof/Word.lean ====
section
/-! DEFINITION. The word types of the core (00_scope.md R7, R10, R11, R14). -/

namespace Sys2Proof

/-- A 32-bit word: a register, a stream word, an address (00_scope.md R7, R11). -/
abbrev Word := BitVec 32

/-- A byte of system memory. -/
abbrev Byte := BitVec 8

/-- A Huffman symbol, 16 bits (00_scope.md R10). -/
abbrev Symbol := BitVec 16

end Sys2Proof
end

