-- ==== Sys2Proof/Config.lean ====
section
/-! DEFINITION. What an implementation fixes: the constants the spec gives, the parameters it leaves OPEN, and the
free values for what it leaves unspecified. A constant without a body is opaque: no proof can see its value. -/

namespace Sys2Proof

/-- The two readings of the 24-bit plain colour, parameter PLAIN_RGB_ORDER (00_scope.md R12, 44_texture_inflater.md R431). -/
inductive RgbOrder where
  | le24
  | seq8
deriving DecidableEq, Repr

/-- ID, "GW2C" (10_state.md R31). -/
def Config.idValue : Word := 0x43325747

/-- HB, the width of the lookup hash (00_scope.md R8). -/
def Config.hashBits : Nat := 8

/-- MAX_SYMBOLS: symbols are 0..284 (00_scope.md R10). -/
def Config.maxSymbols : Nat := 285

/-- MAX_LEN - 1, the longest code length (00_scope.md R9). -/
def Config.maxCodeLength : Nat := 31

/-- The parameter DAT_DICT (00_scope.md R12, 41_huffman.md R281): the insertion-ordered list of (byte, length) pairs.
OPEN, not listed by the spec (91_not_in_source.md N1), so it has no body. A conforming list has distinct symbols, lengths
in 3..16 and does not oversubscribe. Log entry 5. -/
opaque Config.datDictPairs : List (Byte × Nat)

/-- The parameter MAX_BLOCKS (00_scope.md R12): `none` is unbounded. OPEN. Log entry 6. -/
opaque Config.maxBlocks : Option Nat

/-- The parameter REG_BASE (00_scope.md R12, 20_memory.md R100): the host address the platform maps the register window at.
OPEN. Log entry 8. -/
opaque Config.regBase : Word

/-- The parameter PLAIN_RGB_ORDER at its default (00_scope.md R12). Log entry 7. -/
def Config.plainRgbOrder : RgbOrder := .le24

/-- FREE VALUE: what the n-th read of a register other than ID and STATUS returns while BUSY = 1
(45_control.md R478, 93_implementation_defined.md U17). Log entry 9. -/
opaque Config.freeRead : Nat → Word

/-- FREE VALUE: the byte of a job's output region that a disturbed job leaves at an address, and that a host read of the
output region sees while the job runs (93_implementation_defined.md U20). Log entry 11. -/
opaque Config.freeByte : Nat → Nat → Byte

/-- FREE VALUE: OUT_COUNT of a disturbed job (93_implementation_defined.md U20). Log entry 11. -/
opaque Config.freeCount : Nat → Word

/-- FREE VALUE: STATUS.STOP of a disturbed job (93_implementation_defined.md U20). Log entry 11. -/
opaque Config.freeStop : Nat → Byte

/-- FREE VALUE: whether an output byte of a job abandoned by reset holds its new value (93_implementation_defined.md U19).
Log entry 12. -/
opaque Config.freeChoice : Nat → Nat → Bool

end Sys2Proof
end

