-- ==== Sys2Proof/Syntax.lean ====
section
/-! DEFINITION. The instructions: one constructor per row of spec/opcode_table.json, in the table's order. The commands
are the words the host writes to CMD; the other rows are the elements of the two streams and the FourCC values, which a
job decodes one by one (00_scope.md R2, 30_encoding.md R140). -/

namespace Sys2Proof

/-- One row of the opcode table. -/
inductive Instr where
  -- Commands (30_encoding.md R141, R142). Their operands are the argument registers, never fields of the word.
  /-- NOP, R474. -/
  | nop
  /-- INFLATE_DAT, R320. -/
  | inflateDat
  /-- INFLATE_TEXTURE, R400. -/
  | inflateTexture
  /-- TEX_FORMAT, R387. -/
  | texFormat
  /-- BR_INIT, R220. -/
  | brInit
  /-- BR_PEEK, R221. -/
  | brPeek
  /-- BR_READ, R222. -/
  | brRead
  /-- BR_DROP, R223. -/
  | brDrop
  /-- BR_TAKE, R224. -/
  | brTake
  /-- HB_CLEAR, R274. -/
  | hbClear
  /-- HB_ADD, R275. -/
  | hbAdd
  /-- HB_BUILD, R277. -/
  | hbBuild
  /-- HT_DECODE, R278. -/
  | htDecode
  /-- HT_CODE, R276. -/
  | htCode
  /-- illegal_command, R142: any other command word. -/
  | illegalCommand (word : Word)
  -- Elements of the dat stream (30_encoding.md R151 to R160).
  /-- DAT.HEADER, R152: method:4, write_size_const_add_raw:4. -/
  | datHeader (method : BitVec 4) (wraw : BitVec 4)
  /-- DAT.N_SYMBOLS, R153: n_symbols:16. -/
  | datNSymbols (count : BitVec 16)
  /-- DAT.DESC.SKIP, R154: descriptor symbol with code_len 0, r = run - 1. -/
  | datDescSkip (r : BitVec 3)
  /-- DAT.DESC.ADD, R154: descriptor symbol with code_len 1..31, r = run - 1. -/
  | datDescAdd (r : BitVec 3) (len : BitVec 5)
  /-- DAT.MAX_COUNT, R159: max_count_raw:4. -/
  | datMaxCount (raw : BitVec 4)
  -- Symbols of the SYM tree (30_encoding.md R155, R156).
  /-- SYM.LITERAL, R335: a literal byte. -/
  | symLiteral (byte : Byte)
  /-- SYM.LEN0, R156. -/
  | symLen0
  /-- SYM.LEN1, R156. -/
  | symLen1
  /-- SYM.LEN2, R156. -/
  | symLen2
  /-- SYM.LEN3, R156. -/
  | symLen3
  /-- SYM.LEN4, R156. -/
  | symLen4
  /-- SYM.LEN5, R156. -/
  | symLen5
  /-- SYM.LEN6, R156. -/
  | symLen6
  /-- SYM.LEN7, R156. -/
  | symLen7
  /-- SYM.LEN8, R156. -/
  | symLen8
  /-- SYM.LEN9, R156. -/
  | symLen9
  /-- SYM.LEN10, R156. -/
  | symLen10
  /-- SYM.LEN11, R156. -/
  | symLen11
  /-- SYM.LEN12, R156. -/
  | symLen12
  /-- SYM.LEN13, R156. -/
  | symLen13
  /-- SYM.LEN14, R156. -/
  | symLen14
  /-- SYM.LEN15, R156. -/
  | symLen15
  /-- SYM.LEN16, R156. -/
  | symLen16
  /-- SYM.LEN17, R156. -/
  | symLen17
  /-- SYM.LEN18, R156. -/
  | symLen18
  /-- SYM.LEN19, R156. -/
  | symLen19
  /-- SYM.LEN20, R156. -/
  | symLen20
  /-- SYM.LEN21, R156. -/
  | symLen21
  /-- SYM.LEN22, R156. -/
  | symLen22
  /-- SYM.LEN23, R156. -/
  | symLen23
  /-- SYM.LEN24, R156. -/
  | symLen24
  /-- SYM.LEN25, R156. -/
  | symLen25
  /-- SYM.LEN26, R156. -/
  | symLen26
  /-- SYM.LEN27, R156. -/
  | symLen27
  /-- SYM.LEN28, R156. -/
  | symLen28
  -- Symbols of the COPY tree (30_encoding.md R158).
  /-- COPY.DIST0, R158. -/
  | copyDist0
  /-- COPY.DIST1, R158. -/
  | copyDist1
  /-- COPY.DIST2, R158. -/
  | copyDist2
  /-- COPY.DIST3, R158. -/
  | copyDist3
  /-- COPY.DIST4, R158. -/
  | copyDist4
  /-- COPY.DIST5, R158. -/
  | copyDist5
  /-- COPY.DIST6, R158. -/
  | copyDist6
  /-- COPY.DIST7, R158. -/
  | copyDist7
  /-- COPY.DIST8, R158. -/
  | copyDist8
  /-- COPY.DIST9, R158. -/
  | copyDist9
  /-- COPY.DIST10, R158. -/
  | copyDist10
  /-- COPY.DIST11, R158. -/
  | copyDist11
  /-- COPY.DIST12, R158. -/
  | copyDist12
  /-- COPY.DIST13, R158. -/
  | copyDist13
  /-- COPY.DIST14, R158. -/
  | copyDist14
  /-- COPY.DIST15, R158. -/
  | copyDist15
  /-- COPY.DIST16, R158. -/
  | copyDist16
  /-- COPY.DIST17, R158. -/
  | copyDist17
  /-- COPY.DIST18, R158. -/
  | copyDist18
  /-- COPY.DIST19, R158. -/
  | copyDist19
  /-- COPY.DIST20, R158. -/
  | copyDist20
  /-- COPY.DIST21, R158. -/
  | copyDist21
  /-- COPY.DIST22, R158. -/
  | copyDist22
  /-- COPY.DIST23, R158. -/
  | copyDist23
  /-- COPY.DIST24, R158. -/
  | copyDist24
  /-- COPY.DIST25, R158. -/
  | copyDist25
  /-- COPY.DIST26, R158. -/
  | copyDist26
  /-- COPY.DIST27, R158. -/
  | copyDist27
  /-- COPY.DIST28, R158. -/
  | copyDist28
  /-- COPY.DIST29, R158. -/
  | copyDist29
  /-- COPY.DIST30, R158. -/
  | copyDist30
  /-- COPY.DIST31, R158. -/
  | copyDist31
  /-- COPY.DIST32, R158. -/
  | copyDist32
  /-- COPY.DIST33, R158. -/
  | copyDist33
  /-- COPY.INVALID, R337: a distance code 34..284. -/
  | copyInvalid (d : Symbol)
  -- Elements of the texture stream (30_encoding.md R165 to R170).
  /-- TEX.HEADER, R166: data_size:32, compression_flags:32. -/
  | texHeader (size : Word) (flags : Word)
  /-- TEX.CFLAG.WHITE, R167. -/
  | texCflagWhite
  /-- TEX.CFLAG.CONST_A4, R167. -/
  | texCflagConstA4
  /-- TEX.CFLAG.CONST_A8, R167. -/
  | texCflagConstA8
  /-- TEX.CFLAG.PLAIN, R167. -/
  | texCflagPlain
  /-- TEX.COUNT1, R168. -/
  | texCount1
  /-- TEX.COUNT18, R168. -/
  | texCount18
  /-- TEX.COUNT2, R168. -/
  | texCount2
  /-- TEX.COUNT3, R168. -/
  | texCount3
  /-- TEX.COUNT4, R168. -/
  | texCount4
  /-- TEX.COUNT5, R168. -/
  | texCount5
  /-- TEX.COUNT6, R168. -/
  | texCount6
  /-- TEX.COUNT7, R168. -/
  | texCount7
  /-- TEX.COUNT8, R168. -/
  | texCount8
  /-- TEX.COUNT9, R168. -/
  | texCount9
  /-- TEX.COUNT10, R168. -/
  | texCount10
  /-- TEX.COUNT11, R168. -/
  | texCount11
  /-- TEX.COUNT12, R168. -/
  | texCount12
  /-- TEX.COUNT13, R168. -/
  | texCount13
  /-- TEX.COUNT14, R168. -/
  | texCount14
  /-- TEX.COUNT15, R168. -/
  | texCount15
  /-- TEX.COUNT16, R168. -/
  | texCount16
  /-- TEX.COUNT17, R168. -/
  | texCount17
  /-- TEX.WHITE.RUN, R410: value:1. -/
  | texWhiteRun (value : Bool)
  /-- TEX.ALPHA.START, R415: alpha:4 (wide = false) or alpha:8 (wide = true). -/
  | texAlphaStart (wide : Bool) (alpha : Byte)
  /-- TEX.ALPHA.RUN, R417: value:1, is_not_null:1 (consumed only if value). -/
  | texAlphaRun (value : Bool) (notNull : Bool)
  /-- TEX.PLAIN.START, R431: colour:24. -/
  | texPlainStart (colour : BitVec 24)
  /-- TEX.PLAIN.RUN, R430: value:1. -/
  | texPlainRun (value : Bool)
  /-- TEX.RESIDUE.WORD, R170: word:32. -/
  | texResidueWord (word : Word)
  -- Values of TEX_FOURCC (43_texture_formats.md R380).
  /-- FOURCC.DXT1, R380. -/
  | fourccDxt1
  /-- FOURCC.DXT2, R380. -/
  | fourccDxt2
  /-- FOURCC.DXT3, R380. -/
  | fourccDxt3
  /-- FOURCC.DXT4, R380. -/
  | fourccDxt4
  /-- FOURCC.DXT5, R380. -/
  | fourccDxt5
  /-- FOURCC.DXTA, R380. -/
  | fourccDxta
  /-- FOURCC.DXTL, R380. -/
  | fourccDxtl
  /-- FOURCC.DXTN, R380. -/
  | fourccDxtn
  /-- FOURCC.3DCX, R380. -/
  | fourcc3dcx
deriving DecidableEq, Repr

end Sys2Proof
end

