-- ==== Sys2Proof/WellFormed.lean ====
section
/-! DEFINITION. What makes an instruction one that an encoding can hold: the operand ranges the spec gives a row beyond
the width of its field. -/

namespace Sys2Proof

/-- The 14 command opcodes of 30_encoding.md R141. -/
def commandOpcodes : List Nat := [0x00, 0x01, 0x02, 0x03, 0x10, 0x11, 0x12, 0x13, 0x14, 0x20, 0x21, 0x22, 0x23, 0x24]

/-- The operand checks: an illegal command word is not a legal one (30_encoding.md R142), an add entry's length is not 0
(R154), an invalid distance code is 34..284 (R158), a 4-bit constant alpha is below 16 (R169). -/
def Instr.wf : Instr → Bool
  | .nop => true
  | .inflateDat => true
  | .inflateTexture => true
  | .texFormat => true
  | .brInit => true
  | .brPeek => true
  | .brRead => true
  | .brDrop => true
  | .brTake => true
  | .hbClear => true
  | .hbAdd => true
  | .hbBuild => true
  | .htDecode => true
  | .htCode => true
  | .illegalCommand word => !commandOpcodes.contains word.toNat
  | .datHeader _ _ => true
  | .datNSymbols _ => true
  | .datDescSkip _ => true
  | .datDescAdd _ len => len != 0
  | .datMaxCount _ => true
  | .symLiteral _ => true
  | .symLen0 => true
  | .symLen1 => true
  | .symLen2 => true
  | .symLen3 => true
  | .symLen4 => true
  | .symLen5 => true
  | .symLen6 => true
  | .symLen7 => true
  | .symLen8 => true
  | .symLen9 => true
  | .symLen10 => true
  | .symLen11 => true
  | .symLen12 => true
  | .symLen13 => true
  | .symLen14 => true
  | .symLen15 => true
  | .symLen16 => true
  | .symLen17 => true
  | .symLen18 => true
  | .symLen19 => true
  | .symLen20 => true
  | .symLen21 => true
  | .symLen22 => true
  | .symLen23 => true
  | .symLen24 => true
  | .symLen25 => true
  | .symLen26 => true
  | .symLen27 => true
  | .symLen28 => true
  | .copyDist0 => true
  | .copyDist1 => true
  | .copyDist2 => true
  | .copyDist3 => true
  | .copyDist4 => true
  | .copyDist5 => true
  | .copyDist6 => true
  | .copyDist7 => true
  | .copyDist8 => true
  | .copyDist9 => true
  | .copyDist10 => true
  | .copyDist11 => true
  | .copyDist12 => true
  | .copyDist13 => true
  | .copyDist14 => true
  | .copyDist15 => true
  | .copyDist16 => true
  | .copyDist17 => true
  | .copyDist18 => true
  | .copyDist19 => true
  | .copyDist20 => true
  | .copyDist21 => true
  | .copyDist22 => true
  | .copyDist23 => true
  | .copyDist24 => true
  | .copyDist25 => true
  | .copyDist26 => true
  | .copyDist27 => true
  | .copyDist28 => true
  | .copyDist29 => true
  | .copyDist30 => true
  | .copyDist31 => true
  | .copyDist32 => true
  | .copyDist33 => true
  | .copyInvalid d => decide (34 ≤ d.toNat) && decide (d.toNat ≤ 284)
  | .texHeader _ _ => true
  | .texCflagWhite => true
  | .texCflagConstA4 => true
  | .texCflagConstA8 => true
  | .texCflagPlain => true
  | .texCount1 => true
  | .texCount18 => true
  | .texCount2 => true
  | .texCount3 => true
  | .texCount4 => true
  | .texCount5 => true
  | .texCount6 => true
  | .texCount7 => true
  | .texCount8 => true
  | .texCount9 => true
  | .texCount10 => true
  | .texCount11 => true
  | .texCount12 => true
  | .texCount13 => true
  | .texCount14 => true
  | .texCount15 => true
  | .texCount16 => true
  | .texCount17 => true
  | .texWhiteRun _ => true
  | .texAlphaStart wide alpha => wide || decide (alpha.toNat < 16)
  | .texAlphaRun _ _ => true
  | .texPlainStart _ => true
  | .texPlainRun _ => true
  | .texResidueWord _ => true
  | .fourccDxt1 => true
  | .fourccDxt2 => true
  | .fourccDxt3 => true
  | .fourccDxt4 => true
  | .fourccDxt5 => true
  | .fourccDxta => true
  | .fourccDxtl => true
  | .fourccDxtn => true
  | .fourcc3dcx => true

end Sys2Proof
end

