-- ==== Sys2Proof/Decode.lean ====
section
/-! DEFINITION. The decoder and the encoder. An instruction's bits mean nothing by themselves: the same 9 bits are a SYM
symbol or a COPY symbol, and which one is decided by where in its job the core stands (30_encoding.md R140, R151, R165).
`ElemKind` is that place; `decode` reads the bits found there, and rejects by name what the place does not hold. -/

namespace Sys2Proof

/-- Where an instruction is read: the CMD register, TEX_FOURCC, the compression flags, or a place of a stream grammar.
A multi-field element is one number, its first-read bit most significant (00_scope.md R16); `texHeader` alone is two
32-bit words, the first word in bits 31:0, as the words lie in memory. -/
inductive ElemKind where
  | command
  | datHeader
  | datNSymbols
  | descriptor
  | maxCount
  | symSymbol
  | copySymbol
  | texHeader
  | texFlag
  | texCount
  | whiteRun
  | alphaStart4
  | alphaStart8
  | alphaRun
  | plainStart
  | plainRun
  | residueWord
  | fourcc
deriving DecidableEq, Repr

/-- Why a place holds no instruction. -/
inductive Reject where
  /-- A SYM symbol above 284 (30_encoding.md R155). -/
  | symbolOutOfAlphabet
  /-- A COPY symbol above 284 (30_encoding.md R158). -/
  | distanceOutOfAlphabet
  /-- A DAT_DICT symbol that is not a byte (30_encoding.md R154). -/
  | descriptorNotByte
  /-- A count that is not a symbol of TEX_DICT (30_encoding.md R168). -/
  | countOutOfDictionary
  /-- Not one compression flag bit (30_encoding.md R167). -/
  | noFlagBit
  /-- A TEX_FOURCC value the table does not hold (43_texture_formats.md R386). -/
  | unknownFourcc
deriving DecidableEq, Repr

/-- How many bits an instruction has at each place. Tree symbols and descriptors are counted after Huffman decoding. -/
def ElemKind.width : ElemKind → Nat
  | .command => 32
  | .datHeader => 8
  | .datNSymbols => 16
  | .descriptor => 8
  | .maxCount => 4
  | .symSymbol => 9
  | .copySymbol => 9
  | .texHeader => 64
  | .texFlag => 32
  | .texCount => 16
  | .whiteRun => 1
  | .alphaStart4 => 4
  | .alphaStart8 => 8
  | .alphaRun => 2
  | .plainStart => 24
  | .plainRun => 1
  | .residueWord => 32
  | .fourcc => 32

/-- The opcode map (30_encoding.md R141). -/
def commandRows : List (Nat × Instr) := [
  (0x0, .nop), (0x1, .inflateDat), (0x2, .inflateTexture), (0x3, .texFormat),
  (0x10, .brInit), (0x11, .brPeek), (0x12, .brRead), (0x13, .brDrop),
  (0x14, .brTake), (0x20, .hbClear), (0x21, .hbAdd), (0x22, .hbBuild),
  (0x23, .htDecode), (0x24, .htCode)]

/-- The length codes of the SYM alphabet (30_encoding.md R156). -/
def lengthRows : List (Nat × Instr) := [
  (0x100, .symLen0), (0x101, .symLen1), (0x102, .symLen2), (0x103, .symLen3), (0x104, .symLen4), (0x105, .symLen5),
  (0x106, .symLen6), (0x107, .symLen7), (0x108, .symLen8), (0x109, .symLen9), (0x10a, .symLen10), (0x10b, .symLen11),
  (0x10c, .symLen12), (0x10d, .symLen13), (0x10e, .symLen14), (0x10f, .symLen15), (0x110, .symLen16), (0x111, .symLen17),
  (0x112, .symLen18), (0x113, .symLen19), (0x114, .symLen20), (0x115, .symLen21), (0x116, .symLen22), (0x117, .symLen23),
  (0x118, .symLen24), (0x119, .symLen25), (0x11a, .symLen26), (0x11b, .symLen27), (0x11c, .symLen28)]

/-- The valid distance codes of the COPY alphabet (30_encoding.md R158). -/
def distanceRows : List (Nat × Instr) := [
  (0, .copyDist0), (1, .copyDist1), (2, .copyDist2), (3, .copyDist3), (4, .copyDist4), (5, .copyDist5),
  (6, .copyDist6), (7, .copyDist7), (8, .copyDist8), (9, .copyDist9), (10, .copyDist10), (11, .copyDist11),
  (12, .copyDist12), (13, .copyDist13), (14, .copyDist14), (15, .copyDist15), (16, .copyDist16), (17, .copyDist17),
  (18, .copyDist18), (19, .copyDist19), (20, .copyDist20), (21, .copyDist21), (22, .copyDist22), (23, .copyDist23),
  (24, .copyDist24), (25, .copyDist25), (26, .copyDist26), (27, .copyDist27), (28, .copyDist28), (29, .copyDist29),
  (30, .copyDist30), (31, .copyDist31), (32, .copyDist32), (33, .copyDist33)]

/-- The count symbols of TEX_DICT (30_encoding.md R168). -/
def countRows : List (Nat × Instr) := [
  (1, .texCount1), (2, .texCount2), (3, .texCount3), (4, .texCount4), (5, .texCount5), (6, .texCount6),
  (7, .texCount7), (8, .texCount8), (9, .texCount9), (10, .texCount10), (11, .texCount11), (12, .texCount12),
  (13, .texCount13), (14, .texCount14), (15, .texCount15), (16, .texCount16), (17, .texCount17), (18, .texCount18)]

/-- The compression flags (30_encoding.md R167). -/
def flagRows : List (Nat × Instr) := [
  (0x1, .texCflagWhite), (0x2, .texCflagConstA4), (0x4, .texCflagConstA8), (0x8, .texCflagPlain)]

/-- The FourCC values (43_texture_formats.md R380). -/
def fourccRows : List (Nat × Instr) := [
  (0x31545844, .fourccDxt1), (0x32545844, .fourccDxt2), (0x33545844, .fourccDxt3),
  (0x34545844, .fourccDxt4), (0x35545844, .fourccDxt5), (0x41545844, .fourccDxta),
  (0x4c545844, .fourccDxtl), (0x4e545844, .fourccDxtn), (0x58434433, .fourcc3dcx)]

/-- The instruction a table holds under a number. -/
def findRow (v : Nat) : List (Nat × Instr) → Option Instr
  | [] => none
  | (k, i) :: rest => if v = k then some i else findRow v rest

/-- The instruction a table holds under a number, or the rejection. -/
def rowOr (reject : Reject) (table : List (Nat × Instr)) (v : Nat) : Except Reject Instr :=
  match findRow v table with
  | some i => .ok i
  | none => .error reject

/-- A command word: every word is a command or illegal (30_encoding.md R141, R142). -/
def decodeCommand (v : Word) : Instr :=
  (findRow v.toNat commandRows).getD (.illegalCommand v)

/-- A descriptor entry: `c[4:0] = 0` is a skip, else an add (30_encoding.md R154). -/
def decodeDescriptor (c : Nat) : Except Reject Instr :=
  if 256 ≤ c then .error .descriptorNotByte
  else if c % 32 = 0 then .ok (.datDescSkip (BitVec.ofNat 3 (c / 32)))
  else .ok (.datDescAdd (BitVec.ofNat 3 (c / 32)) (BitVec.ofNat 5 (c % 32)))

/-- A SYM symbol: a literal below 0x100, a length code 0x100..0x11C (30_encoding.md R155). -/
def decodeSymSymbol (s : Nat) : Except Reject Instr :=
  if s < 256 then .ok (.symLiteral (BitVec.ofNat 8 s)) else rowOr .symbolOutOfAlphabet lengthRows s

/-- A COPY symbol: a distance code 0..33, or an invalid one up to 284 (30_encoding.md R158). -/
def decodeCopySymbol (d : Nat) : Except Reject Instr :=
  if d < 34 then rowOr .distanceOutOfAlphabet distanceRows d
  else if d ≤ 284 then .ok (.copyInvalid (BitVec.ofNat 16 d))
  else .error .distanceOutOfAlphabet

/-- THE DECODER: the instruction that the bits `v` are at a place, total, rejecting by name. -/
def decode (kind : ElemKind) (v : Nat) : Except Reject Instr :=
  match kind with
  | .command => .ok (decodeCommand (BitVec.ofNat 32 v))
  | .datHeader => .ok (.datHeader (BitVec.ofNat 4 (v / 16)) (BitVec.ofNat 4 (v % 16)))
  | .datNSymbols => .ok (.datNSymbols (BitVec.ofNat 16 v))
  | .descriptor => decodeDescriptor v
  | .maxCount => .ok (.datMaxCount (BitVec.ofNat 4 v))
  | .symSymbol => decodeSymSymbol v
  | .copySymbol => decodeCopySymbol v
  | .texHeader => .ok (.texHeader (BitVec.ofNat 32 v) (BitVec.ofNat 32 (v / 2 ^ 32)))
  | .texFlag => rowOr .noFlagBit flagRows v
  | .texCount => rowOr .countOutOfDictionary countRows v
  | .whiteRun => .ok (.texWhiteRun (v % 2 == 1))
  | .alphaStart4 => .ok (.texAlphaStart false (BitVec.ofNat 8 (v % 16)))
  | .alphaStart8 => .ok (.texAlphaStart true (BitVec.ofNat 8 v))
  | .alphaRun => .ok (.texAlphaRun (v / 2 % 2 == 1) (v % 2 == 1))
  | .plainStart => .ok (.texPlainStart (BitVec.ofNat 24 v))
  | .plainRun => .ok (.texPlainRun (v % 2 == 1))
  | .residueWord => .ok (.texResidueWord (BitVec.ofNat 32 v))
  | .fourcc => rowOr .unknownFourcc fourccRows v

/-- A bit as a number. -/
def bitNat (b : Bool) : Nat := if b then 1 else 0

/-- THE ENCODER: the place of an instruction and its bits there, from the same tables of the spec. -/
def encode : Instr → ElemKind × Nat
  | .nop => (.command, 0x0)
  | .inflateDat => (.command, 0x1)
  | .inflateTexture => (.command, 0x2)
  | .texFormat => (.command, 0x3)
  | .brInit => (.command, 0x10)
  | .brPeek => (.command, 0x11)
  | .brRead => (.command, 0x12)
  | .brDrop => (.command, 0x13)
  | .brTake => (.command, 0x14)
  | .hbClear => (.command, 0x20)
  | .hbAdd => (.command, 0x21)
  | .hbBuild => (.command, 0x22)
  | .htDecode => (.command, 0x23)
  | .htCode => (.command, 0x24)
  | .illegalCommand word => (.command, word.toNat)
  | .datHeader method wraw => (.datHeader, method.toNat * 16 + wraw.toNat)
  | .datNSymbols count => (.datNSymbols, count.toNat)
  | .datDescSkip r => (.descriptor, r.toNat * 32)
  | .datDescAdd r len => (.descriptor, r.toNat * 32 + len.toNat)
  | .datMaxCount raw => (.maxCount, raw.toNat)
  | .symLiteral byte => (.symSymbol, byte.toNat)
  | .symLen0 => (.symSymbol, 0x100)
  | .symLen1 => (.symSymbol, 0x101)
  | .symLen2 => (.symSymbol, 0x102)
  | .symLen3 => (.symSymbol, 0x103)
  | .symLen4 => (.symSymbol, 0x104)
  | .symLen5 => (.symSymbol, 0x105)
  | .symLen6 => (.symSymbol, 0x106)
  | .symLen7 => (.symSymbol, 0x107)
  | .symLen8 => (.symSymbol, 0x108)
  | .symLen9 => (.symSymbol, 0x109)
  | .symLen10 => (.symSymbol, 0x10a)
  | .symLen11 => (.symSymbol, 0x10b)
  | .symLen12 => (.symSymbol, 0x10c)
  | .symLen13 => (.symSymbol, 0x10d)
  | .symLen14 => (.symSymbol, 0x10e)
  | .symLen15 => (.symSymbol, 0x10f)
  | .symLen16 => (.symSymbol, 0x110)
  | .symLen17 => (.symSymbol, 0x111)
  | .symLen18 => (.symSymbol, 0x112)
  | .symLen19 => (.symSymbol, 0x113)
  | .symLen20 => (.symSymbol, 0x114)
  | .symLen21 => (.symSymbol, 0x115)
  | .symLen22 => (.symSymbol, 0x116)
  | .symLen23 => (.symSymbol, 0x117)
  | .symLen24 => (.symSymbol, 0x118)
  | .symLen25 => (.symSymbol, 0x119)
  | .symLen26 => (.symSymbol, 0x11a)
  | .symLen27 => (.symSymbol, 0x11b)
  | .symLen28 => (.symSymbol, 0x11c)
  | .copyDist0 => (.copySymbol, 0)
  | .copyDist1 => (.copySymbol, 1)
  | .copyDist2 => (.copySymbol, 2)
  | .copyDist3 => (.copySymbol, 3)
  | .copyDist4 => (.copySymbol, 4)
  | .copyDist5 => (.copySymbol, 5)
  | .copyDist6 => (.copySymbol, 6)
  | .copyDist7 => (.copySymbol, 7)
  | .copyDist8 => (.copySymbol, 8)
  | .copyDist9 => (.copySymbol, 9)
  | .copyDist10 => (.copySymbol, 10)
  | .copyDist11 => (.copySymbol, 11)
  | .copyDist12 => (.copySymbol, 12)
  | .copyDist13 => (.copySymbol, 13)
  | .copyDist14 => (.copySymbol, 14)
  | .copyDist15 => (.copySymbol, 15)
  | .copyDist16 => (.copySymbol, 16)
  | .copyDist17 => (.copySymbol, 17)
  | .copyDist18 => (.copySymbol, 18)
  | .copyDist19 => (.copySymbol, 19)
  | .copyDist20 => (.copySymbol, 20)
  | .copyDist21 => (.copySymbol, 21)
  | .copyDist22 => (.copySymbol, 22)
  | .copyDist23 => (.copySymbol, 23)
  | .copyDist24 => (.copySymbol, 24)
  | .copyDist25 => (.copySymbol, 25)
  | .copyDist26 => (.copySymbol, 26)
  | .copyDist27 => (.copySymbol, 27)
  | .copyDist28 => (.copySymbol, 28)
  | .copyDist29 => (.copySymbol, 29)
  | .copyDist30 => (.copySymbol, 30)
  | .copyDist31 => (.copySymbol, 31)
  | .copyDist32 => (.copySymbol, 32)
  | .copyDist33 => (.copySymbol, 33)
  | .copyInvalid d => (.copySymbol, d.toNat)
  | .texHeader size flags => (.texHeader, size.toNat + flags.toNat * 2 ^ 32)
  | .texCflagWhite => (.texFlag, 1)
  | .texCflagConstA4 => (.texFlag, 2)
  | .texCflagConstA8 => (.texFlag, 4)
  | .texCflagPlain => (.texFlag, 8)
  | .texCount1 => (.texCount, 1)
  | .texCount18 => (.texCount, 18)
  | .texCount2 => (.texCount, 2)
  | .texCount3 => (.texCount, 3)
  | .texCount4 => (.texCount, 4)
  | .texCount5 => (.texCount, 5)
  | .texCount6 => (.texCount, 6)
  | .texCount7 => (.texCount, 7)
  | .texCount8 => (.texCount, 8)
  | .texCount9 => (.texCount, 9)
  | .texCount10 => (.texCount, 10)
  | .texCount11 => (.texCount, 11)
  | .texCount12 => (.texCount, 12)
  | .texCount13 => (.texCount, 13)
  | .texCount14 => (.texCount, 14)
  | .texCount15 => (.texCount, 15)
  | .texCount16 => (.texCount, 16)
  | .texCount17 => (.texCount, 17)
  | .texWhiteRun value => (.whiteRun, bitNat value)
  | .texAlphaStart wide alpha => (if wide then .alphaStart8 else .alphaStart4, alpha.toNat)
  | .texAlphaRun value notNull => (.alphaRun, bitNat value * 2 + bitNat notNull)
  | .texPlainStart colour => (.plainStart, colour.toNat)
  | .texPlainRun value => (.plainRun, bitNat value)
  | .texResidueWord word => (.residueWord, word.toNat)
  | .fourccDxt1 => (.fourcc, 0x31545844)
  | .fourccDxt2 => (.fourcc, 0x32545844)
  | .fourccDxt3 => (.fourcc, 0x33545844)
  | .fourccDxt4 => (.fourcc, 0x34545844)
  | .fourccDxt5 => (.fourcc, 0x35545844)
  | .fourccDxta => (.fourcc, 0x41545844)
  | .fourccDxtl => (.fourcc, 0x4c545844)
  | .fourccDxtn => (.fourcc, 0x4e545844)
  | .fourcc3dcx => (.fourcc, 0x58434433)

/-- The place the opcode table's number of a row is read at, for a row given by its bits alone: the table gives no place,
and the same bits occur at several. 32 bits are a command word unless they are a FourCC; 16 bits are a tree symbol
(the table's mask 0x1FF), a distance code below 34, else a SYM symbol; 8 bits are a compression flag if one of them alone is
set among bits 3:0, else a descriptor entry; 24 bits are a plain colour and 64 bits a texture header.
Log entry 16. -/
def tableKind (nbits w : Nat) : Option (ElemKind × Nat) :=
  if nbits = 32 then
    if (findRow w fourccRows).isSome then some (.fourcc, w) else some (.command, w)
  else if nbits = 16 then
    if w % 512 < 34 then some (.copySymbol, w % 512) else some (.symSymbol, w % 512)
  else if nbits = 8 then
    if (findRow w flagRows).isSome then some (.texFlag, w) else some (.descriptor, w)
  else if nbits = 24 then some (.plainStart, w)
  else if nbits = 64 then some (.texHeader, w)
  else none

/-- The instruction the decoder reads from a row's bits as the opcode table numbers them. -/
def decodeTableWord (nbits w : Nat) : Option Instr :=
  match tableKind nbits w with
  | some (kind, v) => (decode kind v).toOption
  | none => none

end Sys2Proof
end

