-- ==== Sys2Proof/Machine/Memory.lean ====
section
/-! DEFINITION. System memory: 2^32 bytes (20_memory.md R100), held as the list of the cells that differ from what an
unlisted address reads as, addresses strictly rising. Every multi-byte access is little-endian (R104 to R106). -/

namespace Sys2Proof.Machine

/-- System memory in its one canonical form. -/
abbrev Memory := List Host.Cell

/-- What a byte nothing has written reads as. DESIGN CHOICE: the spec gives memory no contents. Log entry 4. -/
def unlistedByte : Byte := 0

/-- The byte listed under a key. -/
def lookupByte : Memory → Nat → Byte
  | [], _ => unlistedByte
  | (k, b) :: rest, a => if k = a then b else lookupByte rest a

/-- Put a byte under a key, keeping the canonical form. -/
def storeByte : Memory → Nat → Byte → Memory
  | [], a, b => if b = unlistedByte then [] else [(a, b)]
  | (k, c) :: rest, a, b =>
    if a < k then (if b = unlistedByte then (k, c) :: rest else (a, b) :: (k, c) :: rest)
    else if a = k then (if b = unlistedByte then rest else (a, b) :: rest)
    else (k, c) :: storeByte rest a b

/-- The canonical form: addresses strictly rising and below 2^32, no entry equal to an unlisted byte. -/
def Memory.wf : Memory → Bool
  | [] => true
  | (k, b) :: rest =>
    decide (k < 2 ^ 32) && b != unlistedByte && rest.all (fun c => decide (k < c.1)) && Memory.wf rest

/-- MemRead(a, 1) (20_memory.md R104). -/
def Memory.read (m : Memory) (a : Word) : Byte := lookupByte m a.toNat

/-- MemWrite(a, 1, b) (20_memory.md R105). -/
def Memory.write (m : Memory) (a : Word) (b : Byte) : Memory := storeByte m a.toNat b

/-- MemRead(a, 4), little-endian (20_memory.md R104, R106). -/
def Memory.readWord (m : Memory) (a : Word) : Word :=
  m.read (a + 3) ++ m.read (a + 2) ++ m.read (a + 1) ++ m.read a

/-- MemWrite(a, n, v), little-endian: byte `v[8j+7 : 8j]` goes to `a + j` (20_memory.md R105). -/
def Memory.writeLE (m : Memory) (a : Word) : Nat → Nat → Memory
  | 0, _ => m
  | n + 1, v => Memory.writeLE (m.write a (BitVec.ofNat 8 v)) (a + 1) n (v / 256)

/-- Write a list of bytes at rising addresses. -/
def Memory.writeBytes (m : Memory) (a : Word) : List Byte → Memory
  | [] => m
  | b :: rest => Memory.writeBytes (m.write a b) (a + 1) rest

/-- A memory whose bytes at `n` addresses from `a` are given by a function. -/
def Memory.fill (f : Nat → Byte) (m : Memory) (a : Word) : Nat → Memory
  | 0 => m
  | n + 1 => Memory.fill f (m.write a (f a.toNat)) (a + 1) n

/-- Give each address of a list, where `pick` is false, its byte of the older memory. -/
def Memory.blend (pick : Nat → Bool) (old : Memory) (m : Memory) : List Nat → Memory
  | [] => m
  | a :: rest => Memory.blend pick old (if pick a then m else storeByte m a (lookupByte old a)) rest

end Sys2Proof.Machine
end

