-- ==== Sys2Proof/Machine/Status.lean ====
section
/-! DEFINITION. The codes a command reports (60_exceptions.md R511, R521) and the STATUS bits a state holds. -/

namespace Sys2Proof.Machine

/-- The argument errors of 60_exceptions.md R511. -/
inductive ErrCode where
  | inputBufferEmpty
  | outputBufferEmpty
  | outputBufferTooSmall
  | invalidFourcc
  | badCommand
  | badArgument
  | regionWrap
  | bufferOverlap
  | tooManyBlocks
deriving DecidableEq, Repr

/-- STATUS[15:8] of an argument error (60_exceptions.md R511). -/
def errNumber : ErrCode → Byte
  | .inputBufferEmpty => 1
  | .outputBufferEmpty => 2
  | .outputBufferTooSmall => 3
  | .invalidFourcc => 4
  | .badCommand => 5
  | .badArgument => 6
  | .regionWrap => 7
  | .bufferOverlap => 8
  | .tooManyBlocks => 9

/-- The stops of 60_exceptions.md R521 (COMPLETE is the absence of one). -/
inductive StopCode where
  | exhausted
  | invalidCode
  | invalidDistanceCode
  | distanceBeforeStart
  | badSymbolCount
  | descriptorOverrun
  | oversubscribed
deriving DecidableEq, Repr

/-- STATUS[23:16] of a stop (60_exceptions.md R521). -/
def stopNumber : StopCode → Byte
  | .exhausted => 1
  | .invalidCode => 2
  | .invalidDistanceCode => 3
  | .distanceBeforeStart => 4
  | .badSymbolCount => 5
  | .descriptorOverrun => 6
  | .oversubscribed => 7

/-- STATUS without BUSY, which is the job position's (10_state.md R34, log entry 17). -/
structure Status where
  done : Bool
  ign : Bool
  err : Byte
  stop : Byte
deriving DecidableEq, Repr

end Sys2Proof.Machine
end

