-- ==== Sys2Proof/Machine/Reader.lean ====
section
/-! DEFINITION. The BitReader (10_state.md R50 to R54) and its internal operations (40_bitreader.md R200 to R208). -/

namespace Sys2Proof.Machine

/-- The skip policies (10_state.md R53). -/
inductive SkipPolicy where
  | noSkip
  | everyNth (n : BitVec 16)
  | every64K
deriving DecidableEq, Repr

/-- The policy a 16-bit skip code selects (30_encoding.md R144). -/
def skipPolicyOf (code : BitVec 16) : SkipPolicy :=
  if code = 0 then .noSkip else if code = 0xFFFF then .every64K else .everyNth code

/-- The 16-bit skip code of a policy (10_state.md R53). -/
def skipCodeOf : SkipPolicy → BitVec 16
  | .noSkip => 0
  | .everyNth n => n
  | .every64K => 0xFFFF

/-- The one BitReader of the core (10_state.md R50). `win` is `head · 2^32 + buffer`, `bits` is `bits_available`. -/
structure Reader where
  start : Word
  cursor : Word
  remaining : Word
  skip : SkipPolicy
  win : BitVec 64
  bits : Nat
deriving DecidableEq, Repr

/-- The exhausted reader of reset (10_state.md R54). -/
def resetReader : Reader :=
  { start := 0, cursor := 0, remaining := 0, skip := .noSkip, win := 0, bits := 0 }

/-- The word `head` (10_state.md R50). -/
def Reader.head (r : Reader) : Word := r.win.extractLsb' 32 32

/-- The word `buffer` (10_state.md R50). -/
def Reader.buffer (r : Reader) : Word := r.win.extractLsb' 0 32

/-- SKIP_APPLIES(p): the word at byte offset `p` is to be skipped (40_bitreader.md R202). -/
def skipApplies (policy : SkipPolicy) (p : Nat) : Bool :=
  match policy with
  | .noSkip => false
  | .everyNth n => (p / 4 + 1) % n.toNat == 0 && p / 4 != 0
  | .every64K => decide (0 < p) && (p + 12) % 65536 == 0

/-- Step over one word without loading it. -/
def Reader.stepOver (r : Reader) : Reader :=
  { r with cursor := r.cursor + 4, remaining := r.remaining - 4 }

/-- Step 1 of PULL: the skip, made only when a whole word remains (40_bitreader.md R201). -/
def Reader.skipWord (r : Reader) : Reader :=
  if skipApplies r.skip r.cursor.toNat && decide (4 ≤ r.remaining.toNat) then r.stepOver else r

/-- Merge a word behind the valid bits (40_bitreader.md R203). -/
def Reader.merge (r : Reader) (v : Word) : Reader :=
  { r with win := r.win ||| (v.setWidth 64 <<< (32 - r.bits)), bits := r.bits + 32 }

/-- Steps 2 and 3 of PULL: load one word if one remains (40_bitreader.md R201). -/
def Reader.loadWord (m : Memory) (r : Reader) : Reader :=
  if r.remaining.toNat < 4 then r else r.stepOver.merge (m.readWord (r.start + r.cursor))

/-- PULL() (40_bitreader.md R201). -/
def Reader.pull (m : Memory) (r : Reader) : Reader := Reader.loadWord m r.skipWord

/-- READER_INIT(a, len, code) (40_bitreader.md R200). -/
def readerInit (m : Memory) (a len : Word) (code : BitVec 16) : Reader :=
  Reader.pull m { start := a, cursor := 0, remaining := len, skip := skipPolicyOf code, win := 0, bits := 0 }

/-- PEEK(k) for k ≤ 32: `win[63 : 64 - k]` (40_bitreader.md R204). -/
def Reader.peek (r : Reader) (k : Nat) : Word := (r.win >>> (64 - k)).setWidth 32

/-- Shift k bits out of the window. -/
def Reader.shiftOut (r : Reader) (k : Nat) : Reader :=
  { r with win := r.win <<< k, bits := r.bits - k }

/-- DROP(k) for k ≤ 32 (40_bitreader.md R205). -/
def Reader.drop (m : Memory) (r : Reader) (k : Nat) : Except StopCode Reader :=
  if r.bits < k then .error .exhausted
  else if r.bits - k < 32 then .ok (Reader.pull m (r.shiftOut k))
  else .ok (r.shiftOut k)

/-- READ(k) for k ≤ 32: PEEK that stops on a short window (40_bitreader.md R206). -/
def Reader.read (r : Reader) (k : Nat) : Except StopCode Word :=
  if r.bits < k then .error .exhausted else .ok (r.peek k)

/-- TAKE(k) for k ≤ 32: READ then DROP (40_bitreader.md R207). -/
def Reader.take (m : Memory) (r : Reader) (k : Nat) : Except StopCode (Word × Reader) :=
  match r.read k with
  | .error e => .error e
  | .ok v =>
    match Reader.drop m r k with
    | .error e => .error e
    | .ok r' => .ok (v, r')

/-- ALIGN32(): DROP(n mod 32), which never stops (40_bitreader.md R208). -/
def Reader.align32 (m : Memory) (r : Reader) : Reader :=
  match Reader.drop m r (r.bits % 32) with
  | .ok r' => r'
  | .error _ => r

/-- The final bit of a dat job: DROP(1) if the window holds a bit (42_dat_inflater.md R341). -/
def Reader.dropFinalBit (m : Memory) (r : Reader) : Reader :=
  match Reader.drop m r 1 with
  | .ok r' => r'
  | .error _ => r

end Sys2Proof.Machine
end

