-- ==== Sys2Proof/Machine/Huffman.lean ====
section
/-! DEFINITION. The Huffman builder, the trees, BUILD and DECODE (10_state.md R55 to R59, 41_huffman.md R250 to R282). -/

namespace Sys2Proof.Machine

/-- A present hash entry: symbol and code length (10_state.md R55). An absent one is `none`. -/
structure HashEntry where
  symbol : Symbol
  bits : Nat
deriving DecidableEq, Repr

/-- A populated comparison entry (10_state.md R56). -/
structure LongEntry where
  compare : Word
  bits : Nat
  offset : Nat
deriving DecidableEq, Repr

/-- The code the build assigned to a symbol (10_state.md R57). -/
structure CodeEntry where
  symbol : Symbol
  code : Word
  length : Nat
deriving DecidableEq, Repr

/-- A Huffman tree (10_state.md R55 to R57). `hash` has 256 entries; `n_long` and `symbol_table_len` are the lengths of
`long` and `symbols`. -/
structure Tree where
  hash : List (Option HashEntry)
  long : List LongEntry
  symbols : List Symbol
  codes : List CodeEntry
deriving DecidableEq, Repr

/-- The empty tree (10_state.md R58). -/
def emptyTree : Tree := { hash := List.replicate 256 none, long := [], symbols := [], codes := [] }

/-- The builder: `list[L]` for L in 1..31, in insertion order (10_state.md R59). -/
structure Builder where
  lists : List (List Symbol)
deriving DecidableEq, Repr

/-- B_CLEAR() (41_huffman.md R252). -/
def emptyBuilder : Builder := { lists := List.replicate 31 [] }

/-- `list[L]` (41_huffman.md R250). -/
def Builder.symbolsOf (b : Builder) (len : Nat) : List Symbol :=
  if len = 0 then [] else b.lists.getD (len - 1) []

/-- The presence bit of a symbol (10_state.md R59, log entry 20). -/
def Builder.present (b : Builder) (s : Symbol) : Bool := b.lists.any (fun l => l.contains s)

/-- B_EMPTY() (41_huffman.md R253). -/
def Builder.noSymbols (b : Builder) : Bool := b.lists.all (fun l => l.isEmpty)

/-- B_ADD(s, L) (41_huffman.md R251). -/
def Builder.add (b : Builder) (s : Symbol) (len : Nat) : Builder :=
  if len = 0 then b else { lists := b.lists.set (len - 1) (b.symbolsOf len ++ [s]) }

/-- Overwrite `count` entries of a table from index `start`. -/
def fillTable {α : Type} (v : α) : Nat → Nat → List α → List α
  | _, _, [] => []
  | 0, 0, l => l
  | 0, count + 1, _ :: l => v :: fillTable v 0 count l
  | start + 1, count, x :: l => x :: fillTable v start count l

/-- Entering a length: `code = (code << 1) + 1` (41_huffman.md R263). -/
def nextLengthCode (code : Word) : Word := (code <<< 1) + 1

/-- Place a short code: `2^(8 - L)` hash entries from `code << (8 - L)` (41_huffman.md R264, R265). -/
def Tree.addShort (t : Tree) (len : Nat) (s : Symbol) (code : Word) : Tree :=
  { t with
    hash := fillTable (some { symbol := s, bits := len }) (code.toNat * 2 ^ (8 - len)) (2 ^ (8 - len)) t.hash
    codes := t.codes ++ [{ symbol := s, code := code, length := len }] }

/-- Place a long code's symbol (41_huffman.md R266, R265). -/
def Tree.addLong (t : Tree) (len : Nat) (s : Symbol) (code : Word) : Tree :=
  { t with
    symbols := t.symbols ++ [s]
    codes := t.codes ++ [{ symbol := s, code := code, length := len }] }

/-- Close a populated long length: its comparison entry (41_huffman.md R266). -/
def Tree.closeLength (t : Tree) (len : Nat) (code : Word) : Tree :=
  { t with
    long := t.long ++ [{ compare := (code + 1) <<< (32 - len), bits := len, offset := t.symbols.length - 1 }] }

/-- The symbols of one length, in insertion order, each taking the current code; a code value of 2^L or more stops
(41_huffman.md R260, R263, R267). -/
def placeSymbols (len : Nat) : List Symbol → Tree → Word → Except StopCode (Tree × Word)
  | [], t, code => .ok (t, code)
  | s :: rest, t, code =>
    if 2 ^ len ≤ code.toNat then .error .oversubscribed
    else placeSymbols len rest (if len ≤ 8 then t.addShort len s code else t.addLong len s code) (code - 1)

/-- One length of the build (41_huffman.md R260). -/
def buildLength (b : Builder) (len : Nat) (t : Tree) (code : Word) : Except StopCode (Tree × Word) :=
  match placeSymbols len (b.symbolsOf len) t (nextLengthCode code) with
  | .error e => .error e
  | .ok (t', code') =>
    if len ≤ 8 || (b.symbolsOf len).isEmpty then .ok (t', code') else .ok (t'.closeLength len code', code')

/-- The lengths of a list, one after the other. -/
def buildLengths (b : Builder) : List Nat → Tree → Word → Except StopCode Tree
  | [], t, _ => .ok t
  | len :: rest, t, code =>
    match buildLength b len t code with
    | .error e => .error e
    | .ok (t', code') => buildLengths b rest t' code'

/-- BUILD(B) (41_huffman.md R260): `nonempty` is `!b.noSymbols`. -/
def build (b : Builder) : Except StopCode Tree :=
  if b.noSymbols then .ok emptyTree else buildLengths b (List.range' 1 31) emptyTree 0

/-- The builder after adding (symbol, length) pairs in order. -/
def builderOf (pairs : List (Symbol × Nat)) : Builder :=
  pairs.foldl (fun b p => b.add p.1 p.2) emptyBuilder

/-- The tree BUILD makes, or the empty tree where it stops (41_huffman.md R267). -/
def treeOrEmpty : Except StopCode Tree → Tree
  | .ok t => t
  | .error _ => emptyTree

/-- The insertion list of TEX_DICT (41_huffman.md R280). -/
def texDictPairs : List (Symbol × Nat) :=
  [(0x01, 1), (0x12, 2), (0x11, 6), (0x10, 6), (0x0F, 6), (0x0E, 6), (0x0D, 6), (0x0C, 6), (0x0B, 6), (0x0A, 6),
   (0x09, 6), (0x08, 6), (0x07, 6), (0x06, 6), (0x05, 6), (0x04, 6), (0x03, 6), (0x02, 6)]

/-- The constant tree TEX_DICT (41_huffman.md R280, R282). -/
def texDict : Tree := treeOrEmpty (build (builderOf texDictPairs))

/-- A DAT_DICT list's pairs with their byte symbols widened (41_huffman.md R281). -/
def dictPairs (pairs : List (Byte × Nat)) : List (Symbol × Nat) := pairs.map (fun p => (p.1.setWidth 16, p.2))

/-- The tree of a DAT_DICT list (41_huffman.md R281). -/
def dictTree (pairs : List (Byte × Nat)) : Tree := treeOrEmpty (build (builderOf (dictPairs pairs)))

/-- The hash entry of an 8-bit prefix. -/
def Tree.hashEntry (t : Tree) (h : Nat) : Option HashEntry := t.hash.getD h none

/-- The first comparison entry, in ascending order, with `v ≥ code_compare` (41_huffman.md R271). -/
def findLong (v : Word) : List LongEntry → Option LongEntry
  | [] => none
  | e :: rest => if e.compare.toNat ≤ v.toNat then some e else findLong v rest

/-- The symbol of a long code (41_huffman.md R271). -/
def Tree.longSymbol (t : Tree) (e : LongEntry) (v : Word) : Symbol :=
  t.symbols.getD (e.offset - ((v - e.compare) >>> (32 - e.bits)).toNat) 0

/-- The symbol and length the bits of a window start, without consuming them: the hash first, then the comparison search
(41_huffman.md R270, R271). `h` is PEEK(8), `v` is PEEK(32). -/
def Tree.resolve (t : Tree) (h : Nat) (v : Word) : Option (Symbol × Nat) :=
  match t.hashEntry h with
  | some e => some (e.symbol, e.bits)
  | none =>
    match findLong v t.long with
    | some e => some (t.longSymbol e v, e.bits)
    | none => none

/-- DECODE(T) (41_huffman.md R270 to R273). -/
def decodeTree (m : Memory) (t : Tree) (r : Reader) : Except StopCode (Symbol × Nat × Reader) :=
  match t.resolve (r.peek 8).toNat (r.peek 32) with
  | none => .error .invalidCode
  | some (s, len) =>
    match Reader.drop m r len with
    | .error e => .error e
    | .ok r' => .ok (s, len, r')

/-- The code the tree holds for a symbol (10_state.md R57, 41_huffman.md R276). -/
def findCode (s : Symbol) : List CodeEntry → Option CodeEntry
  | [] => none
  | e :: rest => if e.symbol = s then some e else findCode s rest

end Sys2Proof.Machine
end

