-- ==== Sys2Proof/Machine/State.lean ====
section
/-! DEFINITION. The state of the machine: plain data, everything the spec names (10_state.md R30 to R72), and the host's
transactions still to come. -/

namespace Sys2Proof.Machine

/-- The two trees a tree descriptor can build (42_dat_inflater.md R325). -/
inductive DatTree where
  | sym
  | copy
deriving DecidableEq, Repr

/-- Where the core stands: idle, or before the next element of a running job (42_dat_inflater.md R320,
44_texture_inflater.md R400). STATUS.BUSY is 1 exactly while this is not `idle` (10_state.md R34, log entry 17). -/
inductive Phase where
  | idle
  | datHeader
  | datNSymbols (tree : DatTree)
  | datDescriptor (tree : DatTree)
  | datMaxCount
  | datItem
  | datDistance
  | texFourcc
  | texHeader
  | texFlag
  | texAlphaStart (wide : Bool)
  | texPlainStart
  | texCount
  | texRun
  | texAlphaResidue
  | texColourResidue
deriving DecidableEq, Repr

/-- The running texture pass and what its runs write (44_texture_inflater.md R410, R415, R430). -/
inductive Pass where
  | white
  | alpha (byte : Byte)
  | plain (block : BitVec 64)
deriving DecidableEq, Repr

/-- The dat inflater's transient state (10_state.md R71) with the values its pseudocode holds between two stream elements. -/
structure DatState where
  outPos : Nat
  w : Nat
  count : Nat
  maxCount : Nat
  remaining : Int
  copyLen : Nat
deriving DecidableEq, Repr

/-- The texture bitmaps (10_state.md R70) and the values the pseudocode of 44_texture_inflater.md R400, R405 and R445 holds
between two stream elements: the compression flags whose pass has not started, the pass, the block `pos` the pass or the
residue stands at, the count of the run, whether the block's second residue word is next. -/
structure TexState where
  colorSet : List Bool
  alphaSet : List Bool
  pending : BitVec 4
  pass : Pass
  pos : Nat
  code : Nat
  second : Bool
deriving DecidableEq, Repr

/-- The texture format record (10_state.md R72). -/
structure Format where
  flags : BitVec 10
  pixelBits : Nat
  width : Word
  height : Word
  nBlocks : Nat
  bytesPerBlock : Nat
  twoComponents : Bool
  bytesPerComponent : Nat
deriving DecidableEq, Repr

/-- What the outside does to the core: a bus access to the register window, by its offset in the window (30_encoding.md
R185) or by its host address (20_memory.md R100, log entry 8), with its size in bytes; an access to system memory; the
reset input asserted or released (70_reset_and_hazards.md R600, R611, R620). -/
inductive HostOp where
  | write (offset bytes : Nat) (value : Word)
  | read (offset bytes : Nat)
  | writeAt (addr : Word) (bytes : Nat) (value : Word)
  | readAt (addr : Word) (bytes : Nat)
  | memWrite (addr : Word) (value : Byte)
  | memRead (addr : Word)
  | reset (asserted : Bool)
deriving DecidableEq, Repr

/-- A transaction still to come: if a job is running, it arrives after `wait` more steps of the job. Log entry 2. -/
structure HostEvent where
  wait : Nat
  op : HostOp
deriving DecidableEq, Repr

/-- The machine's state. -/
structure State where
  /-- CTRL.IE (10_state.md R32). -/
  ie : Bool
  /-- The latched command word (45_control.md R470). -/
  cmd : Word
  /-- STATUS but for BUSY (10_state.md R34). -/
  status : Status
  /-- IN_BASE (10_state.md R36). -/
  inBase : Word
  /-- IN_LEN (10_state.md R37). -/
  inLen : Word
  /-- OUT_BASE (10_state.md R38). -/
  outBase : Word
  /-- OUT_LEN (10_state.md R39). -/
  outLen : Word
  /-- TEX_WIDTH (10_state.md R40). -/
  texWidth : Word
  /-- TEX_HEIGHT (10_state.md R41). -/
  texHeight : Word
  /-- TEX_FOURCC (10_state.md R42). -/
  texFourcc : Word
  /-- ARG0 (10_state.md R43). -/
  arg0 : Word
  /-- ARG1 (10_state.md R44). -/
  arg1 : Word
  /-- RESULT0 (10_state.md R45). -/
  result0 : Word
  /-- RESULT1 (10_state.md R46). -/
  result1 : Word
  /-- OUT_COUNT (10_state.md R47). -/
  outCount : Word
  /-- TEX_CFLAGS (10_state.md R49). -/
  texCflags : Word
  /-- TEX_DSIZE (10_state.md R49). -/
  texDsize : Word
  /-- DAT_HDR[7:0] (10_state.md R49). -/
  datHdr : Byte
  /-- The BitReader (10_state.md R50). -/
  reader : Reader
  /-- The tree SYM (10_state.md R58). -/
  sym : Tree
  /-- The tree COPY (10_state.md R58). -/
  copy : Tree
  /-- The tree DAT_DICT, a constant of the hardware (10_state.md R58, log entry 5). -/
  datDict : Tree
  /-- The builder (10_state.md R59). -/
  builder : Builder
  /-- The position of the running job, `idle` if none runs. -/
  phase : Phase
  /-- The dat inflater's transient state (10_state.md R71). -/
  dat : DatState
  /-- The texture bitmaps and transient state (10_state.md R70). -/
  tex : TexState
  /-- The format record (10_state.md R72). -/
  fmt : Format
  /-- The parameter MAX_BLOCKS (00_scope.md R12). -/
  maxBlocks : Option Nat
  /-- The parameter PLAIN_RGB_ORDER (00_scope.md R12). -/
  rgbOrder : RgbOrder
  /-- The parameter REG_BASE (00_scope.md R12, 20_memory.md R100, log entry 8). -/
  regBase : Word
  /-- The level of the reset input: asserted or not (70_reset_and_hazards.md R600, log entry 23). -/
  inReset : Bool
  /-- System memory (20_memory.md R100). -/
  mem : Memory
  /-- MODEL's own: the memory when the running job was accepted. Log entry 12. -/
  memAtStart : Memory
  /-- MODEL's own: the host touched a region of the running job. Log entry 11. -/
  touched : Bool
  /-- MODEL's own: the host's writes to the running job's input region. Log entry 11. -/
  held : List (Word × Byte)
  /-- MODEL's own: the counter the free values are applied to. Log entry 10. -/
  free : Nat
  /-- MODEL's own: the host's transactions still to come. Log entry 1. -/
  bus : List HostEvent
  /-- MODEL's own: what the last read transaction returned. Log entry 22. -/
  busData : Word
deriving DecidableEq, Repr

/-- Why a step stops with a fault. Neither is raised in a state that meets the invariant of Safety.lean. -/
inductive Fault where
  /-- Raised by the meaning of a stream element or FourCC where the running job (if any) does not expect it: the spec gives
  the element no meaning there. Never raised by `step`. Safe. Log entry 15. -/
  | outOfPhase
  /-- Raised by `step` when a tree yields a symbol outside its alphabet, which no tree the core can build holds. Safe. Log
  entry 14. -/
  | noSuchElement
deriving DecidableEq, Repr

/-- Why a step is refused. -/
inductive Refusal where
  /-- An instruction without a meaning, by its mnemonic. No arm answers it. Safe. -/
  | notModelled (mnemonic : String)
  /-- Raised by `step` for a register access that is not an aligned 32-bit access inside the window: "outside the host's
  contract and a model refuses it" (10_state.md R30). Safe. -/
  | registerAccess (offset bytes : Nat)
deriving DecidableEq, Repr

/-- The dat transient state at reset (70_reset_and_hazards.md R601). -/
def resetDat : DatState := { outPos := 0, w := 0, count := 0, maxCount := 0, remaining := 0, copyLen := 0 }

/-- The texture transient state at reset: bitmaps all 0 (70_reset_and_hazards.md R601). -/
def resetTex : TexState :=
  { colorSet := [], alphaSet := [], pending := 0, pass := .white, pos := 0, code := 0, second := false }

/-- The format record at reset (10_state.md R72). -/
def resetFormat : Format :=
  { flags := 0, pixelBits := 0, width := 0, height := 0, nBlocks := 0, bytesPerBlock := 0, twoComponents := false,
    bytesPerComponent := 0 }

/-- The machine right after reset, the reset input released, every field at the value of 70_reset_and_hazards.md R601. -/
def State.reset : State :=
  { ie := false
    cmd := 0
    status := { done := false, ign := false, err := 0, stop := 0 }
    inBase := 0
    inLen := 0
    outBase := 0
    outLen := 0
    texWidth := 0
    texHeight := 0
    texFourcc := 0
    arg0 := 0
    arg1 := 0
    result0 := 0
    result1 := 0
    outCount := 0
    texCflags := 0
    texDsize := 0
    datHdr := 0
    reader := resetReader
    sym := emptyTree
    copy := emptyTree
    datDict := dictTree Config.datDictPairs
    builder := emptyBuilder
    phase := .idle
    dat := resetDat
    tex := resetTex
    fmt := resetFormat
    maxBlocks := Config.maxBlocks
    rgbOrder := Config.plainRgbOrder
    regBase := Config.regBase
    inReset := false
    mem := []
    memAtStart := []
    touched := false
    held := []
    free := 0
    bus := []
    busData := 0 }

/-- `s` with every piece of state at its reset value and the reset input asserted; the constants of the hardware, the
parameters, memory and the host's side stay (70_reset_and_hazards.md R600, R601, log entry 23). -/
def State.underReset (s : State) : State :=
  { State.reset with
    datDict := s.datDict
    maxBlocks := s.maxBlocks
    rgbOrder := s.rgbOrder
    regBase := s.regBase
    inReset := true
    mem := s.mem
    free := s.free
    bus := s.bus
    busData := s.busData }

end Sys2Proof.Machine
end

