-- ==== Sys2Proof/Machine/Flags.lean ====
section
/-! DEFINITION. Flags: the STATUS word and the interrupt line (10_state.md R34, 60_exceptions.md R530), the compression
flags (30_encoding.md R167) and the format flags (43_texture_formats.md R380). -/

namespace Sys2Proof.Machine

/-- STATUS.BUSY (10_state.md R34). -/
def State.busy (s : State) : Bool := s.phase != .idle

/-- A flag as a word with the flag at a bit. -/
def flagWord (b : Bool) (bit : Nat) : Word := if b then 1 <<< bit else 0

/-- STATUS as the host reads it (10_state.md R34). -/
def State.statusWord (s : State) : Word :=
  flagWord s.busy 0 ||| flagWord s.status.done 1 ||| flagWord s.status.ign 2
    ||| (s.status.err.setWidth 32 <<< 8) ||| (s.status.stop.setWidth 32 <<< 16)

/-- CTRL as the host reads it (10_state.md R32). -/
def State.ctrlWord (s : State) : Word := flagWord s.ie 0

/-- The interrupt line: IRQ = CTRL.IE ∧ STATUS.DONE (60_exceptions.md R530). -/
def State.irq (s : State) : Bool := s.ie && s.status.done

/-- COLOR, 0x10 (43_texture_formats.md R380). -/
def Format.color (f : Format) : Bool := f.flags.getLsbD 4

/-- ALPHA, 0x20 (43_texture_formats.md R380). -/
def Format.alpha (f : Format) : Bool := f.flags.getLsbD 5

/-- DEDUCED_ALPHA, 0x40 (43_texture_formats.md R380). -/
def Format.deducedAlpha (f : Format) : Bool := f.flags.getLsbD 6

/-- PLAIN, 0x80 (43_texture_formats.md R380). -/
def Format.plain (f : Format) : Bool := f.flags.getLsbD 7

/-- BICOLOR, 0x200 (43_texture_formats.md R380). -/
def Format.bicolor (f : Format) : Bool := f.flags.getLsbD 9

/-- Whether the format has an alpha residue (44_texture_inflater.md R445). -/
def Format.hasAlphaResidue (f : Format) : Bool := (f.alpha && !f.deducedAlpha) || f.bicolor

/-- Whether the format has a colour residue (44_texture_inflater.md R446). -/
def Format.hasColourResidue (f : Format) : Bool := f.color || f.bicolor

/-- The offset of colour data in a block (44_texture_inflater.md R442, R446). -/
def Format.colourOffset (f : Format) : Nat := if f.twoComponents then f.bytesPerComponent else 0

/-- TEX_NBLOCKS, saturated (43_texture_formats.md R389). -/
def saturate (n : Nat) : Word := if n < 2 ^ 32 then BitVec.ofNat 32 n else 0xFFFFFFFF

/-- TEX_GEOM (10_state.md R30, 43_texture_formats.md R387). -/
def Format.geomWord (f : Format) : Word :=
  (BitVec.ofNat 8 f.pixelBits).setWidth 32 ||| ((BitVec.ofNat 8 f.bytesPerBlock).setWidth 32 <<< 8)
    ||| ((BitVec.ofNat 8 f.bytesPerComponent).setWidth 32 <<< 16) ||| flagWord f.twoComponents 24

/-- The lowest compression flag whose pass has not started: the passes run in bit order (30_encoding.md R167). -/
def lowestFlag (pending : BitVec 4) : Nat :=
  if pending.getLsbD 0 then 1 else if pending.getLsbD 1 then 2 else if pending.getLsbD 2 then 4
  else if pending.getLsbD 3 then 8 else 0

end Sys2Proof.Machine
end

