-- ==== Sys2Proof/Machine/Operands.lean ====
section
/-! DEFINITION. Operands: the ranges of the argument registers (30_encoding.md R143), the tree a tree id selects (R145),
the region checks of the jobs (60_exceptions.md R512) and the format record of the FourCC (43_texture_formats.md R381 to
R387). -/

namespace Sys2Proof.Machine

/-- ARG0 = k of the BR_* commands is 0..32 (30_encoding.md R143). -/
def State.bitCountOk (s : State) : Bool := decide (s.arg0.toNat ≤ 32)

/-- ARG0 = skip code is 0..0xFFFF (30_encoding.md R143, R144). -/
def State.skipCodeOk (s : State) : Bool := decide (s.arg0.toNat ≤ 0xFFFF)

/-- ARG0 = tree id is 0..3 (30_encoding.md R143, R145). -/
def State.treeIdOk (s : State) : Bool := decide (s.arg0.toNat ≤ 3)

/-- ARG1 = symbol of HT_CODE is 0..0xFFFF (30_encoding.md R143). -/
def State.codeSymbolOk (s : State) : Bool := decide (s.arg1.toNat ≤ 0xFFFF)

/-- HB_BUILD's tree id is 0 or 1 (30_encoding.md R143). -/
def State.buildIdOk (s : State) : Bool := decide (s.arg0.toNat ≤ 1)

/-- HB_ADD's symbol and length (41_huffman.md R275). -/
def State.addArgsOk (s : State) : Bool :=
  decide (s.arg0.toNat < Config.maxSymbols) && decide (1 ≤ s.arg1.toNat)
    && decide (s.arg1.toNat ≤ Config.maxCodeLength) && !s.builder.present (s.arg0.setWidth 16)

/-- The tree a tree id selects (30_encoding.md R145). -/
def State.tree (s : State) (id : Nat) : Tree :=
  if id = 0 then s.sym else if id = 1 then s.copy else if id = 2 then s.datDict else texDict

/-- Put a tree in the place of SYM or COPY. -/
def State.setTree (s : State) (which : DatTree) (t : Tree) : State :=
  match which with
  | .sym => { s with sym := t }
  | .copy => { s with copy := t }

/-- The tree a tree id 0 or 1 writes (30_encoding.md R145). -/
def datTreeOf (id : Nat) : DatTree := if id = 0 then .sym else .copy

/-- A region runs past the top of the address space (20_memory.md R101, R102). -/
def regionWraps (base len : Word) : Bool := decide (2 ^ 32 < base.toNat + len.toNat)

/-- The two regions share a byte, both lengths being non-zero (20_memory.md R103). -/
def State.regionsOverlap (s : State) : Bool :=
  decide (s.inBase.toNat < s.outBase.toNat + s.outLen.toNat) && decide (s.outBase.toNat < s.inBase.toNat + s.inLen.toNat)

/-- CHECK_REGIONS(): the first argument error of a job, in the order of 60_exceptions.md R512. -/
def State.checkRegions (s : State) : Option ErrCode :=
  if s.inLen = 0 then some .inputBufferEmpty
  else if s.outLen = 0 then some .outputBufferEmpty
  else if regionWraps s.inBase s.inLen then some .regionWrap
  else if regionWraps s.outBase s.outLen then some .regionWrap
  else if s.regionsOverlap then some .bufferOverlap
  else none

/-- The recognised FourCCs: flags and pixel_size_bits (43_texture_formats.md R380). -/
def fourccTable : List (Word × BitVec 10 × Nat) := [
  (0x31545844, 0x070, 4),
  (0x32545844, 0x0B0, 8),
  (0x33545844, 0x0B0, 8),
  (0x34545844, 0x0B0, 8),
  (0x35545844, 0x0B0, 8),
  (0x41545844, 0x0A0, 4),
  (0x4C545844, 0x010, 8),
  (0x4E545844, 0x200, 8),
  (0x58434433, 0x200, 8)]

/-- The entry of a FourCC in a table. -/
def findFourcc (f : Word) : List (Word × BitVec 10 × Nat) → Option (BitVec 10 × Nat)
  | [] => none
  | (k, v) :: rest => if f = k then some v else findFourcc f rest

/-- ⌈n / 4⌉. -/
def ceilQuarter (n : Nat) : Nat := (n + 3) / 4

/-- `has_two_components` (43_texture_formats.md R383). -/
def hasTwoComponents (flags : BitVec 10) : Bool := (flags &&& 0xB0 == 0xB0) || flags.getLsbD 9

/-- The format record of a size and a FourCC's flags and pixel_size_bits (43_texture_formats.md R381 to R384, R387). -/
def formatRecord (w h : Word) (flags : BitVec 10) (ps : Nat) : Format :=
  { flags := flags
    pixelBits := ps
    width := w
    height := h
    nBlocks := ceilQuarter w.toNat * ceilQuarter h.toNat
    bytesPerBlock := ps * 2
    twoComponents := hasTwoComponents flags
    bytesPerComponent := ps * 2 / (if hasTwoComponents flags then 2 else 1) }

/-- The size of a texture in bytes, exact (43_texture_formats.md R388). -/
def Format.outputSize (f : Format) : Nat := f.bytesPerBlock * f.nBlocks

/-- n_blocks > MAX_BLOCKS (60_exceptions.md R513); never true of no block, whatever MAX_BLOCKS is. -/
def exceedsBlocks (limit : Option Nat) (n : Nat) : Bool :=
  if n = 0 then false
  else
    match limit with
    | none => false
    | some cap => decide (cap < n)

end Sys2Proof.Machine
end

