-- ==== Sys2Proof/Machine/Ops.lean ====
section
/-! DEFINITION. The shared operations of the meanings: accepting and completing a command (45_control.md R470 to R473),
ending it with an argument error or a stop, which is what this core has for taking an exception (60_exceptions.md R500,
R510, R514, R520, R522), taking a stream field, and ending a job. -/

namespace Sys2Proof.Machine

/-! ### The life of a command -/

/-- Acceptance: DONE, IGN, ERR and STOP cleared, the word latched (45_control.md R470). -/
def State.accept (v : Word) (s : State) : State :=
  { s with cmd := v, status := { done := false, ign := false, err := 0, stop := 0 } }

/-- Completion: ERR and STOP set, BUSY cleared, DONE set, IGN kept (45_control.md R473). -/
def State.complete (err stop : Byte) (s : State) : State :=
  { s with phase := .idle, status := { done := true, ign := s.status.ign, err := err, stop := stop } }

/-- A CMD write while BUSY: ignored, IGN set (45_control.md R471). -/
def State.ignore (s : State) : State := { s with status := { s.status with ign := true } }

/-- A command written to CMD: ignored while BUSY, else accepted and executed (45_control.md R470, R471). -/
def command (v : Word) (run : State → State) (s : State) : Host.Outcome State Fault Refusal :=
  if s.busy then .next s.ignore else .next (run (s.accept v))

/-- A command that ends without error or stop. -/
def State.succeed (s : State) : State := s.complete 0 0

/-- `raise Error(code)` of a command that is not a job: nothing changes but STATUS (60_exceptions.md R510, R514). -/
def State.raiseError (code : ErrCode) (s : State) : State := s.complete (errNumber code) 0

/-- `raise Stop(code)` of a primitive command: what it did before stays (60_exceptions.md R520, R522). -/
def State.raiseStop (code : StopCode) (s : State) : State := s.complete 0 (stopNumber code)

/-! ### The end of a job -/

/-- Write the held host writes (log entry 11). -/
def applyHeld (m : Memory) : List (Word × Byte) → Memory
  | [] => m
  | (a, b) :: rest => applyHeld (m.write a b) rest

/-- What the host left of a job whose regions it touched: the output bytes, OUT_COUNT and STOP are free, the host's own
writes to the input region stand (93_implementation_defined.md U20, log entry 11). -/
def State.disturb (s : State) : State :=
  { s with
    mem := applyHeld (Memory.fill (Config.freeByte s.free) s.mem s.outBase s.outLen.toNat) s.held
    outCount := Config.freeCount s.free
    status := { s.status with stop := Config.freeStop s.free }
    touched := false
    held := []
    free := s.free + 1 }

/-- The end of a job: OUT_COUNT and the completion (45_control.md R473). -/
def State.endJob (err stop : Byte) (count : Word) (s : State) : State :=
  if s.touched then (State.complete err stop { s with outCount := count, memAtStart := [] }).disturb
  else State.complete err stop { s with outCount := count, memAtStart := [] }

/-- `raise Error(code)` of a job: OUT_COUNT = 0 (60_exceptions.md R514). -/
def State.jobError (code : ErrCode) (s : State) : State := s.endJob (errNumber code) 0 0

/-- The acceptance of a job whose argument checks have passed so far. -/
def State.startJob (s : State) : State := { s with memAtStart := s.mem, touched := false, held := [] }

/-- OUT_COUNT of a dat job: the bytes written (42_dat_inflater.md R345). -/
def State.datCount (s : State) : Word := BitVec.ofNat 32 s.dat.outPos

/-- `raise Stop(code)` of a dat job (42_dat_inflater.md R342, R345). -/
def State.datStop (code : StopCode) (s : State) : State := s.endJob 0 (stopNumber code) s.datCount

/-- The normal end of a dat job: the final bit, then COMPLETE (42_dat_inflater.md R341, R345). -/
def State.datFinish (s : State) : State :=
  State.endJob 0 0 s.datCount { s with reader := Reader.dropFinalBit s.mem s.reader }

/-- OUT_COUNT of a texture job: bytes_per_block · n_blocks, after a stop too (44_texture_inflater.md R450). -/
def State.texSize (s : State) : Word := BitVec.ofNat 32 s.fmt.outputSize

/-- `raise Stop(code)` of a texture job (44_texture_inflater.md R450). -/
def State.texStop (code : StopCode) (s : State) : State := s.endJob 0 (stopNumber code) s.texSize

/-- The normal end of a texture job (44_texture_inflater.md R400). -/
def State.texFinish (s : State) : State := s.endJob 0 0 s.texSize

/-! ### Stream elements -/

/-- The meaning of a stream element where its job expects it; elsewhere the element has none (log entry 15). -/
def inPhase (p : Phase) (s : State) (t : State) : Host.Outcome State Fault Refusal :=
  if s.phase = p then .next t else .fault .outOfPhase

/-- TAKE(k) of a dat job, then go on with the value; a stop ends the job (40_bitreader.md R207, 42_dat_inflater.md R342). -/
def datTake (k : Nat) (s : State) (go : Word → State → State) : State :=
  match Reader.take s.mem s.reader k with
  | .ok (v, r) => go v { s with reader := r }
  | .error e => s.datStop e

/-! ### The register window -/

/-- The register at an offset while BUSY = 0 (10_state.md R30, 45_control.md R478). -/
def State.readRegister (s : State) (offset : Nat) : Word :=
  match offset with
  | 0x00 => Config.idValue
  | 0x04 => s.ctrlWord
  | 0x0C => s.statusWord
  | 0x10 => s.inBase
  | 0x14 => s.inLen
  | 0x18 => s.outBase
  | 0x1C => s.outLen
  | 0x20 => s.texWidth
  | 0x24 => s.texHeight
  | 0x28 => s.texFourcc
  | 0x2C => s.arg0
  | 0x30 => s.arg1
  | 0x34 => s.result0
  | 0x38 => s.result1
  | 0x3C => s.outCount
  | 0x40 => s.reader.cursor
  | 0x44 => s.reader.remaining
  | 0x48 => s.reader.head
  | 0x4C => s.reader.buffer
  | 0x50 => (BitVec.ofNat 7 s.reader.bits).setWidth 32
  | 0x54 => (skipCodeOf s.reader.skip).setWidth 32
  | 0x58 => s.reader.start
  | 0x5C => s.fmt.flags.setWidth 32
  | 0x60 => saturate s.fmt.nBlocks
  | 0x64 => s.fmt.geomWord
  | 0x68 => s.texCflags
  | 0x6C => s.texDsize
  | 0x70 => s.datHdr.setWidth 32
  | _ => 0

/-- A host write to STATUS while BUSY = 0: bit 1 clears DONE (45_control.md R475). -/
def State.writeStatus (s : State) (v : Word) : State :=
  if v.getLsbD 1 then { s with status := { s.status with done := false } } else s

/-- A host write to a register other than CMD while BUSY = 0 (45_control.md R475 to R477). -/
def State.writeRegister (s : State) (offset : Nat) (v : Word) : State :=
  match offset with
  | 0x04 => { s with ie := v.getLsbD 0 }
  | 0x0C => s.writeStatus v
  | 0x10 => { s with inBase := v }
  | 0x14 => { s with inLen := v }
  | 0x18 => { s with outBase := v }
  | 0x1C => { s with outLen := v }
  | 0x20 => { s with texWidth := v }
  | 0x24 => { s with texHeight := v }
  | 0x28 => { s with texFourcc := v }
  | 0x2C => { s with arg0 := v }
  | 0x30 => { s with arg1 := v }
  | _ => s

end Sys2Proof.Machine
end

