-- ==== Sys2Proof/Machine/BitReader.lean ====
section
/-! DEFINITION. The BR_* commands (40_bitreader.md R220 to R225). -/

namespace Sys2Proof.Machine

/-- The body of BR_INIT (40_bitreader.md R220): BAD_ARGUMENT is checked before REGION_WRAP. -/
def brInit (s : State) : State :=
  if !s.skipCodeOk then s.raiseError .badArgument
  else if regionWraps s.inBase s.inLen then s.raiseError .regionWrap
  else State.succeed { s with reader := readerInit s.mem s.inBase s.inLen (s.arg0.setWidth 16) }

/-- The body of BR_PEEK (40_bitreader.md R221). -/
def brPeek (s : State) : State :=
  if !s.bitCountOk then s.raiseError .badArgument
  else State.succeed { s with result0 := s.reader.peek s.arg0.toNat }

/-- The body of BR_READ (40_bitreader.md R222). -/
def brRead (s : State) : State :=
  if !s.bitCountOk then s.raiseError .badArgument
  else
    match s.reader.read s.arg0.toNat with
    | .error e => s.raiseStop e
    | .ok v => State.succeed { s with result0 := v }

/-- The body of BR_DROP (40_bitreader.md R223). -/
def brDrop (s : State) : State :=
  if !s.bitCountOk then s.raiseError .badArgument
  else
    match Reader.drop s.mem s.reader s.arg0.toNat with
    | .error e => s.raiseStop e
    | .ok r => State.succeed { s with reader := r }

/-- The body of BR_TAKE (40_bitreader.md R224). -/
def brTake (s : State) : State :=
  if !s.bitCountOk then s.raiseError .badArgument
  else
    match Reader.take s.mem s.reader s.arg0.toNat with
    | .error e => s.raiseStop e
    | .ok (v, r) => State.succeed { s with result0 := v, reader := r }

/-- BR_INIT (40_bitreader.md R220). -/
def execBrInit (s : State) : Host.Outcome State Fault Refusal := command 0x10 brInit s

/-- BR_PEEK (40_bitreader.md R221). -/
def execBrPeek (s : State) : Host.Outcome State Fault Refusal := command 0x11 brPeek s

/-- BR_READ (40_bitreader.md R222). -/
def execBrRead (s : State) : Host.Outcome State Fault Refusal := command 0x12 brRead s

/-- BR_DROP (40_bitreader.md R223). -/
def execBrDrop (s : State) : Host.Outcome State Fault Refusal := command 0x13 brDrop s

/-- BR_TAKE (40_bitreader.md R224). -/
def execBrTake (s : State) : Host.Outcome State Fault Refusal := command 0x14 brTake s

end Sys2Proof.Machine
end

