-- ==== Sys2Proof/Machine/Control.lean ====
section
/-! DEFINITION. NOP and the illegal command words (45_control.md R472, R474). -/

namespace Sys2Proof.Machine

/-- NOP: nothing but acceptance and completion (45_control.md R474). -/
def execNop (s : State) : Host.Outcome State Fault Refusal := command 0x00 State.succeed s

/-- An illegal command word: ERR = BAD_COMMAND, nothing else changes (30_encoding.md R142, 45_control.md R472). -/
def execIllegalCommand (word : Word) (s : State) : Host.Outcome State Fault Refusal :=
  command word (State.raiseError .badCommand) s

end Sys2Proof.Machine
end

