-- ==== Sys2Proof/Machine/DatStream.lean ====
section
/-! DEFINITION. INFLATE_DAT and the elements of the dat stream (42_dat_inflater.md R320 to R347): each element's meaning
does what the pseudocode does from that element to the next place where it reads one. -/

namespace Sys2Proof.Machine

/-! ### The control flow between two elements -/

/-- The start of PARSE_TREE(): the builder cleared, `n_symbols` next (42_dat_inflater.md R325). -/
def enterParse (which : DatTree) (s : State) : State :=
  { s with builder := emptyBuilder, phase := .datNSymbols which }

/-- The outer loop's test (42_dat_inflater.md R324). -/
def datOuter (s : State) : State :=
  if s.dat.outPos < s.outLen.toNat then enterParse .sym s else s.datFinish

/-- The inner loop's test (42_dat_inflater.md R334). -/
def datInner (s : State) : State :=
  if s.dat.count < s.dat.maxCount ∧ s.dat.outPos < s.outLen.toNat then { s with phase := .datItem } else datOuter s

/-- The end of an item (42_dat_inflater.md R334). -/
def datItemDone (s : State) : State := datInner { s with dat := { s.dat with count := s.dat.count + 1 } }

/-- What follows the build of a tree (42_dat_inflater.md R324, R331, R333). -/
def afterTree (which : DatTree) (s : State) : State :=
  if s.builder.noSymbols then s.datFinish
  else
    match which with
    | .sym => enterParse .copy s
    | .copy => { s with phase := .datMaxCount }

/-- The end of PARSE_TREE(): the build replaces the tree (42_dat_inflater.md R331). -/
def finishTree (which : DatTree) (s : State) : State :=
  match build s.builder with
  | .error e => (s.setTree which emptyTree).datStop e
  | .ok t => afterTree which (s.setTree which t)

/-- The descriptor loop's test: entries go on while `remaining` is not negative (42_dat_inflater.md R325). -/
def datDescriptorNext (which : DatTree) (s : State) : State :=
  if 0 ≤ s.dat.remaining then { s with phase := .datDescriptor which } else finishTree which s

/-- An add entry's iterations; false if one finds `remaining` negative (42_dat_inflater.md R330). -/
def addRun (len : Nat) : Nat → Builder → Int → Builder × Int × Bool
  | 0, b, remaining => (b, remaining, true)
  | n + 1, b, remaining =>
    if remaining < 0 then (b, remaining, false)
    else addRun len n (b.add (BitVec.ofNat 16 remaining.toNat) len) (remaining - 1)

/-! ### Items -/

/-- The rest of a length code after its SYM symbol: the extra bits, ORed into the base, plus W (42_dat_inflater.md R336). -/
def lengthCode (base extra : Nat) (s : State) : State :=
  if extra = 0 then { s with dat := { s.dat with copyLen := base + s.dat.w }, phase := .datDistance }
  else
    datTake extra s fun e t =>
      { t with dat := { t.dat with copyLen := (base ||| e.toNat) + t.dat.w }, phase := .datDistance }

/-- BACK_COPY(len, dist): byte by byte, stopping when the output is full (42_dat_inflater.md R338). -/
def backCopy (outBase : Word) (outLen dist : Nat) : Nat → Memory → Nat → Memory × Nat
  | 0, m, pos => (m, pos)
  | n + 1, m, pos =>
    if outLen ≤ pos then (m, pos)
    else
      backCopy outBase outLen dist n
        (m.write (outBase + BitVec.ofNat 32 pos) (m.read (outBase + BitVec.ofNat 32 (pos - dist)))) (pos + 1)

/-- A back-copy once its distance is known (42_dat_inflater.md R320, R338, R339). -/
def finishCopy (dist : Nat) (s : State) : State :=
  if s.dat.outPos < dist then s.datStop .distanceBeforeStart
  else
    let copied := backCopy s.outBase s.outLen.toNat dist s.dat.copyLen s.mem s.dat.outPos
    datItemDone { s with mem := copied.1, dat := { s.dat with outPos := copied.2 } }

/-- The rest of a distance code after its COPY symbol: the extra bits, ORed into the base, plus 1
(42_dat_inflater.md R337). -/
def distanceCode (base extra : Nat) (s : State) : State :=
  if extra = 0 then finishCopy (base + 1) s
  else datTake extra s fun e t => finishCopy ((base ||| e.toNat) + 1) t

/-! ### The meanings -/

/-- INFLATE_DAT from acceptance to its first stream element (42_dat_inflater.md R320 to R322). -/
def startDat (s : State) : State :=
  match s.checkRegions with
  | some e => s.startJob.jobError e
  | none =>
    { s.startJob with
      dat := { s.dat with outPos := 0 }
      reader := readerInit s.mem s.inBase s.inLen 0xFFFF
      phase := .datHeader }

/-- INFLATE_DAT (42_dat_inflater.md R320). -/
def execInflateDat (s : State) : Host.Outcome State Fault Refusal := command 0x01 startDat s

/-- DAT.HEADER: DAT_HDR and W (42_dat_inflater.md R323). -/
def execDatHeader (method wraw : BitVec 4) (s : State) : Host.Outcome State Fault Refusal :=
  inPhase .datHeader s
    (datOuter { s with datHdr := wraw ++ method, dat := { s.dat with w := wraw.toNat + 1 } })

/-- DAT.N_SYMBOLS (42_dat_inflater.md R326). -/
def execDatNSymbols (count : BitVec 16) (s : State) : Host.Outcome State Fault Refusal :=
  match s.phase with
  | .datNSymbols which =>
    .next
      (if Config.maxSymbols < count.toNat then s.datStop .badSymbolCount
       else datDescriptorNext which { s with dat := { s.dat with remaining := (count.toNat : Int) - 1 } })
  | _ => .fault .outOfPhase

/-- DAT.DESC.SKIP: `r + 1` indices get no code (42_dat_inflater.md R329). -/
def execDatDescSkip (r : BitVec 3) (s : State) : Host.Outcome State Fault Refusal :=
  match s.phase with
  | .datDescriptor which =>
    .next (datDescriptorNext which { s with dat := { s.dat with remaining := s.dat.remaining - (r.toNat + 1) } })
  | _ => .fault .outOfPhase

/-- DAT.DESC.ADD: `r + 1` symbols get the length (42_dat_inflater.md R330). -/
def execDatDescAdd (r : BitVec 3) (len : BitVec 5) (s : State) : Host.Outcome State Fault Refusal :=
  match s.phase with
  | .datDescriptor which =>
    let added := addRun len.toNat (r.toNat + 1) s.builder s.dat.remaining
    let t := { s with builder := added.1, dat := { s.dat with remaining := added.2.1 } }
    .next (if added.2.2 then datDescriptorNext which t else t.datStop .descriptorOverrun)
  | _ => .fault .outOfPhase

/-- DAT.MAX_COUNT: the item loop begins (42_dat_inflater.md R333, R334). -/
def execDatMaxCount (raw : BitVec 4) (s : State) : Host.Outcome State Fault Refusal :=
  inPhase .datMaxCount s
    (datInner { s with dat := { s.dat with maxCount := (raw.toNat + 1) * 2 ^ 12, count := 0 } })

/-- SYM.LITERAL: one byte written (42_dat_inflater.md R335). -/
def execSymLiteral (byte : Byte) (s : State) : Host.Outcome State Fault Refusal :=
  inPhase .datItem s
    (datItemDone
      { s with
        mem := s.mem.write (s.outBase + BitVec.ofNat 32 s.dat.outPos) byte
        dat := { s.dat with outPos := s.dat.outPos + 1 } })

/-- COPY.INVALID: the stop INVALID_DISTANCE_CODE, before any extra bit (42_dat_inflater.md R337). -/
def execCopyInvalid (_d : Symbol) (s : State) : Host.Outcome State Fault Refusal :=
  inPhase .datDistance s (s.datStop .invalidDistanceCode)

end Sys2Proof.Machine
end

