-- ==== Sys2Proof/Machine/DatSymbols.lean ====
section
/-! DEFINITION. The length codes of the SYM alphabet (30_encoding.md R156: base `write_count`, extra bits `bit_count`)
and the distance codes of the COPY alphabet (30_encoding.md R158: base, extra bits). -/

namespace Sys2Proof.Machine

/-- A length code (42_dat_inflater.md R336). -/
def execLength (base extra : Nat) (s : State) : Host.Outcome State Fault Refusal :=
  inPhase .datItem s (lengthCode base extra s)

/-- A distance code (42_dat_inflater.md R337). -/
def execDistance (base extra : Nat) (s : State) : Host.Outcome State Fault Refusal :=
  inPhase .datDistance s (distanceCode base extra s)

/-- SYM.LEN0 (30_encoding.md R156). -/
def execSymLen0 (s : State) : Host.Outcome State Fault Refusal := execLength 0 0 s

/-- SYM.LEN1 (30_encoding.md R156). -/
def execSymLen1 (s : State) : Host.Outcome State Fault Refusal := execLength 1 0 s

/-- SYM.LEN2 (30_encoding.md R156). -/
def execSymLen2 (s : State) : Host.Outcome State Fault Refusal := execLength 2 0 s

/-- SYM.LEN3 (30_encoding.md R156). -/
def execSymLen3 (s : State) : Host.Outcome State Fault Refusal := execLength 3 0 s

/-- SYM.LEN4 (30_encoding.md R156). -/
def execSymLen4 (s : State) : Host.Outcome State Fault Refusal := execLength 4 0 s

/-- SYM.LEN5 (30_encoding.md R156). -/
def execSymLen5 (s : State) : Host.Outcome State Fault Refusal := execLength 5 0 s

/-- SYM.LEN6 (30_encoding.md R156). -/
def execSymLen6 (s : State) : Host.Outcome State Fault Refusal := execLength 6 0 s

/-- SYM.LEN7 (30_encoding.md R156). -/
def execSymLen7 (s : State) : Host.Outcome State Fault Refusal := execLength 7 0 s

/-- SYM.LEN8 (30_encoding.md R156). -/
def execSymLen8 (s : State) : Host.Outcome State Fault Refusal := execLength 8 1 s

/-- SYM.LEN9 (30_encoding.md R156). -/
def execSymLen9 (s : State) : Host.Outcome State Fault Refusal := execLength 10 1 s

/-- SYM.LEN10 (30_encoding.md R156). -/
def execSymLen10 (s : State) : Host.Outcome State Fault Refusal := execLength 12 1 s

/-- SYM.LEN11 (30_encoding.md R156). -/
def execSymLen11 (s : State) : Host.Outcome State Fault Refusal := execLength 14 1 s

/-- SYM.LEN12 (30_encoding.md R156). -/
def execSymLen12 (s : State) : Host.Outcome State Fault Refusal := execLength 16 2 s

/-- SYM.LEN13 (30_encoding.md R156). -/
def execSymLen13 (s : State) : Host.Outcome State Fault Refusal := execLength 20 2 s

/-- SYM.LEN14 (30_encoding.md R156). -/
def execSymLen14 (s : State) : Host.Outcome State Fault Refusal := execLength 24 2 s

/-- SYM.LEN15 (30_encoding.md R156). -/
def execSymLen15 (s : State) : Host.Outcome State Fault Refusal := execLength 28 2 s

/-- SYM.LEN16 (30_encoding.md R156). -/
def execSymLen16 (s : State) : Host.Outcome State Fault Refusal := execLength 32 3 s

/-- SYM.LEN17 (30_encoding.md R156). -/
def execSymLen17 (s : State) : Host.Outcome State Fault Refusal := execLength 40 3 s

/-- SYM.LEN18 (30_encoding.md R156). -/
def execSymLen18 (s : State) : Host.Outcome State Fault Refusal := execLength 48 3 s

/-- SYM.LEN19 (30_encoding.md R156). -/
def execSymLen19 (s : State) : Host.Outcome State Fault Refusal := execLength 56 3 s

/-- SYM.LEN20 (30_encoding.md R156). -/
def execSymLen20 (s : State) : Host.Outcome State Fault Refusal := execLength 64 4 s

/-- SYM.LEN21 (30_encoding.md R156). -/
def execSymLen21 (s : State) : Host.Outcome State Fault Refusal := execLength 80 4 s

/-- SYM.LEN22 (30_encoding.md R156). -/
def execSymLen22 (s : State) : Host.Outcome State Fault Refusal := execLength 96 4 s

/-- SYM.LEN23 (30_encoding.md R156). -/
def execSymLen23 (s : State) : Host.Outcome State Fault Refusal := execLength 112 4 s

/-- SYM.LEN24 (30_encoding.md R156). -/
def execSymLen24 (s : State) : Host.Outcome State Fault Refusal := execLength 128 5 s

/-- SYM.LEN25 (30_encoding.md R156). -/
def execSymLen25 (s : State) : Host.Outcome State Fault Refusal := execLength 160 5 s

/-- SYM.LEN26 (30_encoding.md R156). -/
def execSymLen26 (s : State) : Host.Outcome State Fault Refusal := execLength 192 5 s

/-- SYM.LEN27 (30_encoding.md R156). -/
def execSymLen27 (s : State) : Host.Outcome State Fault Refusal := execLength 224 5 s

/-- SYM.LEN28 (30_encoding.md R156). -/
def execSymLen28 (s : State) : Host.Outcome State Fault Refusal := execLength 255 0 s

/-- COPY.DIST0 (30_encoding.md R158). -/
def execCopyDist0 (s : State) : Host.Outcome State Fault Refusal := execDistance 0 0 s

/-- COPY.DIST1 (30_encoding.md R158). -/
def execCopyDist1 (s : State) : Host.Outcome State Fault Refusal := execDistance 1 0 s

/-- COPY.DIST2 (30_encoding.md R158). -/
def execCopyDist2 (s : State) : Host.Outcome State Fault Refusal := execDistance 2 0 s

/-- COPY.DIST3 (30_encoding.md R158). -/
def execCopyDist3 (s : State) : Host.Outcome State Fault Refusal := execDistance 3 0 s

/-- COPY.DIST4 (30_encoding.md R158). -/
def execCopyDist4 (s : State) : Host.Outcome State Fault Refusal := execDistance 4 1 s

/-- COPY.DIST5 (30_encoding.md R158). -/
def execCopyDist5 (s : State) : Host.Outcome State Fault Refusal := execDistance 6 1 s

/-- COPY.DIST6 (30_encoding.md R158). -/
def execCopyDist6 (s : State) : Host.Outcome State Fault Refusal := execDistance 8 2 s

/-- COPY.DIST7 (30_encoding.md R158). -/
def execCopyDist7 (s : State) : Host.Outcome State Fault Refusal := execDistance 12 2 s

/-- COPY.DIST8 (30_encoding.md R158). -/
def execCopyDist8 (s : State) : Host.Outcome State Fault Refusal := execDistance 16 3 s

/-- COPY.DIST9 (30_encoding.md R158). -/
def execCopyDist9 (s : State) : Host.Outcome State Fault Refusal := execDistance 24 3 s

/-- COPY.DIST10 (30_encoding.md R158). -/
def execCopyDist10 (s : State) : Host.Outcome State Fault Refusal := execDistance 32 4 s

/-- COPY.DIST11 (30_encoding.md R158). -/
def execCopyDist11 (s : State) : Host.Outcome State Fault Refusal := execDistance 48 4 s

/-- COPY.DIST12 (30_encoding.md R158). -/
def execCopyDist12 (s : State) : Host.Outcome State Fault Refusal := execDistance 64 5 s

/-- COPY.DIST13 (30_encoding.md R158). -/
def execCopyDist13 (s : State) : Host.Outcome State Fault Refusal := execDistance 96 5 s

/-- COPY.DIST14 (30_encoding.md R158). -/
def execCopyDist14 (s : State) : Host.Outcome State Fault Refusal := execDistance 128 6 s

/-- COPY.DIST15 (30_encoding.md R158). -/
def execCopyDist15 (s : State) : Host.Outcome State Fault Refusal := execDistance 192 6 s

/-- COPY.DIST16 (30_encoding.md R158). -/
def execCopyDist16 (s : State) : Host.Outcome State Fault Refusal := execDistance 256 7 s

/-- COPY.DIST17 (30_encoding.md R158). -/
def execCopyDist17 (s : State) : Host.Outcome State Fault Refusal := execDistance 384 7 s

/-- COPY.DIST18 (30_encoding.md R158). -/
def execCopyDist18 (s : State) : Host.Outcome State Fault Refusal := execDistance 512 8 s

/-- COPY.DIST19 (30_encoding.md R158). -/
def execCopyDist19 (s : State) : Host.Outcome State Fault Refusal := execDistance 768 8 s

/-- COPY.DIST20 (30_encoding.md R158). -/
def execCopyDist20 (s : State) : Host.Outcome State Fault Refusal := execDistance 1024 9 s

/-- COPY.DIST21 (30_encoding.md R158). -/
def execCopyDist21 (s : State) : Host.Outcome State Fault Refusal := execDistance 1536 9 s

/-- COPY.DIST22 (30_encoding.md R158). -/
def execCopyDist22 (s : State) : Host.Outcome State Fault Refusal := execDistance 2048 10 s

/-- COPY.DIST23 (30_encoding.md R158). -/
def execCopyDist23 (s : State) : Host.Outcome State Fault Refusal := execDistance 3072 10 s

/-- COPY.DIST24 (30_encoding.md R158). -/
def execCopyDist24 (s : State) : Host.Outcome State Fault Refusal := execDistance 4096 11 s

/-- COPY.DIST25 (30_encoding.md R158). -/
def execCopyDist25 (s : State) : Host.Outcome State Fault Refusal := execDistance 6144 11 s

/-- COPY.DIST26 (30_encoding.md R158). -/
def execCopyDist26 (s : State) : Host.Outcome State Fault Refusal := execDistance 8192 12 s

/-- COPY.DIST27 (30_encoding.md R158). -/
def execCopyDist27 (s : State) : Host.Outcome State Fault Refusal := execDistance 12288 12 s

/-- COPY.DIST28 (30_encoding.md R158). -/
def execCopyDist28 (s : State) : Host.Outcome State Fault Refusal := execDistance 16384 13 s

/-- COPY.DIST29 (30_encoding.md R158). -/
def execCopyDist29 (s : State) : Host.Outcome State Fault Refusal := execDistance 24576 13 s

/-- COPY.DIST30 (30_encoding.md R158). -/
def execCopyDist30 (s : State) : Host.Outcome State Fault Refusal := execDistance 32768 14 s

/-- COPY.DIST31 (30_encoding.md R158). -/
def execCopyDist31 (s : State) : Host.Outcome State Fault Refusal := execDistance 49152 14 s

/-- COPY.DIST32 (30_encoding.md R158). -/
def execCopyDist32 (s : State) : Host.Outcome State Fault Refusal := execDistance 65536 15 s

/-- COPY.DIST33 (30_encoding.md R158). -/
def execCopyDist33 (s : State) : Host.Outcome State Fault Refusal := execDistance 98304 15 s

end Sys2Proof.Machine
end

