-- ==== Sys2Proof/Machine/PlainColour.lean ====
section
/-! DEFINITION. The plain-colour block (44_texture_inflater.md R431 to R441): the arithmetic is on non-negative integers. -/

namespace Sys2Proof.Machine

/-- SPLIT_RGB: (red, green, blue) of the 24-bit colour (44_texture_inflater.md R431). -/
def splitRgb (order : RgbOrder) (colour : BitVec 24) : Nat × Nat × Nat :=
  match order with
  | .le24 => (colour.toNat / 65536, colour.toNat / 256 % 256, colour.toNat % 256)
  | .seq8 => (colour.toNat % 256, colour.toNat / 256 % 256, colour.toNat / 65536)

/-- The first approximation of a red or blue channel (44_texture_inflater.md R432). -/
def approx5 (c : Nat) : Nat := (c - c / 32) / 8

/-- The first approximation of the green channel (44_texture_inflater.md R432). -/
def approx6 (c : Nat) : Nat := (c - c / 64) / 4

/-- The reconstruction of a red or blue channel (44_texture_inflater.md R432). -/
def rebuild5 (t : Nat) : Nat := t * 8 + t / 4

/-- The reconstruction of the green channel (44_texture_inflater.md R432). -/
def rebuild6 (t : Nat) : Nat := t * 4 + t / 16

/-- The remainder scale of a channel, its mask test as written (44_texture_inflater.md R433). -/
def remainderScale (c rebuilt t mask : Nat) : Nat := 12 * (c - rebuilt) / (8 - if t &&& mask = mask then 1 else 0)

/-- The endpoints (v1, v2) of a channel (44_texture_inflater.md R434). -/
def chooseEnds (t comp : Nat) : Nat × Nat :=
  if comp < 2 then (t, t) else if comp < 6 then (t, t + 1) else if comp < 10 then (t + 1, t) else (t + 1, t + 1)

/-- A channel after R432 to R434. -/
structure Channel where
  base : Nat
  comp : Nat
  v1 : Nat
  v2 : Nat
deriving DecidableEq, Repr

/-- The channel with a base and a remainder scale. -/
def channelOf (t comp : Nat) : Channel :=
  { base := t, comp := comp, v1 := (chooseEnds t comp).1, v2 := (chooseEnds t comp).2 }

/-- A red or blue channel (44_texture_inflater.md R432 to R434). -/
def channel5 (c : Nat) : Channel :=
  channelOf (approx5 c) (remainderScale c (rebuild5 (approx5 c)) (approx5 c) 0x11)

/-- The green channel (44_texture_inflater.md R432 to R434). -/
def channel6 (c : Nat) : Channel :=
  channelOf (approx6 c) (remainderScale c (rebuild6 (approx6 c)) (approx6 c) 0x1111)

/-- Packing of an endpoint colour (44_texture_inflater.md R435). -/
def packColour (r g b : Nat) : Nat := r ||| ((g ||| (b <<< 6)) <<< 5)

/-- A channel's share of tv1 (44_texture_inflater.md R436). -/
def channelWeight (c : Channel) : Nat :=
  if c.v1 = c.v2 then 0 else if c.v1 = c.base then c.comp else 12 - c.comp

/-- A channel's share of tv2 (44_texture_inflater.md R436). -/
def channelCount (c : Channel) : Nat := if c.v1 = c.v2 then 0 else 1

/-- tv1 averaged over the channels that differ (44_texture_inflater.md R436). -/
def averageWeight (tv1 tv2 : Nat) : Nat := if 0 < tv2 then (tv1 + tv2 / 2) / tv2 else tv1

/-- Two endpoint colours and tv1. -/
structure Ends where
  color1 : Nat
  color2 : Nat
  tv1 : Nat
deriving DecidableEq, Repr

/-- The endpoint nudge (44_texture_inflater.md R438). -/
def nudgeEnds (tv2 : Nat) (special : Bool) (e : Ends) : Ends :=
  if 0 < tv2 ∧ special = false then
    if e.color2 = 0xFFFF then { color1 := e.color1 - 1, color2 := e.color2, tv1 := 12 }
    else { color1 := e.color1, color2 := e.color2 + 1, tv1 := 0 }
  else e

/-- The ordering of the endpoints (44_texture_inflater.md R439). -/
def orderEnds (e : Ends) : Ends :=
  if e.color1 ≤ e.color2 then { color1 := e.color2, color2 := e.color1, tv1 := 12 - e.tv1 } else e

/-- The index of every texel (44_texture_inflater.md R440). -/
def texelIndex (special : Bool) (tv1 : Nat) : Nat :=
  if special then 2 else if tv1 < 2 then 0 else if tv1 < 6 then 2 else if tv1 < 10 then 3 else 1

/-- The block of two endpoint colours and an index (44_texture_inflater.md R441). -/
def packBlock (e : Ends) (idx : Nat) : BitVec 64 :=
  BitVec.ofNat 64 (e.color1 ||| (e.color2 <<< 16) ||| ((idx * 0x55555555) <<< 32))

/-- The block of three channels (44_texture_inflater.md R435 to R441). -/
def blockOf (r g b : Channel) (deduced : Bool) : BitVec 64 :=
  let tv2 := channelCount r + channelCount g + channelCount b
  let tv1 := averageWeight (channelWeight r + channelWeight g + channelWeight b) tv2
  let special := deduced && (tv1 == 5 || tv1 == 6 || tv2 != 0)
  let e := orderEnds (nudgeEnds tv2 special
    { color1 := packColour r.v1 g.v1 b.v1, color2 := packColour r.v2 g.v2 b.v2, tv1 := tv1 })
  packBlock e (texelIndex special e.tv1)

/-- PLAIN_BLOCK(red, green, blue, deduced) (44_texture_inflater.md R432 to R441). -/
def plainBlock (red green blue : Nat) (deduced : Bool) : BitVec 64 :=
  blockOf (channel5 red) (channel6 green) (channel5 blue) deduced

/-- The block of a 24-bit colour under a colour order (44_texture_inflater.md R430). -/
def colourBlock (order : RgbOrder) (colour : BitVec 24) (deduced : Bool) : BitVec 64 :=
  let rgb := splitRgb order colour
  plainBlock rgb.1 rgb.2.1 rgb.2.2 deduced

end Sys2Proof.Machine
end

