-- ==== Sys2Proof/Machine/TexStream.lean ====
section
/-! DEFINITION. The elements of the texture stream but for the count codes (44_texture_inflater.md R404 to R446): each
element's meaning does what the pseudocode does from that element to the next place where it reads one. -/

namespace Sys2Proof.Machine

/-! ### Blocks -/

/-- The address of a place in a block of the output (44_texture_inflater.md R410, R418, R442, R445, R446). -/
def State.blockAddress (s : State) (pos offset : Nat) : Word :=
  s.outBase + BitVec.ofNat 32 (s.fmt.bytesPerBlock * pos + offset)

/-- The first block from `pos` whose bit is clear, looking at `fuel` blocks. -/
def nextClear (bits : List Bool) : Nat → Nat → Nat
  | 0, pos => pos
  | fuel + 1, pos => if bits.getD pos false then nextClear bits fuel (pos + 1) else pos

/-- How many blocks are left from `pos`. -/
def State.blocksLeft (s : State) : Nat := s.fmt.nBlocks - s.tex.pos

/-- Set a block's color_set bit. -/
def State.markColour (s : State) (pos : Nat) : State :=
  { s with tex := { s.tex with colorSet := s.tex.colorSet.set pos true } }

/-- Set a block's alpha_set bit. -/
def State.markAlpha (s : State) (pos : Nat) : State :=
  { s with tex := { s.tex with alphaSet := s.tex.alphaSet.set pos true } }

/-- Store the memory. -/
def State.withMem (m : Memory) (s : State) : State := { s with mem := m }

/-- `pos ← pos + 1`. -/
def State.nextBlock (s : State) : State := { s with tex := { s.tex with pos := s.tex.pos + 1 } }

/-! ### The residue -/

/-- The colour residue from block `pos` on: its next word, or the end of the job (44_texture_inflater.md R446). -/
def seekColour (s : State) : State :=
  let pos := nextClear s.tex.colorSet s.blocksLeft s.tex.pos
  if s.fmt.hasColourResidue = true ∧ pos < s.fmt.nBlocks then
    { s with tex := { s.tex with pos := pos }, phase := .texColourResidue }
  else s.texFinish

/-- The alpha residue from block `pos` on: its next word, or the colour residue from block 0 (44_texture_inflater.md
R445). -/
def seekAlpha (s : State) : State :=
  let pos := nextClear s.tex.alphaSet s.blocksLeft s.tex.pos
  if s.fmt.hasAlphaResidue = true ∧ pos < s.fmt.nBlocks then
    { s with tex := { s.tex with pos := pos }, phase := .texAlphaResidue }
  else seekColour { s with tex := { s.tex with pos := 0 } }

/-- The end of the passes: ALIGN32, then the residue (44_texture_inflater.md R444). -/
def enterResidue (s : State) : State :=
  seekAlpha
    { s with reader := Reader.align32 s.mem s.reader, tex := { s.tex with pos := 0, second := false } }

/-- A residue word stored unchanged at its slot; a block's second word follows when bytes_per_component > 4
(44_texture_inflater.md R445, R446). -/
def storeResidue (offset : Nat) (seek : State → State) (word : Word) (s : State) : State :=
  let t := s.withMem (s.mem.writeLE (s.blockAddress s.tex.pos (offset + if s.tex.second then 4 else 0)) 4 word.toNat)
  if s.tex.second = false ∧ 4 < s.fmt.bytesPerComponent then { t with tex := { t.tex with second := true } }
  else seek { t with tex := { t.tex with second := false, pos := t.tex.pos + 1 } }

/-! ### The passes -/

/-- The next pass whose flag is set, or the residue (44_texture_inflater.md R406). -/
def nextPass (s : State) : State := if s.tex.pending = 0 then enterResidue s else { s with phase := .texFlag }

/-- The pass's loop test: another run while `pos < n_blocks` (44_texture_inflater.md R405). -/
def nextRun (s : State) : State :=
  if s.tex.pos < s.fmt.nBlocks then { s with phase := .texCount } else nextPass s

/-- The start of a pass's runs (44_texture_inflater.md R405). -/
def enterRuns (pass : Pass) (s : State) : State := nextRun { s with tex := { s.tex with pass := pass, pos := 0 } }

/-- A flag's pass is no longer to be started. -/
def State.clearFlag (bit : Nat) (s : State) : State :=
  { s with tex := { s.tex with pending := s.tex.pending &&& ~~~(1#4 <<< bit) } }

/-- The count code of a run (44_texture_inflater.md R405). -/
def startRun (count : Nat) (s : State) : State := { s with tex := { s.tex with code := count }, phase := .texRun }

/-- The blocks a run covers: `code` blocks whose target bit is clear, each written if the predicate holds, the set ones
stepped over without counting, never past the last block (44_texture_inflater.md R405). -/
def coverBlocks (target : State → List Bool) (put : State → State) (value : Bool) : Nat → Nat → State → State
  | 0, _, s => s
  | _ + 1, 0, s => s
  | fuel + 1, code + 1, s =>
    if (target s).getD s.tex.pos false then coverBlocks target put value fuel (code + 1) s.nextBlock
    else coverBlocks target put value fuel code (if value then put s else s).nextBlock

/-- A run: its blocks, then the set blocks behind them, then the next run or pass (44_texture_inflater.md R405). -/
def runBlocks (target : State → List Bool) (put : State → State) (value : Bool) (s : State) : State :=
  let t := coverBlocks target put value s.blocksLeft s.tex.code s
  nextRun { t with tex := { t.tex with pos := nextClear (target t) t.blocksLeft t.tex.pos } }

/-- The bitmap of colour passes. -/
def colourTarget (s : State) : List Bool := s.tex.colorSet

/-- The bitmap of alpha passes. -/
def alphaTarget (s : State) : List Bool := s.tex.alphaSet

/-- The white pass's write at block `pos` (44_texture_inflater.md R410). -/
def putWhite (s : State) : State :=
  ((s.withMem (s.mem.writeLE (s.blockAddress s.tex.pos 0) 8 0xFFFFFFFFFFFFFFFE)).markAlpha s.tex.pos).markColour s.tex.pos

/-- The constant-alpha pass's write at block `pos` (44_texture_inflater.md R418). -/
def putAlpha (byte : Byte) (s : State) : State :=
  (s.withMem
    (s.mem.writeBytes (s.blockAddress s.tex.pos 0) (List.replicate s.fmt.bytesPerComponent byte))).markAlpha s.tex.pos

/-- The plain-colour pass's write at block `pos`: the block zero-extended to bytes_per_component bytes
(44_texture_inflater.md R442). -/
def putPlain (block : BitVec 64) (s : State) : State :=
  (s.withMem
    (s.mem.writeLE (s.blockAddress s.tex.pos s.fmt.colourOffset) s.fmt.bytesPerComponent block.toNat)).markColour
    s.tex.pos

/-- The byte of a constant-alpha pass (44_texture_inflater.md R416). -/
def alphaByte (wide : Bool) (alpha : Byte) : Byte := if wide then alpha else alpha ||| (alpha <<< 4)

/-! ### The meanings -/

/-- TEX.HEADER: TEX_DSIZE, TEX_CFLAGS, the flags whose passes run (44_texture_inflater.md R404, 30_encoding.md R167). -/
def execTexHeader (size flags : Word) (s : State) : Host.Outcome State Fault Refusal :=
  inPhase .texHeader s
    (nextPass { s with texDsize := size, texCflags := flags, tex := { s.tex with pending := flags.setWidth 4 } })

/-- TEX.CFLAG.WHITE: the white pass begins (44_texture_inflater.md R410). -/
def execTexCflagWhite (s : State) : Host.Outcome State Fault Refusal :=
  inPhase .texFlag s (enterRuns .white (s.clearFlag 0))

/-- TEX.CFLAG.CONST_A4: the constant-alpha pass k = 4 begins (44_texture_inflater.md R415). -/
def execTexCflagConstA4 (s : State) : Host.Outcome State Fault Refusal :=
  inPhase .texFlag s { s.clearFlag 1 with phase := .texAlphaStart false }

/-- TEX.CFLAG.CONST_A8: the constant-alpha pass k = 8 begins (44_texture_inflater.md R415). -/
def execTexCflagConstA8 (s : State) : Host.Outcome State Fault Refusal :=
  inPhase .texFlag s { s.clearFlag 2 with phase := .texAlphaStart true }

/-- TEX.CFLAG.PLAIN: the plain-colour pass begins (44_texture_inflater.md R430). -/
def execTexCflagPlain (s : State) : Host.Outcome State Fault Refusal :=
  inPhase .texFlag s { s.clearFlag 3 with phase := .texPlainStart }

/-- TEX.WHITE.RUN (44_texture_inflater.md R410). -/
def execTexWhiteRun (value : Bool) (s : State) : Host.Outcome State Fault Refusal :=
  match s.tex.pass with
  | .white => inPhase .texRun s (runBlocks colourTarget putWhite value s)
  | _ => .fault .outOfPhase

/-- TEX.ALPHA.START: the pattern byte, then the runs (44_texture_inflater.md R415, R416). -/
def execTexAlphaStart (wide : Bool) (alpha : Byte) (s : State) : Host.Outcome State Fault Refusal :=
  inPhase (.texAlphaStart wide) s (enterRuns (.alpha (alphaByte wide alpha)) s)

/-- TEX.ALPHA.RUN: the pattern if is_not_null, else zero bytes (44_texture_inflater.md R417, R418). -/
def execTexAlphaRun (value notNull : Bool) (s : State) : Host.Outcome State Fault Refusal :=
  match s.tex.pass with
  | .alpha byte => inPhase .texRun s (runBlocks alphaTarget (putAlpha (if notNull then byte else 0)) value s)
  | _ => .fault .outOfPhase

/-- TEX.PLAIN.START: the block of the colour, then the runs (44_texture_inflater.md R430, R431). -/
def execTexPlainStart (colour : BitVec 24) (s : State) : Host.Outcome State Fault Refusal :=
  inPhase .texPlainStart s (enterRuns (.plain (colourBlock s.rgbOrder colour s.fmt.deducedAlpha)) s)

/-- TEX.PLAIN.RUN (44_texture_inflater.md R430, R442). -/
def execTexPlainRun (value : Bool) (s : State) : Host.Outcome State Fault Refusal :=
  match s.tex.pass with
  | .plain block => inPhase .texRun s (runBlocks colourTarget (putPlain block) value s)
  | _ => .fault .outOfPhase

/-- TEX.RESIDUE.WORD, of the alpha or the colour residue (44_texture_inflater.md R445, R446). -/
def execTexResidueWord (word : Word) (s : State) : Host.Outcome State Fault Refusal :=
  match s.phase with
  | .texAlphaResidue => .next (storeResidue 0 seekAlpha word s)
  | .texColourResidue => .next (storeResidue s.fmt.colourOffset seekColour word s)
  | _ => .fault .outOfPhase

end Sys2Proof.Machine
end

