-- ==== Sys2Proof/Machine/TexCounts.lean ====
section
/-! DEFINITION. The count codes of a texture run (30_encoding.md R168, 44_texture_inflater.md R405). -/

namespace Sys2Proof.Machine

/-- A count code: the run's count, its per-run fields next (44_texture_inflater.md R405). -/
def execCount (count : Nat) (s : State) : Host.Outcome State Fault Refusal := inPhase .texCount s (startRun count s)

/-- TEX.COUNT1 (30_encoding.md R168). -/
def execTexCount1 (s : State) : Host.Outcome State Fault Refusal := execCount 1 s

/-- TEX.COUNT2 (30_encoding.md R168). -/
def execTexCount2 (s : State) : Host.Outcome State Fault Refusal := execCount 2 s

/-- TEX.COUNT3 (30_encoding.md R168). -/
def execTexCount3 (s : State) : Host.Outcome State Fault Refusal := execCount 3 s

/-- TEX.COUNT4 (30_encoding.md R168). -/
def execTexCount4 (s : State) : Host.Outcome State Fault Refusal := execCount 4 s

/-- TEX.COUNT5 (30_encoding.md R168). -/
def execTexCount5 (s : State) : Host.Outcome State Fault Refusal := execCount 5 s

/-- TEX.COUNT6 (30_encoding.md R168). -/
def execTexCount6 (s : State) : Host.Outcome State Fault Refusal := execCount 6 s

/-- TEX.COUNT7 (30_encoding.md R168). -/
def execTexCount7 (s : State) : Host.Outcome State Fault Refusal := execCount 7 s

/-- TEX.COUNT8 (30_encoding.md R168). -/
def execTexCount8 (s : State) : Host.Outcome State Fault Refusal := execCount 8 s

/-- TEX.COUNT9 (30_encoding.md R168). -/
def execTexCount9 (s : State) : Host.Outcome State Fault Refusal := execCount 9 s

/-- TEX.COUNT10 (30_encoding.md R168). -/
def execTexCount10 (s : State) : Host.Outcome State Fault Refusal := execCount 10 s

/-- TEX.COUNT11 (30_encoding.md R168). -/
def execTexCount11 (s : State) : Host.Outcome State Fault Refusal := execCount 11 s

/-- TEX.COUNT12 (30_encoding.md R168). -/
def execTexCount12 (s : State) : Host.Outcome State Fault Refusal := execCount 12 s

/-- TEX.COUNT13 (30_encoding.md R168). -/
def execTexCount13 (s : State) : Host.Outcome State Fault Refusal := execCount 13 s

/-- TEX.COUNT14 (30_encoding.md R168). -/
def execTexCount14 (s : State) : Host.Outcome State Fault Refusal := execCount 14 s

/-- TEX.COUNT15 (30_encoding.md R168). -/
def execTexCount15 (s : State) : Host.Outcome State Fault Refusal := execCount 15 s

/-- TEX.COUNT16 (30_encoding.md R168). -/
def execTexCount16 (s : State) : Host.Outcome State Fault Refusal := execCount 16 s

/-- TEX.COUNT17 (30_encoding.md R168). -/
def execTexCount17 (s : State) : Host.Outcome State Fault Refusal := execCount 17 s

/-- TEX.COUNT18 (30_encoding.md R168). -/
def execTexCount18 (s : State) : Host.Outcome State Fault Refusal := execCount 18 s

end Sys2Proof.Machine
end

