-- ==== Sys2Proof/Machine/TexFormat.lean ====
section
/-! DEFINITION. TEX_FORMAT, INFLATE_TEXTURE up to its first stream element, and the FourCC values
(43_texture_formats.md R380 to R389, 44_texture_inflater.md R400 to R403, 60_exceptions.md R513). -/

namespace Sys2Proof.Machine

/-- The body of TEX_FORMAT (43_texture_formats.md R387). -/
def texFormat (s : State) : State :=
  match findFourcc s.texFourcc fourccTable with
  | none => s.raiseError .invalidFourcc
  | some (flags, ps) =>
    let f := formatRecord s.texWidth s.texHeight flags ps
    State.succeed { s with fmt := f, result0 := saturate f.outputSize }

/-- TEX_FORMAT (43_texture_formats.md R387). -/
def execTexFormat (s : State) : Host.Outcome State Fault Refusal := command 0x03 texFormat s

/-- INFLATE_TEXTURE from acceptance through the region checks; the FourCC is decoded next (60_exceptions.md R513). -/
def startTexture (s : State) : State :=
  match s.checkRegions with
  | some e => s.startJob.jobError e
  | none => { s.startJob with phase := .texFourcc }

/-- INFLATE_TEXTURE (44_texture_inflater.md R400). -/
def execInflateTexture (s : State) : Host.Outcome State Fault Refusal := command 0x02 startTexture s

/-- The start of the decode once every check has passed: the format record, the cleared bitmaps, the reader under skip
policy None (44_texture_inflater.md R400 to R403). -/
def openTexture (f : Format) (s : State) : State :=
  { s with
    fmt := f
    tex := { s.tex with
      colorSet := List.replicate f.nBlocks false
      alphaSet := List.replicate f.nBlocks false }
    reader := readerInit s.mem s.inBase s.inLen 0x0000
    phase := .texHeader }

/-- A recognised FourCC: the size check, the capacity check, the start of the decode (60_exceptions.md R513). -/
def selectFormat (flags : BitVec 10) (ps : Nat) (s : State) : State :=
  let f := formatRecord s.texWidth s.texHeight flags ps
  if s.outLen.toNat < f.outputSize then s.jobError .outputBufferTooSmall
  else if exceedsBlocks s.maxBlocks f.nBlocks then s.jobError .tooManyBlocks
  else openTexture f s

/-- FOURCC.DXT1: COLOR, ALPHA, DEDUCED_ALPHA; 4 bits a pixel (43_texture_formats.md R380). -/
def execFourccDxt1 (s : State) : Host.Outcome State Fault Refusal := inPhase .texFourcc s (selectFormat 0x070 4 s)

/-- FOURCC.DXT2: COLOR, ALPHA, PLAIN; 8 bits a pixel (43_texture_formats.md R380). -/
def execFourccDxt2 (s : State) : Host.Outcome State Fault Refusal := inPhase .texFourcc s (selectFormat 0x0B0 8 s)

/-- FOURCC.DXT3: as DXT2 (43_texture_formats.md R380). -/
def execFourccDxt3 (s : State) : Host.Outcome State Fault Refusal := inPhase .texFourcc s (selectFormat 0x0B0 8 s)

/-- FOURCC.DXT4: as DXT2 (43_texture_formats.md R380). -/
def execFourccDxt4 (s : State) : Host.Outcome State Fault Refusal := inPhase .texFourcc s (selectFormat 0x0B0 8 s)

/-- FOURCC.DXT5: as DXT2 (43_texture_formats.md R380). -/
def execFourccDxt5 (s : State) : Host.Outcome State Fault Refusal := inPhase .texFourcc s (selectFormat 0x0B0 8 s)

/-- FOURCC.DXTA: ALPHA, PLAIN; 4 bits a pixel (43_texture_formats.md R380). -/
def execFourccDxta (s : State) : Host.Outcome State Fault Refusal := inPhase .texFourcc s (selectFormat 0x0A0 4 s)

/-- FOURCC.DXTL: COLOR; 8 bits a pixel (43_texture_formats.md R380). -/
def execFourccDxtl (s : State) : Host.Outcome State Fault Refusal := inPhase .texFourcc s (selectFormat 0x010 8 s)

/-- FOURCC.DXTN: BICOLOR; 8 bits a pixel (43_texture_formats.md R380). -/
def execFourccDxtn (s : State) : Host.Outcome State Fault Refusal := inPhase .texFourcc s (selectFormat 0x200 8 s)

/-- FOURCC.3DCX: BICOLOR; 8 bits a pixel (43_texture_formats.md R380). -/
def execFourcc3dcx (s : State) : Host.Outcome State Fault Refusal := inPhase .texFourcc s (selectFormat 0x200 8 s)

end Sys2Proof.Machine
end

