-- ==== Sys2Proof/Machine/Trees.lean ====
section
/-! DEFINITION. The HB_* and HT_* commands (41_huffman.md R274 to R278). -/

namespace Sys2Proof.Machine

/-- The body of HB_CLEAR (41_huffman.md R274). -/
def hbClear (s : State) : State := State.succeed { s with builder := emptyBuilder }

/-- The body of HB_ADD (41_huffman.md R275). -/
def hbAdd (s : State) : State :=
  if !s.addArgsOk then s.raiseError .badArgument
  else State.succeed { s with builder := s.builder.add (s.arg0.setWidth 16) s.arg1.toNat }

/-- The body of HB_BUILD (41_huffman.md R277): an oversubscribed set leaves the target empty. -/
def hbBuild (s : State) : State :=
  if !s.buildIdOk then s.raiseError .badArgument
  else
    match build s.builder with
    | .error e => (s.setTree (datTreeOf s.arg0.toNat) emptyTree).raiseStop e
    | .ok t =>
      State.succeed
        { s.setTree (datTreeOf s.arg0.toNat) t with result0 := if s.builder.noSymbols then 0 else 1 }

/-- The body of HT_DECODE (41_huffman.md R278). -/
def htDecode (s : State) : State :=
  if !s.treeIdOk then s.raiseError .badArgument
  else
    match decodeTree s.mem (s.tree s.arg0.toNat) s.reader with
    | .error e => s.raiseStop e
    | .ok (symbol, len, r) =>
      State.succeed { s with result0 := symbol.setWidth 32, result1 := BitVec.ofNat 32 len, reader := r }

/-- The body of HT_CODE (41_huffman.md R276): 0, 0 for a symbol the tree does not hold. -/
def htCode (s : State) : State :=
  if !s.treeIdOk || !s.codeSymbolOk then s.raiseError .badArgument
  else
    match findCode (s.arg1.setWidth 16) (s.tree s.arg0.toNat).codes with
    | some e => State.succeed { s with result0 := e.code, result1 := BitVec.ofNat 32 e.length }
    | none => State.succeed { s with result0 := 0, result1 := 0 }

/-- HB_CLEAR (41_huffman.md R274). -/
def execHbClear (s : State) : Host.Outcome State Fault Refusal := command 0x20 hbClear s

/-- HB_ADD (41_huffman.md R275). -/
def execHbAdd (s : State) : Host.Outcome State Fault Refusal := command 0x21 hbAdd s

/-- HB_BUILD (41_huffman.md R277). -/
def execHbBuild (s : State) : Host.Outcome State Fault Refusal := command 0x22 hbBuild s

/-- HT_DECODE (41_huffman.md R278). -/
def execHtDecode (s : State) : Host.Outcome State Fault Refusal := command 0x23 htDecode s

/-- HT_CODE (41_huffman.md R276). -/
def execHtCode (s : State) : Host.Outcome State Fault Refusal := command 0x24 htCode s

end Sys2Proof.Machine
end

