-- ==== Sys2Proof/Machine/Dispatch.lean ====
section
/-! DEFINITION. The dispatch: one arm per instruction, each one call of its meaning. -/

namespace Sys2Proof.Machine

def exec (i : Instr) (s : State) : Host.Outcome State Fault Refusal :=
  match i with
  | .nop => Sys2Proof.Machine.execNop s
  | .inflateDat => Sys2Proof.Machine.execInflateDat s
  | .inflateTexture => Sys2Proof.Machine.execInflateTexture s
  | .texFormat => Sys2Proof.Machine.execTexFormat s
  | .brInit => Sys2Proof.Machine.execBrInit s
  | .brPeek => Sys2Proof.Machine.execBrPeek s
  | .brRead => Sys2Proof.Machine.execBrRead s
  | .brDrop => Sys2Proof.Machine.execBrDrop s
  | .brTake => Sys2Proof.Machine.execBrTake s
  | .hbClear => Sys2Proof.Machine.execHbClear s
  | .hbAdd => Sys2Proof.Machine.execHbAdd s
  | .hbBuild => Sys2Proof.Machine.execHbBuild s
  | .htDecode => Sys2Proof.Machine.execHtDecode s
  | .htCode => Sys2Proof.Machine.execHtCode s
  | .illegalCommand word => Sys2Proof.Machine.execIllegalCommand word s
  | .datHeader method wraw => Sys2Proof.Machine.execDatHeader method wraw s
  | .datNSymbols count => Sys2Proof.Machine.execDatNSymbols count s
  | .datDescSkip r => Sys2Proof.Machine.execDatDescSkip r s
  | .datDescAdd r len => Sys2Proof.Machine.execDatDescAdd r len s
  | .datMaxCount raw => Sys2Proof.Machine.execDatMaxCount raw s
  | .symLiteral byte => Sys2Proof.Machine.execSymLiteral byte s
  | .symLen0 => Sys2Proof.Machine.execSymLen0 s
  | .symLen1 => Sys2Proof.Machine.execSymLen1 s
  | .symLen2 => Sys2Proof.Machine.execSymLen2 s
  | .symLen3 => Sys2Proof.Machine.execSymLen3 s
  | .symLen4 => Sys2Proof.Machine.execSymLen4 s
  | .symLen5 => Sys2Proof.Machine.execSymLen5 s
  | .symLen6 => Sys2Proof.Machine.execSymLen6 s
  | .symLen7 => Sys2Proof.Machine.execSymLen7 s
  | .symLen8 => Sys2Proof.Machine.execSymLen8 s
  | .symLen9 => Sys2Proof.Machine.execSymLen9 s
  | .symLen10 => Sys2Proof.Machine.execSymLen10 s
  | .symLen11 => Sys2Proof.Machine.execSymLen11 s
  | .symLen12 => Sys2Proof.Machine.execSymLen12 s
  | .symLen13 => Sys2Proof.Machine.execSymLen13 s
  | .symLen14 => Sys2Proof.Machine.execSymLen14 s
  | .symLen15 => Sys2Proof.Machine.execSymLen15 s
  | .symLen16 => Sys2Proof.Machine.execSymLen16 s
  | .symLen17 => Sys2Proof.Machine.execSymLen17 s
  | .symLen18 => Sys2Proof.Machine.execSymLen18 s
  | .symLen19 => Sys2Proof.Machine.execSymLen19 s
  | .symLen20 => Sys2Proof.Machine.execSymLen20 s
  | .symLen21 => Sys2Proof.Machine.execSymLen21 s
  | .symLen22 => Sys2Proof.Machine.execSymLen22 s
  | .symLen23 => Sys2Proof.Machine.execSymLen23 s
  | .symLen24 => Sys2Proof.Machine.execSymLen24 s
  | .symLen25 => Sys2Proof.Machine.execSymLen25 s
  | .symLen26 => Sys2Proof.Machine.execSymLen26 s
  | .symLen27 => Sys2Proof.Machine.execSymLen27 s
  | .symLen28 => Sys2Proof.Machine.execSymLen28 s
  | .copyDist0 => Sys2Proof.Machine.execCopyDist0 s
  | .copyDist1 => Sys2Proof.Machine.execCopyDist1 s
  | .copyDist2 => Sys2Proof.Machine.execCopyDist2 s
  | .copyDist3 => Sys2Proof.Machine.execCopyDist3 s
  | .copyDist4 => Sys2Proof.Machine.execCopyDist4 s
  | .copyDist5 => Sys2Proof.Machine.execCopyDist5 s
  | .copyDist6 => Sys2Proof.Machine.execCopyDist6 s
  | .copyDist7 => Sys2Proof.Machine.execCopyDist7 s
  | .copyDist8 => Sys2Proof.Machine.execCopyDist8 s
  | .copyDist9 => Sys2Proof.Machine.execCopyDist9 s
  | .copyDist10 => Sys2Proof.Machine.execCopyDist10 s
  | .copyDist11 => Sys2Proof.Machine.execCopyDist11 s
  | .copyDist12 => Sys2Proof.Machine.execCopyDist12 s
  | .copyDist13 => Sys2Proof.Machine.execCopyDist13 s
  | .copyDist14 => Sys2Proof.Machine.execCopyDist14 s
  | .copyDist15 => Sys2Proof.Machine.execCopyDist15 s
  | .copyDist16 => Sys2Proof.Machine.execCopyDist16 s
  | .copyDist17 => Sys2Proof.Machine.execCopyDist17 s
  | .copyDist18 => Sys2Proof.Machine.execCopyDist18 s
  | .copyDist19 => Sys2Proof.Machine.execCopyDist19 s
  | .copyDist20 => Sys2Proof.Machine.execCopyDist20 s
  | .copyDist21 => Sys2Proof.Machine.execCopyDist21 s
  | .copyDist22 => Sys2Proof.Machine.execCopyDist22 s
  | .copyDist23 => Sys2Proof.Machine.execCopyDist23 s
  | .copyDist24 => Sys2Proof.Machine.execCopyDist24 s
  | .copyDist25 => Sys2Proof.Machine.execCopyDist25 s
  | .copyDist26 => Sys2Proof.Machine.execCopyDist26 s
  | .copyDist27 => Sys2Proof.Machine.execCopyDist27 s
  | .copyDist28 => Sys2Proof.Machine.execCopyDist28 s
  | .copyDist29 => Sys2Proof.Machine.execCopyDist29 s
  | .copyDist30 => Sys2Proof.Machine.execCopyDist30 s
  | .copyDist31 => Sys2Proof.Machine.execCopyDist31 s
  | .copyDist32 => Sys2Proof.Machine.execCopyDist32 s
  | .copyDist33 => Sys2Proof.Machine.execCopyDist33 s
  | .copyInvalid d => Sys2Proof.Machine.execCopyInvalid d s
  | .texHeader size flags => Sys2Proof.Machine.execTexHeader size flags s
  | .texCflagWhite => Sys2Proof.Machine.execTexCflagWhite s
  | .texCflagConstA4 => Sys2Proof.Machine.execTexCflagConstA4 s
  | .texCflagConstA8 => Sys2Proof.Machine.execTexCflagConstA8 s
  | .texCflagPlain => Sys2Proof.Machine.execTexCflagPlain s
  | .texCount1 => Sys2Proof.Machine.execTexCount1 s
  | .texCount18 => Sys2Proof.Machine.execTexCount18 s
  | .texCount2 => Sys2Proof.Machine.execTexCount2 s
  | .texCount3 => Sys2Proof.Machine.execTexCount3 s
  | .texCount4 => Sys2Proof.Machine.execTexCount4 s
  | .texCount5 => Sys2Proof.Machine.execTexCount5 s
  | .texCount6 => Sys2Proof.Machine.execTexCount6 s
  | .texCount7 => Sys2Proof.Machine.execTexCount7 s
  | .texCount8 => Sys2Proof.Machine.execTexCount8 s
  | .texCount9 => Sys2Proof.Machine.execTexCount9 s
  | .texCount10 => Sys2Proof.Machine.execTexCount10 s
  | .texCount11 => Sys2Proof.Machine.execTexCount11 s
  | .texCount12 => Sys2Proof.Machine.execTexCount12 s
  | .texCount13 => Sys2Proof.Machine.execTexCount13 s
  | .texCount14 => Sys2Proof.Machine.execTexCount14 s
  | .texCount15 => Sys2Proof.Machine.execTexCount15 s
  | .texCount16 => Sys2Proof.Machine.execTexCount16 s
  | .texCount17 => Sys2Proof.Machine.execTexCount17 s
  | .texWhiteRun value => Sys2Proof.Machine.execTexWhiteRun value s
  | .texAlphaStart wide alpha => Sys2Proof.Machine.execTexAlphaStart wide alpha s
  | .texAlphaRun value notNull => Sys2Proof.Machine.execTexAlphaRun value notNull s
  | .texPlainStart colour => Sys2Proof.Machine.execTexPlainStart colour s
  | .texPlainRun value => Sys2Proof.Machine.execTexPlainRun value s
  | .texResidueWord word => Sys2Proof.Machine.execTexResidueWord word s
  | .fourccDxt1 => Sys2Proof.Machine.execFourccDxt1 s
  | .fourccDxt2 => Sys2Proof.Machine.execFourccDxt2 s
  | .fourccDxt3 => Sys2Proof.Machine.execFourccDxt3 s
  | .fourccDxt4 => Sys2Proof.Machine.execFourccDxt4 s
  | .fourccDxt5 => Sys2Proof.Machine.execFourccDxt5 s
  | .fourccDxta => Sys2Proof.Machine.execFourccDxta s
  | .fourccDxtl => Sys2Proof.Machine.execFourccDxtl s
  | .fourccDxtn => Sys2Proof.Machine.execFourccDxtn s
  | .fourcc3dcx => Sys2Proof.Machine.execFourcc3dcx s

end Sys2Proof.Machine
end

