-- ==== Sys2Proof/Machine/Fetch.lean ====
section
/-! DEFINITION. Reading the next element of a running job from its stream, by the place the job stands at
(30_encoding.md R151, R165): a fixed field by TAKE, a symbol by DECODE, the compression flags and the FourCC from their
registers. -/

namespace Sys2Proof.Machine

/-- What reading the next element gives: the element and the state it is executed in, or the state of a job that ended
at the read, or a fault. -/
inductive Fetched where
  | instr (i : Instr) (s : State)
  | ended (s : State)
  | fault (f : Fault)
deriving DecidableEq, Repr

/-- The element the bits `v` are at a place. -/
def fetchedAs (kind : ElemKind) (v : Nat) (s : State) : Fetched :=
  match decode kind v with
  | .ok i => .instr i s
  | .error _ => .fault .noSuchElement

/-- TAKE(k), going on with the value; a stop ends the job (40_bitreader.md R207). -/
def fetchTake (stop : StopCode → State → State) (k : Nat) (s : State) (go : Word → State → Fetched) : Fetched :=
  match Reader.take s.mem s.reader k with
  | .ok (v, r) => go v { s with reader := r }
  | .error e => .ended (stop e s)

/-- A k-bit field (30_encoding.md R150). -/
def fetchField (stop : StopCode → State → State) (kind : ElemKind) (k : Nat) (s : State) : Fetched :=
  fetchTake stop k s fun v t => fetchedAs kind v.toNat t

/-- A symbol of a tree; a stop ends the job (41_huffman.md R270). -/
def fetchSymbol (stop : StopCode → State → State) (kind : ElemKind) (tree : Tree) (s : State) : Fetched :=
  match decodeTree s.mem tree s.reader with
  | .ok (symbol, _, r) => fetchedAs kind symbol.toNat { s with reader := r }
  | .error e => .ended (stop e s)

/-- The dat header: method, then write_size_const_add_raw (42_dat_inflater.md R323). -/
def fetchDatHeader (s : State) : Fetched :=
  fetchTake State.datStop 4 s fun method t =>
    fetchTake State.datStop 4 t fun wraw u => fetchedAs .datHeader (method.toNat * 16 + wraw.toNat) u

/-- The texture header: TEX_DSIZE is written as soon as data_size is read (44_texture_inflater.md R404). -/
def fetchTexHeader (s : State) : Fetched :=
  fetchTake State.texStop 32 s fun size t =>
    fetchTake State.texStop 32 { t with texDsize := size } fun flags u =>
      fetchedAs .texHeader (size.toNat + flags.toNat * 2 ^ 32) u

/-- The fields of a constant-alpha run: is_not_null is read, and dropped only if value is 1 (44_texture_inflater.md
R417). -/
def fetchAlphaRun (s : State) : Fetched :=
  fetchTake State.texStop 1 s fun value t =>
    match t.reader.read 1 with
    | .error e => .ended (t.texStop e)
    | .ok notNull =>
      if value = 1 then
        match Reader.drop t.mem t.reader 1 with
        | .error e => .ended (t.texStop e)
        | .ok r => fetchedAs .alphaRun (value.toNat * 2 + notNull.toNat) { t with reader := r }
      else fetchedAs .alphaRun (value.toNat * 2 + notNull.toNat) t

/-- The fields of a run, by its pass (30_encoding.md R169). -/
def fetchRun (s : State) : Fetched :=
  match s.tex.pass with
  | .white => fetchField State.texStop .whiteRun 1 s
  | .alpha _ => fetchAlphaRun s
  | .plain _ => fetchField State.texStop .plainRun 1 s

/-- The FourCC of a texture job; an unrecognised one is an argument error (60_exceptions.md R513). -/
def fetchFourcc (s : State) : Fetched :=
  match decode .fourcc s.texFourcc.toNat with
  | .ok i => .instr i s
  | .error _ => .ended (s.jobError .invalidFourcc)

/-- The next element of the running job. -/
def fetch (s : State) : Fetched :=
  match s.phase with
  | .idle => .ended s
  | .datHeader => fetchDatHeader s
  | .datNSymbols _ => fetchField State.datStop .datNSymbols 16 s
  | .datDescriptor _ => fetchSymbol State.datStop .descriptor s.datDict s
  | .datMaxCount => fetchField State.datStop .maxCount 4 s
  | .datItem => fetchSymbol State.datStop .symSymbol s.sym s
  | .datDistance => fetchSymbol State.datStop .copySymbol s.copy s
  | .texFourcc => fetchFourcc s
  | .texHeader => fetchTexHeader s
  | .texFlag => fetchedAs .texFlag (lowestFlag s.tex.pending) s
  | .texAlphaStart false => fetchField State.texStop .alphaStart4 4 s
  | .texAlphaStart true => fetchField State.texStop .alphaStart8 8 s
  | .texPlainStart => fetchField State.texStop .plainStart 24 s
  | .texCount => fetchSymbol State.texStop .texCount texDict s
  | .texRun => fetchRun s
  | .texAlphaResidue => fetchField State.texStop .residueWord 32 s
  | .texColourResidue => fetchField State.texStop .residueWord 32 s

end Sys2Proof.Machine
end

