-- ==== Sys2Proof/Machine/Bus.lean ====
section
/-! DEFINITION. The host's transactions (10_state.md R30, 20_memory.md R100, 45_control.md R470 to R478,
70_reset_and_hazards.md R600, R620) and how the machine advances: one transaction, or one element of the running job. -/

namespace Sys2Proof.Machine

/-! ### The register window -/

/-- An aligned 32-bit access inside the window (10_state.md R30). -/
def accessOk (offset bytes : Nat) : Bool := bytes == 4 && offset % 4 == 0 && decide (offset < 256)

/-- A read while BUSY: only ID and STATUS are defined (45_control.md R478, log entry 9). -/
def State.readBusy (offset : Nat) (s : State) : State :=
  if offset = 0x00 then { s with busData := Config.idValue }
  else if offset = 0x0C then { s with busData := s.statusWord }
  else { s with busData := Config.freeRead s.free, free := s.free + 1 }

/-- A read of a register (45_control.md R478). -/
def State.hostRead (offset : Nat) (s : State) : State :=
  if s.busy then s.readBusy offset else { s with busData := s.readRegister offset }

/-- A write of a register: CMD offers a command, BUSY or not; the others are lost while BUSY (45_control.md R470, R471,
R475 to R477). While reset is asserted every write is lost: the state holds its reset values (70_reset_and_hazards.md R600,
log entry 23). -/
def State.hostWrite (offset : Nat) (v : Word) (s : State) : Host.Outcome State Fault Refusal :=
  if s.inReset then .next s
  else if offset = 0x08 then exec (decodeCommand v) s
  else .next (if s.busy then s else s.writeRegister offset v)

/-- A bus write to the window at an offset (10_state.md R30). -/
def State.windowWrite (offset bytes : Nat) (v : Word) (s : State) : Host.Outcome State Fault Refusal :=
  if accessOk offset bytes then s.hostWrite offset v else .refused (.registerAccess offset bytes)

/-- A bus read of the window at an offset (10_state.md R30). -/
def State.windowRead (offset bytes : Nat) (s : State) : Host.Outcome State Fault Refusal :=
  if accessOk offset bytes then .next (s.hostRead offset) else .refused (.registerAccess offset bytes)

/-! ### The window in the host's address space -/

/-- The offset of a host address from REG_BASE (20_memory.md R100). -/
def State.windowOffset (s : State) (a : Word) : Nat := (a - s.regBase).toNat

/-- A host access that has a byte in the 256 of the window: it begins in them, or below them and runs into them
(20_memory.md R100, log entry 8). -/
def State.reachesWindow (s : State) (a : Word) (bytes : Nat) : Bool :=
  decide (s.windowOffset a < 256) || decide (2 ^ 32 < s.windowOffset a + bytes)

/-! ### System memory -/

/-- An address of a region (20_memory.md R101, R102). -/
def inRegion (base len a : Word) : Bool := decide (base.toNat ≤ a.toNat) && decide (a.toNat < base.toNat + len.toNat)

/-- An address of the input region. -/
def State.inInput (s : State) (a : Word) : Bool := inRegion s.inBase s.inLen a

/-- An address of the output region. -/
def State.inOutput (s : State) (a : Word) : Bool := inRegion s.outBase s.outLen a

/-- A host write to memory: in a region of the running job it disturbs the job (70_reset_and_hazards.md R620, log entry
11). -/
def State.hostMemWrite (a : Word) (b : Byte) (s : State) : State :=
  if s.busy then
    if s.inOutput a then { s with touched := true }
    else if s.inInput a then { s with touched := true, held := s.held ++ [(a, b)] }
    else { s with mem := s.mem.write a b }
  else { s with mem := s.mem.write a b }

/-- The byte of the last held write to an address. -/
def heldByte (a : Word) (otherwise : Byte) : List (Word × Byte) → Byte
  | [] => otherwise
  | (k, b) :: rest => heldByte a (if k = a then b else otherwise) rest

/-- A host read of memory: of the running job's output region it is unspecified and disturbs the job
(20_memory.md R118, 70_reset_and_hazards.md R620, log entry 11). -/
def State.hostMemRead (a : Word) (s : State) : State :=
  if s.busy && s.inOutput a then
    { s with busData := (Config.freeByte s.free a.toNat).setWidth 32, free := s.free + 1, touched := true }
  else { s with busData := (heldByte a (s.mem.read a) s.held).setWidth 32 }

/-! ### Reset -/

/-- The listed addresses of the output region, in the memory at the job's start and now. -/
def State.writtenAddresses (s : State) : List Nat :=
  ((s.memAtStart ++ s.mem).map (fun c => c.1)).filter (fun a => s.inOutput (BitVec.ofNat 32 a))

/-- The memory a reset leaves: of an abandoned job each output byte is its old or its new one (70_reset_and_hazards.md
R600, 93_implementation_defined.md U19, U20, log entries 11 and 12). -/
def State.memAfterReset (s : State) : Memory :=
  if s.busy then
    if s.touched then
      applyHeld (Memory.fill (Config.freeByte s.free) s.mem s.outBase s.outLen.toNat) s.held
    else Memory.blend (Config.freeChoice s.free) s.memAtStart s.mem s.writtenAddresses
  else s.mem

/-- Reset is asserted: from here every piece of state is at the value of 70_reset_and_hazards.md R601 (log entry 23). -/
def State.assertReset (s : State) : State :=
  State.underReset { s with mem := s.memAfterReset, free := if s.busy then s.free + 1 else s.free }

/-- Reset is released: the state holds its reset values still (70_reset_and_hazards.md R600, R602). -/
def State.releaseReset (s : State) : State := { s with inReset := false }

/-! ### One transaction, one element, one step -/

/-- One transaction of the host. -/
def hostStep (op : HostOp) (s : State) : Host.Outcome State Fault Refusal :=
  match op with
  | .write offset bytes v => s.windowWrite offset bytes v
  | .read offset bytes => s.windowRead offset bytes
  | .writeAt a bytes v => if s.reachesWindow a bytes then s.windowWrite (s.windowOffset a) bytes v else .next s
  | .readAt a bytes => if s.reachesWindow a bytes then s.windowRead (s.windowOffset a) bytes else .next s
  | .memWrite a b => .next (s.hostMemWrite a b)
  | .memRead a => .next (s.hostMemRead a)
  | .reset asserted => .next (if asserted then s.assertReset else s.releaseReset)

/-- One element of the running job. -/
def coreStep (s : State) : Host.Outcome State Fault Refusal :=
  match fetch s with
  | .instr i t => exec i t
  | .ended t => .next t
  | .fault f => .fault f

/-- The machine's step: while a job runs, its next element unless the host's next transaction is due; while none runs, the
host's next transaction, or nothing if there is none (log entries 1 to 3). -/
def advance (s : State) : Host.Outcome State Fault Refusal :=
  match s.bus with
  | [] => if s.busy then coreStep s else .next s
  | e :: rest =>
    if s.busy = true ∧ 0 < e.wait then coreStep { s with bus := { e with wait := e.wait - 1 } :: rest }
    else hostStep e.op { s with bus := rest }

end Sys2Proof.Machine
end

