-- ==== Sys2Proof/Machine/Stage.lean ====
section
/-! DEFINITION. Placing one instruction where the next step reads it: a command as the host's next transaction, a stream
element at its place of a running job, with the bits, and the tree a symbol is decoded with. Log entry 24. -/

namespace Sys2Proof.Machine

/-- The tree that holds one symbol, with the code `1`. -/
def oneSymbolTree (symbol : Nat) : Tree := treeOrEmpty (build (builderOf [(BitVec.ofNat 16 symbol, 1)]))

/-- Put `width` bits at the front of the window, zeros behind them. -/
def State.stageBits (width v : Nat) (s : State) : State :=
  { s with reader := { s.reader with win := BitVec.ofNat 64 v <<< (64 - width), bits := 63 } }

/-- Keep the next host transaction, if any, one step away. -/
def delayHost : List HostEvent → List HostEvent
  | [] => []
  | e :: rest => { e with wait := e.wait + 1 } :: rest

/-- A job standing at a place, the reset input released. -/
def State.stageAt (p : Phase) (s : State) : State := { s with phase := p, inReset := false, bus := delayHost s.bus }

/-- A command word as the host's next transaction (30_encoding.md R185). -/
def State.stageCommand (v : Nat) (s : State) : State :=
  { s with phase := .idle, inReset := false, bus := { wait := 0, op := .write 0x08 4 (BitVec.ofNat 32 v) } :: s.bus }

/-- The two words of a texture header: one in the window, one the next word of the input (20_memory.md R108). -/
def State.stageTexHeader (v : Nat) (s : State) : State :=
  let t := s.stageAt .texHeader
  { t with
    mem := t.mem.writeLE (t.inBase + 4) 4 (v / 2 ^ 32)
    reader :=
      { start := t.inBase, cursor := 4, remaining := 4, skip := .noSkip,
        win := BitVec.ofNat 64 (v % 2 ^ 32) <<< 32, bits := 32 } }

/-- A run of a pass. -/
def State.stageRun (pass : Pass) (width v : Nat) (s : State) : State :=
  let t := (s.stageAt .texRun).stageBits width v
  { t with tex := { t.tex with pass := pass } }

/-- The code TEX_DICT holds for a count. -/
def State.stageCount (count : Nat) (s : State) : State :=
  match findCode (BitVec.ofNat 16 count) texDict.codes with
  | some e => (s.stageAt .texCount).stageBits e.length e.code.toNat
  | none => s.stageAt .texCount

/-- The state in which the next step runs the instruction. -/
def stage (i : Instr) (s : State) : State :=
  match encode i with
  | (.command, v) => s.stageCommand v
  | (.datHeader, v) => (s.stageAt .datHeader).stageBits 8 v
  | (.datNSymbols, v) => (s.stageAt (.datNSymbols .sym)).stageBits 16 v
  | (.descriptor, v) => { (s.stageAt (.datDescriptor .sym)).stageBits 1 1 with datDict := oneSymbolTree v }
  | (.maxCount, v) => (s.stageAt .datMaxCount).stageBits 4 v
  | (.symSymbol, v) => { (s.stageAt .datItem).stageBits 1 1 with sym := oneSymbolTree v }
  | (.copySymbol, v) => { (s.stageAt .datDistance).stageBits 1 1 with copy := oneSymbolTree v }
  | (.texHeader, v) => s.stageTexHeader v
  | (.texFlag, v) => { s.stageAt .texFlag with tex := { s.tex with pending := BitVec.ofNat 4 v } }
  | (.texCount, v) => s.stageCount v
  | (.whiteRun, v) => s.stageRun .white 1 v
  | (.alphaStart4, v) => (s.stageAt (.texAlphaStart false)).stageBits 4 v
  | (.alphaStart8, v) => (s.stageAt (.texAlphaStart true)).stageBits 8 v
  | (.alphaRun, v) => s.stageRun (.alpha 0) 2 v
  | (.plainStart, v) => (s.stageAt .texPlainStart).stageBits 24 v
  | (.plainRun, v) => s.stageRun (.plain 0) 1 v
  | (.residueWord, v) => (s.stageAt .texAlphaResidue).stageBits 32 v
  | (.fourcc, v) => { s.stageAt .texFourcc with texFourcc := BitVec.ofNat 32 v }

end Sys2Proof.Machine
end

