-- ==== Sys2Proof/Safety.lean ====
section
/-! DEFINITION. The states the machine keeps to: the invariant every step keeps, in which no step faults. -/

namespace Sys2Proof.Machine

/-- The reader's invariant: 0 to 63 valid bits with zeros below them (10_state.md R50, R51), at least 32 of them unless the
input ran out (R52), a cursor that is a multiple of 4 (20_memory.md R109), a legal EveryNthWord policy (10_state.md R53), a
span inside the address space (20_memory.md R101). -/
structure Reader.Good (r : Reader) : Prop where
  few : r.bits ≤ 63
  zeroBelow : r.win <<< r.bits = 0
  filled : 32 ≤ r.bits ∨ r.remaining.toNat < 4
  aligned : r.cursor.toNat % 4 = 0
  policy : r.skip ≠ .everyNth 0 ∧ r.skip ≠ .everyNth 0xFFFF
  span : r.start.toNat + r.cursor.toNat + r.remaining.toNat ≤ 2 ^ 32

/-- A hash entry of a tree whose symbols are below a limit: a length 1 to 8 (10_state.md R55). -/
def hashGood (limit : Nat) : Option HashEntry → Bool
  | none => true
  | some e => decide (e.symbol.toNat < limit) && decide (1 ≤ e.bits) && decide (e.bits ≤ 8)

/-- A comparison entry: a length 9 to 31 (10_state.md R56). -/
def longGood (e : LongEntry) : Bool := decide (9 ≤ e.bits) && decide (e.bits ≤ 31)

/-- A tree whose symbols are below a limit (10_state.md R55, R56, 00_scope.md R10). -/
structure Tree.Good (limit : Nat) (t : Tree) : Prop where
  hashSize : t.hash.length = 256
  hash : t.hash.all (hashGood limit) = true
  long : t.long.all longGood = true
  symbols : t.symbols.all (fun s => decide (s.toNat < limit)) = true

/-- A builder: 31 lists of symbols 0 to 284 (10_state.md R59). -/
structure Builder.Good (b : Builder) : Prop where
  lengths : b.lists.length = 31
  symbols : b.lists.all (fun l => l.all (fun s => decide (s.toNat < Config.maxSymbols))) = true

/-- A texture job past its checks: the format record is that of its registers, the output region holds the texture, the
bitmaps have a bit for each block (44_texture_inflater.md R401, R402, 60_exceptions.md R513). -/
structure State.TextureGood (s : State) : Prop where
  format : ∃ flags ps, findFourcc s.texFourcc fourccTable = some (flags, ps) ∧
    s.fmt = formatRecord s.texWidth s.texHeight flags ps
  fits : s.fmt.outputSize ≤ s.outLen.toNat
  colour : s.tex.colorSet.length = s.fmt.nBlocks
  alpha : s.tex.alphaSet.length = s.fmt.nBlocks

/-- What holds of the job's own values at each place it can stand at (42_dat_inflater.md R320, 44_texture_inflater.md
R400). -/
def State.JobGood (s : State) : Prop :=
  match s.phase with
  | .idle => True
  | .datHeader => s.dat.outPos = 0
  | .datNSymbols _ => s.dat.outPos < s.outLen.toNat ∧ s.builder = emptyBuilder
  | .datDescriptor _ => s.dat.outPos < s.outLen.toNat ∧ 0 ≤ s.dat.remaining ∧ s.dat.remaining < Config.maxSymbols
  | .datMaxCount => s.dat.outPos < s.outLen.toNat
  | .datItem => s.dat.outPos < s.outLen.toNat ∧ s.dat.count < s.dat.maxCount
  | .datDistance => s.dat.outPos < s.outLen.toNat ∧ s.dat.count < s.dat.maxCount
  | .texFourcc => True
  | .texHeader => s.TextureGood
  | .texFlag => s.TextureGood ∧ s.tex.pending ≠ 0
  | .texAlphaStart _ => s.TextureGood
  | .texPlainStart => s.TextureGood
  | .texCount => s.TextureGood ∧ s.tex.pos < s.fmt.nBlocks
  | .texRun => s.TextureGood ∧ s.tex.pos < s.fmt.nBlocks ∧ 1 ≤ s.tex.code ∧ s.tex.code ≤ 18
  | .texAlphaResidue => s.TextureGood ∧ s.tex.pos < s.fmt.nBlocks ∧ s.fmt.hasAlphaResidue = true
  | .texColourResidue => s.TextureGood ∧ s.tex.pos < s.fmt.nBlocks ∧ s.fmt.hasColourResidue = true

/-- The invariant. Its last clause is 70_reset_and_hazards.md R600: while reset is asserted every piece of state holds its
reset value. -/
structure State.Inv (s : State) : Prop where
  mem : s.mem.wf = true
  memAtStart : s.memAtStart.wf = true
  reader : s.reader.Good
  sym : s.sym.Good Config.maxSymbols
  copy : s.copy.Good Config.maxSymbols
  datDict : s.datDict.Good 256
  builder : s.builder.Good
  quiet : s.phase = .idle → s.touched = false
  held : s.touched = false → s.held = []
  regions : s.phase ≠ .idle → s.checkRegions = none
  job : s.JobGood
  asserted : s.inReset = true → s = s.underReset

/-- A step that does not end the run with a fault. -/
def safeStep (s : State) : Prop := ∀ f, step s ≠ .fault f

/-- Addresses outside the output region of the running job. -/
def State.outside (s : State) (a : Word) : Prop := s.inOutput a = false

/-- `n` steps, while each answers a next state. -/
def runSteps : Nat → State → Option State
  | 0, s => some s
  | n + 1, s =>
    match step s with
    | .next t => runSteps n t
    | .fault _ => none
    | .refused _ => none

end Sys2Proof.Machine
end

