-- ==== Sys2Proof/Certificates/Slice0/Obligations.lean ====
section
/-! DEFINITION. The statements for the provers, from the numbered rules of spec/. The first part holds what they are
written with: the spec's tables, and the states its rules describe, as plain record updates. -/

namespace Sys2Proof.Machine

/-! ### The reader -/

/-- MemRead(a, n) (20_memory.md R104): the n bytes from `a`, the first the least significant. -/
def memRead (m : Memory) (a : Word) (n : Nat) : Nat :=
  ((List.range n).map fun j => (m.read (a + BitVec.ofNat 32 j)).toNat * 2 ^ (8 * j)).sum

/-- The next k bits as a number, 0 for k = 0 (40_bitreader.md R204). -/
def firstBits (r : Reader) (k : Nat) : Nat := r.win.toNat / 2 ^ (64 - k)

/-- The reader after a DROP of k bits it holds (40_bitreader.md R205). -/
def afterDrop (m : Memory) (r : Reader) (k : Nat) : Reader :=
  if r.bits - k < 32 then Reader.pull m { r with win := r.win <<< k, bits := r.bits - k }
  else { r with win := r.win <<< k, bits := r.bits - k }

/-- The policy of a skip code (10_state.md R53, 30_encoding.md R144). -/
def codedPolicy (code : BitVec 16) : SkipPolicy :=
  if code = 0x0000 then .noSkip else if code = 0xFFFF then .every64K else .everyNth code

/-- The reader a construction leaves: the first word, if the span holds one, in the window (40_bitreader.md R200, R202:
no policy skips word 0). -/
def freshReader (m : Memory) (a len : Word) (code : BitVec 16) : Reader :=
  if len.toNat < 4 then
    { start := a, cursor := 0, remaining := len, skip := codedPolicy code, win := 0, bits := 0 }
  else
    { start := a, cursor := 4, remaining := len - 4, skip := codedPolicy code,
      win := (m.readWord a).setWidth 64 <<< 32, bits := 32 }

/-- The final bit of a dat job (42_dat_inflater.md R341). -/
def finalBit (m : Memory) (r : Reader) : Reader := if r.bits = 0 then r else afterDrop m r 1

/-- The reader at the next word boundary of the stream (40_bitreader.md R208). -/
def alignedReader (r : Reader) : Reader :=
  if 32 ≤ r.bits then { r with win := r.win <<< (r.bits - 32), bits := 32 } else { r with win := 0, bits := 0 }

/-! ### Commands -/

/-- `s` after the command word `v`, accepted and completed with these codes, nothing else changed (45_control.md R470,
R473). -/
def State.completed (v : Word) (err stop : Byte) (s : State) : State :=
  { s with cmd := v, phase := .idle, status := { done := true, ign := false, err := err, stop := stop } }

/-- `s` after a running job ended with these codes and this OUT_COUNT, nothing else changed (45_control.md R473). -/
def State.finished (err stop : Byte) (count : Word) (s : State) : State :=
  { s with
    outCount := count
    memAtStart := []
    phase := .idle
    status := { done := true, ign := s.status.ign, err := err, stop := stop } }

/-- `s` after a job whose arguments are refused (60_exceptions.md R514). -/
def State.refusedJob (v : Word) (err : Byte) (s : State) : State :=
  { s.completed v err 0 with outCount := 0, memAtStart := [], touched := false, held := [] }

/-- `s` with a job accepted: BUSY, the four other status fields cleared (45_control.md R470). -/
def State.accepted (v : Word) (p : Phase) (s : State) : State :=
  { s with
    cmd := v
    phase := p
    status := { done := false, ign := false, err := 0, stop := 0 }
    memAtStart := s.mem
    touched := false
    held := [] }

/-- The input region (20_memory.md R101). -/
def State.inputHolds (s : State) (a : Word) : Prop := s.inBase.toNat ≤ a.toNat ∧ a.toNat < s.inBase.toNat + s.inLen.toNat

/-- The output region (20_memory.md R102). -/
def State.outputHolds (s : State) (a : Word) : Prop :=
  s.outBase.toNat ≤ a.toNat ∧ a.toNat < s.outBase.toNat + s.outLen.toNat

/-- No check of 60_exceptions.md R512 fails. -/
def State.regionsFit (s : State) : Prop :=
  s.inLen ≠ 0 ∧ s.outLen ≠ 0 ∧ s.inBase.toNat + s.inLen.toNat ≤ 2 ^ 32 ∧ s.outBase.toNat + s.outLen.toNat ≤ 2 ^ 32 ∧
    ∀ a, ¬(s.inputHolds a ∧ s.outputHolds a)

/-- The tree a tree id selects (30_encoding.md R145). -/
def State.treeOf (s : State) (id : Word) : Tree :=
  if id = 0 then s.sym else if id = 1 then s.copy else if id = 2 then s.datDict else texDict

/-- The (symbol, length) pairs of a builder in the order BUILD takes them (41_huffman.md R262, R263). -/
def Builder.pairs (b : Builder) : List (Symbol × Nat) :=
  (List.range' 1 31).flatMap fun len => (b.symbolsOf len).map fun s => (s, len)

/-! ### The dat stream -/

/-- OUT_COUNT of a dat job (42_dat_inflater.md R345). -/
def State.written (s : State) : Word := BitVec.ofNat 32 s.dat.outPos

/-- What follows an item already counted: the end of the job, the next item, or a new block (42_dat_inflater.md R324,
R334, R341). -/
def State.afterItem (s : State) : State :=
  if s.outLen.toNat ≤ s.dat.outPos then State.finished 0 0 s.written { s with reader := finalBit s.mem s.reader }
  else if s.dat.count < s.dat.maxCount then { s with phase := .datItem }
  else { s with builder := emptyBuilder, phase := .datNSymbols .sym }

/-- What follows a descriptor whose tree was built: the end of the job for an empty builder, the COPY descriptor after the
SYM tree, `max_count` after the COPY tree (42_dat_inflater.md R324, R331, R333). -/
def State.afterBuild (which : DatTree) (s : State) : State :=
  if s.builder.lists.all (fun l => l.isEmpty) then
    State.finished 0 0 s.written { s with reader := finalBit s.mem s.reader }
  else
    match which with
    | .sym => { s with builder := emptyBuilder, phase := .datNSymbols .copy }
    | .copy => { s with phase := .datMaxCount }

/-- What follows a descriptor entry: another entry, or the build (42_dat_inflater.md R325, R331). -/
def State.afterEntry (which : DatTree) (s : State) : State :=
  if 0 ≤ s.dat.remaining then { s with phase := .datDescriptor which }
  else
    match build s.builder with
    | .error _ => State.finished 0 7 s.written (s.setTree which emptyTree)
    | .ok t => State.afterBuild which (s.setTree which t)

/-- The length codes: `write_count` and `bit_count` (30_encoding.md R156). -/
def lengthTable : List (Instr × Nat × Nat) := [
  (.symLen0, 0, 0), (.symLen1, 1, 0), (.symLen2, 2, 0), (.symLen3, 3, 0), (.symLen4, 4, 0), (.symLen5, 5, 0),
  (.symLen6, 6, 0), (.symLen7, 7, 0), (.symLen8, 8, 1), (.symLen9, 10, 1), (.symLen10, 12, 1), (.symLen11, 14, 1),
  (.symLen12, 16, 2), (.symLen13, 20, 2), (.symLen14, 24, 2), (.symLen15, 28, 2), (.symLen16, 32, 3),
  (.symLen17, 40, 3), (.symLen18, 48, 3), (.symLen19, 56, 3), (.symLen20, 64, 4), (.symLen21, 80, 4),
  (.symLen22, 96, 4), (.symLen23, 112, 4), (.symLen24, 128, 5), (.symLen25, 160, 5), (.symLen26, 192, 5),
  (.symLen27, 224, 5), (.symLen28, 255, 0)]

/-- The valid distance codes: base and extra bits (30_encoding.md R158). -/
def distanceTable : List (Instr × Nat × Nat) := [
  (.copyDist0, 0, 0), (.copyDist1, 1, 0), (.copyDist2, 2, 0), (.copyDist3, 3, 0), (.copyDist4, 4, 1),
  (.copyDist5, 6, 1), (.copyDist6, 8, 2), (.copyDist7, 12, 2), (.copyDist8, 16, 3), (.copyDist9, 24, 3),
  (.copyDist10, 32, 4), (.copyDist11, 48, 4), (.copyDist12, 64, 5), (.copyDist13, 96, 5), (.copyDist14, 128, 6),
  (.copyDist15, 192, 6), (.copyDist16, 256, 7), (.copyDist17, 384, 7), (.copyDist18, 512, 8), (.copyDist19, 768, 8),
  (.copyDist20, 1024, 9), (.copyDist21, 1536, 9), (.copyDist22, 2048, 10), (.copyDist23, 3072, 10),
  (.copyDist24, 4096, 11), (.copyDist25, 6144, 11), (.copyDist26, 8192, 12), (.copyDist27, 12288, 12),
  (.copyDist28, 16384, 13), (.copyDist29, 24576, 13), (.copyDist30, 32768, 14), (.copyDist31, 49152, 14),
  (.copyDist32, 65536, 15), (.copyDist33, 98304, 15)]

/-! ### The texture stream -/

/-- A row of 43_texture_formats.md R380 and R385. -/
structure FormatRow where
  instr : Instr
  fourcc : Word
  flags : BitVec 10
  pixelBits : Nat
  bytesPerBlock : Nat
  twoComponents : Bool
  bytesPerComponent : Nat
deriving DecidableEq, Repr

/-- The recognised formats (43_texture_formats.md R380, R385). -/
def formatRows : List FormatRow := [
  ⟨.fourccDxt1, 0x31545844, 0x070, 4, 8, false, 8⟩,
  ⟨.fourccDxt2, 0x32545844, 0x0B0, 8, 16, true, 8⟩,
  ⟨.fourccDxt3, 0x33545844, 0x0B0, 8, 16, true, 8⟩,
  ⟨.fourccDxt4, 0x34545844, 0x0B0, 8, 16, true, 8⟩,
  ⟨.fourccDxt5, 0x35545844, 0x0B0, 8, 16, true, 8⟩,
  ⟨.fourccDxta, 0x41545844, 0x0A0, 4, 8, false, 8⟩,
  ⟨.fourccDxtl, 0x4C545844, 0x010, 8, 16, false, 16⟩,
  ⟨.fourccDxtn, 0x4E545844, 0x200, 8, 16, true, 8⟩,
  ⟨.fourcc3dcx, 0x58434433, 0x200, 8, 16, true, 8⟩]

/-- n_blocks of a size (43_texture_formats.md R381). -/
def blockCount (w h : Word) : Nat := ((w.toNat + 3) / 4) * ((h.toNat + 3) / 4)

/-- The format record of a row and a size (43_texture_formats.md R387). -/
def FormatRow.record (f : FormatRow) (w h : Word) : Format :=
  { flags := f.flags
    pixelBits := f.pixelBits
    width := w
    height := h
    nBlocks := blockCount w h
    bytesPerBlock := f.bytesPerBlock
    twoComponents := f.twoComponents
    bytesPerComponent := f.bytesPerComponent }

/-- OUT_COUNT of a texture job (44_texture_inflater.md R450). -/
def State.textureBytes (s : State) : Word := BitVec.ofNat 32 (s.fmt.bytesPerBlock * s.fmt.nBlocks)

/-- The blocks from `pos` on whose bit is clear, in ascending order. -/
def clearFrom (bits : List Bool) (n pos : Nat) : List Nat :=
  (List.range' pos (n - pos)).filter fun i => !bits.getD i false

/-- The blocks a run covers: the next `code` blocks whose target bit is 0 (44_texture_inflater.md R405). -/
def coveredBlocks (bits : List Bool) (n pos code : Nat) : List Nat := (clearFrom bits n pos).take code

/-- Where the pass stands after a run: behind its blocks and behind the set blocks that follow (44_texture_inflater.md
R405). -/
def resumeAt (bits : List Bool) (n pos code : Nat) : Nat := ((clearFrom bits n pos).drop code).headD n

/-- A bitmap with the bits of these blocks set. -/
def setAll (bits : List Bool) (blocks : List Nat) : List Bool := blocks.foldl (fun l i => l.set i true) bits

/-- The address of byte `j` of block `i` (44_texture_inflater.md R410). -/
def State.byteOf (s : State) (i j : Nat) : Word := s.outBase + BitVec.ofNat 32 (s.fmt.bytesPerBlock * i + j)

/-- `m` is the memory of `s` with these bytes at this offset of each of these blocks, and no other byte changed. -/
def State.blocksHold (s : State) (m : Memory) (blocks : List Nat) (offset : Nat) (bytes : List Byte) : Prop :=
  (∀ i ∈ blocks, ∀ j < bytes.length, m.read (s.byteOf i (offset + j)) = bytes.getD j 0) ∧
    ∀ a, (∀ i ∈ blocks, ∀ j < bytes.length, a ≠ s.byteOf i (offset + j)) → m.read a = s.mem.read a

/-- The colour residue from block `p` on (44_texture_inflater.md R446). -/
def State.colourResidue (p : Nat) (s : State) : State :=
  if s.fmt.flags &&& 0x210 = 0 then State.finished 0 0 s.textureBytes { s with tex := { s.tex with pos := p } }
  else
    match clearFrom s.tex.colorSet s.fmt.nBlocks p with
    | [] => State.finished 0 0 s.textureBytes { s with tex := { s.tex with pos := p } }
    | i :: _ => { s with tex := { s.tex with pos := i }, phase := .texColourResidue }

/-- The alpha residue from block `p` on, then the colour residue (44_texture_inflater.md R445, R446). -/
def State.alphaResidue (p : Nat) (s : State) : State :=
  if s.fmt.flags &&& 0x60 = 0x20 ∨ s.fmt.flags &&& 0x200 ≠ 0 then
    match clearFrom s.tex.alphaSet s.fmt.nBlocks p with
    | [] => s.colourResidue 0
    | i :: _ => { s with tex := { s.tex with pos := i }, phase := .texAlphaResidue }
  else s.colourResidue 0

/-- What follows a pass: the next set flag's pass, or the residue (44_texture_inflater.md R406, R444). -/
def State.afterPass (s : State) : State :=
  if s.tex.pending = 0 then
    State.alphaResidue 0 { s with reader := alignedReader s.reader, tex := { s.tex with second := false } }
  else { s with phase := .texFlag }

/-- What follows a run: another run while blocks are left, or the end of the pass (44_texture_inflater.md R405, R407). -/
def State.afterRun (s : State) : State :=
  if s.tex.pos < s.fmt.nBlocks then { s with phase := .texCount } else s.afterPass

/-- The four bytes of a word, the least significant first (20_memory.md R105). -/
def wordBytes (v : Word) : List Byte := [v.extractLsb' 0 8, v.extractLsb' 8 8, v.extractLsb' 16 8, v.extractLsb' 24 8]

/-- The count codes (30_encoding.md R168). -/
def countTable : List (Instr × Nat) := [
  (.texCount1, 1), (.texCount2, 2), (.texCount3, 3), (.texCount4, 4), (.texCount5, 5), (.texCount6, 6),
  (.texCount7, 7), (.texCount8, 8), (.texCount9, 9), (.texCount10, 10), (.texCount11, 11), (.texCount12, 12),
  (.texCount13, 13), (.texCount14, 14), (.texCount15, 15), (.texCount16, 16), (.texCount17, 17), (.texCount18, 18)]

/-- The codes of TEX_DICT: symbol, code value, length (30_encoding.md R168). -/
def texCodeTable : List (Symbol × Nat × Nat) := [
  (0x01, 0b1, 1), (0x12, 0b01, 2), (0x11, 0b001111, 6), (0x10, 0b001110, 6), (0x0F, 0b001101, 6), (0x0E, 0b001100, 6),
  (0x0D, 0b001011, 6), (0x0C, 0b001010, 6), (0x0B, 0b001001, 6), (0x0A, 0b001000, 6), (0x09, 0b000111, 6),
  (0x08, 0b000110, 6), (0x07, 0b000101, 6), (0x06, 0b000100, 6), (0x05, 0b000011, 6), (0x04, 0b000010, 6),
  (0x03, 0b000001, 6), (0x02, 0b000000, 6)]

/-- A channel value's `T1` and `comp`, with the constants S, H and M of its channel (44_texture_inflater.md R432, R433). -/
def channelParts (S H M c : Nat) : Nat × Nat :=
  let t1 := (c - (c >>> H)) >>> S
  (t1, 12 * (c - ((t1 <<< S) + (t1 >>> (8 - S - S)))) / (8 - if t1 &&& M = M then 1 else 0))

/-- (v1, v2) of a channel (44_texture_inflater.md R434). -/
def endPoints (p : Nat × Nat) : Nat × Nat :=
  (if p.2 < 6 then p.1 else p.1 + 1, if p.2 < 2 then p.1 else if p.2 < 6 then p.1 + 1 else if p.2 < 10 then p.1 else p.1 + 1)

/-- What PLAIN_BLOCK packs: color1, color2 and the index (44_texture_inflater.md R432 to R440), on numbers. -/
structure PlainParts where
  color1 : Nat
  color2 : Nat
  idx : Nat
deriving DecidableEq, Repr

/-- color1, color2 and tv1 after the ordering (44_texture_inflater.md R439), and the index (R440). -/
def orderedParts (special : Bool) (color1 color2 tv1 : Nat) : PlainParts :=
  let tv := if color1 ≤ color2 then 12 - tv1 else tv1
  { color1 := max color1 color2
    color2 := min color1 color2
    idx := if special then 2 else if tv < 2 then 0 else if tv < 6 then 2 else if tv < 10 then 3 else 1 }

/-- The end points and the index of a colour (44_texture_inflater.md R432 to R440). -/
def plainParts (red green blue : Nat) (deduced : Bool) : PlainParts :=
  let channels := [channelParts 3 5 0x11 red, channelParts 2 6 0x1111 green, channelParts 3 5 0x11 blue]
  let ends := channels.map endPoints
  let color1 := (ends.getD 0 (0, 0)).1 + (ends.getD 1 (0, 0)).1 * 32 + (ends.getD 2 (0, 0)).1 * 2048
  let color2 := (ends.getD 0 (0, 0)).2 + (ends.getD 1 (0, 0)).2 * 32 + (ends.getD 2 (0, 0)).2 * 2048
  let apart := channels.filter fun p => (endPoints p).1 != (endPoints p).2
  let tv2 := apart.length
  let sum := (apart.map fun p => if (endPoints p).1 = p.1 then p.2 else 12 - p.2).sum
  let tv1 := if tv2 = 0 then sum else (sum + tv2 / 2) / tv2
  let special := deduced && (tv1 == 5 || tv1 == 6 || tv2 != 0)
  if tv2 = 0 ∨ special = true then orderedParts special color1 color2 tv1
  else if color2 = 0xFFFF then orderedParts special (color1 - 1) color2 12
  else orderedParts special color1 (color2 + 1) 0

/-- The block of a colour (44_texture_inflater.md R441): color1, color2, the index in each of 16 two-bit slots. -/
def PlainParts.block (p : PlainParts) : BitVec 64 :=
  BitVec.ofNat 64 (p.color1 + p.color2 * 2 ^ 16 + p.idx * 0x55555555 * 2 ^ 32)

/-! ### Steps -/

/-- The host's next transaction, if any, is not due; `b` is what is left of them after the step (log entry 2). -/
def State.hostWaits (s : State) (b : List HostEvent) : Prop :=
  (s.bus = [] ∧ b = []) ∨ ∃ e rest, s.bus = e :: rest ∧ 0 < e.wait ∧ b = { e with wait := e.wait - 1 } :: rest

/-- The places where one fixed-width field is read (30_encoding.md R151, R165, R169). -/
def State.fieldPlace (s : State) : Option (ElemKind × Nat) :=
  match s.phase, s.tex.pass with
  | .datNSymbols _, _ => some (.datNSymbols, 16)
  | .datMaxCount, _ => some (.maxCount, 4)
  | .texAlphaStart false, _ => some (.alphaStart4, 4)
  | .texAlphaStart true, _ => some (.alphaStart8, 8)
  | .texPlainStart, _ => some (.plainStart, 24)
  | .texRun, .white => some (.whiteRun, 1)
  | .texRun, .plain _ => some (.plainRun, 1)
  | .texAlphaResidue, _ => some (.residueWord, 32)
  | .texColourResidue, _ => some (.residueWord, 32)
  | _, _ => none

/-- The places where a Huffman symbol is read, with the tree (30_encoding.md R151, R165). -/
def State.symbolPlace (s : State) : Option (ElemKind × Tree) :=
  match s.phase with
  | .datDescriptor _ => some (.descriptor, s.datDict)
  | .datItem => some (.symSymbol, s.sym)
  | .datDistance => some (.copySymbol, s.copy)
  | .texCount => some (.texCount, texDict)
  | _ => none

/-- The symbol the window starts with, and its length (41_huffman.md R270, R271). -/
def windowSymbol (t : Tree) (r : Reader) : Option (Symbol × Nat) :=
  t.resolve (firstBits r 8) (BitVec.ofNat 32 (firstBits r 32))

/-- The OUT_COUNT a stop leaves: the bytes written by a dat job, the texture's size by a texture job
(42_dat_inflater.md R345, 44_texture_inflater.md R450). -/
def State.stopCount (s : State) : Word :=
  match s.phase with
  | .datHeader | .datNSymbols _ | .datDescriptor _ | .datMaxCount | .datItem | .datDistance => s.written
  | _ => s.textureBytes

end Sys2Proof.Machine

open Sys2Proof Sys2Proof.Machine

/-! ## Commands -/

/-- R142, R472, R474. NOP, through the CMD register, does nothing but complete; STATUS then reads 2. The illegal words are
those with a non-zero byte above the opcode or an opcode outside the map; such a command completes with ERR = 5 and
changes nothing else. -/
def Obligations.NopAndIllegalWords : Prop :=
  (∀ s : State, s.phase = .idle →
    (s.inReset = false → hostStep (.write 0x08 4 0x00000000) s = .next (s.completed 0x00000000 0 0)) ∧
      exec .nop s = .next (s.completed 0x00000000 0 0) ∧ (s.completed 0x00000000 0 0).statusWord = 0x00000002) ∧
  ((∀ v : Word, decodeCommand v = .illegalCommand v ↔
      (v.extractLsb' 8 24 ≠ 0 ∨ v.extractLsb' 0 8 ∉
        ([0x00, 0x01, 0x02, 0x03, 0x10, 0x11, 0x12, 0x13, 0x14, 0x20, 0x21, 0x22, 0x23, 0x24] : List Byte))) ∧
    ∀ (v : Word) (s : State), s.phase = .idle → exec (.illegalCommand v) s = .next (s.completed v 5 0))

/-- R471. A command written while BUSY only sets IGN; the next acceptance clears IGN. -/
def Obligations.BusyCommandIsIgnored : Prop :=
  ∀ (v : Word) (s : State),
    (s.phase ≠ .idle → exec (decodeCommand v) s = .next { s with status := { s.status with ign := true } }) ∧
      (s.phase = .idle → ∃ t, exec (decodeCommand v) s = .next t ∧ t.status.ign = false ∧ t.cmd = v)

/-- R220, R200. BR_INIT in its three cases, BAD_ARGUMENT before REGION_WRAP. -/
def Obligations.BrInitConstructsReader : Prop :=
  ∀ s : State, s.phase = .idle →
    (0xFFFF < s.arg0.toNat → exec .brInit s = .next (s.completed 0x10 6 0)) ∧
    (s.arg0.toNat ≤ 0xFFFF → 2 ^ 32 < s.inBase.toNat + s.inLen.toNat →
      exec .brInit s = .next (s.completed 0x10 7 0)) ∧
    (s.arg0.toNat ≤ 0xFFFF → s.inBase.toNat + s.inLen.toNat ≤ 2 ^ 32 →
      exec .brInit s = .next
        { s.completed 0x10 0 0 with reader := freshReader s.mem s.inBase s.inLen (BitVec.ofNat 16 s.arg0.toNat) })

/-- R221, R222. BR_PEEK, which reads zeros past the valid bits of a reader that meets the window invariant; BR_READ, which
stops if fewer than k bits are valid. -/
def Obligations.PeekAndReadCommands : Prop :=
  (∀ s : State, s.phase = .idle →
    (32 < s.arg0.toNat → exec .brPeek s = .next (s.completed 0x11 6 0)) ∧
    (s.arg0.toNat ≤ 32 →
      exec .brPeek s = .next
        { s.completed 0x11 0 0 with result0 := BitVec.ofNat 32 (firstBits s.reader s.arg0.toNat) }) ∧
    (s.arg0.toNat ≤ 32 → s.reader.Good → s.reader.bits < s.arg0.toNat →
      firstBits s.reader s.arg0.toNat = firstBits s.reader s.reader.bits * 2 ^ (s.arg0.toNat - s.reader.bits))) ∧
  (∀ s : State, s.phase = .idle →
    (32 < s.arg0.toNat → exec .brRead s = .next (s.completed 0x12 6 0)) ∧
    (s.arg0.toNat ≤ 32 → s.reader.bits < s.arg0.toNat → exec .brRead s = .next (s.completed 0x12 0 1)) ∧
    (s.arg0.toNat ≤ 32 → s.arg0.toNat ≤ s.reader.bits →
      exec .brRead s = .next
        { s.completed 0x12 0 0 with result0 := BitVec.ofNat 32 (firstBits s.reader s.arg0.toNat) }))

/-- R223, R224. BR_DROP and BR_TAKE; BR_TAKE with k = 32 returns `head`. -/
def Obligations.DropAndTakeCommands : Prop :=
  (∀ s : State, s.phase = .idle →
    (32 < s.arg0.toNat → exec .brDrop s = .next (s.completed 0x13 6 0)) ∧
    (s.arg0.toNat ≤ 32 → s.reader.bits < s.arg0.toNat → exec .brDrop s = .next (s.completed 0x13 0 1)) ∧
    (s.arg0.toNat ≤ 32 → s.arg0.toNat ≤ s.reader.bits →
      exec .brDrop s = .next { s.completed 0x13 0 0 with reader := afterDrop s.mem s.reader s.arg0.toNat })) ∧
  (∀ s : State, s.phase = .idle →
    (32 < s.arg0.toNat → exec .brTake s = .next (s.completed 0x14 6 0)) ∧
    (s.arg0.toNat ≤ 32 → s.reader.bits < s.arg0.toNat → exec .brTake s = .next (s.completed 0x14 0 1)) ∧
    (s.arg0.toNat ≤ 32 → s.arg0.toNat ≤ s.reader.bits →
      exec .brTake s = .next
        { s.completed 0x14 0 0 with
          result0 := BitVec.ofNat 32 (firstBits s.reader s.arg0.toNat)
          reader := afterDrop s.mem s.reader s.arg0.toNat }) ∧
    (s.arg0 = 32 → BitVec.ofNat 32 (firstBits s.reader s.arg0.toNat) = s.reader.head))

/-! ## The BitReader -/

/-- R201, R202. When each policy skips the word at a cursor. PULL: at most one word skipped, and only if a whole word
remains; then the little-endian word of the four bytes at start + cursor placed right behind the valid bits, or none if
fewer than 4 bytes remain. R104, R106. The model's reads of a word and of a byte are MemRead(a, 4) and MemRead(a, 1). -/
def Obligations.PullSkipsAndLoadsWords : Prop :=
  (∀ p : Nat, p % 4 = 0 →
    skipApplies .noSkip p = false ∧
    (∀ n : BitVec 16, n ≠ 0 → (skipApplies (.everyNth n) p = true ↔ (p / 4 + 1) % n.toNat = 0 ∧ p / 4 ≠ 0)) ∧
    (skipApplies .every64K p = true ↔ ∃ m, p = 65524 + 65536 * m)) ∧
  (∀ (m : Memory) (r : Reader), r.win <<< r.bits = 0 → r.bits < 32 →
    ∀ q, q = (if skipApplies r.skip r.cursor.toNat = true ∧ 4 ≤ r.remaining.toNat
        then { r with cursor := r.cursor + 4, remaining := r.remaining - 4 } else r) →
      (q.remaining.toNat < 4 → Reader.pull m r = q) ∧
      (4 ≤ q.remaining.toNat →
        ∃ w : BitVec 64,
          Reader.pull m r =
            { q with cursor := q.cursor + 4, remaining := q.remaining - 4, win := w, bits := r.bits + 32 } ∧
          w.toNat = r.win.toNat + memRead m (q.start + q.cursor) 4 * 2 ^ (32 - r.bits))) ∧
  ∀ (m : Memory) (a : Word), (m.readWord a).toNat = memRead m a 4 ∧ (m.read a).toNat = memRead m a 1

/-- R203. The source's two-word form of the merge is the form on the whole window. -/
def Obligations.MergeIsTwoWordForm : Prop :=
  ∀ (r : Reader) (v : Word), r.win <<< r.bits = 0 → r.bits < 32 →
    (r.merge v).head = (if r.bits = 0 then v else r.head ||| (v >>> r.bits)) ∧
      (r.merge v).buffer = (if r.bits = 0 then 0 else v <<< (32 - r.bits)) ∧
      (r.merge v).win = r.win ||| (v.setWidth 64 <<< (32 - r.bits)) ∧
      32 ≤ (r.merge v).bits ∧ (r.merge v).bits ≤ 63

/-- R16, R107, R207. A field taken in two parts is the field taken whole, the first part its high bits; the reader is left
the same. -/
def Obligations.TakeIsSequential : Prop :=
  ∀ (m : Memory) (r r₁ r₂ : Reader) (k j : Nat) (v w : Word), r.Good → k + j ≤ 32 → k + j ≤ r.bits →
    Reader.take m r k = .ok (v, r₁) → Reader.take m r₁ j = .ok (w, r₂) →
      Reader.take m r (k + j) = .ok (BitVec.ofNat 32 (v.toNat * 2 ^ j + w.toNat), r₂)

/-- R208. ALIGN32 never stops, and leaves a whole word or nothing. -/
def Obligations.AlignReachesWordBoundary : Prop :=
  ∀ (m : Memory) (r : Reader), r.Good →
    Reader.drop m r (r.bits % 32) = .ok (alignedReader r) ∧ Reader.align32 m r = alignedReader r

/-! ## Huffman trees -/

/-- R252, R274, R275. HB_CLEAR. HB_ADD: the four refusals, else the symbol appended to its length's list. -/
def Obligations.BuilderCommands : Prop :=
  (∀ s : State, s.phase = .idle →
    ∃ b : Builder, exec .hbClear s = .next { s.completed 0x20 0 0 with builder := b } ∧
      (∀ len, b.symbolsOf len = []) ∧ (∀ x, b.present x = false) ∧ b.noSymbols = true) ∧
  (∀ s : State, s.phase = .idle → s.builder.lists.length = 31 →
    ((284 < s.arg0.toNat ∨ s.arg1.toNat < 1 ∨ 31 < s.arg1.toNat ∨
        s.builder.present (BitVec.ofNat 16 s.arg0.toNat) = true) →
      exec .hbAdd s = .next (s.completed 0x21 6 0)) ∧
    (s.arg0.toNat ≤ 284 → 1 ≤ s.arg1.toNat → s.arg1.toNat ≤ 31 →
      s.builder.present (BitVec.ofNat 16 s.arg0.toNat) = false →
      ∃ b : Builder, exec .hbAdd s = .next { s.completed 0x21 0 0 with builder := b } ∧
        b.symbolsOf s.arg1.toNat = s.builder.symbolsOf s.arg1.toNat ++ [BitVec.ofNat 16 s.arg0.toNat] ∧
        (∀ len, len ≠ s.arg1.toNat → b.symbolsOf len = s.builder.symbolsOf len) ∧
        ∀ x, b.present x = (s.builder.present x || x == BitVec.ofNat 16 s.arg0.toNat)))

/-- R277. HB_BUILD: the tree id, the stop that empties the target, the build. -/
def Obligations.HbBuildReplacesTree : Prop :=
  ∀ s : State, s.phase = .idle →
    (1 < s.arg0.toNat → exec .hbBuild s = .next (s.completed 0x22 6 0)) ∧
    (∀ e, build s.builder = .error e →
      (s.arg0 = 0 → exec .hbBuild s = .next { s.completed 0x22 0 7 with sym := emptyTree }) ∧
      (s.arg0 = 1 → exec .hbBuild s = .next { s.completed 0x22 0 7 with copy := emptyTree })) ∧
    (∀ t v, build s.builder = .ok t → v = (if s.builder.lists.all (fun l => l.isEmpty) then 0 else 1) →
      (s.arg0 = 0 → exec .hbBuild s = .next { s.completed 0x22 0 0 with sym := t, result0 := v }) ∧
      (s.arg0 = 1 → exec .hbBuild s = .next { s.completed 0x22 0 0 with copy := t, result0 := v }))

/-- R267, R268 (b). A build stops exactly if the lengths violate Kraft's inequality, and only with OVERSUBSCRIBED. -/
def Obligations.BuildStopsIffKraftFails : Prop :=
  ∀ b : Builder, b.Good →
    ((∃ t, build b = .ok t) ↔
      ((List.range' 1 31).map fun len => (b.symbolsOf len).length * 2 ^ (31 - len)).sum ≤ 2 ^ 31) ∧
    ∀ e, build b = .error e → e = .oversubscribed

/-- R263, R268 (a), (c). The codes of a build: every pair gets one of its length, in build order. The first code is all
ones, and each next one, left-aligned, ends exactly where the one before it starts: the evolution (code << 1) + 1 at every
length and code - 1 at every symbol. So they are strictly decreasing when left-aligned and prefix-free. -/
def Obligations.BuildAssignsCanonicalCodes : Prop :=
  ∀ (b : Builder) (t : Tree), b.Good → build b = .ok t →
    t.codes.map (fun c => (c.symbol, c.length)) = b.pairs ∧
    (∀ c ∈ t.codes, c.code.toNat < 2 ^ c.length) ∧
    (∀ c rest, t.codes = c :: rest → c.code.toNat = 2 ^ c.length - 1) ∧
    (∀ before c d after, t.codes = before ++ c :: d :: after →
      (d.code.toNat + 1) * 2 ^ (32 - d.length) = c.code.toNat * 2 ^ (32 - c.length)) ∧
    t.codes.Pairwise fun c d =>
      c.length ≤ d.length ∧ (d.code.toNat + 1) * 2 ^ (32 - d.length) ≤ c.code.toNat * 2 ^ (32 - c.length)

/-- R268, R270, R271. Any bits that start with the code of a symbol decode to that symbol and its length, on the hash path
and on the comparison path. -/
def Obligations.EveryCodeDecodesToItsSymbol : Prop :=
  ∀ (b : Builder) (t : Tree), b.Good → build b = .ok t →
    ∀ c ∈ t.codes, ∀ v : Word, v.toNat / 2 ^ (32 - c.length) = c.code.toNat →
      t.resolve (v.toNat / 2 ^ 24) v = some (c.symbol, c.length)

/-- R268, R272. What decodes is a code: bits that start no code decode to nothing. -/
def Obligations.OnlyCodesDecode : Prop :=
  ∀ (b : Builder) (t : Tree), b.Good → build b = .ok t →
    ∀ (v : Word) (x : Symbol) (len : Nat), t.resolve (v.toNat / 2 ^ 24) v = some (x, len) →
      ∃ c ∈ t.codes, c.symbol = x ∧ c.length = len ∧ v.toNat / 2 ^ (32 - len) = c.code.toNat

/-- R278. HT_DECODE: the tree id, the two stops, the symbol and its length. -/
def Obligations.HtDecodeReadsSymbol : Prop :=
  ∀ s : State, s.phase = .idle →
    (3 < s.arg0.toNat → exec .htDecode s = .next (s.completed 0x23 6 0)) ∧
    (s.arg0.toNat ≤ 3 →
      (windowSymbol (s.treeOf s.arg0) s.reader = none → exec .htDecode s = .next (s.completed 0x23 0 2)) ∧
      ∀ x len, windowSymbol (s.treeOf s.arg0) s.reader = some (x, len) →
        (s.reader.bits < len → exec .htDecode s = .next (s.completed 0x23 0 1)) ∧
        (len ≤ s.reader.bits →
          exec .htDecode s = .next
            { s.completed 0x23 0 0 with
              result0 := BitVec.ofNat 32 x.toNat
              result1 := BitVec.ofNat 32 len
              reader := afterDrop s.mem s.reader len }))

/-- R276. HT_CODE: the code of a symbol the tree holds, else 0 and 0. -/
def Obligations.HtCodeReturnsCode : Prop :=
  ∀ s : State, s.phase = .idle →
    ((3 < s.arg0.toNat ∨ 0xFFFF < s.arg1.toNat) → exec .htCode s = .next (s.completed 0x24 6 0)) ∧
    (s.arg0.toNat ≤ 3 → s.arg1.toNat ≤ 0xFFFF →
      ((∀ c ∈ (s.treeOf s.arg0).codes, c.symbol ≠ BitVec.ofNat 16 s.arg1.toNat) →
        exec .htCode s = .next { s.completed 0x24 0 0 with result0 := 0, result1 := 0 }) ∧
      ∀ before c after, (s.treeOf s.arg0).codes = before ++ c :: after →
        (∀ d ∈ before, d.symbol ≠ BitVec.ofNat 16 s.arg1.toNat) → c.symbol = BitVec.ofNat 16 s.arg1.toNat →
        exec .htCode s = .next
          { s.completed 0x24 0 0 with result0 := c.code, result1 := BitVec.ofNat 32 c.length })

/-- R280, R168. The content of TEX_DICT: its hash entries, no long code, the table of its codes. -/
def Obligations.TexDictContent : Prop :=
  (∀ h < 256,
    texDict.hashEntry h =
      some (if 0x80 ≤ h then ⟨0x01, 1⟩ else if 0x40 ≤ h then ⟨0x12, 2⟩ else ⟨BitVec.ofNat 16 (h / 4 + 2), 6⟩)) ∧
    texDict.long = [] ∧
    texDict.codes = texCodeTable.map (fun c => ⟨c.1, BitVec.ofNat 32 c.2.1, c.2.2⟩)

/-! ## Texture formats -/

/-- R386, R387, R389. TEX_FORMAT for each recognised FourCC, its views saturated, and its error for any other. -/
def Obligations.TexFormatComputesRecord : Prop :=
  ∀ s : State, s.phase = .idle →
    ((∀ f ∈ formatRows, s.texFourcc ≠ f.fourcc) → exec .texFormat s = .next (s.completed 0x03 4 0)) ∧
    ∀ f ∈ formatRows, s.texFourcc = f.fourcc →
      ∃ t, exec .texFormat s = .next t ∧
        t = { s.completed 0x03 0 0 with
              fmt := f.record s.texWidth s.texHeight
              result0 := BitVec.ofNat 32 (min (f.bytesPerBlock * blockCount s.texWidth s.texHeight) 0xFFFFFFFF) } ∧
        t.readRegister 0x5C = BitVec.ofNat 32 f.flags.toNat ∧
        t.readRegister 0x60 = BitVec.ofNat 32 (min (blockCount s.texWidth s.texHeight) 0xFFFFFFFF) ∧
        t.readRegister 0x64 = BitVec.ofNat 32
          (f.pixelBits + f.bytesPerBlock * 2 ^ 8 + f.bytesPerComponent * 2 ^ 16 +
            if f.twoComponents then 2 ^ 24 else 0)

/-- R513. Each recognised FourCC of a texture job: too small an output, too many blocks, else the decode opens on a fresh
reader with clear bitmaps. -/
def Obligations.FourccOpensTexture : Prop :=
  ∀ s : State, s.phase = .texFourcc → s.touched = false → ∀ f ∈ formatRows,
    (s.outLen.toNat < f.bytesPerBlock * blockCount s.texWidth s.texHeight →
      exec f.instr s = .next (s.finished 3 0 0)) ∧
    (f.bytesPerBlock * blockCount s.texWidth s.texHeight ≤ s.outLen.toNat →
      (∀ cap, s.maxBlocks = some cap → cap < blockCount s.texWidth s.texHeight →
        exec f.instr s = .next (s.finished 9 0 0)) ∧
      ((∀ cap, s.maxBlocks = some cap → blockCount s.texWidth s.texHeight ≤ cap) →
        exec f.instr s = .next
          { s with
            fmt := f.record s.texWidth s.texHeight
            tex := { s.tex with
              colorSet := List.replicate (blockCount s.texWidth s.texHeight) false
              alphaSet := List.replicate (blockCount s.texWidth s.texHeight) false }
            reader := freshReader s.mem s.inBase s.inLen 0x0000
            phase := .texHeader }))

/-! ## Jobs -/

/-- R322, R512, R103. The argument errors of INFLATE_DAT, the first that fails: OUT_COUNT becomes 0 and nothing else
changes. Past them, a fresh reader over the whole input region under Every64KMinus12Bytes, the header next. -/
def Obligations.InflateDatChecksAndStarts : Prop :=
  (∀ s : State, s.phase = .idle →
    (s.inLen = 0 → exec .inflateDat s = .next (s.refusedJob 0x01 1)) ∧
    (s.inLen ≠ 0 → s.outLen = 0 → exec .inflateDat s = .next (s.refusedJob 0x01 2)) ∧
    (s.inLen ≠ 0 → s.outLen ≠ 0 → 2 ^ 32 < s.inBase.toNat + s.inLen.toNat →
      exec .inflateDat s = .next (s.refusedJob 0x01 7)) ∧
    (s.inLen ≠ 0 → s.outLen ≠ 0 → s.inBase.toNat + s.inLen.toNat ≤ 2 ^ 32 →
      2 ^ 32 < s.outBase.toNat + s.outLen.toNat → exec .inflateDat s = .next (s.refusedJob 0x01 7)) ∧
    (s.inLen ≠ 0 → s.outLen ≠ 0 → s.inBase.toNat + s.inLen.toNat ≤ 2 ^ 32 →
      s.outBase.toNat + s.outLen.toNat ≤ 2 ^ 32 → (∃ a, s.inputHolds a ∧ s.outputHolds a) →
      exec .inflateDat s = .next (s.refusedJob 0x01 8))) ∧
  (∀ s : State, s.phase = .idle → s.regionsFit →
    exec .inflateDat s = .next
      { s.accepted 0x01 .datHeader with
        dat := { s.dat with outPos := 0 }
        reader := freshReader s.mem s.inBase s.inLen 0xFFFF })

/-- R513 (1). INFLATE_TEXTURE makes the five region checks first; past them its FourCC is next. -/
def Obligations.InflateTextureStarts : Prop :=
  ∀ s : State, s.phase = .idle →
    (s.inLen = 0 → exec .inflateTexture s = .next (s.refusedJob 0x02 1)) ∧
    (s.inLen ≠ 0 → s.outLen = 0 → exec .inflateTexture s = .next (s.refusedJob 0x02 2)) ∧
    (s.inLen ≠ 0 → s.outLen ≠ 0 → 2 ^ 32 < s.inBase.toNat + s.inLen.toNat →
      exec .inflateTexture s = .next (s.refusedJob 0x02 7)) ∧
    (s.inLen ≠ 0 → s.outLen ≠ 0 → s.inBase.toNat + s.inLen.toNat ≤ 2 ^ 32 →
      2 ^ 32 < s.outBase.toNat + s.outLen.toNat → exec .inflateTexture s = .next (s.refusedJob 0x02 7)) ∧
    (s.inLen ≠ 0 → s.outLen ≠ 0 → s.inBase.toNat + s.inLen.toNat ≤ 2 ^ 32 →
      s.outBase.toNat + s.outLen.toNat ≤ 2 ^ 32 → (∃ a, s.inputHolds a ∧ s.outputHolds a) →
      exec .inflateTexture s = .next (s.refusedJob 0x02 8)) ∧
    (s.regionsFit → exec .inflateTexture s = .next (s.accepted 0x02 .texFourcc))

/-! ## The dat stream -/

/-- R323, R333, R159. The dat header sets DAT_HDR and W, the SYM descriptor next; max_count is (raw + 1) · 4096, and the
items begin. -/
def Obligations.DatHeaderAndMaxCount : Prop :=
  (∀ (s : State) (method wraw : BitVec 4), s.phase = .datHeader → s.dat.outPos < s.outLen.toNat →
    exec (.datHeader method wraw) s = .next
      { s with
        datHdr := BitVec.ofNat 8 (wraw.toNat * 16 + method.toNat)
        dat := { s.dat with w := wraw.toNat + 1 }
        builder := emptyBuilder
        phase := .datNSymbols .sym }) ∧
  (∀ (s : State) (raw : BitVec 4), s.phase = .datMaxCount → s.dat.outPos < s.outLen.toNat →
    exec (.datMaxCount raw) s = .next
      { s with dat := { s.dat with maxCount := (raw.toNat + 1) * 4096, count := 0 }, phase := .datItem })

/-- R326. n_symbols: 286 and above stop, 1 to 285 start the entries at n_symbols - 1, 0 describes the empty tree and ends
the job (R331, R341). -/
def Obligations.NSymbolsStartsDescriptor : Prop :=
  ∀ (s : State) (which : DatTree) (n : BitVec 16), s.phase = .datNSymbols which → s.touched = false →
    (285 < n.toNat → exec (.datNSymbols n) s = .next (s.finished 0 5 s.written)) ∧
    (1 ≤ n.toNat → n.toNat ≤ 285 →
      exec (.datNSymbols n) s = .next
        { s with dat := { s.dat with remaining := (n.toNat : Int) - 1 }, phase := .datDescriptor which }) ∧
    (n = 0 → s.builder = emptyBuilder →
      exec (.datNSymbols n) s = .next
        (State.finished 0 0 s.written
          { s.setTree which emptyTree with
            dat := { s.dat with remaining := -1 }
            reader := finalBit s.mem s.reader }))

/-- R329, R330, R522. A skip entry passes r + 1 indices, below -1 if it must, and adds nothing. An add entry gives r + 1
descending indices the length; one that runs below index 0 stops, its earlier additions kept. -/
def Obligations.DescriptorEntries : Prop :=
  (∀ (s : State) (which : DatTree) (r : BitVec 3), s.phase = .datDescriptor which → s.touched = false →
    exec (.datDescSkip r) s = .next
      (State.afterEntry which { s with dat := { s.dat with remaining := s.dat.remaining - (r.toNat + 1) } })) ∧
  (∀ (s : State) (which : DatTree) (r : BitVec 3) (len : BitVec 5), len ≠ 0 → s.Inv → s.touched = false →
    s.phase = .datDescriptor which →
    ∃ b : Builder,
      b.symbolsOf len.toNat = s.builder.symbolsOf len.toNat ++
        (List.range (min (r.toNat + 1) (s.dat.remaining.toNat + 1))).map
          (fun j => BitVec.ofNat 16 (s.dat.remaining.toNat - j)) ∧
      (∀ other, other ≠ len.toNat → b.symbolsOf other = s.builder.symbolsOf other) ∧
      (r.toNat ≤ s.dat.remaining.toNat →
        exec (.datDescAdd r len) s = .next
          (State.afterEntry which
            { s with builder := b, dat := { s.dat with remaining := s.dat.remaining - (r.toNat + 1) } })) ∧
      (s.dat.remaining.toNat < r.toNat →
        exec (.datDescAdd r len) s = .next
          (State.finished 0 6 s.written { s with builder := b, dat := { s.dat with remaining := -1 } })))

/-- R335, R334. A literal stores its byte at OUT_BASE + out_pos, no other byte, and counts as an item. -/
def Obligations.LiteralStoresOneByte : Prop :=
  ∀ (s : State) (byte : Byte), s.Inv → s.touched = false → s.phase = .datItem →
    ∃ m : Memory,
      exec (.symLiteral byte) s = .next
        (State.afterItem
          { s with mem := m, dat := { s.dat with outPos := s.dat.outPos + 1, count := s.dat.count + 1 } }) ∧
      m.read (s.outBase + BitVec.ofNat 32 s.dat.outPos) = byte ∧
      ∀ a, a ≠ s.outBase + BitVec.ofNat 32 s.dat.outPos → m.read a = s.mem.read a

/-- R336, R156. The 29 length codes: the length is (write_count | E) + W; a short extra field stops. -/
def Obligations.LengthCodesSetLength : Prop :=
  ∀ s : State, s.phase = .datItem → s.touched = false → ∀ c ∈ lengthTable,
    (c.2.2 = 0 →
      exec c.1 s = .next { s with dat := { s.dat with copyLen := c.2.1 + s.dat.w }, phase := .datDistance }) ∧
    (0 < c.2.2 → s.reader.bits < c.2.2 → exec c.1 s = .next (s.finished 0 1 s.written)) ∧
    (0 < c.2.2 → c.2.2 ≤ s.reader.bits →
      exec c.1 s = .next
        { s with
          reader := afterDrop s.mem s.reader c.2.2
          dat := { s.dat with copyLen := c.2.1 + firstBits s.reader c.2.2 + s.dat.w }
          phase := .datDistance })

/-- R337, R338, R339, R158. The 34 valid distance codes: a short extra field stops; a distance beyond the bytes written
stops after its bits are read; else the copy, each byte the one `dist` before it, at most to the end of the output. A code
34 to 284 stops, no extra bit read. -/
def Obligations.DistanceCodesCopyBack : Prop :=
  (∀ s : State, s.Inv → s.touched = false → s.phase = .datDistance → ∀ c ∈ distanceTable,
    (s.reader.bits < c.2.2 → exec c.1 s = .next (s.finished 0 1 s.written)) ∧
    (c.2.2 ≤ s.reader.bits →
      ∀ r dist n, r = (if c.2.2 = 0 then s.reader else afterDrop s.mem s.reader c.2.2) →
        dist = c.2.1 + firstBits s.reader c.2.2 + 1 →
        n = min s.dat.copyLen (s.outLen.toNat - s.dat.outPos) →
        (s.dat.outPos < dist → exec c.1 s = .next (State.finished 0 4 s.written { s with reader := r })) ∧
        (dist ≤ s.dat.outPos →
          ∃ m : Memory,
            exec c.1 s = .next
              (State.afterItem
                { s with
                  reader := r
                  mem := m
                  dat := { s.dat with outPos := s.dat.outPos + n, count := s.dat.count + 1 } }) ∧
            (∀ j < n,
              m.read (s.outBase + BitVec.ofNat 32 (s.dat.outPos + j)) =
                m.read (s.outBase + BitVec.ofNat 32 (s.dat.outPos + j - dist))) ∧
            ∀ a, (∀ j < n, a ≠ s.outBase + BitVec.ofNat 32 (s.dat.outPos + j)) → m.read a = s.mem.read a))) ∧
  (∀ (s : State) (d : Symbol), s.phase = .datDistance → s.touched = false →
    exec (.copyInvalid d) s = .next (s.finished 0 3 s.written))

/-! ## The texture stream -/

/-- R404, R166, R167. The texture header: both words shown, the four defined flags kept, the first pass or the residue
next. -/
def Obligations.TexHeaderSelectsPasses : Prop :=
  ∀ (s : State) (size flags : Word), s.Inv → s.touched = false → s.phase = .texHeader →
    exec (.texHeader size flags) s = .next
      (State.afterPass
        { s with
          texDsize := size
          texCflags := flags
          tex := { s.tex with pending := BitVec.ofNat 4 (flags.toNat % 16) } })

/-- R406, R410, R415, R430, R168, R405. The four compression flags begin their passes, the white pass with its first run,
the others with their field; the 18 count codes set the run's count. -/
def Obligations.FlagsAndCountCodes : Prop :=
  (∀ s : State, s.Inv → s.touched = false → s.phase = .texFlag →
    exec .texCflagWhite s = .next
        (State.afterRun { s with tex := { s.tex with pending := s.tex.pending &&& 0b1110, pass := .white, pos := 0 } }) ∧
      exec .texCflagConstA4 s = .next
        { s with tex := { s.tex with pending := s.tex.pending &&& 0b1101 }, phase := .texAlphaStart false } ∧
      exec .texCflagConstA8 s = .next
        { s with tex := { s.tex with pending := s.tex.pending &&& 0b1011 }, phase := .texAlphaStart true } ∧
      exec .texCflagPlain s = .next
        { s with tex := { s.tex with pending := s.tex.pending &&& 0b0111 }, phase := .texPlainStart }) ∧
  (∀ s : State, s.phase = .texCount → ∀ c ∈ countTable,
    exec c.1 s = .next { s with tex := { s.tex with code := c.2 }, phase := .texRun })

/-- R416, R431, R432 to R441. The pass-start fields: the replicated nibble or the byte, the block of the colour split by the
parameter's order, its end points and index by the spec's arithmetic; the runs begin at block 0. -/
def Obligations.PassStartsSetPattern : Prop :=
  ∀ s : State, s.Inv → s.touched = false →
    (s.phase = .texAlphaStart false → ∀ a : Byte, a.toNat < 16 →
      exec (.texAlphaStart false a) s = .next
        (State.afterRun { s with tex := { s.tex with pass := .alpha (BitVec.ofNat 8 (a.toNat * 17)), pos := 0 } })) ∧
    (s.phase = .texAlphaStart true → ∀ a : Byte,
      exec (.texAlphaStart true a) s = .next
        (State.afterRun { s with tex := { s.tex with pass := .alpha a, pos := 0 } })) ∧
    (s.phase = .texPlainStart → ∀ x : BitVec 24, ∀ lo mid hi block,
      lo = x.toNat % 256 → mid = x.toNat / 256 % 256 → hi = x.toNat / 65536 →
      block = (match s.rgbOrder with
        | .le24 => (plainParts hi mid lo (s.fmt.flags.getLsbD 6)).block
        | .seq8 => (plainParts lo mid hi (s.fmt.flags.getLsbD 6)).block) →
      exec (.texPlainStart x) s = .next
        (State.afterRun { s with tex := { s.tex with pass := .plain block, pos := 0 } }))

/-- R410, R405. A white run with value 1 stores the pattern in the covered blocks and sets both bits of each; with value 0
it only passes them. -/
def Obligations.WhiteRunWritesPattern : Prop :=
  ∀ (s : State) (value : Bool), s.Inv → s.touched = false → s.phase = .texRun → s.tex.pass = .white →
    ∀ l, l = (if value then coveredBlocks s.tex.colorSet s.fmt.nBlocks s.tex.pos s.tex.code else []) →
      ∃ m : Memory,
        exec (.texWhiteRun value) s = .next
          (State.afterRun
            { s with
              mem := m
              tex := { s.tex with
                colorSet := setAll s.tex.colorSet l
                alphaSet := setAll s.tex.alphaSet l
                pos := resumeAt s.tex.colorSet s.fmt.nBlocks s.tex.pos s.tex.code } }) ∧
        s.blocksHold m l 0 [0xFE, 0xFF, 0xFF, 0xFF, 0xFF, 0xFF, 0xFF, 0xFF]

/-- R418, R417, R405. A constant-alpha run with value 1 stores the pattern, or zeros, in bytes_per_component bytes of the
covered blocks and sets their alpha bit. -/
def Obligations.AlphaRunWritesPattern : Prop :=
  ∀ (s : State) (value notNull : Bool) (byte : Byte), s.Inv → s.touched = false → s.phase = .texRun →
    s.tex.pass = .alpha byte →
    ∀ l, l = (if value then coveredBlocks s.tex.alphaSet s.fmt.nBlocks s.tex.pos s.tex.code else []) →
      ∃ m : Memory,
        exec (.texAlphaRun value notNull) s = .next
          (State.afterRun
            { s with
              mem := m
              tex := { s.tex with
                alphaSet := setAll s.tex.alphaSet l
                pos := resumeAt s.tex.alphaSet s.fmt.nBlocks s.tex.pos s.tex.code } }) ∧
        s.blocksHold m l 0 (List.replicate s.fmt.bytesPerComponent (if notNull then byte else 0))

/-- R442, R405. A plain-colour run with value 1 stores the block, zero-extended to bytes_per_component bytes, behind the
alpha half if there is one, and sets the colour bits. -/
def Obligations.PlainRunWritesBlock : Prop :=
  ∀ (s : State) (value : Bool) (block : BitVec 64), s.Inv → s.touched = false → s.phase = .texRun →
    s.tex.pass = .plain block →
    ∀ l, l = (if value then coveredBlocks s.tex.colorSet s.fmt.nBlocks s.tex.pos s.tex.code else []) →
      ∃ m : Memory,
        exec (.texPlainRun value) s = .next
          (State.afterRun
            { s with
              mem := m
              tex := { s.tex with
                colorSet := setAll s.tex.colorSet l
                pos := resumeAt s.tex.colorSet s.fmt.nBlocks s.tex.pos s.tex.code } }) ∧
        s.blocksHold m l (if s.fmt.twoComponents then s.fmt.bytesPerComponent else 0)
          ((List.range s.fmt.bytesPerComponent).map fun j => BitVec.ofNat 8 (block.toNat / 2 ^ (8 * j)))

/-- R445, R446, R108. A residue word is stored unchanged at its slot; after a block's second word the next clear block, or
the colour residue, or the end of the job. -/
def Obligations.ResidueWordIsCopied : Prop :=
  ∀ (s : State) (word : Word), s.Inv → s.touched = false →
    ∀ half, half = (if s.tex.second then 4 else 0) →
      (s.phase = .texAlphaResidue →
        ∃ m : Memory,
          exec (.texResidueWord word) s = .next
            (if s.tex.second then
              State.alphaResidue (s.tex.pos + 1) { s with mem := m, tex := { s.tex with second := false } }
            else { s with mem := m, tex := { s.tex with second := true } }) ∧
          s.blocksHold m [s.tex.pos] half (wordBytes word)) ∧
      (s.phase = .texColourResidue →
        ∃ m : Memory,
          exec (.texResidueWord word) s = .next
            (if s.tex.second then
              State.colourResidue (s.tex.pos + 1) { s with mem := m, tex := { s.tex with second := false } }
            else { s with mem := m, tex := { s.tex with second := true } }) ∧
          s.blocksHold m [s.tex.pos] ((if s.fmt.twoComponents then s.fmt.bytesPerComponent else 0) + half)
            (wordBytes word))

/-- R432 to R441, R443. The plain-colour arithmetic over every input: its ranges, and color1, color2 and the index of the
block as the spec's arithmetic gives them. -/
def Obligations.PlainColourRanges : Prop :=
  (∀ c < 256, rebuild5 (approx5 c) ≤ c ∧ c - rebuild5 (approx5 c) ≤ 8 ∧
      (channel5 c).comp ∈ [0, 1, 3, 4, 5, 6, 7, 8, 9, 10, 12, 13] ∧
      rebuild6 (approx6 c) ≤ c ∧ c - rebuild6 (approx6 c) ≤ 4 ∧ (channel6 c).comp ∈ [0, 1, 3, 4, 6]) ∧
    ((List.range 256).filter fun c => approx5 c &&& 0x11 == 0x11).length = 60 ∧
    (∀ c < 256, approx6 c &&& 0x1111 ≠ 0x1111) ∧
    ∀ r < 256, ∀ g < 256, ∀ b < 256, ∀ block : BitVec 64, ∀ deduced : Bool, block = plainBlock r g b deduced →
      (block.extractLsb' 0 16).toNat = (plainParts r g b deduced).color1 ∧
      (block.extractLsb' 16 16).toNat = (plainParts r g b deduced).color2 ∧
      (block.extractLsb' 32 32).toNat = (plainParts r g b deduced).idx * 0x55555555 ∧
      (deduced = false → block.extractLsb' 32 32 = 0 ∨ block.extractLsb' 32 32 = 0x55555555) ∧
      (deduced = true → block.extractLsb' 32 32 =
        if (channel5 r).v1 = (channel5 r).v2 ∧ (channel6 g).v1 = (channel6 g).v2 ∧ (channel5 b).v1 = (channel5 b).v2
        then 0x55555555 else 0xAAAAAAAA) ∧
      ((channel5 r).v1 = (channel5 r).v2 → (channel6 g).v1 = (channel6 g).v2 → (channel5 b).v1 = (channel5 b).v2 →
        block.extractLsb' 0 16 = block.extractLsb' 16 16 ∧ block.extractLsb' 32 32 = 0x55555555)

/-! ## Steps -/

/-- R30, R185, R470. A due CMD write, reset not asserted, runs the command its word decodes to. -/
def Obligations.StepRunsCommand : Prop :=
  ∀ (s : State) (e : HostEvent) (rest : List HostEvent) (v : Word), s.bus = e :: rest → e.op = .write 0x08 4 v →
    s.inReset = false → (s.phase = .idle ∨ e.wait = 0) → step s = exec (decodeCommand v) { s with bus := rest }

/-- R150, R151, R165, R207. A job at a fixed field takes its bits and runs the element they are. -/
def Obligations.StepRunsField : Prop :=
  ∀ (s : State) (b : List HostEvent) (kind : ElemKind) (k : Nat) (i : Instr), s.hostWaits b →
    s.fieldPlace = some (kind, k) → k ≤ s.reader.bits → decode kind (firstBits s.reader k) = .ok i →
    step s = exec i { s with bus := b, reader := afterDrop s.mem s.reader k }

/-- R151, R165, R270. A job at a Huffman code decodes a symbol with the place's tree and runs the element it is. -/
def Obligations.StepRunsSymbol : Prop :=
  ∀ (s : State) (b : List HostEvent) (kind : ElemKind) (tree : Tree) (x : Symbol) (len : Nat) (i : Instr),
    s.hostWaits b → s.symbolPlace = some (kind, tree) → windowSymbol tree s.reader = some (x, len) →
    len ≤ s.reader.bits → decode kind x.toNat = .ok i →
    step s = exec i { s with bus := b, reader := afterDrop s.mem s.reader len }

/-- R167, R323, R404, R406, R417. The elements of two fields: the dat header, the texture header, the fields of a
constant-alpha run, whose second bit is consumed only if the first is 1. The elements read from registers: the lowest flag
whose pass has not run, and the FourCC, an unknown one being INVALID_FOURCC. -/
def Obligations.StepRunsHeadersAndSelectors : Prop :=
  (∀ (s : State) (b : List HostEvent), s.hostWaits b →
    (s.phase = .datHeader → ∀ r, r = afterDrop s.mem s.reader 4 → 4 ≤ s.reader.bits → 4 ≤ r.bits →
      step s = exec (.datHeader (BitVec.ofNat 4 (firstBits s.reader 4)) (BitVec.ofNat 4 (firstBits r 4)))
        { s with bus := b, reader := afterDrop s.mem r 4 }) ∧
    (s.phase = .texHeader → ∀ r, r = afterDrop s.mem s.reader 32 → 32 ≤ s.reader.bits → 32 ≤ r.bits →
      step s = exec (.texHeader (BitVec.ofNat 32 (firstBits s.reader 32)) (BitVec.ofNat 32 (firstBits r 32)))
        { s with
          bus := b, texDsize := BitVec.ofNat 32 (firstBits s.reader 32), reader := afterDrop s.mem r 32 }) ∧
    (s.phase = .texRun → (∃ byte, s.tex.pass = .alpha byte) → ∀ r, r = afterDrop s.mem s.reader 1 →
      1 ≤ s.reader.bits → 1 ≤ r.bits →
      step s = exec (.texAlphaRun (firstBits s.reader 1 == 1) (firstBits r 1 == 1))
        { s with bus := b, reader := if firstBits s.reader 1 = 1 then afterDrop s.mem r 1 else r })) ∧
  (∀ (s : State) (b : List HostEvent), s.hostWaits b →
    (s.phase = .texFlag → ∀ k < 4, s.tex.pending.getLsbD k = true → (∀ j < k, s.tex.pending.getLsbD j = false) →
      step s = exec ([Instr.texCflagWhite, .texCflagConstA4, .texCflagConstA8, .texCflagPlain].getD k .nop)
        { s with bus := b }) ∧
    (s.phase = .texFourcc →
      (∀ f ∈ formatRows, s.texFourcc = f.fourcc → step s = exec f.instr { s with bus := b }) ∧
      ((∀ f ∈ formatRows, s.texFourcc ≠ f.fourcc) → s.touched = false →
        step s = .next (State.finished 4 0 0 { s with bus := b }))))

/-- R206, R272, R273, R522. A field or code that runs past the last valid bit stops the job with EXHAUSTED, bits that
start no code with INVALID_CODE; the reader is left as the field found it. R323, R404, R417: the places of two fields. A
short dat header keeps DAT_HDR; a texture header short of its second word has written TEX_DSIZE; the value of a
constant-alpha run that is the last valid bit stops the job, whatever it is. -/
def Obligations.StepStopsAtShortStream : Prop :=
  ∀ (s : State) (b : List HostEvent), s.hostWaits b → s.touched = false →
    (∀ kind k, s.fieldPlace = some (kind, k) → s.reader.bits < k →
      step s = .next (State.finished 0 1 s.stopCount { s with bus := b })) ∧
    (∀ kind tree, s.symbolPlace = some (kind, tree) →
      (windowSymbol tree s.reader = none → step s = .next (State.finished 0 2 s.stopCount { s with bus := b })) ∧
      ∀ x len, windowSymbol tree s.reader = some (x, len) → s.reader.bits < len →
        step s = .next (State.finished 0 1 s.stopCount { s with bus := b })) ∧
    (s.phase = .datHeader →
      (s.reader.bits < 4 → step s = .next (State.finished 0 1 s.written { s with bus := b })) ∧
      ∀ r, r = afterDrop s.mem s.reader 4 → 4 ≤ s.reader.bits → r.bits < 4 →
        step s = .next (State.finished 0 1 s.written { s with bus := b, reader := r })) ∧
    (s.phase = .texHeader →
      (s.reader.bits < 32 → step s = .next (State.finished 0 1 s.textureBytes { s with bus := b })) ∧
      ∀ r, r = afterDrop s.mem s.reader 32 → 32 ≤ s.reader.bits → r.bits < 32 →
        step s = .next
          (State.finished 0 1 s.textureBytes
            { s with bus := b, reader := r, texDsize := BitVec.ofNat 32 (firstBits s.reader 32) })) ∧
    (s.phase = .texRun → (∃ byte, s.tex.pass = .alpha byte) →
      (s.reader.bits < 1 → step s = .next (State.finished 0 1 s.textureBytes { s with bus := b })) ∧
      ∀ r, r = afterDrop s.mem s.reader 1 → 1 ≤ s.reader.bits → r.bits < 1 →
        step s = .next (State.finished 0 1 s.textureBytes { s with bus := b, reader := r }))

/-- R30 to R34, R36 to R49, R478. Reads of the register window. Idle: every register of the map, 0 at CMD and at the reserved offsets,
nothing but the value returned changes. BUSY: ID and STATUS are defined; any other read returns a free value, the n-th an
opaque constant of n (the model's choice, log entry 9), and has no effect on the machine. -/
def Obligations.RegisterReads : Prop :=
  (∀ s : State, s.phase = .idle → ∀ offset < 256, offset % 4 = 0 →
    hostStep (.read offset 4) s = .next { s with busData := s.readRegister offset } ∧
      s.readRegister 0x00 = 0x43325747 ∧
      (offset = 0x08 ∨ 0x74 ≤ offset → s.readRegister offset = 0) ∧
      (s.readRegister 0x04).getLsbD 0 = s.ie ∧ (s.readRegister 0x04).extractLsb' 1 31 = 0 ∧
      (s.readRegister 0x0C).getLsbD 0 = false ∧ (s.readRegister 0x0C).getLsbD 1 = s.status.done ∧
      (s.readRegister 0x0C).getLsbD 2 = s.status.ign ∧ (s.readRegister 0x0C).extractLsb' 3 5 = 0 ∧
      (s.readRegister 0x0C).extractLsb' 8 8 = s.status.err ∧ (s.readRegister 0x0C).extractLsb' 16 8 = s.status.stop ∧
      (s.readRegister 0x0C).extractLsb' 24 8 = 0 ∧
      [0x10, 0x14, 0x18, 0x1C, 0x20, 0x24, 0x28, 0x2C, 0x30, 0x34, 0x38, 0x3C].map s.readRegister =
        [s.inBase, s.inLen, s.outBase, s.outLen, s.texWidth, s.texHeight, s.texFourcc, s.arg0, s.arg1, s.result0,
          s.result1, s.outCount] ∧
      [0x40, 0x44, 0x48, 0x4C, 0x58, 0x68, 0x6C].map s.readRegister =
        [s.reader.cursor, s.reader.remaining, s.reader.win.extractLsb' 32 32, s.reader.win.extractLsb' 0 32,
          s.reader.start, s.texCflags, s.texDsize] ∧
      (s.reader.bits ≤ 63 → s.readRegister 0x50 = BitVec.ofNat 32 s.reader.bits) ∧
      (s.reader.skip = .noSkip → s.readRegister 0x54 = 0x00000000) ∧
      (∀ n : BitVec 16, s.reader.skip = .everyNth n → s.readRegister 0x54 = BitVec.ofNat 32 n.toNat) ∧
      (s.reader.skip = .every64K → s.readRegister 0x54 = 0x0000FFFF) ∧
      s.readRegister 0x5C = BitVec.ofNat 32 s.fmt.flags.toNat ∧
      s.readRegister 0x60 = BitVec.ofNat 32 (min s.fmt.nBlocks 0xFFFFFFFF) ∧
      s.readRegister 0x64 = BitVec.ofNat 32
        (s.fmt.pixelBits % 2 ^ 8 + s.fmt.bytesPerBlock % 2 ^ 8 * 2 ^ 8 + s.fmt.bytesPerComponent % 2 ^ 8 * 2 ^ 16 +
          if s.fmt.twoComponents then 2 ^ 24 else 0) ∧
      s.readRegister 0x70 = BitVec.ofNat 32 s.datHdr.toNat) ∧
  (∀ s : State, s.phase ≠ .idle → ∀ offset < 256, offset % 4 = 0 →
    (offset = 0x00 → hostStep (.read offset 4) s = .next { s with busData := 0x43325747 }) ∧
    (offset = 0x0C → hostStep (.read offset 4) s = .next { s with busData := s.statusWord } ∧
      s.statusWord.getLsbD 0 = true) ∧
    (offset ≠ 0x00 → offset ≠ 0x0C →
      hostStep (.read offset 4) s = .next { s with busData := Config.freeRead s.free, free := s.free + 1 }))

/-- R475, R476, R477. Writes of the register window while idle, reset not asserted, and that none but a CMD write has an effect while BUSY. -/
def Obligations.RegisterWrites : Prop :=
  ∀ (s : State) (v : Word),
    (s.phase = .idle → s.inReset = false →
      hostStep (.write 0x04 4 v) s = .next { s with ie := v.getLsbD 0 } ∧
      (v.getLsbD 1 = true → hostStep (.write 0x0C 4 v) s = .next { s with status := { s.status with done := false } }) ∧
      (v.getLsbD 1 = false → hostStep (.write 0x0C 4 v) s = .next s) ∧
      hostStep (.write 0x10 4 v) s = .next { s with inBase := v } ∧
      hostStep (.write 0x14 4 v) s = .next { s with inLen := v } ∧
      hostStep (.write 0x18 4 v) s = .next { s with outBase := v } ∧
      hostStep (.write 0x1C 4 v) s = .next { s with outLen := v } ∧
      hostStep (.write 0x20 4 v) s = .next { s with texWidth := v } ∧
      hostStep (.write 0x24 4 v) s = .next { s with texHeight := v } ∧
      hostStep (.write 0x28 4 v) s = .next { s with texFourcc := v } ∧
      hostStep (.write 0x2C 4 v) s = .next { s with arg0 := v } ∧
      hostStep (.write 0x30 4 v) s = .next { s with arg1 := v } ∧
      (hostStep (.write 0x00 4 v) s = .next s ∧
        ∀ o < 256, o % 4 = 0 → 0x34 ≤ o → hostStep (.write o 4 v) s = .next s)) ∧
    (s.phase ≠ .idle → ∀ o < 256, o % 4 = 0 → o ≠ 0x08 → hostStep (.write o 4 v) s = .next s)

/-- R30, U18. A register access of another width or alignment is refused. Choice of the model, log entry 21: so is an
aligned 32-bit access at an offset of 256 or above, which R30 and U18 do not speak of. An aligned 32-bit access inside the
window completes or, at CMD, runs a command. -/
def Obligations.OtherAccessesAreRefused : Prop :=
  ∀ (s : State) (offset bytes : Nat) (v : Word),
    (¬(bytes = 4 ∧ offset % 4 = 0) ∨ 256 ≤ offset →
      hostStep (.write offset bytes v) s = .refused (.registerAccess offset bytes) ∧
        hostStep (.read offset bytes) s = .refused (.registerAccess offset bytes)) ∧
    (bytes = 4 ∧ offset % 4 = 0 ∧ offset < 256 →
      (∃ t, hostStep (.read offset bytes) s = .next t) ∧ ∃ t, hostStep (.write offset bytes v) s = .next t)

/-- R600, R601, R602, U19. Reset asserted, due at any time: every piece of state at its reset value but the constants; no
byte of memory outside the output region of an abandoned job changes, each byte inside is its old or its new one. While it
is asserted a write to any register, CMD too, is lost, every register reads its reset value and no job runs (log entry 23).
Its release changes nothing else. What every register reads at reset. -/
def Obligations.ResetRestoresState : Prop :=
  (∀ (s : State) (e : HostEvent) (rest : List HostEvent), s.Inv → s.bus = e :: rest →
    (s.phase = .idle ∨ e.wait = 0) →
    (e.op = .reset true →
      ∃ (m : Memory) (n : Nat),
        step s = .next
          { State.reset with
            datDict := s.datDict
            maxBlocks := s.maxBlocks
            rgbOrder := s.rgbOrder
            regBase := s.regBase
            inReset := true
            mem := m
            free := n
            bus := rest
            busData := s.busData } ∧
        (s.phase = .idle → m = s.mem) ∧
        (s.phase ≠ .idle → s.touched = false →
          (∀ a, ¬s.outputHolds a → m.read a = s.mem.read a) ∧
          ∀ a, m.read a = s.mem.read a ∨ m.read a = s.memAtStart.read a)) ∧
    (e.op = .reset false → step s = .next { s with bus := rest, inReset := false })) ∧
  (∀ (s : State) (v : Word), s.Inv → s.inReset = true →
    s.phase = .idle ∧ s.irq = false ∧
      ∀ offset < 256, offset % 4 = 0 →
        hostStep (.write offset 4 v) s = .next s ∧
          hostStep (.read offset 4) s = .next { s with busData := if offset = 0 then 0x43325747 else 0 }) ∧
  (State.reset.readRegister 0x00 = 0x43325747 ∧
    (∀ offset < 256, offset ≠ 0 → State.reset.readRegister offset = 0) ∧ State.reset.irq = false ∧
    State.reset.phase = .idle ∧ State.reset.inReset = false)

/-- R530. In every state the interrupt line is IE and DONE. After a command it is high exactly if the command completed and
IE is set; after an element of a running job, DONE being 0 while BUSY (a condition every step keeps), exactly if the job
ended there and IE is set; clearing DONE or IE lowers it, setting IE while DONE raises it. -/
def Obligations.InterruptFollowsDone : Prop :=
  (∀ s : State, s.irq = true ↔ s.ie = true ∧ s.status.done = true) ∧
  (∀ (s : State) (v : Word), s.phase = .idle →
    (∃ t, exec (decodeCommand v) s = .next t ∧ (t.irq = true ↔ s.ie = true ∧ t.phase = .idle)) ∧
    (s.inReset = false →
      (∃ t, hostStep (.write 0x0C 4 0x00000002) s = .next t ∧ t.irq = false) ∧
      ∃ t, hostStep (.write 0x04 4 v) s = .next t ∧ (t.irq = true ↔ v.getLsbD 0 = true ∧ s.status.done = true))) ∧
  (∀ (i : Instr) (s t : State), s.phase ≠ .idle → s.status.done = false → exec i s = .next t →
    (t.irq = true ↔ s.ie = true ∧ t.phase = .idle)) ∧
  ∀ s t : State, (s.phase ≠ .idle → s.status.done = false) → step s = .next t → t.phase ≠ .idle → t.status.done = false

/-! ## Frames over all instructions -/

/-- R481, R282, R477. No instruction writes an argument register, IE, a dictionary, a parameter or the reset input. -/
def Obligations.InstructionsKeepArguments : Prop :=
  ∀ (i : Instr) (s t : State), exec i s = .next t →
    t.ie = s.ie ∧ t.inBase = s.inBase ∧ t.inLen = s.inLen ∧ t.outBase = s.outBase ∧ t.outLen = s.outLen ∧
      t.texWidth = s.texWidth ∧ t.texHeight = s.texHeight ∧ t.texFourcc = s.texFourcc ∧ t.arg0 = s.arg0 ∧
      t.arg1 = s.arg1 ∧ t.datDict = s.datDict ∧ t.maxBlocks = s.maxBlocks ∧ t.rgbOrder = s.rgbOrder ∧
      t.regBase = s.regBase ∧ t.inReset = s.inReset ∧ t.bus = s.bus ∧ t.busData = s.busData

/-- R35, R45, R46. RESULT0 and RESULT1 change only by the commands whose rules write them, completing without error or
stop; no instruction of an undisturbed job leaves ERR and STOP both non-zero. -/
def Obligations.ResultsAndCodes : Prop :=
  (∀ (i : Instr) (s t : State), exec i s = .next t →
    (t.result0 ≠ s.result0 →
      i ∈ [Instr.texFormat, .brPeek, .brRead, .brTake, .hbBuild, .htDecode, .htCode] ∧ t.status.err = 0 ∧
        t.status.stop = 0) ∧
    (t.result1 ≠ s.result1 → i ∈ [Instr.htDecode, .htCode] ∧ t.status.err = 0 ∧ t.status.stop = 0)) ∧
  (∀ (i : Instr) (s t : State), exec i s = .next t → s.touched = false → (s.status.err = 0 ∨ s.status.stop = 0) →
    t.status.err = 0 ∨ t.status.stop = 0)

/-- R141, R113. Only a literal, a valid distance code, a run and a residue word store to memory: any other instruction of
an undisturbed job, and any command, leaves every byte. -/
def Obligations.OtherInstructionsStoreNothing : Prop :=
  ∀ (i : Instr) (s t : State), exec i s = .next t → s.touched = false →
    (∀ byte, i ≠ .symLiteral byte) → (∀ c ∈ distanceTable, i ≠ c.1) → (∀ v, i ≠ .texWhiteRun v) →
    (∀ v n, i ≠ .texAlphaRun v n) → (∀ v, i ≠ .texPlainRun v) → (∀ w, i ≠ .texResidueWord w) →
    ∀ a, t.mem.read a = s.mem.read a

/-! ## Encodings -/

/-- R141, R152, R154, R156, R158, R167, R380. Words written from the spec's encodings decode to their instructions. -/
def Obligations.SpecWordsDecode : Prop :=
  decode .command 0x00000010 = .ok .brInit ∧ decode .command 0x00000100 = .ok (.illegalCommand 0x00000100) ∧
    decode .datHeader 0b10100011 = .ok (.datHeader 10 3) ∧ decode .descriptor 0b01000101 = .ok (.datDescAdd 2 5) ∧
    decode .descriptor 0b11100000 = .ok (.datDescSkip 7) ∧ decode .symSymbol 0x058 = .ok (.symLiteral 0x58) ∧
    decode .symSymbol 0x108 = .ok .symLen8 ∧ decode .copySymbol 33 = .ok .copyDist33 ∧
    decode .copySymbol 34 = .ok (.copyInvalid 34) ∧ decode .texFlag 0x04 = .ok .texCflagConstA8 ∧
    decode .texCount 0x12 = .ok .texCount18 ∧ decode .alphaRun 0b10 = .ok (.texAlphaRun true false) ∧
    decode .fourcc 0x58434433 = .ok .fourcc3dcx

/-- R140 to R171. Every well-formed instruction, with every operand, is read back from its encoding. -/
def Obligations.DecodeReadsEncoding : Prop := ∀ i : Instr, i.wf = true → decode (encode i).1 (encode i).2 = .ok i

/-- R140 to R171, R180. Whatever a place's bits decode to is well-formed and has exactly those bits as its encoding there:
no two encodings of a place share an instruction, no bit is dropped. -/
def Obligations.EncodingReadsDecoded : Prop :=
  ∀ (kind : ElemKind) (v : Nat) (i : Instr), v < 2 ^ kind.width → decode kind v = .ok i →
    i.wf = true ∧ encode i = (kind, v)

/-! ## The whole machine -/

/-- R51, R52, R53, R55, R56, R59, R70, R109, R600. Every step keeps the invariant of Safety.lean. -/
def Obligations.StepKeepsInvariant : Prop := ∀ s t : State, s.Inv → step s = .next t → t.Inv

/-- R601. The invariant holds at reset. -/
def Obligations.InvariantAtReset : Prop := State.reset.Inv

/-- R524. From a state that meets the invariant a step never faults, and it is refused only for a register access the
window does not take. -/
def Obligations.StepNeverFaults : Prop :=
  ∀ s : State, s.Inv →
    (∃ t, step s = .next t) ∨
      ∃ e rest o n, s.bus = e :: rest ∧ step s = .refused (.registerAccess o n) ∧
        ((∃ v, e.op = .write o n v) ∨ e.op = .read o n ∨
          ∃ a : Word, o = (a - s.regBase).toNat ∧ ((∃ v, e.op = .writeAt a n v) ∨ e.op = .readAt a n))

/-- R111, R39, R450. An element of an undisturbed job changes no byte outside the output region. -/
def Obligations.JobWritesOnlyOutputRegion : Prop :=
  ∀ (s t : State) (b : List HostEvent), s.Inv → s.phase ≠ .idle → s.hostWaits b → s.touched = false →
    step s = .next t → ∀ a, ¬s.outputHolds a → t.mem.read a = s.mem.read a

/-- R524, R347, R452, R631. A running job left alone by the host comes to its completion: some number of steps leads to a
state with BUSY = 0 and DONE = 1. -/
def Obligations.EveryJobCompletes : Prop :=
  ∀ s : State, s.Inv → s.phase ≠ .idle → s.bus = [] →
    ∃ n t, runSteps n s = some t ∧ t.phase = .idle ∧ t.status.done = true

/-- R620, U20. A host access to memory disturbs a running job exactly if it writes the input region or reads or writes the
output region; elsewhere, and while idle, the byte is stored or returned and the job is not disturbed. The end of a
disturbed job differs from an undisturbed end only in STOP, OUT_COUNT and memory (and the model's own fields); outside the
output region memory holds the host's own held writes alone. The model's choices, log entry 11: a write to the output
region is lost in the free bytes, one to the input region is held to the end of the job, a read of the output region
returns a free byte, a read of the input region the host's own last write. -/
def Obligations.DisturbedJobStillCompletes : Prop :=
  (∀ (s : State) (a : Word) (b : Byte), s.Inv →
    (s.phase ≠ .idle → s.outputHolds a → hostStep (.memWrite a b) s = .next { s with touched := true }) ∧
    (s.phase ≠ .idle → ¬s.outputHolds a → s.inputHolds a →
      hostStep (.memWrite a b) s = .next { s with touched := true, held := s.held ++ [(a, b)] }) ∧
    (s.phase = .idle ∨ (¬s.outputHolds a ∧ ¬s.inputHolds a) →
      ∃ m : Memory, hostStep (.memWrite a b) s = .next { s with mem := m } ∧ m.read a = b ∧
        ∀ x, x ≠ a → m.read x = s.mem.read x) ∧
    (s.phase ≠ .idle → s.outputHolds a →
      hostStep (.memRead a) s = .next
        { s with
          busData := (Config.freeByte s.free a.toNat).setWidth 32
          free := s.free + 1
          touched := true }) ∧
    (s.phase = .idle ∨ ¬s.outputHolds a →
      ∃ v : Byte, hostStep (.memRead a) s = .next { s with busData := v.setWidth 32 } ∧
        (s.phase = .idle ∨ (∀ x ∈ s.held, x.1 ≠ a) → v = s.mem.read a) ∧
        ∀ before w after, s.held = before ++ (a, w) :: after → (∀ x ∈ after, x.1 ≠ a) → v = w)) ∧
  ∀ (s : State) (err stop : Byte) (count : Word), s.Inv → s.touched = true →
    ∃ (m : Memory) (c : Word) (p : Byte),
      s.endJob err stop count =
        { s.finished err p c with mem := m, touched := false, held := [], free := s.free + 1 } ∧
      (∀ a, ¬s.outputHolds a → (∀ x ∈ s.held, x.1 ≠ a) → m.read a = s.mem.read a) ∧
      ∀ before a w after, s.held = before ++ (a, w) :: after → (∀ x ∈ after, x.1 ≠ a) → m.read a = w

/-- Log entries 1 and 15, the model's own choices: an idle machine without a pending transaction does not move, and a
stream element offered to an idle core faults. -/
def Obligations.IdleMachineWaits : Prop :=
  ∀ s : State, s.phase = .idle →
    (s.bus = [] → step s = .next s) ∧ ∀ i : Instr, (encode i).1 ≠ .command → exec i s = .fault .outOfPhase

/-- R100, R12, U16. The register window stands at REG_BASE in the host's address space: a host access that begins at
REG_BASE + offset is the access at that offset. Choices of the model, log entry 8: one that runs into the window from below
is refused like any other access of another width or alignment; one with no byte in it is no access to this core. -/
def Obligations.WindowStandsAtRegBase : Prop :=
  ∀ (s : State) (a : Word) (bytes : Nat) (v : Word), 0 < bytes →
    (∀ offset < 256, a = s.regBase + BitVec.ofNat 32 offset →
      hostStep (.writeAt a bytes v) s = hostStep (.write offset bytes v) s ∧
        hostStep (.readAt a bytes) s = hostStep (.read offset bytes) s) ∧
    (256 ≤ (a - s.regBase).toNat → (∃ j < bytes, a + BitVec.ofNat 32 j = s.regBase) →
      hostStep (.writeAt a bytes v) s = .refused (.registerAccess (a - s.regBase).toNat bytes) ∧
        hostStep (.readAt a bytes) s = .refused (.registerAccess (a - s.regBase).toNat bytes)) ∧
    ((∀ j < bytes, 256 ≤ (a + BitVec.ofNat 32 j - s.regBase).toNat) →
      hostStep (.writeAt a bytes v) s = .next s ∧ hostStep (.readAt a bytes) s = .next s)
end

