-- ==== Sys2Proof/Laws/State.lean ====
section
/-! SUPPORT. State: what each update leaves in each field. -/

namespace Sys2Proof.Machine

/-! ### accept -/

@[simp] theorem accept_ie (v : Word) (s : State) : (s.accept v).ie = s.ie := rfl
@[simp] theorem accept_cmd (v : Word) (s : State) : (s.accept v).cmd = v := rfl
@[simp] theorem accept_status (v : Word) (s : State) : (s.accept v).status = { done := false, ign := false, err := 0, stop := 0 } := rfl
@[simp] theorem accept_inBase (v : Word) (s : State) : (s.accept v).inBase = s.inBase := rfl
@[simp] theorem accept_inLen (v : Word) (s : State) : (s.accept v).inLen = s.inLen := rfl
@[simp] theorem accept_outBase (v : Word) (s : State) : (s.accept v).outBase = s.outBase := rfl
@[simp] theorem accept_outLen (v : Word) (s : State) : (s.accept v).outLen = s.outLen := rfl
@[simp] theorem accept_texWidth (v : Word) (s : State) : (s.accept v).texWidth = s.texWidth := rfl
@[simp] theorem accept_texHeight (v : Word) (s : State) : (s.accept v).texHeight = s.texHeight := rfl
@[simp] theorem accept_texFourcc (v : Word) (s : State) : (s.accept v).texFourcc = s.texFourcc := rfl
@[simp] theorem accept_arg0 (v : Word) (s : State) : (s.accept v).arg0 = s.arg0 := rfl
@[simp] theorem accept_arg1 (v : Word) (s : State) : (s.accept v).arg1 = s.arg1 := rfl
@[simp] theorem accept_result0 (v : Word) (s : State) : (s.accept v).result0 = s.result0 := rfl
@[simp] theorem accept_result1 (v : Word) (s : State) : (s.accept v).result1 = s.result1 := rfl
@[simp] theorem accept_outCount (v : Word) (s : State) : (s.accept v).outCount = s.outCount := rfl
@[simp] theorem accept_texCflags (v : Word) (s : State) : (s.accept v).texCflags = s.texCflags := rfl
@[simp] theorem accept_texDsize (v : Word) (s : State) : (s.accept v).texDsize = s.texDsize := rfl
@[simp] theorem accept_datHdr (v : Word) (s : State) : (s.accept v).datHdr = s.datHdr := rfl
@[simp] theorem accept_reader (v : Word) (s : State) : (s.accept v).reader = s.reader := rfl
@[simp] theorem accept_sym (v : Word) (s : State) : (s.accept v).sym = s.sym := rfl
@[simp] theorem accept_copy (v : Word) (s : State) : (s.accept v).copy = s.copy := rfl
@[simp] theorem accept_datDict (v : Word) (s : State) : (s.accept v).datDict = s.datDict := rfl
@[simp] theorem accept_builder (v : Word) (s : State) : (s.accept v).builder = s.builder := rfl
@[simp] theorem accept_phase (v : Word) (s : State) : (s.accept v).phase = s.phase := rfl
@[simp] theorem accept_dat (v : Word) (s : State) : (s.accept v).dat = s.dat := rfl
@[simp] theorem accept_tex (v : Word) (s : State) : (s.accept v).tex = s.tex := rfl
@[simp] theorem accept_fmt (v : Word) (s : State) : (s.accept v).fmt = s.fmt := rfl
@[simp] theorem accept_maxBlocks (v : Word) (s : State) : (s.accept v).maxBlocks = s.maxBlocks := rfl
@[simp] theorem accept_rgbOrder (v : Word) (s : State) : (s.accept v).rgbOrder = s.rgbOrder := rfl
@[simp] theorem accept_regBase (v : Word) (s : State) : (s.accept v).regBase = s.regBase := rfl
@[simp] theorem accept_inReset (v : Word) (s : State) : (s.accept v).inReset = s.inReset := rfl
@[simp] theorem accept_mem (v : Word) (s : State) : (s.accept v).mem = s.mem := rfl
@[simp] theorem accept_memAtStart (v : Word) (s : State) : (s.accept v).memAtStart = s.memAtStart := rfl
@[simp] theorem accept_touched (v : Word) (s : State) : (s.accept v).touched = s.touched := rfl
@[simp] theorem accept_held (v : Word) (s : State) : (s.accept v).held = s.held := rfl
@[simp] theorem accept_free (v : Word) (s : State) : (s.accept v).free = s.free := rfl
@[simp] theorem accept_bus (v : Word) (s : State) : (s.accept v).bus = s.bus := rfl
@[simp] theorem accept_busData (v : Word) (s : State) : (s.accept v).busData = s.busData := rfl

/-! ### complete -/

@[simp] theorem complete_ie (err stop : Byte) (s : State) : (s.complete err stop).ie = s.ie := rfl
@[simp] theorem complete_cmd (err stop : Byte) (s : State) : (s.complete err stop).cmd = s.cmd := rfl
@[simp] theorem complete_status (err stop : Byte) (s : State) : (s.complete err stop).status = { done := true, ign := s.status.ign, err := err, stop := stop } := rfl
@[simp] theorem complete_inBase (err stop : Byte) (s : State) : (s.complete err stop).inBase = s.inBase := rfl
@[simp] theorem complete_inLen (err stop : Byte) (s : State) : (s.complete err stop).inLen = s.inLen := rfl
@[simp] theorem complete_outBase (err stop : Byte) (s : State) : (s.complete err stop).outBase = s.outBase := rfl
@[simp] theorem complete_outLen (err stop : Byte) (s : State) : (s.complete err stop).outLen = s.outLen := rfl
@[simp] theorem complete_texWidth (err stop : Byte) (s : State) : (s.complete err stop).texWidth = s.texWidth := rfl
@[simp] theorem complete_texHeight (err stop : Byte) (s : State) : (s.complete err stop).texHeight = s.texHeight := rfl
@[simp] theorem complete_texFourcc (err stop : Byte) (s : State) : (s.complete err stop).texFourcc = s.texFourcc := rfl
@[simp] theorem complete_arg0 (err stop : Byte) (s : State) : (s.complete err stop).arg0 = s.arg0 := rfl
@[simp] theorem complete_arg1 (err stop : Byte) (s : State) : (s.complete err stop).arg1 = s.arg1 := rfl
@[simp] theorem complete_result0 (err stop : Byte) (s : State) : (s.complete err stop).result0 = s.result0 := rfl
@[simp] theorem complete_result1 (err stop : Byte) (s : State) : (s.complete err stop).result1 = s.result1 := rfl
@[simp] theorem complete_outCount (err stop : Byte) (s : State) : (s.complete err stop).outCount = s.outCount := rfl
@[simp] theorem complete_texCflags (err stop : Byte) (s : State) : (s.complete err stop).texCflags = s.texCflags := rfl
@[simp] theorem complete_texDsize (err stop : Byte) (s : State) : (s.complete err stop).texDsize = s.texDsize := rfl
@[simp] theorem complete_datHdr (err stop : Byte) (s : State) : (s.complete err stop).datHdr = s.datHdr := rfl
@[simp] theorem complete_reader (err stop : Byte) (s : State) : (s.complete err stop).reader = s.reader := rfl
@[simp] theorem complete_sym (err stop : Byte) (s : State) : (s.complete err stop).sym = s.sym := rfl
@[simp] theorem complete_copy (err stop : Byte) (s : State) : (s.complete err stop).copy = s.copy := rfl
@[simp] theorem complete_datDict (err stop : Byte) (s : State) : (s.complete err stop).datDict = s.datDict := rfl
@[simp] theorem complete_builder (err stop : Byte) (s : State) : (s.complete err stop).builder = s.builder := rfl
@[simp] theorem complete_phase (err stop : Byte) (s : State) : (s.complete err stop).phase = .idle := rfl
@[simp] theorem complete_dat (err stop : Byte) (s : State) : (s.complete err stop).dat = s.dat := rfl
@[simp] theorem complete_tex (err stop : Byte) (s : State) : (s.complete err stop).tex = s.tex := rfl
@[simp] theorem complete_fmt (err stop : Byte) (s : State) : (s.complete err stop).fmt = s.fmt := rfl
@[simp] theorem complete_maxBlocks (err stop : Byte) (s : State) : (s.complete err stop).maxBlocks = s.maxBlocks := rfl
@[simp] theorem complete_rgbOrder (err stop : Byte) (s : State) : (s.complete err stop).rgbOrder = s.rgbOrder := rfl
@[simp] theorem complete_regBase (err stop : Byte) (s : State) : (s.complete err stop).regBase = s.regBase := rfl
@[simp] theorem complete_inReset (err stop : Byte) (s : State) : (s.complete err stop).inReset = s.inReset := rfl
@[simp] theorem complete_mem (err stop : Byte) (s : State) : (s.complete err stop).mem = s.mem := rfl
@[simp] theorem complete_memAtStart (err stop : Byte) (s : State) : (s.complete err stop).memAtStart = s.memAtStart := rfl
@[simp] theorem complete_touched (err stop : Byte) (s : State) : (s.complete err stop).touched = s.touched := rfl
@[simp] theorem complete_held (err stop : Byte) (s : State) : (s.complete err stop).held = s.held := rfl
@[simp] theorem complete_free (err stop : Byte) (s : State) : (s.complete err stop).free = s.free := rfl
@[simp] theorem complete_bus (err stop : Byte) (s : State) : (s.complete err stop).bus = s.bus := rfl
@[simp] theorem complete_busData (err stop : Byte) (s : State) : (s.complete err stop).busData = s.busData := rfl

/-! ### ignore -/

@[simp] theorem ignore_ie (s : State) : (s.ignore).ie = s.ie := rfl
@[simp] theorem ignore_cmd (s : State) : (s.ignore).cmd = s.cmd := rfl
@[simp] theorem ignore_status (s : State) : (s.ignore).status = { s.status with ign := true } := rfl
@[simp] theorem ignore_inBase (s : State) : (s.ignore).inBase = s.inBase := rfl
@[simp] theorem ignore_inLen (s : State) : (s.ignore).inLen = s.inLen := rfl
@[simp] theorem ignore_outBase (s : State) : (s.ignore).outBase = s.outBase := rfl
@[simp] theorem ignore_outLen (s : State) : (s.ignore).outLen = s.outLen := rfl
@[simp] theorem ignore_texWidth (s : State) : (s.ignore).texWidth = s.texWidth := rfl
@[simp] theorem ignore_texHeight (s : State) : (s.ignore).texHeight = s.texHeight := rfl
@[simp] theorem ignore_texFourcc (s : State) : (s.ignore).texFourcc = s.texFourcc := rfl
@[simp] theorem ignore_arg0 (s : State) : (s.ignore).arg0 = s.arg0 := rfl
@[simp] theorem ignore_arg1 (s : State) : (s.ignore).arg1 = s.arg1 := rfl
@[simp] theorem ignore_result0 (s : State) : (s.ignore).result0 = s.result0 := rfl
@[simp] theorem ignore_result1 (s : State) : (s.ignore).result1 = s.result1 := rfl
@[simp] theorem ignore_outCount (s : State) : (s.ignore).outCount = s.outCount := rfl
@[simp] theorem ignore_texCflags (s : State) : (s.ignore).texCflags = s.texCflags := rfl
@[simp] theorem ignore_texDsize (s : State) : (s.ignore).texDsize = s.texDsize := rfl
@[simp] theorem ignore_datHdr (s : State) : (s.ignore).datHdr = s.datHdr := rfl
@[simp] theorem ignore_reader (s : State) : (s.ignore).reader = s.reader := rfl
@[simp] theorem ignore_sym (s : State) : (s.ignore).sym = s.sym := rfl
@[simp] theorem ignore_copy (s : State) : (s.ignore).copy = s.copy := rfl
@[simp] theorem ignore_datDict (s : State) : (s.ignore).datDict = s.datDict := rfl
@[simp] theorem ignore_builder (s : State) : (s.ignore).builder = s.builder := rfl
@[simp] theorem ignore_phase (s : State) : (s.ignore).phase = s.phase := rfl
@[simp] theorem ignore_dat (s : State) : (s.ignore).dat = s.dat := rfl
@[simp] theorem ignore_tex (s : State) : (s.ignore).tex = s.tex := rfl
@[simp] theorem ignore_fmt (s : State) : (s.ignore).fmt = s.fmt := rfl
@[simp] theorem ignore_maxBlocks (s : State) : (s.ignore).maxBlocks = s.maxBlocks := rfl
@[simp] theorem ignore_rgbOrder (s : State) : (s.ignore).rgbOrder = s.rgbOrder := rfl
@[simp] theorem ignore_regBase (s : State) : (s.ignore).regBase = s.regBase := rfl
@[simp] theorem ignore_inReset (s : State) : (s.ignore).inReset = s.inReset := rfl
@[simp] theorem ignore_mem (s : State) : (s.ignore).mem = s.mem := rfl
@[simp] theorem ignore_memAtStart (s : State) : (s.ignore).memAtStart = s.memAtStart := rfl
@[simp] theorem ignore_touched (s : State) : (s.ignore).touched = s.touched := rfl
@[simp] theorem ignore_held (s : State) : (s.ignore).held = s.held := rfl
@[simp] theorem ignore_free (s : State) : (s.ignore).free = s.free := rfl
@[simp] theorem ignore_bus (s : State) : (s.ignore).bus = s.bus := rfl
@[simp] theorem ignore_busData (s : State) : (s.ignore).busData = s.busData := rfl

/-! ### startJob -/

@[simp] theorem startJob_ie (s : State) : (s.startJob).ie = s.ie := rfl
@[simp] theorem startJob_cmd (s : State) : (s.startJob).cmd = s.cmd := rfl
@[simp] theorem startJob_status (s : State) : (s.startJob).status = s.status := rfl
@[simp] theorem startJob_inBase (s : State) : (s.startJob).inBase = s.inBase := rfl
@[simp] theorem startJob_inLen (s : State) : (s.startJob).inLen = s.inLen := rfl
@[simp] theorem startJob_outBase (s : State) : (s.startJob).outBase = s.outBase := rfl
@[simp] theorem startJob_outLen (s : State) : (s.startJob).outLen = s.outLen := rfl
@[simp] theorem startJob_texWidth (s : State) : (s.startJob).texWidth = s.texWidth := rfl
@[simp] theorem startJob_texHeight (s : State) : (s.startJob).texHeight = s.texHeight := rfl
@[simp] theorem startJob_texFourcc (s : State) : (s.startJob).texFourcc = s.texFourcc := rfl
@[simp] theorem startJob_arg0 (s : State) : (s.startJob).arg0 = s.arg0 := rfl
@[simp] theorem startJob_arg1 (s : State) : (s.startJob).arg1 = s.arg1 := rfl
@[simp] theorem startJob_result0 (s : State) : (s.startJob).result0 = s.result0 := rfl
@[simp] theorem startJob_result1 (s : State) : (s.startJob).result1 = s.result1 := rfl
@[simp] theorem startJob_outCount (s : State) : (s.startJob).outCount = s.outCount := rfl
@[simp] theorem startJob_texCflags (s : State) : (s.startJob).texCflags = s.texCflags := rfl
@[simp] theorem startJob_texDsize (s : State) : (s.startJob).texDsize = s.texDsize := rfl
@[simp] theorem startJob_datHdr (s : State) : (s.startJob).datHdr = s.datHdr := rfl
@[simp] theorem startJob_reader (s : State) : (s.startJob).reader = s.reader := rfl
@[simp] theorem startJob_sym (s : State) : (s.startJob).sym = s.sym := rfl
@[simp] theorem startJob_copy (s : State) : (s.startJob).copy = s.copy := rfl
@[simp] theorem startJob_datDict (s : State) : (s.startJob).datDict = s.datDict := rfl
@[simp] theorem startJob_builder (s : State) : (s.startJob).builder = s.builder := rfl
@[simp] theorem startJob_phase (s : State) : (s.startJob).phase = s.phase := rfl
@[simp] theorem startJob_dat (s : State) : (s.startJob).dat = s.dat := rfl
@[simp] theorem startJob_tex (s : State) : (s.startJob).tex = s.tex := rfl
@[simp] theorem startJob_fmt (s : State) : (s.startJob).fmt = s.fmt := rfl
@[simp] theorem startJob_maxBlocks (s : State) : (s.startJob).maxBlocks = s.maxBlocks := rfl
@[simp] theorem startJob_rgbOrder (s : State) : (s.startJob).rgbOrder = s.rgbOrder := rfl
@[simp] theorem startJob_regBase (s : State) : (s.startJob).regBase = s.regBase := rfl
@[simp] theorem startJob_inReset (s : State) : (s.startJob).inReset = s.inReset := rfl
@[simp] theorem startJob_mem (s : State) : (s.startJob).mem = s.mem := rfl
@[simp] theorem startJob_memAtStart (s : State) : (s.startJob).memAtStart = s.mem := rfl
@[simp] theorem startJob_touched (s : State) : (s.startJob).touched = false := rfl
@[simp] theorem startJob_held (s : State) : (s.startJob).held = [] := rfl
@[simp] theorem startJob_free (s : State) : (s.startJob).free = s.free := rfl
@[simp] theorem startJob_bus (s : State) : (s.startJob).bus = s.bus := rfl
@[simp] theorem startJob_busData (s : State) : (s.startJob).busData = s.busData := rfl

/-! ### withMem -/

@[simp] theorem withMem_ie (m : Memory) (s : State) : (s.withMem m).ie = s.ie := rfl
@[simp] theorem withMem_cmd (m : Memory) (s : State) : (s.withMem m).cmd = s.cmd := rfl
@[simp] theorem withMem_status (m : Memory) (s : State) : (s.withMem m).status = s.status := rfl
@[simp] theorem withMem_inBase (m : Memory) (s : State) : (s.withMem m).inBase = s.inBase := rfl
@[simp] theorem withMem_inLen (m : Memory) (s : State) : (s.withMem m).inLen = s.inLen := rfl
@[simp] theorem withMem_outBase (m : Memory) (s : State) : (s.withMem m).outBase = s.outBase := rfl
@[simp] theorem withMem_outLen (m : Memory) (s : State) : (s.withMem m).outLen = s.outLen := rfl
@[simp] theorem withMem_texWidth (m : Memory) (s : State) : (s.withMem m).texWidth = s.texWidth := rfl
@[simp] theorem withMem_texHeight (m : Memory) (s : State) : (s.withMem m).texHeight = s.texHeight := rfl
@[simp] theorem withMem_texFourcc (m : Memory) (s : State) : (s.withMem m).texFourcc = s.texFourcc := rfl
@[simp] theorem withMem_arg0 (m : Memory) (s : State) : (s.withMem m).arg0 = s.arg0 := rfl
@[simp] theorem withMem_arg1 (m : Memory) (s : State) : (s.withMem m).arg1 = s.arg1 := rfl
@[simp] theorem withMem_result0 (m : Memory) (s : State) : (s.withMem m).result0 = s.result0 := rfl
@[simp] theorem withMem_result1 (m : Memory) (s : State) : (s.withMem m).result1 = s.result1 := rfl
@[simp] theorem withMem_outCount (m : Memory) (s : State) : (s.withMem m).outCount = s.outCount := rfl
@[simp] theorem withMem_texCflags (m : Memory) (s : State) : (s.withMem m).texCflags = s.texCflags := rfl
@[simp] theorem withMem_texDsize (m : Memory) (s : State) : (s.withMem m).texDsize = s.texDsize := rfl
@[simp] theorem withMem_datHdr (m : Memory) (s : State) : (s.withMem m).datHdr = s.datHdr := rfl
@[simp] theorem withMem_reader (m : Memory) (s : State) : (s.withMem m).reader = s.reader := rfl
@[simp] theorem withMem_sym (m : Memory) (s : State) : (s.withMem m).sym = s.sym := rfl
@[simp] theorem withMem_copy (m : Memory) (s : State) : (s.withMem m).copy = s.copy := rfl
@[simp] theorem withMem_datDict (m : Memory) (s : State) : (s.withMem m).datDict = s.datDict := rfl
@[simp] theorem withMem_builder (m : Memory) (s : State) : (s.withMem m).builder = s.builder := rfl
@[simp] theorem withMem_phase (m : Memory) (s : State) : (s.withMem m).phase = s.phase := rfl
@[simp] theorem withMem_dat (m : Memory) (s : State) : (s.withMem m).dat = s.dat := rfl
@[simp] theorem withMem_tex (m : Memory) (s : State) : (s.withMem m).tex = s.tex := rfl
@[simp] theorem withMem_fmt (m : Memory) (s : State) : (s.withMem m).fmt = s.fmt := rfl
@[simp] theorem withMem_maxBlocks (m : Memory) (s : State) : (s.withMem m).maxBlocks = s.maxBlocks := rfl
@[simp] theorem withMem_rgbOrder (m : Memory) (s : State) : (s.withMem m).rgbOrder = s.rgbOrder := rfl
@[simp] theorem withMem_regBase (m : Memory) (s : State) : (s.withMem m).regBase = s.regBase := rfl
@[simp] theorem withMem_inReset (m : Memory) (s : State) : (s.withMem m).inReset = s.inReset := rfl
@[simp] theorem withMem_mem (m : Memory) (s : State) : (s.withMem m).mem = m := rfl
@[simp] theorem withMem_memAtStart (m : Memory) (s : State) : (s.withMem m).memAtStart = s.memAtStart := rfl
@[simp] theorem withMem_touched (m : Memory) (s : State) : (s.withMem m).touched = s.touched := rfl
@[simp] theorem withMem_held (m : Memory) (s : State) : (s.withMem m).held = s.held := rfl
@[simp] theorem withMem_free (m : Memory) (s : State) : (s.withMem m).free = s.free := rfl
@[simp] theorem withMem_bus (m : Memory) (s : State) : (s.withMem m).bus = s.bus := rfl
@[simp] theorem withMem_busData (m : Memory) (s : State) : (s.withMem m).busData = s.busData := rfl

/-! ### markColour -/

@[simp] theorem markColour_ie (s : State) (pos : Nat) : (s.markColour pos).ie = s.ie := rfl
@[simp] theorem markColour_cmd (s : State) (pos : Nat) : (s.markColour pos).cmd = s.cmd := rfl
@[simp] theorem markColour_status (s : State) (pos : Nat) : (s.markColour pos).status = s.status := rfl
@[simp] theorem markColour_inBase (s : State) (pos : Nat) : (s.markColour pos).inBase = s.inBase := rfl
@[simp] theorem markColour_inLen (s : State) (pos : Nat) : (s.markColour pos).inLen = s.inLen := rfl
@[simp] theorem markColour_outBase (s : State) (pos : Nat) : (s.markColour pos).outBase = s.outBase := rfl
@[simp] theorem markColour_outLen (s : State) (pos : Nat) : (s.markColour pos).outLen = s.outLen := rfl
@[simp] theorem markColour_texWidth (s : State) (pos : Nat) : (s.markColour pos).texWidth = s.texWidth := rfl
@[simp] theorem markColour_texHeight (s : State) (pos : Nat) : (s.markColour pos).texHeight = s.texHeight := rfl
@[simp] theorem markColour_texFourcc (s : State) (pos : Nat) : (s.markColour pos).texFourcc = s.texFourcc := rfl
@[simp] theorem markColour_arg0 (s : State) (pos : Nat) : (s.markColour pos).arg0 = s.arg0 := rfl
@[simp] theorem markColour_arg1 (s : State) (pos : Nat) : (s.markColour pos).arg1 = s.arg1 := rfl
@[simp] theorem markColour_result0 (s : State) (pos : Nat) : (s.markColour pos).result0 = s.result0 := rfl
@[simp] theorem markColour_result1 (s : State) (pos : Nat) : (s.markColour pos).result1 = s.result1 := rfl
@[simp] theorem markColour_outCount (s : State) (pos : Nat) : (s.markColour pos).outCount = s.outCount := rfl
@[simp] theorem markColour_texCflags (s : State) (pos : Nat) : (s.markColour pos).texCflags = s.texCflags := rfl
@[simp] theorem markColour_texDsize (s : State) (pos : Nat) : (s.markColour pos).texDsize = s.texDsize := rfl
@[simp] theorem markColour_datHdr (s : State) (pos : Nat) : (s.markColour pos).datHdr = s.datHdr := rfl
@[simp] theorem markColour_reader (s : State) (pos : Nat) : (s.markColour pos).reader = s.reader := rfl
@[simp] theorem markColour_sym (s : State) (pos : Nat) : (s.markColour pos).sym = s.sym := rfl
@[simp] theorem markColour_copy (s : State) (pos : Nat) : (s.markColour pos).copy = s.copy := rfl
@[simp] theorem markColour_datDict (s : State) (pos : Nat) : (s.markColour pos).datDict = s.datDict := rfl
@[simp] theorem markColour_builder (s : State) (pos : Nat) : (s.markColour pos).builder = s.builder := rfl
@[simp] theorem markColour_phase (s : State) (pos : Nat) : (s.markColour pos).phase = s.phase := rfl
@[simp] theorem markColour_dat (s : State) (pos : Nat) : (s.markColour pos).dat = s.dat := rfl
@[simp] theorem markColour_tex (s : State) (pos : Nat) : (s.markColour pos).tex = { s.tex with colorSet := s.tex.colorSet.set pos true } := rfl
@[simp] theorem markColour_fmt (s : State) (pos : Nat) : (s.markColour pos).fmt = s.fmt := rfl
@[simp] theorem markColour_maxBlocks (s : State) (pos : Nat) : (s.markColour pos).maxBlocks = s.maxBlocks := rfl
@[simp] theorem markColour_rgbOrder (s : State) (pos : Nat) : (s.markColour pos).rgbOrder = s.rgbOrder := rfl
@[simp] theorem markColour_regBase (s : State) (pos : Nat) : (s.markColour pos).regBase = s.regBase := rfl
@[simp] theorem markColour_inReset (s : State) (pos : Nat) : (s.markColour pos).inReset = s.inReset := rfl
@[simp] theorem markColour_mem (s : State) (pos : Nat) : (s.markColour pos).mem = s.mem := rfl
@[simp] theorem markColour_memAtStart (s : State) (pos : Nat) : (s.markColour pos).memAtStart = s.memAtStart := rfl
@[simp] theorem markColour_touched (s : State) (pos : Nat) : (s.markColour pos).touched = s.touched := rfl
@[simp] theorem markColour_held (s : State) (pos : Nat) : (s.markColour pos).held = s.held := rfl
@[simp] theorem markColour_free (s : State) (pos : Nat) : (s.markColour pos).free = s.free := rfl
@[simp] theorem markColour_bus (s : State) (pos : Nat) : (s.markColour pos).bus = s.bus := rfl
@[simp] theorem markColour_busData (s : State) (pos : Nat) : (s.markColour pos).busData = s.busData := rfl

/-! ### markAlpha -/

@[simp] theorem markAlpha_ie (s : State) (pos : Nat) : (s.markAlpha pos).ie = s.ie := rfl
@[simp] theorem markAlpha_cmd (s : State) (pos : Nat) : (s.markAlpha pos).cmd = s.cmd := rfl
@[simp] theorem markAlpha_status (s : State) (pos : Nat) : (s.markAlpha pos).status = s.status := rfl
@[simp] theorem markAlpha_inBase (s : State) (pos : Nat) : (s.markAlpha pos).inBase = s.inBase := rfl
@[simp] theorem markAlpha_inLen (s : State) (pos : Nat) : (s.markAlpha pos).inLen = s.inLen := rfl
@[simp] theorem markAlpha_outBase (s : State) (pos : Nat) : (s.markAlpha pos).outBase = s.outBase := rfl
@[simp] theorem markAlpha_outLen (s : State) (pos : Nat) : (s.markAlpha pos).outLen = s.outLen := rfl
@[simp] theorem markAlpha_texWidth (s : State) (pos : Nat) : (s.markAlpha pos).texWidth = s.texWidth := rfl
@[simp] theorem markAlpha_texHeight (s : State) (pos : Nat) : (s.markAlpha pos).texHeight = s.texHeight := rfl
@[simp] theorem markAlpha_texFourcc (s : State) (pos : Nat) : (s.markAlpha pos).texFourcc = s.texFourcc := rfl
@[simp] theorem markAlpha_arg0 (s : State) (pos : Nat) : (s.markAlpha pos).arg0 = s.arg0 := rfl
@[simp] theorem markAlpha_arg1 (s : State) (pos : Nat) : (s.markAlpha pos).arg1 = s.arg1 := rfl
@[simp] theorem markAlpha_result0 (s : State) (pos : Nat) : (s.markAlpha pos).result0 = s.result0 := rfl
@[simp] theorem markAlpha_result1 (s : State) (pos : Nat) : (s.markAlpha pos).result1 = s.result1 := rfl
@[simp] theorem markAlpha_outCount (s : State) (pos : Nat) : (s.markAlpha pos).outCount = s.outCount := rfl
@[simp] theorem markAlpha_texCflags (s : State) (pos : Nat) : (s.markAlpha pos).texCflags = s.texCflags := rfl
@[simp] theorem markAlpha_texDsize (s : State) (pos : Nat) : (s.markAlpha pos).texDsize = s.texDsize := rfl
@[simp] theorem markAlpha_datHdr (s : State) (pos : Nat) : (s.markAlpha pos).datHdr = s.datHdr := rfl
@[simp] theorem markAlpha_reader (s : State) (pos : Nat) : (s.markAlpha pos).reader = s.reader := rfl
@[simp] theorem markAlpha_sym (s : State) (pos : Nat) : (s.markAlpha pos).sym = s.sym := rfl
@[simp] theorem markAlpha_copy (s : State) (pos : Nat) : (s.markAlpha pos).copy = s.copy := rfl
@[simp] theorem markAlpha_datDict (s : State) (pos : Nat) : (s.markAlpha pos).datDict = s.datDict := rfl
@[simp] theorem markAlpha_builder (s : State) (pos : Nat) : (s.markAlpha pos).builder = s.builder := rfl
@[simp] theorem markAlpha_phase (s : State) (pos : Nat) : (s.markAlpha pos).phase = s.phase := rfl
@[simp] theorem markAlpha_dat (s : State) (pos : Nat) : (s.markAlpha pos).dat = s.dat := rfl
@[simp] theorem markAlpha_tex (s : State) (pos : Nat) : (s.markAlpha pos).tex = { s.tex with alphaSet := s.tex.alphaSet.set pos true } := rfl
@[simp] theorem markAlpha_fmt (s : State) (pos : Nat) : (s.markAlpha pos).fmt = s.fmt := rfl
@[simp] theorem markAlpha_maxBlocks (s : State) (pos : Nat) : (s.markAlpha pos).maxBlocks = s.maxBlocks := rfl
@[simp] theorem markAlpha_rgbOrder (s : State) (pos : Nat) : (s.markAlpha pos).rgbOrder = s.rgbOrder := rfl
@[simp] theorem markAlpha_regBase (s : State) (pos : Nat) : (s.markAlpha pos).regBase = s.regBase := rfl
@[simp] theorem markAlpha_inReset (s : State) (pos : Nat) : (s.markAlpha pos).inReset = s.inReset := rfl
@[simp] theorem markAlpha_mem (s : State) (pos : Nat) : (s.markAlpha pos).mem = s.mem := rfl
@[simp] theorem markAlpha_memAtStart (s : State) (pos : Nat) : (s.markAlpha pos).memAtStart = s.memAtStart := rfl
@[simp] theorem markAlpha_touched (s : State) (pos : Nat) : (s.markAlpha pos).touched = s.touched := rfl
@[simp] theorem markAlpha_held (s : State) (pos : Nat) : (s.markAlpha pos).held = s.held := rfl
@[simp] theorem markAlpha_free (s : State) (pos : Nat) : (s.markAlpha pos).free = s.free := rfl
@[simp] theorem markAlpha_bus (s : State) (pos : Nat) : (s.markAlpha pos).bus = s.bus := rfl
@[simp] theorem markAlpha_busData (s : State) (pos : Nat) : (s.markAlpha pos).busData = s.busData := rfl

/-! ### nextBlock -/

@[simp] theorem nextBlock_ie (s : State) : (s.nextBlock).ie = s.ie := rfl
@[simp] theorem nextBlock_cmd (s : State) : (s.nextBlock).cmd = s.cmd := rfl
@[simp] theorem nextBlock_status (s : State) : (s.nextBlock).status = s.status := rfl
@[simp] theorem nextBlock_inBase (s : State) : (s.nextBlock).inBase = s.inBase := rfl
@[simp] theorem nextBlock_inLen (s : State) : (s.nextBlock).inLen = s.inLen := rfl
@[simp] theorem nextBlock_outBase (s : State) : (s.nextBlock).outBase = s.outBase := rfl
@[simp] theorem nextBlock_outLen (s : State) : (s.nextBlock).outLen = s.outLen := rfl
@[simp] theorem nextBlock_texWidth (s : State) : (s.nextBlock).texWidth = s.texWidth := rfl
@[simp] theorem nextBlock_texHeight (s : State) : (s.nextBlock).texHeight = s.texHeight := rfl
@[simp] theorem nextBlock_texFourcc (s : State) : (s.nextBlock).texFourcc = s.texFourcc := rfl
@[simp] theorem nextBlock_arg0 (s : State) : (s.nextBlock).arg0 = s.arg0 := rfl
@[simp] theorem nextBlock_arg1 (s : State) : (s.nextBlock).arg1 = s.arg1 := rfl
@[simp] theorem nextBlock_result0 (s : State) : (s.nextBlock).result0 = s.result0 := rfl
@[simp] theorem nextBlock_result1 (s : State) : (s.nextBlock).result1 = s.result1 := rfl
@[simp] theorem nextBlock_outCount (s : State) : (s.nextBlock).outCount = s.outCount := rfl
@[simp] theorem nextBlock_texCflags (s : State) : (s.nextBlock).texCflags = s.texCflags := rfl
@[simp] theorem nextBlock_texDsize (s : State) : (s.nextBlock).texDsize = s.texDsize := rfl
@[simp] theorem nextBlock_datHdr (s : State) : (s.nextBlock).datHdr = s.datHdr := rfl
@[simp] theorem nextBlock_reader (s : State) : (s.nextBlock).reader = s.reader := rfl
@[simp] theorem nextBlock_sym (s : State) : (s.nextBlock).sym = s.sym := rfl
@[simp] theorem nextBlock_copy (s : State) : (s.nextBlock).copy = s.copy := rfl
@[simp] theorem nextBlock_datDict (s : State) : (s.nextBlock).datDict = s.datDict := rfl
@[simp] theorem nextBlock_builder (s : State) : (s.nextBlock).builder = s.builder := rfl
@[simp] theorem nextBlock_phase (s : State) : (s.nextBlock).phase = s.phase := rfl
@[simp] theorem nextBlock_dat (s : State) : (s.nextBlock).dat = s.dat := rfl
@[simp] theorem nextBlock_tex (s : State) : (s.nextBlock).tex = { s.tex with pos := s.tex.pos + 1 } := rfl
@[simp] theorem nextBlock_fmt (s : State) : (s.nextBlock).fmt = s.fmt := rfl
@[simp] theorem nextBlock_maxBlocks (s : State) : (s.nextBlock).maxBlocks = s.maxBlocks := rfl
@[simp] theorem nextBlock_rgbOrder (s : State) : (s.nextBlock).rgbOrder = s.rgbOrder := rfl
@[simp] theorem nextBlock_regBase (s : State) : (s.nextBlock).regBase = s.regBase := rfl
@[simp] theorem nextBlock_inReset (s : State) : (s.nextBlock).inReset = s.inReset := rfl
@[simp] theorem nextBlock_mem (s : State) : (s.nextBlock).mem = s.mem := rfl
@[simp] theorem nextBlock_memAtStart (s : State) : (s.nextBlock).memAtStart = s.memAtStart := rfl
@[simp] theorem nextBlock_touched (s : State) : (s.nextBlock).touched = s.touched := rfl
@[simp] theorem nextBlock_held (s : State) : (s.nextBlock).held = s.held := rfl
@[simp] theorem nextBlock_free (s : State) : (s.nextBlock).free = s.free := rfl
@[simp] theorem nextBlock_bus (s : State) : (s.nextBlock).bus = s.bus := rfl
@[simp] theorem nextBlock_busData (s : State) : (s.nextBlock).busData = s.busData := rfl

/-! ### clearFlag -/

@[simp] theorem clearFlag_ie (s : State) (bit : Nat) : (s.clearFlag bit).ie = s.ie := rfl
@[simp] theorem clearFlag_cmd (s : State) (bit : Nat) : (s.clearFlag bit).cmd = s.cmd := rfl
@[simp] theorem clearFlag_status (s : State) (bit : Nat) : (s.clearFlag bit).status = s.status := rfl
@[simp] theorem clearFlag_inBase (s : State) (bit : Nat) : (s.clearFlag bit).inBase = s.inBase := rfl
@[simp] theorem clearFlag_inLen (s : State) (bit : Nat) : (s.clearFlag bit).inLen = s.inLen := rfl
@[simp] theorem clearFlag_outBase (s : State) (bit : Nat) : (s.clearFlag bit).outBase = s.outBase := rfl
@[simp] theorem clearFlag_outLen (s : State) (bit : Nat) : (s.clearFlag bit).outLen = s.outLen := rfl
@[simp] theorem clearFlag_texWidth (s : State) (bit : Nat) : (s.clearFlag bit).texWidth = s.texWidth := rfl
@[simp] theorem clearFlag_texHeight (s : State) (bit : Nat) : (s.clearFlag bit).texHeight = s.texHeight := rfl
@[simp] theorem clearFlag_texFourcc (s : State) (bit : Nat) : (s.clearFlag bit).texFourcc = s.texFourcc := rfl
@[simp] theorem clearFlag_arg0 (s : State) (bit : Nat) : (s.clearFlag bit).arg0 = s.arg0 := rfl
@[simp] theorem clearFlag_arg1 (s : State) (bit : Nat) : (s.clearFlag bit).arg1 = s.arg1 := rfl
@[simp] theorem clearFlag_result0 (s : State) (bit : Nat) : (s.clearFlag bit).result0 = s.result0 := rfl
@[simp] theorem clearFlag_result1 (s : State) (bit : Nat) : (s.clearFlag bit).result1 = s.result1 := rfl
@[simp] theorem clearFlag_outCount (s : State) (bit : Nat) : (s.clearFlag bit).outCount = s.outCount := rfl
@[simp] theorem clearFlag_texCflags (s : State) (bit : Nat) : (s.clearFlag bit).texCflags = s.texCflags := rfl
@[simp] theorem clearFlag_texDsize (s : State) (bit : Nat) : (s.clearFlag bit).texDsize = s.texDsize := rfl
@[simp] theorem clearFlag_datHdr (s : State) (bit : Nat) : (s.clearFlag bit).datHdr = s.datHdr := rfl
@[simp] theorem clearFlag_reader (s : State) (bit : Nat) : (s.clearFlag bit).reader = s.reader := rfl
@[simp] theorem clearFlag_sym (s : State) (bit : Nat) : (s.clearFlag bit).sym = s.sym := rfl
@[simp] theorem clearFlag_copy (s : State) (bit : Nat) : (s.clearFlag bit).copy = s.copy := rfl
@[simp] theorem clearFlag_datDict (s : State) (bit : Nat) : (s.clearFlag bit).datDict = s.datDict := rfl
@[simp] theorem clearFlag_builder (s : State) (bit : Nat) : (s.clearFlag bit).builder = s.builder := rfl
@[simp] theorem clearFlag_phase (s : State) (bit : Nat) : (s.clearFlag bit).phase = s.phase := rfl
@[simp] theorem clearFlag_dat (s : State) (bit : Nat) : (s.clearFlag bit).dat = s.dat := rfl
@[simp] theorem clearFlag_tex (s : State) (bit : Nat) : (s.clearFlag bit).tex = { s.tex with pending := s.tex.pending &&& ~~~(1#4 <<< bit) } := rfl
@[simp] theorem clearFlag_fmt (s : State) (bit : Nat) : (s.clearFlag bit).fmt = s.fmt := rfl
@[simp] theorem clearFlag_maxBlocks (s : State) (bit : Nat) : (s.clearFlag bit).maxBlocks = s.maxBlocks := rfl
@[simp] theorem clearFlag_rgbOrder (s : State) (bit : Nat) : (s.clearFlag bit).rgbOrder = s.rgbOrder := rfl
@[simp] theorem clearFlag_regBase (s : State) (bit : Nat) : (s.clearFlag bit).regBase = s.regBase := rfl
@[simp] theorem clearFlag_inReset (s : State) (bit : Nat) : (s.clearFlag bit).inReset = s.inReset := rfl
@[simp] theorem clearFlag_mem (s : State) (bit : Nat) : (s.clearFlag bit).mem = s.mem := rfl
@[simp] theorem clearFlag_memAtStart (s : State) (bit : Nat) : (s.clearFlag bit).memAtStart = s.memAtStart := rfl
@[simp] theorem clearFlag_touched (s : State) (bit : Nat) : (s.clearFlag bit).touched = s.touched := rfl
@[simp] theorem clearFlag_held (s : State) (bit : Nat) : (s.clearFlag bit).held = s.held := rfl
@[simp] theorem clearFlag_free (s : State) (bit : Nat) : (s.clearFlag bit).free = s.free := rfl
@[simp] theorem clearFlag_bus (s : State) (bit : Nat) : (s.clearFlag bit).bus = s.bus := rfl
@[simp] theorem clearFlag_busData (s : State) (bit : Nat) : (s.clearFlag bit).busData = s.busData := rfl

/-! ### startRun -/

@[simp] theorem startRun_ie (count : Nat) (s : State) : (startRun count s).ie = s.ie := rfl
@[simp] theorem startRun_cmd (count : Nat) (s : State) : (startRun count s).cmd = s.cmd := rfl
@[simp] theorem startRun_status (count : Nat) (s : State) : (startRun count s).status = s.status := rfl
@[simp] theorem startRun_inBase (count : Nat) (s : State) : (startRun count s).inBase = s.inBase := rfl
@[simp] theorem startRun_inLen (count : Nat) (s : State) : (startRun count s).inLen = s.inLen := rfl
@[simp] theorem startRun_outBase (count : Nat) (s : State) : (startRun count s).outBase = s.outBase := rfl
@[simp] theorem startRun_outLen (count : Nat) (s : State) : (startRun count s).outLen = s.outLen := rfl
@[simp] theorem startRun_texWidth (count : Nat) (s : State) : (startRun count s).texWidth = s.texWidth := rfl
@[simp] theorem startRun_texHeight (count : Nat) (s : State) : (startRun count s).texHeight = s.texHeight := rfl
@[simp] theorem startRun_texFourcc (count : Nat) (s : State) : (startRun count s).texFourcc = s.texFourcc := rfl
@[simp] theorem startRun_arg0 (count : Nat) (s : State) : (startRun count s).arg0 = s.arg0 := rfl
@[simp] theorem startRun_arg1 (count : Nat) (s : State) : (startRun count s).arg1 = s.arg1 := rfl
@[simp] theorem startRun_result0 (count : Nat) (s : State) : (startRun count s).result0 = s.result0 := rfl
@[simp] theorem startRun_result1 (count : Nat) (s : State) : (startRun count s).result1 = s.result1 := rfl
@[simp] theorem startRun_outCount (count : Nat) (s : State) : (startRun count s).outCount = s.outCount := rfl
@[simp] theorem startRun_texCflags (count : Nat) (s : State) : (startRun count s).texCflags = s.texCflags := rfl
@[simp] theorem startRun_texDsize (count : Nat) (s : State) : (startRun count s).texDsize = s.texDsize := rfl
@[simp] theorem startRun_datHdr (count : Nat) (s : State) : (startRun count s).datHdr = s.datHdr := rfl
@[simp] theorem startRun_reader (count : Nat) (s : State) : (startRun count s).reader = s.reader := rfl
@[simp] theorem startRun_sym (count : Nat) (s : State) : (startRun count s).sym = s.sym := rfl
@[simp] theorem startRun_copy (count : Nat) (s : State) : (startRun count s).copy = s.copy := rfl
@[simp] theorem startRun_datDict (count : Nat) (s : State) : (startRun count s).datDict = s.datDict := rfl
@[simp] theorem startRun_builder (count : Nat) (s : State) : (startRun count s).builder = s.builder := rfl
@[simp] theorem startRun_phase (count : Nat) (s : State) : (startRun count s).phase = .texRun := rfl
@[simp] theorem startRun_dat (count : Nat) (s : State) : (startRun count s).dat = s.dat := rfl
@[simp] theorem startRun_tex (count : Nat) (s : State) : (startRun count s).tex = { s.tex with code := count } := rfl
@[simp] theorem startRun_fmt (count : Nat) (s : State) : (startRun count s).fmt = s.fmt := rfl
@[simp] theorem startRun_maxBlocks (count : Nat) (s : State) : (startRun count s).maxBlocks = s.maxBlocks := rfl
@[simp] theorem startRun_rgbOrder (count : Nat) (s : State) : (startRun count s).rgbOrder = s.rgbOrder := rfl
@[simp] theorem startRun_regBase (count : Nat) (s : State) : (startRun count s).regBase = s.regBase := rfl
@[simp] theorem startRun_inReset (count : Nat) (s : State) : (startRun count s).inReset = s.inReset := rfl
@[simp] theorem startRun_mem (count : Nat) (s : State) : (startRun count s).mem = s.mem := rfl
@[simp] theorem startRun_memAtStart (count : Nat) (s : State) : (startRun count s).memAtStart = s.memAtStart := rfl
@[simp] theorem startRun_touched (count : Nat) (s : State) : (startRun count s).touched = s.touched := rfl
@[simp] theorem startRun_held (count : Nat) (s : State) : (startRun count s).held = s.held := rfl
@[simp] theorem startRun_free (count : Nat) (s : State) : (startRun count s).free = s.free := rfl
@[simp] theorem startRun_bus (count : Nat) (s : State) : (startRun count s).bus = s.bus := rfl
@[simp] theorem startRun_busData (count : Nat) (s : State) : (startRun count s).busData = s.busData := rfl

/-! ### releaseReset -/

@[simp] theorem releaseReset_ie (s : State) : (s.releaseReset).ie = s.ie := rfl
@[simp] theorem releaseReset_cmd (s : State) : (s.releaseReset).cmd = s.cmd := rfl
@[simp] theorem releaseReset_status (s : State) : (s.releaseReset).status = s.status := rfl
@[simp] theorem releaseReset_inBase (s : State) : (s.releaseReset).inBase = s.inBase := rfl
@[simp] theorem releaseReset_inLen (s : State) : (s.releaseReset).inLen = s.inLen := rfl
@[simp] theorem releaseReset_outBase (s : State) : (s.releaseReset).outBase = s.outBase := rfl
@[simp] theorem releaseReset_outLen (s : State) : (s.releaseReset).outLen = s.outLen := rfl
@[simp] theorem releaseReset_texWidth (s : State) : (s.releaseReset).texWidth = s.texWidth := rfl
@[simp] theorem releaseReset_texHeight (s : State) : (s.releaseReset).texHeight = s.texHeight := rfl
@[simp] theorem releaseReset_texFourcc (s : State) : (s.releaseReset).texFourcc = s.texFourcc := rfl
@[simp] theorem releaseReset_arg0 (s : State) : (s.releaseReset).arg0 = s.arg0 := rfl
@[simp] theorem releaseReset_arg1 (s : State) : (s.releaseReset).arg1 = s.arg1 := rfl
@[simp] theorem releaseReset_result0 (s : State) : (s.releaseReset).result0 = s.result0 := rfl
@[simp] theorem releaseReset_result1 (s : State) : (s.releaseReset).result1 = s.result1 := rfl
@[simp] theorem releaseReset_outCount (s : State) : (s.releaseReset).outCount = s.outCount := rfl
@[simp] theorem releaseReset_texCflags (s : State) : (s.releaseReset).texCflags = s.texCflags := rfl
@[simp] theorem releaseReset_texDsize (s : State) : (s.releaseReset).texDsize = s.texDsize := rfl
@[simp] theorem releaseReset_datHdr (s : State) : (s.releaseReset).datHdr = s.datHdr := rfl
@[simp] theorem releaseReset_reader (s : State) : (s.releaseReset).reader = s.reader := rfl
@[simp] theorem releaseReset_sym (s : State) : (s.releaseReset).sym = s.sym := rfl
@[simp] theorem releaseReset_copy (s : State) : (s.releaseReset).copy = s.copy := rfl
@[simp] theorem releaseReset_datDict (s : State) : (s.releaseReset).datDict = s.datDict := rfl
@[simp] theorem releaseReset_builder (s : State) : (s.releaseReset).builder = s.builder := rfl
@[simp] theorem releaseReset_phase (s : State) : (s.releaseReset).phase = s.phase := rfl
@[simp] theorem releaseReset_dat (s : State) : (s.releaseReset).dat = s.dat := rfl
@[simp] theorem releaseReset_tex (s : State) : (s.releaseReset).tex = s.tex := rfl
@[simp] theorem releaseReset_fmt (s : State) : (s.releaseReset).fmt = s.fmt := rfl
@[simp] theorem releaseReset_maxBlocks (s : State) : (s.releaseReset).maxBlocks = s.maxBlocks := rfl
@[simp] theorem releaseReset_rgbOrder (s : State) : (s.releaseReset).rgbOrder = s.rgbOrder := rfl
@[simp] theorem releaseReset_regBase (s : State) : (s.releaseReset).regBase = s.regBase := rfl
@[simp] theorem releaseReset_inReset (s : State) : (s.releaseReset).inReset = false := rfl
@[simp] theorem releaseReset_mem (s : State) : (s.releaseReset).mem = s.mem := rfl
@[simp] theorem releaseReset_memAtStart (s : State) : (s.releaseReset).memAtStart = s.memAtStart := rfl
@[simp] theorem releaseReset_touched (s : State) : (s.releaseReset).touched = s.touched := rfl
@[simp] theorem releaseReset_held (s : State) : (s.releaseReset).held = s.held := rfl
@[simp] theorem releaseReset_free (s : State) : (s.releaseReset).free = s.free := rfl
@[simp] theorem releaseReset_bus (s : State) : (s.releaseReset).bus = s.bus := rfl
@[simp] theorem releaseReset_busData (s : State) : (s.releaseReset).busData = s.busData := rfl

/-! ### enterParse -/

@[simp] theorem enterParse_ie (which : DatTree) (s : State) : (enterParse which s).ie = s.ie := rfl
@[simp] theorem enterParse_cmd (which : DatTree) (s : State) : (enterParse which s).cmd = s.cmd := rfl
@[simp] theorem enterParse_status (which : DatTree) (s : State) : (enterParse which s).status = s.status := rfl
@[simp] theorem enterParse_inBase (which : DatTree) (s : State) : (enterParse which s).inBase = s.inBase := rfl
@[simp] theorem enterParse_inLen (which : DatTree) (s : State) : (enterParse which s).inLen = s.inLen := rfl
@[simp] theorem enterParse_outBase (which : DatTree) (s : State) : (enterParse which s).outBase = s.outBase := rfl
@[simp] theorem enterParse_outLen (which : DatTree) (s : State) : (enterParse which s).outLen = s.outLen := rfl
@[simp] theorem enterParse_texWidth (which : DatTree) (s : State) : (enterParse which s).texWidth = s.texWidth := rfl
@[simp] theorem enterParse_texHeight (which : DatTree) (s : State) : (enterParse which s).texHeight = s.texHeight := rfl
@[simp] theorem enterParse_texFourcc (which : DatTree) (s : State) : (enterParse which s).texFourcc = s.texFourcc := rfl
@[simp] theorem enterParse_arg0 (which : DatTree) (s : State) : (enterParse which s).arg0 = s.arg0 := rfl
@[simp] theorem enterParse_arg1 (which : DatTree) (s : State) : (enterParse which s).arg1 = s.arg1 := rfl
@[simp] theorem enterParse_result0 (which : DatTree) (s : State) : (enterParse which s).result0 = s.result0 := rfl
@[simp] theorem enterParse_result1 (which : DatTree) (s : State) : (enterParse which s).result1 = s.result1 := rfl
@[simp] theorem enterParse_outCount (which : DatTree) (s : State) : (enterParse which s).outCount = s.outCount := rfl
@[simp] theorem enterParse_texCflags (which : DatTree) (s : State) : (enterParse which s).texCflags = s.texCflags := rfl
@[simp] theorem enterParse_texDsize (which : DatTree) (s : State) : (enterParse which s).texDsize = s.texDsize := rfl
@[simp] theorem enterParse_datHdr (which : DatTree) (s : State) : (enterParse which s).datHdr = s.datHdr := rfl
@[simp] theorem enterParse_reader (which : DatTree) (s : State) : (enterParse which s).reader = s.reader := rfl
@[simp] theorem enterParse_sym (which : DatTree) (s : State) : (enterParse which s).sym = s.sym := rfl
@[simp] theorem enterParse_copy (which : DatTree) (s : State) : (enterParse which s).copy = s.copy := rfl
@[simp] theorem enterParse_datDict (which : DatTree) (s : State) : (enterParse which s).datDict = s.datDict := rfl
@[simp] theorem enterParse_builder (which : DatTree) (s : State) : (enterParse which s).builder = emptyBuilder := rfl
@[simp] theorem enterParse_phase (which : DatTree) (s : State) : (enterParse which s).phase = .datNSymbols which := rfl
@[simp] theorem enterParse_dat (which : DatTree) (s : State) : (enterParse which s).dat = s.dat := rfl
@[simp] theorem enterParse_tex (which : DatTree) (s : State) : (enterParse which s).tex = s.tex := rfl
@[simp] theorem enterParse_fmt (which : DatTree) (s : State) : (enterParse which s).fmt = s.fmt := rfl
@[simp] theorem enterParse_maxBlocks (which : DatTree) (s : State) : (enterParse which s).maxBlocks = s.maxBlocks := rfl
@[simp] theorem enterParse_rgbOrder (which : DatTree) (s : State) : (enterParse which s).rgbOrder = s.rgbOrder := rfl
@[simp] theorem enterParse_regBase (which : DatTree) (s : State) : (enterParse which s).regBase = s.regBase := rfl
@[simp] theorem enterParse_inReset (which : DatTree) (s : State) : (enterParse which s).inReset = s.inReset := rfl
@[simp] theorem enterParse_mem (which : DatTree) (s : State) : (enterParse which s).mem = s.mem := rfl
@[simp] theorem enterParse_memAtStart (which : DatTree) (s : State) : (enterParse which s).memAtStart = s.memAtStart := rfl
@[simp] theorem enterParse_touched (which : DatTree) (s : State) : (enterParse which s).touched = s.touched := rfl
@[simp] theorem enterParse_held (which : DatTree) (s : State) : (enterParse which s).held = s.held := rfl
@[simp] theorem enterParse_free (which : DatTree) (s : State) : (enterParse which s).free = s.free := rfl
@[simp] theorem enterParse_bus (which : DatTree) (s : State) : (enterParse which s).bus = s.bus := rfl
@[simp] theorem enterParse_busData (which : DatTree) (s : State) : (enterParse which s).busData = s.busData := rfl

/-! ### setTree -/

@[simp] theorem setTree_ie (s : State) (w : DatTree) (t : Tree) : (s.setTree w t).ie = s.ie := by cases w <;> rfl
@[simp] theorem setTree_cmd (s : State) (w : DatTree) (t : Tree) : (s.setTree w t).cmd = s.cmd := by cases w <;> rfl
@[simp] theorem setTree_status (s : State) (w : DatTree) (t : Tree) : (s.setTree w t).status = s.status := by cases w <;> rfl
@[simp] theorem setTree_inBase (s : State) (w : DatTree) (t : Tree) : (s.setTree w t).inBase = s.inBase := by cases w <;> rfl
@[simp] theorem setTree_inLen (s : State) (w : DatTree) (t : Tree) : (s.setTree w t).inLen = s.inLen := by cases w <;> rfl
@[simp] theorem setTree_outBase (s : State) (w : DatTree) (t : Tree) : (s.setTree w t).outBase = s.outBase := by cases w <;> rfl
@[simp] theorem setTree_outLen (s : State) (w : DatTree) (t : Tree) : (s.setTree w t).outLen = s.outLen := by cases w <;> rfl
@[simp] theorem setTree_texWidth (s : State) (w : DatTree) (t : Tree) : (s.setTree w t).texWidth = s.texWidth := by cases w <;> rfl
@[simp] theorem setTree_texHeight (s : State) (w : DatTree) (t : Tree) : (s.setTree w t).texHeight = s.texHeight := by cases w <;> rfl
@[simp] theorem setTree_texFourcc (s : State) (w : DatTree) (t : Tree) : (s.setTree w t).texFourcc = s.texFourcc := by cases w <;> rfl
@[simp] theorem setTree_arg0 (s : State) (w : DatTree) (t : Tree) : (s.setTree w t).arg0 = s.arg0 := by cases w <;> rfl
@[simp] theorem setTree_arg1 (s : State) (w : DatTree) (t : Tree) : (s.setTree w t).arg1 = s.arg1 := by cases w <;> rfl
@[simp] theorem setTree_result0 (s : State) (w : DatTree) (t : Tree) : (s.setTree w t).result0 = s.result0 := by cases w <;> rfl
@[simp] theorem setTree_result1 (s : State) (w : DatTree) (t : Tree) : (s.setTree w t).result1 = s.result1 := by cases w <;> rfl
@[simp] theorem setTree_outCount (s : State) (w : DatTree) (t : Tree) : (s.setTree w t).outCount = s.outCount := by cases w <;> rfl
@[simp] theorem setTree_texCflags (s : State) (w : DatTree) (t : Tree) : (s.setTree w t).texCflags = s.texCflags := by cases w <;> rfl
@[simp] theorem setTree_texDsize (s : State) (w : DatTree) (t : Tree) : (s.setTree w t).texDsize = s.texDsize := by cases w <;> rfl
@[simp] theorem setTree_datHdr (s : State) (w : DatTree) (t : Tree) : (s.setTree w t).datHdr = s.datHdr := by cases w <;> rfl
@[simp] theorem setTree_reader (s : State) (w : DatTree) (t : Tree) : (s.setTree w t).reader = s.reader := by cases w <;> rfl
@[simp] theorem setTree_datDict (s : State) (w : DatTree) (t : Tree) : (s.setTree w t).datDict = s.datDict := by cases w <;> rfl
@[simp] theorem setTree_builder (s : State) (w : DatTree) (t : Tree) : (s.setTree w t).builder = s.builder := by cases w <;> rfl
@[simp] theorem setTree_phase (s : State) (w : DatTree) (t : Tree) : (s.setTree w t).phase = s.phase := by cases w <;> rfl
@[simp] theorem setTree_dat (s : State) (w : DatTree) (t : Tree) : (s.setTree w t).dat = s.dat := by cases w <;> rfl
@[simp] theorem setTree_tex (s : State) (w : DatTree) (t : Tree) : (s.setTree w t).tex = s.tex := by cases w <;> rfl
@[simp] theorem setTree_fmt (s : State) (w : DatTree) (t : Tree) : (s.setTree w t).fmt = s.fmt := by cases w <;> rfl
@[simp] theorem setTree_maxBlocks (s : State) (w : DatTree) (t : Tree) : (s.setTree w t).maxBlocks = s.maxBlocks := by cases w <;> rfl
@[simp] theorem setTree_rgbOrder (s : State) (w : DatTree) (t : Tree) : (s.setTree w t).rgbOrder = s.rgbOrder := by cases w <;> rfl
@[simp] theorem setTree_regBase (s : State) (w : DatTree) (t : Tree) : (s.setTree w t).regBase = s.regBase := by cases w <;> rfl
@[simp] theorem setTree_inReset (s : State) (w : DatTree) (t : Tree) : (s.setTree w t).inReset = s.inReset := by cases w <;> rfl
@[simp] theorem setTree_mem (s : State) (w : DatTree) (t : Tree) : (s.setTree w t).mem = s.mem := by cases w <;> rfl
@[simp] theorem setTree_memAtStart (s : State) (w : DatTree) (t : Tree) : (s.setTree w t).memAtStart = s.memAtStart := by cases w <;> rfl
@[simp] theorem setTree_touched (s : State) (w : DatTree) (t : Tree) : (s.setTree w t).touched = s.touched := by cases w <;> rfl
@[simp] theorem setTree_held (s : State) (w : DatTree) (t : Tree) : (s.setTree w t).held = s.held := by cases w <;> rfl
@[simp] theorem setTree_free (s : State) (w : DatTree) (t : Tree) : (s.setTree w t).free = s.free := by cases w <;> rfl
@[simp] theorem setTree_bus (s : State) (w : DatTree) (t : Tree) : (s.setTree w t).bus = s.bus := by cases w <;> rfl
@[simp] theorem setTree_busData (s : State) (w : DatTree) (t : Tree) : (s.setTree w t).busData = s.busData := by cases w <;> rfl
@[simp] theorem setTree_sym_sym (s : State) (t : Tree) : (s.setTree .sym t).sym = t := rfl
@[simp] theorem setTree_sym_copy (s : State) (t : Tree) : (s.setTree .sym t).copy = s.copy := rfl
@[simp] theorem setTree_copy_sym (s : State) (t : Tree) : (s.setTree .copy t).sym = s.sym := rfl
@[simp] theorem setTree_copy_copy (s : State) (t : Tree) : (s.setTree .copy t).copy = t := rfl

/-! ### disturb -/

@[simp] theorem disturb_ie (s : State) : s.disturb.ie = s.ie := rfl
@[simp] theorem disturb_cmd (s : State) : s.disturb.cmd = s.cmd := rfl
@[simp] theorem disturb_status (s : State) : s.disturb.status = { s.status with stop := Config.freeStop s.free } := rfl
@[simp] theorem disturb_inBase (s : State) : s.disturb.inBase = s.inBase := rfl
@[simp] theorem disturb_inLen (s : State) : s.disturb.inLen = s.inLen := rfl
@[simp] theorem disturb_outBase (s : State) : s.disturb.outBase = s.outBase := rfl
@[simp] theorem disturb_outLen (s : State) : s.disturb.outLen = s.outLen := rfl
@[simp] theorem disturb_texWidth (s : State) : s.disturb.texWidth = s.texWidth := rfl
@[simp] theorem disturb_texHeight (s : State) : s.disturb.texHeight = s.texHeight := rfl
@[simp] theorem disturb_texFourcc (s : State) : s.disturb.texFourcc = s.texFourcc := rfl
@[simp] theorem disturb_arg0 (s : State) : s.disturb.arg0 = s.arg0 := rfl
@[simp] theorem disturb_arg1 (s : State) : s.disturb.arg1 = s.arg1 := rfl
@[simp] theorem disturb_result0 (s : State) : s.disturb.result0 = s.result0 := rfl
@[simp] theorem disturb_result1 (s : State) : s.disturb.result1 = s.result1 := rfl
@[simp] theorem disturb_outCount (s : State) : s.disturb.outCount = Config.freeCount s.free := rfl
@[simp] theorem disturb_texCflags (s : State) : s.disturb.texCflags = s.texCflags := rfl
@[simp] theorem disturb_texDsize (s : State) : s.disturb.texDsize = s.texDsize := rfl
@[simp] theorem disturb_datHdr (s : State) : s.disturb.datHdr = s.datHdr := rfl
@[simp] theorem disturb_reader (s : State) : s.disturb.reader = s.reader := rfl
@[simp] theorem disturb_sym (s : State) : s.disturb.sym = s.sym := rfl
@[simp] theorem disturb_copy (s : State) : s.disturb.copy = s.copy := rfl
@[simp] theorem disturb_datDict (s : State) : s.disturb.datDict = s.datDict := rfl
@[simp] theorem disturb_builder (s : State) : s.disturb.builder = s.builder := rfl
@[simp] theorem disturb_phase (s : State) : s.disturb.phase = s.phase := rfl
@[simp] theorem disturb_dat (s : State) : s.disturb.dat = s.dat := rfl
@[simp] theorem disturb_tex (s : State) : s.disturb.tex = s.tex := rfl
@[simp] theorem disturb_fmt (s : State) : s.disturb.fmt = s.fmt := rfl
@[simp] theorem disturb_maxBlocks (s : State) : s.disturb.maxBlocks = s.maxBlocks := rfl
@[simp] theorem disturb_rgbOrder (s : State) : s.disturb.rgbOrder = s.rgbOrder := rfl
@[simp] theorem disturb_regBase (s : State) : s.disturb.regBase = s.regBase := rfl
@[simp] theorem disturb_inReset (s : State) : s.disturb.inReset = s.inReset := rfl
@[simp] theorem disturb_mem (s : State) : s.disturb.mem = applyHeld (Memory.fill (Config.freeByte s.free) s.mem s.outBase s.outLen.toNat) s.held := rfl
@[simp] theorem disturb_memAtStart (s : State) : s.disturb.memAtStart = s.memAtStart := rfl
@[simp] theorem disturb_touched (s : State) : s.disturb.touched = false := rfl
@[simp] theorem disturb_held (s : State) : s.disturb.held = [] := rfl
@[simp] theorem disturb_free (s : State) : s.disturb.free = s.free + 1 := rfl
@[simp] theorem disturb_bus (s : State) : s.disturb.bus = s.bus := rfl
@[simp] theorem disturb_busData (s : State) : s.disturb.busData = s.busData := rfl

/-! ### underReset -/

@[simp] theorem underReset_ie (s : State) : s.underReset.ie = State.reset.ie := rfl
@[simp] theorem underReset_cmd (s : State) : s.underReset.cmd = State.reset.cmd := rfl
@[simp] theorem underReset_status (s : State) : s.underReset.status = State.reset.status := rfl
@[simp] theorem underReset_inBase (s : State) : s.underReset.inBase = State.reset.inBase := rfl
@[simp] theorem underReset_inLen (s : State) : s.underReset.inLen = State.reset.inLen := rfl
@[simp] theorem underReset_outBase (s : State) : s.underReset.outBase = State.reset.outBase := rfl
@[simp] theorem underReset_outLen (s : State) : s.underReset.outLen = State.reset.outLen := rfl
@[simp] theorem underReset_texWidth (s : State) : s.underReset.texWidth = State.reset.texWidth := rfl
@[simp] theorem underReset_texHeight (s : State) : s.underReset.texHeight = State.reset.texHeight := rfl
@[simp] theorem underReset_texFourcc (s : State) : s.underReset.texFourcc = State.reset.texFourcc := rfl
@[simp] theorem underReset_arg0 (s : State) : s.underReset.arg0 = State.reset.arg0 := rfl
@[simp] theorem underReset_arg1 (s : State) : s.underReset.arg1 = State.reset.arg1 := rfl
@[simp] theorem underReset_result0 (s : State) : s.underReset.result0 = State.reset.result0 := rfl
@[simp] theorem underReset_result1 (s : State) : s.underReset.result1 = State.reset.result1 := rfl
@[simp] theorem underReset_outCount (s : State) : s.underReset.outCount = State.reset.outCount := rfl
@[simp] theorem underReset_texCflags (s : State) : s.underReset.texCflags = State.reset.texCflags := rfl
@[simp] theorem underReset_texDsize (s : State) : s.underReset.texDsize = State.reset.texDsize := rfl
@[simp] theorem underReset_datHdr (s : State) : s.underReset.datHdr = State.reset.datHdr := rfl
@[simp] theorem underReset_reader (s : State) : s.underReset.reader = State.reset.reader := rfl
@[simp] theorem underReset_sym (s : State) : s.underReset.sym = State.reset.sym := rfl
@[simp] theorem underReset_copy (s : State) : s.underReset.copy = State.reset.copy := rfl
@[simp] theorem underReset_datDict (s : State) : s.underReset.datDict = s.datDict := rfl
@[simp] theorem underReset_builder (s : State) : s.underReset.builder = State.reset.builder := rfl
@[simp] theorem underReset_phase (s : State) : s.underReset.phase = State.reset.phase := rfl
@[simp] theorem underReset_dat (s : State) : s.underReset.dat = State.reset.dat := rfl
@[simp] theorem underReset_tex (s : State) : s.underReset.tex = State.reset.tex := rfl
@[simp] theorem underReset_fmt (s : State) : s.underReset.fmt = State.reset.fmt := rfl
@[simp] theorem underReset_maxBlocks (s : State) : s.underReset.maxBlocks = s.maxBlocks := rfl
@[simp] theorem underReset_rgbOrder (s : State) : s.underReset.rgbOrder = s.rgbOrder := rfl
@[simp] theorem underReset_regBase (s : State) : s.underReset.regBase = s.regBase := rfl
@[simp] theorem underReset_inReset (s : State) : s.underReset.inReset = true := rfl
@[simp] theorem underReset_mem (s : State) : s.underReset.mem = s.mem := rfl
@[simp] theorem underReset_memAtStart (s : State) : s.underReset.memAtStart = State.reset.memAtStart := rfl
@[simp] theorem underReset_touched (s : State) : s.underReset.touched = State.reset.touched := rfl
@[simp] theorem underReset_held (s : State) : s.underReset.held = State.reset.held := rfl
@[simp] theorem underReset_free (s : State) : s.underReset.free = s.free := rfl
@[simp] theorem underReset_bus (s : State) : s.underReset.bus = s.bus := rfl
@[simp] theorem underReset_busData (s : State) : s.underReset.busData = s.busData := rfl

/-! ### assertReset -/

@[simp] theorem assertReset_ie (s : State) : s.assertReset.ie = State.reset.ie := rfl
@[simp] theorem assertReset_cmd (s : State) : s.assertReset.cmd = State.reset.cmd := rfl
@[simp] theorem assertReset_status (s : State) : s.assertReset.status = State.reset.status := rfl
@[simp] theorem assertReset_inBase (s : State) : s.assertReset.inBase = State.reset.inBase := rfl
@[simp] theorem assertReset_inLen (s : State) : s.assertReset.inLen = State.reset.inLen := rfl
@[simp] theorem assertReset_outBase (s : State) : s.assertReset.outBase = State.reset.outBase := rfl
@[simp] theorem assertReset_outLen (s : State) : s.assertReset.outLen = State.reset.outLen := rfl
@[simp] theorem assertReset_texWidth (s : State) : s.assertReset.texWidth = State.reset.texWidth := rfl
@[simp] theorem assertReset_texHeight (s : State) : s.assertReset.texHeight = State.reset.texHeight := rfl
@[simp] theorem assertReset_texFourcc (s : State) : s.assertReset.texFourcc = State.reset.texFourcc := rfl
@[simp] theorem assertReset_arg0 (s : State) : s.assertReset.arg0 = State.reset.arg0 := rfl
@[simp] theorem assertReset_arg1 (s : State) : s.assertReset.arg1 = State.reset.arg1 := rfl
@[simp] theorem assertReset_result0 (s : State) : s.assertReset.result0 = State.reset.result0 := rfl
@[simp] theorem assertReset_result1 (s : State) : s.assertReset.result1 = State.reset.result1 := rfl
@[simp] theorem assertReset_outCount (s : State) : s.assertReset.outCount = State.reset.outCount := rfl
@[simp] theorem assertReset_texCflags (s : State) : s.assertReset.texCflags = State.reset.texCflags := rfl
@[simp] theorem assertReset_texDsize (s : State) : s.assertReset.texDsize = State.reset.texDsize := rfl
@[simp] theorem assertReset_datHdr (s : State) : s.assertReset.datHdr = State.reset.datHdr := rfl
@[simp] theorem assertReset_reader (s : State) : s.assertReset.reader = State.reset.reader := rfl
@[simp] theorem assertReset_sym (s : State) : s.assertReset.sym = State.reset.sym := rfl
@[simp] theorem assertReset_copy (s : State) : s.assertReset.copy = State.reset.copy := rfl
@[simp] theorem assertReset_datDict (s : State) : s.assertReset.datDict = s.datDict := rfl
@[simp] theorem assertReset_builder (s : State) : s.assertReset.builder = State.reset.builder := rfl
@[simp] theorem assertReset_phase (s : State) : s.assertReset.phase = State.reset.phase := rfl
@[simp] theorem assertReset_dat (s : State) : s.assertReset.dat = State.reset.dat := rfl
@[simp] theorem assertReset_tex (s : State) : s.assertReset.tex = State.reset.tex := rfl
@[simp] theorem assertReset_fmt (s : State) : s.assertReset.fmt = State.reset.fmt := rfl
@[simp] theorem assertReset_maxBlocks (s : State) : s.assertReset.maxBlocks = s.maxBlocks := rfl
@[simp] theorem assertReset_rgbOrder (s : State) : s.assertReset.rgbOrder = s.rgbOrder := rfl
@[simp] theorem assertReset_regBase (s : State) : s.assertReset.regBase = s.regBase := rfl
@[simp] theorem assertReset_inReset (s : State) : s.assertReset.inReset = true := rfl
@[simp] theorem assertReset_mem (s : State) : s.assertReset.mem = s.memAfterReset := rfl
@[simp] theorem assertReset_memAtStart (s : State) : s.assertReset.memAtStart = State.reset.memAtStart := rfl
@[simp] theorem assertReset_touched (s : State) : s.assertReset.touched = State.reset.touched := rfl
@[simp] theorem assertReset_held (s : State) : s.assertReset.held = State.reset.held := rfl
@[simp] theorem assertReset_free (s : State) : s.assertReset.free = if s.busy then s.free + 1 else s.free := rfl
@[simp] theorem assertReset_bus (s : State) : s.assertReset.bus = s.bus := rfl
@[simp] theorem assertReset_busData (s : State) : s.assertReset.busData = s.busData := rfl

/-! ### endJob: what the end of a job, disturbed or not, leaves -/

@[simp] theorem endJob_ie (err stop : Byte) (count : Word) (s : State) : (s.endJob err stop count).ie = s.ie := by
  unfold State.endJob; split <;> rfl
@[simp] theorem endJob_cmd (err stop : Byte) (count : Word) (s : State) : (s.endJob err stop count).cmd = s.cmd := by
  unfold State.endJob; split <;> rfl
@[simp] theorem endJob_inBase (err stop : Byte) (count : Word) (s : State) : (s.endJob err stop count).inBase = s.inBase := by
  unfold State.endJob; split <;> rfl
@[simp] theorem endJob_inLen (err stop : Byte) (count : Word) (s : State) : (s.endJob err stop count).inLen = s.inLen := by
  unfold State.endJob; split <;> rfl
@[simp] theorem endJob_outBase (err stop : Byte) (count : Word) (s : State) : (s.endJob err stop count).outBase = s.outBase := by
  unfold State.endJob; split <;> rfl
@[simp] theorem endJob_outLen (err stop : Byte) (count : Word) (s : State) : (s.endJob err stop count).outLen = s.outLen := by
  unfold State.endJob; split <;> rfl
@[simp] theorem endJob_texWidth (err stop : Byte) (count : Word) (s : State) : (s.endJob err stop count).texWidth = s.texWidth := by
  unfold State.endJob; split <;> rfl
@[simp] theorem endJob_texHeight (err stop : Byte) (count : Word) (s : State) : (s.endJob err stop count).texHeight = s.texHeight := by
  unfold State.endJob; split <;> rfl
@[simp] theorem endJob_texFourcc (err stop : Byte) (count : Word) (s : State) : (s.endJob err stop count).texFourcc = s.texFourcc := by
  unfold State.endJob; split <;> rfl
@[simp] theorem endJob_arg0 (err stop : Byte) (count : Word) (s : State) : (s.endJob err stop count).arg0 = s.arg0 := by
  unfold State.endJob; split <;> rfl
@[simp] theorem endJob_arg1 (err stop : Byte) (count : Word) (s : State) : (s.endJob err stop count).arg1 = s.arg1 := by
  unfold State.endJob; split <;> rfl
@[simp] theorem endJob_result0 (err stop : Byte) (count : Word) (s : State) : (s.endJob err stop count).result0 = s.result0 := by
  unfold State.endJob; split <;> rfl
@[simp] theorem endJob_result1 (err stop : Byte) (count : Word) (s : State) : (s.endJob err stop count).result1 = s.result1 := by
  unfold State.endJob; split <;> rfl
@[simp] theorem endJob_texCflags (err stop : Byte) (count : Word) (s : State) : (s.endJob err stop count).texCflags = s.texCflags := by
  unfold State.endJob; split <;> rfl
@[simp] theorem endJob_texDsize (err stop : Byte) (count : Word) (s : State) : (s.endJob err stop count).texDsize = s.texDsize := by
  unfold State.endJob; split <;> rfl
@[simp] theorem endJob_datHdr (err stop : Byte) (count : Word) (s : State) : (s.endJob err stop count).datHdr = s.datHdr := by
  unfold State.endJob; split <;> rfl
@[simp] theorem endJob_reader (err stop : Byte) (count : Word) (s : State) : (s.endJob err stop count).reader = s.reader := by
  unfold State.endJob; split <;> rfl
@[simp] theorem endJob_sym (err stop : Byte) (count : Word) (s : State) : (s.endJob err stop count).sym = s.sym := by
  unfold State.endJob; split <;> rfl
@[simp] theorem endJob_copy (err stop : Byte) (count : Word) (s : State) : (s.endJob err stop count).copy = s.copy := by
  unfold State.endJob; split <;> rfl
@[simp] theorem endJob_datDict (err stop : Byte) (count : Word) (s : State) : (s.endJob err stop count).datDict = s.datDict := by
  unfold State.endJob; split <;> rfl
@[simp] theorem endJob_builder (err stop : Byte) (count : Word) (s : State) : (s.endJob err stop count).builder = s.builder := by
  unfold State.endJob; split <;> rfl
@[simp] theorem endJob_dat (err stop : Byte) (count : Word) (s : State) : (s.endJob err stop count).dat = s.dat := by
  unfold State.endJob; split <;> rfl
@[simp] theorem endJob_tex (err stop : Byte) (count : Word) (s : State) : (s.endJob err stop count).tex = s.tex := by
  unfold State.endJob; split <;> rfl
@[simp] theorem endJob_fmt (err stop : Byte) (count : Word) (s : State) : (s.endJob err stop count).fmt = s.fmt := by
  unfold State.endJob; split <;> rfl
@[simp] theorem endJob_maxBlocks (err stop : Byte) (count : Word) (s : State) : (s.endJob err stop count).maxBlocks = s.maxBlocks := by
  unfold State.endJob; split <;> rfl
@[simp] theorem endJob_rgbOrder (err stop : Byte) (count : Word) (s : State) : (s.endJob err stop count).rgbOrder = s.rgbOrder := by
  unfold State.endJob; split <;> rfl
@[simp] theorem endJob_regBase (err stop : Byte) (count : Word) (s : State) : (s.endJob err stop count).regBase = s.regBase := by
  unfold State.endJob; split <;> rfl
@[simp] theorem endJob_inReset (err stop : Byte) (count : Word) (s : State) : (s.endJob err stop count).inReset = s.inReset := by
  unfold State.endJob; split <;> rfl
@[simp] theorem endJob_bus (err stop : Byte) (count : Word) (s : State) : (s.endJob err stop count).bus = s.bus := by
  unfold State.endJob; split <;> rfl
@[simp] theorem endJob_busData (err stop : Byte) (count : Word) (s : State) : (s.endJob err stop count).busData = s.busData := by
  unfold State.endJob; split <;> rfl
@[simp] theorem endJob_phase (err stop : Byte) (count : Word) (s : State) : (s.endJob err stop count).phase = .idle := by
  unfold State.endJob; split <;> rfl
@[simp] theorem endJob_memAtStart (err stop : Byte) (count : Word) (s : State) :
    (s.endJob err stop count).memAtStart = [] := by unfold State.endJob; split <;> rfl
@[simp] theorem endJob_touched (err stop : Byte) (count : Word) (s : State) :
    (s.endJob err stop count).touched = false := by
  unfold State.endJob; split
  · rfl
  · exact Bool.eq_false_iff.mpr ‹_›

/-- The end of a job that the host did not touch. -/
theorem endJob_undisturbed {s : State} (h : s.touched = false) (err stop : Byte) (count : Word) :
    s.endJob err stop count = State.complete err stop { s with outCount := count, memAtStart := [] } := by
  simp [State.endJob, h]

/-- The end of a job that the host touched. -/
theorem endJob_disturbed {s : State} (h : s.touched = true) (err stop : Byte) (count : Word) :
    s.endJob err stop count = (State.complete err stop { s with outCount := count, memAtStart := [] }).disturb := by
  simp [State.endJob, h]

/-! ### The reader -/

@[simp] theorem shiftOut_start (r : Reader) (k : Nat) : (r.shiftOut k).start = r.start := rfl
@[simp] theorem shiftOut_cursor (r : Reader) (k : Nat) : (r.shiftOut k).cursor = r.cursor := rfl
@[simp] theorem shiftOut_remaining (r : Reader) (k : Nat) : (r.shiftOut k).remaining = r.remaining := rfl
@[simp] theorem shiftOut_skip (r : Reader) (k : Nat) : (r.shiftOut k).skip = r.skip := rfl
@[simp] theorem shiftOut_win (r : Reader) (k : Nat) : (r.shiftOut k).win = r.win <<< k := rfl
@[simp] theorem shiftOut_bits (r : Reader) (k : Nat) : (r.shiftOut k).bits = r.bits - k := rfl
@[simp] theorem stepOver_start (r : Reader) : r.stepOver.start = r.start := rfl
@[simp] theorem stepOver_cursor (r : Reader) : r.stepOver.cursor = r.cursor + 4 := rfl
@[simp] theorem stepOver_remaining (r : Reader) : r.stepOver.remaining = r.remaining - 4 := rfl
@[simp] theorem stepOver_skip (r : Reader) : r.stepOver.skip = r.skip := rfl
@[simp] theorem stepOver_win (r : Reader) : r.stepOver.win = r.win := rfl
@[simp] theorem stepOver_bits (r : Reader) : r.stepOver.bits = r.bits := rfl
@[simp] theorem merge_start (r : Reader) (v : Word) : (r.merge v).start = r.start := rfl
@[simp] theorem merge_cursor (r : Reader) (v : Word) : (r.merge v).cursor = r.cursor := rfl
@[simp] theorem merge_remaining (r : Reader) (v : Word) : (r.merge v).remaining = r.remaining := rfl
@[simp] theorem merge_skip (r : Reader) (v : Word) : (r.merge v).skip = r.skip := rfl
@[simp] theorem merge_win (r : Reader) (v : Word) :
    (r.merge v).win = r.win ||| (v.setWidth 64 <<< (32 - r.bits)) := rfl
@[simp] theorem merge_bits (r : Reader) (v : Word) : (r.merge v).bits = r.bits + 32 := rfl

end Sys2Proof.Machine
end

