-- ==== Sys2Proof/Laws/Reader.lean ====
section
/-! SUPPORT. The BitReader: what each operation can do, and that each keeps the reader's invariant. -/

namespace Sys2Proof.Machine

/-! ### PULL -/

/-- What PULL can do (40_bitreader.md R201): skip a word or not, then load one or find none. -/
theorem pull_cases (m : Memory) (r : Reader) :
    ∃ r₁, r₁ = r.skipWord ∧
      ((r₁.remaining.toNat < 4 ∧ r.pull m = r₁) ∨
        (4 ≤ r₁.remaining.toNat ∧ r.pull m = r₁.stepOver.merge (m.readWord (r₁.start + r₁.cursor)))) := by
  refine ⟨_, rfl, ?_⟩
  unfold Reader.pull Reader.loadWord
  split
  · exact .inl ⟨‹_›, rfl⟩
  · exact .inr ⟨by omega, rfl⟩

/-- The skip of a PULL: one whole word, or nothing. -/
theorem skipWord_cases (r : Reader) :
    r.skipWord = r ∨ (4 ≤ r.remaining.toNat ∧ skipApplies r.skip r.cursor.toNat = true ∧ r.skipWord = r.stepOver) := by
  unfold Reader.skipWord
  split
  · right; simp_all
  · exact .inl rfl

/-- The reader's invariant but for the filling of the window. -/
structure Reader.Loose (r : Reader) : Prop where
  few : r.bits ≤ 63
  zeroBelow : r.win <<< r.bits = 0
  aligned : r.cursor.toNat % 4 = 0
  policy : r.skip ≠ .everyNth 0 ∧ r.skip ≠ .everyNth 0xFFFF
  span : r.start.toNat + r.cursor.toNat + r.remaining.toNat ≤ 2 ^ 32

theorem Reader.Good.loose {r : Reader} (h : r.Good) : r.Loose := ⟨h.few, h.zeroBelow, h.aligned, h.policy, h.span⟩

/-- Where a word remains, the cursor can pass it without wrapping, unless the span ends with the address space. -/
theorem stepOver_loose {r : Reader} (h : r.Loose) (hrem : 4 ≤ r.remaining.toNat) : r.stepOver.Loose := by
  have hs := h.span
  have hr : (r.remaining - 4).toNat = r.remaining.toNat - 4 := by bv_omega
  by_cases hc : r.cursor.toNat + 4 < 2 ^ 32
  · have hcur : (r.cursor + 4).toNat = r.cursor.toNat + 4 := by bv_omega
    refine ⟨h.few, h.zeroBelow, ?_, h.policy, ?_⟩
    · show (r.cursor + 4).toNat % 4 = 0
      have := h.aligned; omega
    · show r.start.toNat + (r.cursor + 4).toNat + (r.remaining - 4).toNat ≤ 2 ^ 32
      omega
  · have hcur : (r.cursor + 4).toNat = r.cursor.toNat + 4 - 2 ^ 32 := by bv_omega
    refine ⟨h.few, h.zeroBelow, ?_, h.policy, ?_⟩
    · show (r.cursor + 4).toNat % 4 = 0
      have := h.aligned; omega
    · show r.start.toNat + (r.cursor + 4).toNat + (r.remaining - 4).toNat ≤ 2 ^ 32
      omega

theorem skipWord_loose {r : Reader} (h : r.Loose) : r.skipWord.Loose := by
  rcases skipWord_cases r with e | ⟨h4, _, e⟩
  · rw [e]; exact h
  · rw [e]; exact stepOver_loose h h4

@[simp] theorem skipWord_bits (r : Reader) : r.skipWord.bits = r.bits := by
  rcases skipWord_cases r with e | ⟨_, _, e⟩ <;> rw [e]; rfl

@[simp] theorem skipWord_win (r : Reader) : r.skipWord.win = r.win := by
  rcases skipWord_cases r with e | ⟨_, _, e⟩ <;> rw [e]; rfl

/-- The merge leaves zeros below the valid bits (40_bitreader.md R203). -/
theorem merge_zeroBelow {w : BitVec 64} {n : Nat} (v : Word) (h : w <<< n = 0) (hn : n ≤ 32) :
    (w ||| (v.setWidth 64 <<< (32 - n))) <<< (n + 32) = 0 := by
  rw [BitVec.shiftLeft_or_distrib, BitVec.shiftLeft_add, h, ← BitVec.shiftLeft_add]
  have e : 32 - n + (n + 32) = 64 := by omega
  rw [e]
  simp

theorem merge_loose {r : Reader} (v : Word) (h : r.Loose) (hn : r.bits < 32) : (r.merge v).Loose :=
  ⟨by simp; omega, merge_zeroBelow v h.zeroBelow (by omega), h.aligned, h.policy, h.span⟩

/-- PULL on fewer than 32 valid bits restores the invariant (10_state.md R51, R52). -/
theorem pull_good {r : Reader} (m : Memory) (h : r.Loose) (hn : r.bits < 32) : (r.pull m).Good := by
  obtain ⟨r₁, rfl, ⟨hrem, e⟩ | ⟨hrem, e⟩⟩ := pull_cases m r
  · rw [e]
    have hl := skipWord_loose h
    exact ⟨hl.few, hl.zeroBelow, .inr hrem, hl.aligned, hl.policy, hl.span⟩
  · rw [e]
    have hl := merge_loose (m.readWord (r.skipWord.start + r.skipWord.cursor)) (stepOver_loose (skipWord_loose h) hrem)
      (by simpa using hn)
    exact ⟨hl.few, hl.zeroBelow, .inl (by simp), hl.aligned, hl.policy, hl.span⟩

/-! ### Construction -/

theorem skipPolicyOf_legal (code : BitVec 16) :
    skipPolicyOf code ≠ .everyNth 0 ∧ skipPolicyOf code ≠ .everyNth 0xFFFF := by
  unfold skipPolicyOf
  split
  · simp
  · split
    · simp
    · simp_all

/-- READER_INIT over a region that does not wrap gives a reader that meets the invariant (40_bitreader.md R200). -/
theorem readerInit_good (m : Memory) (a len : Word) (code : BitVec 16) (h : a.toNat + len.toNat ≤ 2 ^ 32) :
    (readerInit m a len code).Good :=
  pull_good m ⟨by simp, by simp, by simp, skipPolicyOf_legal code, by simpa using h⟩ (by simp)

theorem resetReader_good : resetReader.Good :=
  ⟨by simp [resetReader], by simp [resetReader], .inr (by simp [resetReader]), by simp [resetReader],
    by simp [resetReader], by simp [resetReader]⟩

/-! ### DROP, READ, TAKE, ALIGN32 -/

/-- What DROP can do (40_bitreader.md R205). -/
theorem drop_cases (m : Memory) (r : Reader) (k : Nat) :
    (r.bits < k ∧ Reader.drop m r k = .error .exhausted) ∨
      (k ≤ r.bits ∧ r.bits - k < 32 ∧ Reader.drop m r k = .ok (Reader.pull m (r.shiftOut k))) ∨
      (k ≤ r.bits ∧ 32 ≤ r.bits - k ∧ Reader.drop m r k = .ok (r.shiftOut k)) := by
  unfold Reader.drop
  split
  · exact .inl ⟨‹_›, rfl⟩
  · split
    · exact .inr (.inl ⟨by omega, ‹_›, rfl⟩)
    · exact .inr (.inr ⟨by omega, by omega, rfl⟩)

theorem shiftOut_loose {r : Reader} {k : Nat} (h : r.Loose) (hk : k ≤ r.bits) : (r.shiftOut k).Loose := by
  refine ⟨?_, ?_, h.aligned, h.policy, h.span⟩
  · have := h.few; simp; omega
  · show (r.win <<< k) <<< (r.bits - k) = 0
    rw [← BitVec.shiftLeft_add, Nat.add_sub_cancel' hk]
    exact h.zeroBelow

/-- DROP keeps the reader's invariant. -/
theorem drop_good {m : Memory} {r r' : Reader} {k : Nat} (h : r.Good) (e : Reader.drop m r k = .ok r') : r'.Good := by
  rcases drop_cases m r k with ⟨_, e'⟩ | ⟨hk, hn, e'⟩ | ⟨hk, hn, e'⟩
  · rw [e'] at e; cases e
  · rw [e'] at e; cases e; exact pull_good m (shiftOut_loose h.loose hk) hn
  · rw [e'] at e; cases e
    have hl := shiftOut_loose h.loose hk
    exact ⟨hl.few, hl.zeroBelow, .inl hn, hl.aligned, hl.policy, hl.span⟩

/-- What READ can do (40_bitreader.md R206). -/
theorem read_cases (r : Reader) (k : Nat) :
    (r.bits < k ∧ r.read k = .error .exhausted) ∨ (k ≤ r.bits ∧ r.read k = .ok (r.peek k)) := by
  unfold Reader.read
  split
  · exact .inl ⟨‹_›, rfl⟩
  · exact .inr ⟨by omega, rfl⟩

/-- What TAKE can do (40_bitreader.md R207). -/
theorem take_cases (m : Memory) (r : Reader) (k : Nat) :
    (r.bits < k ∧ Reader.take m r k = .error .exhausted) ∨
      (k ≤ r.bits ∧ ∃ r', Reader.drop m r k = .ok r' ∧ Reader.take m r k = .ok (r.peek k, r')) := by
  unfold Reader.take
  rcases read_cases r k with ⟨h, e⟩ | ⟨h, e⟩
  · rw [e]; exact .inl ⟨h, rfl⟩
  · rw [e]
    rcases drop_cases m r k with ⟨h', _⟩ | ⟨_, _, e'⟩ | ⟨_, _, e'⟩
    · omega
    · exact .inr ⟨h, _, e', by simp [e']⟩
    · exact .inr ⟨h, _, e', by simp [e']⟩

theorem take_good {m : Memory} {r r' : Reader} {k : Nat} {v : Word} (h : r.Good)
    (e : Reader.take m r k = .ok (v, r')) : r'.Good := by
  rcases take_cases m r k with ⟨_, e'⟩ | ⟨_, r'', hd, e'⟩
  · rw [e'] at e; cases e
  · rw [e'] at e; cases e; exact drop_good h hd

/-- ALIGN32 never stops and keeps the invariant (40_bitreader.md R208). -/
theorem align32_good {r : Reader} (m : Memory) (h : r.Good) : (r.align32 m).Good := by
  unfold Reader.align32
  split
  · exact drop_good h ‹_›
  · exact h

theorem dropFinalBit_good {r : Reader} (m : Memory) (h : r.Good) : (r.dropFinalBit m).Good := by
  unfold Reader.dropFinalBit
  split
  · exact drop_good h ‹_›
  · exact h

/-! ### DECODE -/

/-- What DECODE can do (41_huffman.md R270 to R273). -/
theorem decodeTree_cases (m : Memory) (t : Tree) (r : Reader) :
    (t.resolve (r.peek 8).toNat (r.peek 32) = none ∧ decodeTree m t r = .error .invalidCode) ∨
      (∃ s len, t.resolve (r.peek 8).toNat (r.peek 32) = some (s, len) ∧ r.bits < len ∧
        decodeTree m t r = .error .exhausted) ∨
      (∃ s len r', t.resolve (r.peek 8).toNat (r.peek 32) = some (s, len) ∧ len ≤ r.bits ∧
        Reader.drop m r len = .ok r' ∧ decodeTree m t r = .ok (s, len, r')) := by
  unfold decodeTree
  split
  · exact .inl ⟨‹_›, rfl⟩
  · rename_i s len hres
    rcases drop_cases m r len with ⟨h, e⟩ | ⟨h, _, e⟩ | ⟨h, _, e⟩
    · exact .inr (.inl ⟨s, len, hres, h, by simp [e]⟩)
    · exact .inr (.inr ⟨s, len, _, hres, h, e, by simp [e]⟩)
    · exact .inr (.inr ⟨s, len, _, hres, h, e, by simp [e]⟩)

theorem decodeTree_good {m : Memory} {t : Tree} {r r' : Reader} {s : Symbol} {len : Nat} (h : r.Good)
    (e : decodeTree m t r = .ok (s, len, r')) : r'.Good := by
  rcases decodeTree_cases m t r with ⟨_, e'⟩ | ⟨_, _, _, _, e'⟩ | ⟨_, _, _, _, _, hd, e'⟩
  · rw [e'] at e; cases e
  · rw [e'] at e; cases e
  · rw [e'] at e; cases e; exact drop_good h hd

end Sys2Proof.Machine
end

