-- ==== Sys2Proof/Laws/Huffman.lean ====
section
/-! SUPPORT. The builder and the trees: BUILD keeps symbols in their alphabet and lengths in their ranges, and what a tree
resolves is in its alphabet. -/

namespace Sys2Proof.Machine

/-! ### The builder -/

theorem emptyBuilder_good : emptyBuilder.Good := ⟨by decide, by decide⟩

theorem symbolsOf_mem {b : Builder} {len : Nat} {s : Symbol} (h : s ∈ b.symbolsOf len) : ∃ l ∈ b.lists, s ∈ l := by
  unfold Builder.symbolsOf at h
  split at h
  · cases h
  · rw [List.getD_eq_getElem?_getD] at h
    cases e : b.lists[len - 1]? with
    | none => simp [e] at h
    | some l => simp only [e, Option.getD_some] at h; exact ⟨l, List.mem_of_getElem? e, h⟩

/-- All symbols of a builder are below a limit. -/
def Builder.below (limit : Nat) (b : Builder) : Prop := ∀ l ∈ b.lists, ∀ s ∈ l, s.toNat < limit

theorem Builder.Good.below {b : Builder} (h : b.Good) : b.below Config.maxSymbols := by
  have := h.symbols; simpa [Builder.below] using this

theorem emptyBuilder_below (limit : Nat) : emptyBuilder.below limit := by
  intro l hl s hs
  obtain ⟨_, rfl⟩ := List.mem_replicate.mp hl
  cases hs

/-- B_ADD of a symbol below the limit keeps the builder below it. -/
theorem add_below {limit : Nat} {b : Builder} {s : Symbol} (len : Nat) (h : b.below limit) (hs : s.toNat < limit) :
    (b.add s len).below limit := by
  unfold Builder.add
  split
  · exact h
  · intro l hl x hx
    rcases List.mem_or_eq_of_mem_set hl with hl | rfl
    · exact h l hl x hx
    · rcases List.mem_append.mp hx with hx | hx
      · obtain ⟨l', hl', hx'⟩ := symbolsOf_mem hx; exact h l' hl' x hx'
      · rw [List.mem_singleton.mp hx]; exact hs

/-- B_ADD keeps the builder's invariant (41_huffman.md R251). -/
theorem add_good {b : Builder} {s : Symbol} (len : Nat) (h : b.Good) (hs : s.toNat < Config.maxSymbols) :
    (b.add s len).Good := by
  refine ⟨?_, ?_⟩
  · unfold Builder.add; split
    · exact h.lengths
    · simpa using h.lengths
  · have := add_below len h.below hs; simpa [Builder.below] using this

theorem builderOf_below {limit : Nat} (pairs : List (Symbol × Nat)) (h : ∀ p ∈ pairs, p.1.toNat < limit) :
    (builderOf pairs).below limit := by
  have key : ∀ (l : List (Symbol × Nat)) (b : Builder), b.below limit → (∀ p ∈ l, p.1.toNat < limit) →
      (l.foldl (fun b p => b.add p.1 p.2) b).below limit := by
    intro l
    induction l with
    | nil => intro b hb _; exact hb
    | cons p l ih => intro b hb hl; exact ih _ (add_below _ hb (hl p (by simp))) (fun q hq => hl q (by simp [hq]))
  exact key pairs _ (emptyBuilder_below limit) h

/-! ### BUILD -/

theorem emptyTree_good (limit : Nat) : emptyTree.Good limit := by
  refine ⟨List.length_replicate, ?_, rfl, rfl⟩
  rw [List.all_eq_true]
  intro x hx
  obtain ⟨_, rfl⟩ := List.mem_replicate.mp hx
  rfl

theorem fillTable_length {α : Type} (v : α) (start count : Nat) (l : List α) :
    (fillTable v start count l).length = l.length := by
  induction l generalizing start count with
  | nil => cases start <;> cases count <;> rfl
  | cons x l ih => cases start <;> cases count <;> simp [fillTable, ih]

theorem fillTable_mem {α : Type} {v x : α} {start count : Nat} {l : List α} (h : x ∈ fillTable v start count l) :
    x = v ∨ x ∈ l := by
  induction l generalizing start count with
  | nil => cases start <;> cases count <;> exact .inr h
  | cons y l ih =>
    cases start <;> cases count <;> simp only [fillTable, List.mem_cons] at h ⊢
    · exact .inr h
    · rcases h with h | h
      · exact .inl h
      · rcases ih h with h | h <;> simp [h]
    · rcases h with h | h
      · exact .inr (.inl h)
      · rcases ih h with h | h <;> simp [h]
    · rcases h with h | h
      · exact .inr (.inl h)
      · rcases ih h with h | h <;> simp [h]

theorem addShort_good {limit len : Nat} {t : Tree} {s : Symbol} (code : Word) (h : t.Good limit)
    (hs : s.toNat < limit) (h1 : 1 ≤ len) (h8 : len ≤ 8) : (t.addShort len s code).Good limit := by
  refine ⟨(fillTable_length _ _ _ _).trans h.hashSize, ?_, h.long, h.symbols⟩
  rw [List.all_eq_true]
  intro x hx
  rcases fillTable_mem hx with rfl | hx
  · simp [hashGood, hs, h1, h8]
  · exact List.all_eq_true.mp h.hash x hx

theorem addLong_good {limit len : Nat} {t : Tree} {s : Symbol} (code : Word) (h : t.Good limit)
    (hs : s.toNat < limit) : (t.addLong len s code).Good limit := by
  refine ⟨h.hashSize, h.hash, h.long, ?_⟩
  have := h.symbols
  simp_all [Tree.addLong]

theorem closeLength_good {limit len : Nat} {t : Tree} (code : Word) (h : t.Good limit) (h9 : 9 ≤ len) (h31 : len ≤ 31) :
    (t.closeLength len code).Good limit := by
  refine ⟨h.hashSize, h.hash, ?_, h.symbols⟩
  have := h.long
  simp_all [Tree.closeLength, longGood]

theorem placeSymbols_good {limit len : Nat} (l : List Symbol) {t t' : Tree} {code code' : Word} (h : t.Good limit)
    (hl : ∀ s ∈ l, s.toNat < limit) (h1 : 1 ≤ len) (e : placeSymbols len l t code = .ok (t', code')) : t'.Good limit := by
  induction l generalizing t code with
  | nil => cases e; exact h
  | cons s l ih =>
    simp only [placeSymbols] at e
    split at e
    · cases e
    · refine ih ?_ (fun x hx => hl x (by simp [hx])) e
      split
      · exact addShort_good code h (hl s (by simp)) h1 ‹_›
      · exact addLong_good code h (hl s (by simp))

theorem buildLength_good {limit len : Nat} {b : Builder} {t t' : Tree} {code code' : Word} (hb : b.below limit)
    (h : t.Good limit) (h1 : 1 ≤ len) (h31 : len ≤ 31) (e : buildLength b len t code = .ok (t', code')) :
    t'.Good limit := by
  unfold buildLength at e
  split at e
  · cases e
  · have hp := placeSymbols_good _ h
      (fun s hs => by obtain ⟨l, hl, hs'⟩ := symbolsOf_mem hs; exact hb l hl s hs') h1 ‹_›
    split at e
    · cases e; exact hp
    · cases e
      refine closeLength_good _ hp ?_ h31
      simp_all only [Bool.or_eq_true, decide_eq_true_eq, List.isEmpty_iff, not_or]
      omega

theorem buildLengths_good {limit : Nat} (lens : List Nat) {b : Builder} {t t' : Tree} {code : Word} (hb : b.below limit)
    (h : t.Good limit) (hl : ∀ n ∈ lens, 1 ≤ n ∧ n ≤ 31) (e : buildLengths b lens t code = .ok t') : t'.Good limit := by
  induction lens generalizing t code with
  | nil => cases e; exact h
  | cons n lens ih =>
    simp only [buildLengths] at e
    split at e
    · cases e
    · have hn := hl n (by simp)
      exact ih (buildLength_good hb h hn.1 hn.2 ‹_›) (fun x hx => hl x (by simp [hx])) e

/-- A tree BUILD makes keeps to the alphabet of its builder (41_huffman.md R260). -/
theorem build_good {limit : Nat} {b : Builder} {t : Tree} (hb : b.below limit) (e : build b = .ok t) : t.Good limit := by
  unfold build at e
  split at e
  · cases e; exact emptyTree_good limit
  · refine buildLengths_good _ hb (emptyTree_good limit) ?_ e
    intro n hn
    rw [List.mem_range'_1] at hn
    omega

/-- BUILD stops only with OVERSUBSCRIBED (41_huffman.md R267). -/
theorem placeSymbols_error {len : Nat} (l : List Symbol) {t : Tree} {code : Word} {e : StopCode}
    (h : placeSymbols len l t code = .error e) : e = .oversubscribed := by
  induction l generalizing t code with
  | nil => cases h
  | cons s l ih =>
    simp only [placeSymbols] at h
    split at h
    · cases h; rfl
    · exact ih h

theorem treeOrEmpty_good {limit : Nat} {b : Builder} (hb : b.below limit) : (treeOrEmpty (build b)).Good limit := by
  cases e : build b with
  | ok t => exact build_good hb e
  | error _ => exact emptyTree_good limit

/-- The tree of a DAT_DICT list holds bytes (41_huffman.md R281). -/
theorem dictTree_good (pairs : List (Byte × Nat)) : (dictTree pairs).Good 256 := by
  apply treeOrEmpty_good
  apply builderOf_below
  intro p hp
  obtain ⟨q, _, rfl⟩ := List.mem_map.mp hp
  have := q.1.isLt
  simp only [BitVec.toNat_setWidth]
  omega

theorem texDictPairs_below : ∀ p ∈ texDictPairs, p.1.toNat < 285 := by decide

theorem texDict_good : texDict.Good 285 := treeOrEmpty_good (builderOf_below _ texDictPairs_below)

/-! ### What a tree resolves -/

theorem findLong_mem {v : Word} {l : List LongEntry} {e : LongEntry} (h : findLong v l = some e) : e ∈ l := by
  induction l with
  | nil => cases h
  | cons x l ih =>
    simp only [findLong] at h
    split at h
    · cases h; simp
    · simp [ih h]

/-- A resolved symbol is in the tree's alphabet, with a length 1 to 31. -/
theorem resolve_good {limit : Nat} {t : Tree} {h : Nat} {v : Word} {s : Symbol} {len : Nat} (ht : t.Good limit)
    (hl : 0 < limit) (e : t.resolve h v = some (s, len)) : s.toNat < limit ∧ 1 ≤ len ∧ len ≤ 31 := by
  unfold Tree.resolve at e
  split at e
  · rename_i x hx
    cases e
    have hm : some x ∈ t.hash := by
      unfold Tree.hashEntry at hx
      rw [List.getD_eq_getElem?_getD] at hx
      cases e : t.hash[h]? with
      | none => simp [e] at hx
      | some y => simp only [e, Option.getD_some] at hx; subst hx; exact List.mem_of_getElem? e
    have := List.all_eq_true.mp ht.hash _ hm
    simp only [hashGood, Bool.and_eq_true, decide_eq_true_eq] at this
    omega
  · split at e
    · rename_i x hx
      cases e
      have h1 := List.all_eq_true.mp ht.long _ (findLong_mem hx)
      simp only [longGood, Bool.and_eq_true, decide_eq_true_eq] at h1
      refine ⟨?_, by omega, by omega⟩
      unfold Tree.longSymbol
      rw [List.getD_eq_getElem?_getD]
      cases e : t.symbols[x.offset - ((v - x.compare) >>> (32 - x.bits)).toNat]? with
      | none => simpa [e] using hl
      | some y =>
        have := List.all_eq_true.mp ht.symbols _ (List.mem_of_getElem? e)
        simpa [e] using this
    · cases e

/-- Every hash entry of TEX_DICT is a count 1 to 18 (41_huffman.md R280). -/
theorem texDict_hash :
    texDict.hash.all (fun x => x.any fun e => decide (1 ≤ e.symbol.toNat) && decide (e.symbol.toNat ≤ 18)) = true := by
  decide +kernel

/-- A tree whose every hash entry is present never takes the slow path. -/
theorem resolve_of_full_hash {t : Tree} {p : HashEntry → Bool} (hsize : t.hash.length = 256)
    (hall : t.hash.all (fun x => x.any p) = true) {h : Nat} (hh : h < 256) (v : Word) :
    ∃ x, p x = true ∧ t.resolve h v = some (x.symbol, x.bits) := by
  have hlt : h < t.hash.length := by rw [hsize]; exact hh
  have hx : t.hashEntry h = t.hash[h] := by
    unfold Tree.hashEntry
    rw [List.getD_eq_getElem?_getD, List.getElem?_eq_getElem hlt]
    rfl
  have hp := List.all_eq_true.mp hall _ (List.getElem_mem hlt)
  unfold Tree.resolve
  rw [hx]
  cases hy : t.hash[h] with
  | none => rw [hy] at hp; cases hp
  | some y => rw [hy] at hp; exact ⟨y, hp, rfl⟩

/-- TEX_DICT is complete: any bits resolve, to a count 1 to 18 (30_encoding.md R168). -/
theorem texDict_resolve {h : Nat} (hh : h < 256) (v : Word) :
    ∃ s len, texDict.resolve h v = some (s, len) ∧ 1 ≤ s.toNat ∧ s.toNat ≤ 18 := by
  obtain ⟨x, hp, e⟩ := resolve_of_full_hash texDict_good.hashSize texDict_hash hh v
  simp only [Bool.and_eq_true, decide_eq_true_eq] at hp
  exact ⟨_, _, e, hp⟩

end Sys2Proof.Machine
end

