-- ==== Sys2Proof/Laws/Memory.lean ====
section
/-! SUPPORT. Memory: every operation keeps the canonical form; what a byte reads as after each. -/

namespace Sys2Proof.Machine

/-! ### The canonical form -/

/-- Every key of the list is above a bound. -/
def keysAbove (bound : Nat) (m : Memory) : Prop := ∀ c ∈ m, bound < c.1

theorem memory_wf_nil : Memory.wf [] = true := rfl

theorem memory_wf_cons (k : Nat) (b : Byte) (rest : Memory) :
    Memory.wf ((k, b) :: rest) = true ↔
      k < 2 ^ 32 ∧ b ≠ unlistedByte ∧ keysAbove k rest ∧ Memory.wf rest = true := by
  simp [Memory.wf, keysAbove, and_assoc]

theorem keysAbove_mono {i j : Nat} {m : Memory} (hij : i ≤ j) (h : keysAbove j m) : keysAbove i m :=
  fun c hc => Nat.lt_of_le_of_lt hij (h c hc)

theorem keysAbove_storeByte {i a : Nat} {b : Byte} {m : Memory} (ha : i < a) (h : keysAbove i m) :
    keysAbove i (storeByte m a b) := by
  induction m with
  | nil =>
    intro c hc
    simp only [storeByte] at hc
    split at hc
    · cases hc
    · simp only [List.mem_singleton] at hc; subst hc; exact ha
  | cons e rest ih =>
    obtain ⟨k, c⟩ := e
    have hk : i < k := h (k, c) (by simp)
    have hr : keysAbove i rest := fun d hd => h d (by simp [hd])
    simp only [storeByte]
    split
    · split
      · exact h
      · intro d hd
        rcases List.mem_cons.mp hd with hd | hd
        · subst hd; exact ha
        · exact h d hd
    · split
      · split
        · exact hr
        · intro d hd
          rcases List.mem_cons.mp hd with hd | hd
          · subst hd; exact ha
          · exact hr d hd
      · intro d hd
        rcases List.mem_cons.mp hd with hd | hd
        · subst hd; exact hk
        · exact ih hr d hd

/-- Storing a byte keeps the canonical form. -/
theorem storeByte_wf {m : Memory} {a : Nat} (b : Byte) (ha : a < 2 ^ 32) (h : m.wf = true) :
    (storeByte m a b : Memory).wf = true := by
  induction m with
  | nil =>
    simp only [storeByte]
    split
    · rfl
    · rw [memory_wf_cons]; exact ⟨ha, ‹_›, List.forall_mem_nil _, rfl⟩
  | cons e rest ih =>
    obtain ⟨k, c⟩ := e
    obtain ⟨hk, hc, hr, hw⟩ := (memory_wf_cons k c rest).mp h
    simp only [storeByte]
    split
    · split
      · exact h
      · refine (memory_wf_cons _ _ _).mpr ⟨ha, ‹_›, ?_, h⟩
        intro d hd
        rcases List.mem_cons.mp hd with hd | hd
        · subst hd; assumption
        · exact Nat.lt_trans ‹_› (hr d hd)
    · split
      · subst k
        split
        · exact hw
        · exact (memory_wf_cons _ _ _).mpr ⟨ha, ‹_›, hr, hw⟩
      · exact (memory_wf_cons _ _ _).mpr ⟨hk, hc, keysAbove_storeByte (by omega) hr, ih hw⟩

theorem memory_write_wf {m : Memory} (a : Word) (b : Byte) (h : m.wf = true) : (m.write a b).wf = true :=
  storeByte_wf b a.isLt h

theorem memory_writeLE_wf {m : Memory} (n : Nat) (a : Word) (v : Nat) (h : m.wf = true) :
    (m.writeLE a n v).wf = true := by
  induction n generalizing m a v with
  | zero => exact h
  | succ n ih => exact ih _ _ (memory_write_wf _ _ h)

theorem memory_writeBytes_wf {m : Memory} (l : List Byte) (a : Word) (h : m.wf = true) :
    (m.writeBytes a l).wf = true := by
  induction l generalizing m a with
  | nil => exact h
  | cons b l ih => exact ih _ (memory_write_wf _ _ h)

theorem memory_fill_wf {m : Memory} (f : Nat → Byte) (n : Nat) (a : Word) (h : m.wf = true) :
    (Memory.fill f m a n).wf = true := by
  induction n generalizing m a with
  | zero => exact h
  | succ n ih => exact ih _ (memory_write_wf _ _ h)

theorem memory_blend_wf {m : Memory} (pick : Nat → Bool) (old : Memory) (l : List Nat) (hl : ∀ a ∈ l, a < 2 ^ 32)
    (h : m.wf = true) : (Memory.blend pick old m l).wf = true := by
  induction l generalizing m with
  | nil => exact h
  | cons a l ih =>
    simp only [Memory.blend]
    apply ih (fun x hx => hl x (by simp [hx]))
    split
    · exact h
    · exact storeByte_wf _ (hl a (by simp)) h

theorem applyHeld_wf {m : Memory} (l : List (Word × Byte)) (h : m.wf = true) : (applyHeld m l).wf = true := by
  induction l generalizing m with
  | nil => exact h
  | cons e l ih => exact ih (memory_write_wf _ _ h)

/-- The memory of reset has the canonical form. -/
theorem reset_mem_wf : State.reset.mem.wf = true := rfl

/-! ### Reads -/

theorem lookupByte_of_keysAbove {m : Memory} {a : Nat} (h : keysAbove a m) : lookupByte m a = unlistedByte := by
  induction m with
  | nil => rfl
  | cons e rest ih =>
    obtain ⟨k, c⟩ := e
    have hk : a < k := h (k, c) (by simp)
    simp only [lookupByte]
    rw [if_neg (by omega)]
    exact ih fun d hd => h d (by simp [hd])

/-- A byte reads as what was last stored there. -/
theorem lookupByte_storeByte {m : Memory} {a : Nat} {b : Byte} (x : Nat) (h : m.wf = true) :
    lookupByte (storeByte m a b) x = if x = a then b else lookupByte m x := by
  induction m with
  | nil =>
    by_cases hb : b = unlistedByte
    · simp [storeByte, hb, lookupByte]
    · simp [storeByte, hb, lookupByte, eq_comm]
  | cons e rest ih =>
    obtain ⟨k, c⟩ := e
    obtain ⟨hk, hc, hr, hw⟩ := (memory_wf_cons k c rest).mp h
    have ih := ih hw
    simp only [storeByte]
    by_cases h1 : a < k
    · have habove : keysAbove a ((k, c) :: rest) := by
        intro d hd
        rcases List.mem_cons.mp hd with hd | hd
        · subst hd; exact h1
        · exact Nat.lt_trans h1 (hr d hd)
      rw [if_pos h1]
      by_cases hb : b = unlistedByte
      · rw [if_pos hb]
        by_cases hx : x = a
        · rw [if_pos hx, hx, hb]; exact lookupByte_of_keysAbove habove
        · rw [if_neg hx]
      · rw [if_neg hb]
        by_cases hx : x = a
        · rw [if_pos hx, hx]; simp [lookupByte]
        · rw [if_neg hx, lookupByte, if_neg (fun e => hx e.symm)]
    · rw [if_neg h1]
      by_cases h2 : a = k
      · subst h2
        rw [if_pos rfl]
        by_cases hb : b = unlistedByte
        · rw [if_pos hb]
          by_cases hx : x = a
          · rw [if_pos hx, hx, hb]; exact lookupByte_of_keysAbove hr
          · rw [if_neg hx, lookupByte, if_neg (fun e => hx e.symm)]
        · rw [if_neg hb]
          by_cases hx : x = a
          · rw [if_pos hx, hx]; simp [lookupByte]
          · rw [if_neg hx, lookupByte, lookupByte, if_neg (fun e => hx e.symm), if_neg (fun e => hx e.symm)]
      · rw [if_neg h2]
        simp only [lookupByte]
        by_cases hx : k = x
        · rw [if_pos hx, if_neg (by omega), if_pos hx]
        · rw [if_neg hx, if_neg hx]; exact ih

theorem memory_read_write {m : Memory} (a x : Word) (b : Byte) (h : m.wf = true) :
    (m.write a b).read x = if x = a then b else m.read x := by
  simp only [Memory.read, Memory.write]
  rw [lookupByte_storeByte _ h]
  by_cases hx : x = a
  · simp [hx]
  · rw [if_neg (fun e => hx (BitVec.eq_of_toNat_eq e)), if_neg hx]

/-- `x` is one of the `n` addresses from `a` on. -/
def spans (a : Word) (n : Nat) (x : Word) : Prop := (x - a).toNat < n

theorem not_spans_self {a : Word} {n : Nat} {x : Word} (hx : ¬spans a (n + 1) x) : x ≠ a := by
  rintro rfl; simp [spans] at hx

theorem not_spans_succ {a : Word} {n : Nat} {x : Word} (hx : ¬spans a (n + 1) x) : ¬spans (a + 1) n x := by
  have hne := not_spans_self hx
  simp only [spans] at *
  have h : (x - (a + 1)).toNat = (x - a).toNat - 1 := by bv_omega
  omega

theorem spans_succ {a : Word} {n : Nat} {x : Word} (hx : spans a (n + 1) x) (hne : x ≠ a) :
    spans (a + 1) n x ∧ (x - (a + 1)).toNat + 1 = (x - a).toNat := by
  simp only [spans] at *
  have h : (x - (a + 1)).toNat + 1 = (x - a).toNat := by bv_omega
  omega

/-- The bytes outside a little-endian write are unchanged. -/
theorem memory_read_writeLE_outside {m : Memory} (n : Nat) (a x : Word) (v : Nat) (h : m.wf = true)
    (hx : ¬spans a n x) : (m.writeLE a n v).read x = m.read x := by
  induction n generalizing m a v with
  | zero => rfl
  | succ n ih =>
    rw [Memory.writeLE, ih _ _ (memory_write_wf _ _ h) (not_spans_succ hx), memory_read_write _ _ _ h,
      if_neg (not_spans_self hx)]

/-- The bytes of a little-endian write (20_memory.md R105). -/
theorem memory_read_writeLE_inside {m : Memory} (n : Nat) (a x : Word) (v : Nat) (hn : n ≤ 2 ^ 32) (h : m.wf = true)
    (hx : spans a n x) : (m.writeLE a n v).read x = BitVec.ofNat 8 (v / 256 ^ (x - a).toNat) := by
  induction n generalizing m a v with
  | zero => simp [spans] at hx
  | succ n ih =>
    rw [Memory.writeLE]
    by_cases hne : x = a
    · subst hne
      have hout : ¬spans (x + 1) n x := by
        simp only [spans]
        have : (x - (x + 1)).toNat = 2 ^ 32 - 1 := by bv_omega
        omega
      rw [memory_read_writeLE_outside _ _ _ _ (memory_write_wf _ _ h) hout, memory_read_write _ _ _ h]
      simp
    · obtain ⟨hin, hd⟩ := spans_succ hx hne
      rw [ih _ _ (by omega) (memory_write_wf _ _ h) hin, ← hd, Nat.pow_succ', Nat.div_div_eq_div_mul]

/-- The bytes outside a write of a list are unchanged. -/
theorem memory_read_writeBytes_outside {m : Memory} (l : List Byte) (a x : Word) (h : m.wf = true)
    (hx : ¬spans a l.length x) : (m.writeBytes a l).read x = m.read x := by
  induction l generalizing m a with
  | nil => rfl
  | cons b l ih =>
    rw [Memory.writeBytes, ih _ (memory_write_wf _ _ h) (not_spans_succ hx), memory_read_write _ _ _ h,
      if_neg (not_spans_self hx)]

/-- The bytes outside a fill are unchanged. -/
theorem memory_read_fill_outside {m : Memory} (f : Nat → Byte) (n : Nat) (a x : Word) (h : m.wf = true)
    (hx : ¬spans a n x) : (Memory.fill f m a n).read x = m.read x := by
  induction n generalizing m a with
  | zero => rfl
  | succ n ih =>
    rw [Memory.fill, ih _ (memory_write_wf _ _ h) (not_spans_succ hx), memory_read_write _ _ _ h,
      if_neg (not_spans_self hx)]

end Sys2Proof.Machine
end

