-- ==== Sys2Proof/Laws/Job.lean ====
section
/-! SUPPORT. The running job: what the operations between two stream elements leave, and that they keep the invariant. -/

namespace Sys2Proof.Machine

/-- The part of the invariant that does not speak of the job's place, with reset not asserted. -/
structure State.Sound (s : State) : Prop where
  mem : s.mem.wf = true
  memAtStart : s.memAtStart.wf = true
  reader : s.reader.Good
  sym : s.sym.Good Config.maxSymbols
  copy : s.copy.Good Config.maxSymbols
  datDict : s.datDict.Good 256
  builder : s.builder.Good
  held : s.touched = false → s.held = []
  live : s.inReset = false

theorem State.Inv.sound {s : State} (h : s.Inv) (hl : s.inReset = false) : s.Sound :=
  ⟨h.mem, h.memAtStart, h.reader, h.sym, h.copy, h.datDict, h.builder, h.held, hl⟩

/-- Where reset is not asserted, the clause about an asserted one says nothing. -/
theorem asserted_of_live {s : State} (h : s.inReset = false) : s.inReset = true → s = s.underReset := by
  rw [h]; exact fun e => absurd e (by decide)

/-- While reset is asserted no job runs. -/
theorem State.Inv.live {s : State} (h : s.Inv) (hp : s.phase ≠ .idle) : s.inReset = false := by
  cases e : s.inReset with
  | false => rfl
  | true => exact absurd (by rw [h.asserted e]; rfl) hp

theorem idle_inv {s : State} (h : s.Sound) (hp : s.phase = .idle) (hq : s.touched = false) : s.Inv :=
  ⟨h.mem, h.memAtStart, h.reader, h.sym, h.copy, h.datDict, h.builder, fun _ => hq, h.held, fun hn => absurd hp hn,
    by simp [State.JobGood, hp], asserted_of_live h.live⟩

theorem running_inv {s : State} (h : s.Sound) (hr : s.checkRegions = none) (hp : s.phase ≠ .idle) (hj : s.JobGood) :
    s.Inv :=
  ⟨h.mem, h.memAtStart, h.reader, h.sym, h.copy, h.datDict, h.builder, fun e => absurd e hp, h.held, fun _ => hr, hj,
    asserted_of_live h.live⟩

theorem Sound.withReader {s : State} (h : s.Sound) {r : Reader} (hr : r.Good) : State.Sound { s with reader := r } :=
  ⟨h.mem, h.memAtStart, hr, h.sym, h.copy, h.datDict, h.builder, h.held, h.live⟩

/-! ### The end of a job -/

theorem disturb_mem_wf {s : State} (h : s.mem.wf = true) : s.disturb.mem.wf = true :=
  applyHeld_wf _ (memory_fill_wf _ _ _ h)

/-- The end of a job, disturbed or not, keeps the invariant. -/
theorem endJob_inv {s : State} (h : s.Sound) (err stop : Byte) (count : Word) : (s.endJob err stop count).Inv := by
  cases ht : s.touched with
  | false =>
    rw [endJob_undisturbed ht]
    exact idle_inv ⟨h.mem, rfl, h.reader, h.sym, h.copy, h.datDict, h.builder, h.held, h.live⟩ rfl ht
  | true =>
    rw [endJob_disturbed ht]
    exact idle_inv
      ⟨disturb_mem_wf (s := State.complete err stop { s with outCount := count, memAtStart := [] }) h.mem, rfl, h.reader,
        h.sym, h.copy, h.datDict, h.builder, fun _ => rfl, h.live⟩ rfl rfl

theorem jobError_inv {s : State} (h : s.Sound) (code : ErrCode) : (s.jobError code).Inv := endJob_inv h _ _ _

theorem datStop_inv {s : State} (h : s.Sound) (code : StopCode) : (s.datStop code).Inv := endJob_inv h _ _ _

theorem texStop_inv {s : State} (h : s.Sound) (code : StopCode) : (s.texStop code).Inv := endJob_inv h _ _ _

theorem texFinish_inv {s : State} (h : s.Sound) : s.texFinish.Inv := endJob_inv h _ _ _

theorem datFinish_inv {s : State} (h : s.Sound) : s.datFinish.Inv :=
  endJob_inv (Sound.withReader h (dropFinalBit_good _ h.reader)) _ _ _

/-- What TAKE within a dat item can do. -/
theorem datTake_cases (k : Nat) (s : State) (go : Word → State → State) :
    (s.reader.bits < k ∧ datTake k s go = s.datStop .exhausted) ∨
      (k ≤ s.reader.bits ∧ ∃ r, Reader.drop s.mem s.reader k = .ok r ∧
        datTake k s go = go (s.reader.peek k) { s with reader := r }) := by
  unfold datTake
  rcases take_cases s.mem s.reader k with ⟨h, e⟩ | ⟨h, r, hd, e⟩
  · exact .inl ⟨h, by rw [e]⟩
  · exact .inr ⟨h, r, hd, by rw [e]⟩

/-! ### The dat stream -/

theorem enterParse_inv {s : State} (which : DatTree) (h : s.Sound) (hr : s.checkRegions = none)
    (hpos : s.dat.outPos < s.outLen.toNat) : (enterParse which s).Inv :=
  running_inv ⟨h.mem, h.memAtStart, h.reader, h.sym, h.copy, h.datDict, emptyBuilder_good, h.held, h.live⟩ hr
    (by simp) ⟨hpos, rfl⟩

theorem datOuter_inv {s : State} (h : s.Sound) (hr : s.checkRegions = none) : (datOuter s).Inv := by
  unfold datOuter
  split
  · exact enterParse_inv _ h hr ‹_›
  · exact datFinish_inv h

theorem datInner_inv {s : State} (h : s.Sound) (hr : s.checkRegions = none) : (datInner s).Inv := by
  unfold datInner
  split
  · rename_i hc
    exact running_inv ⟨h.mem, h.memAtStart, h.reader, h.sym, h.copy, h.datDict, h.builder, h.held, h.live⟩ hr (by simp)
      ⟨hc.2, hc.1⟩
  · exact datOuter_inv h hr

theorem datItemDone_inv {s : State} (h : s.Sound) (hr : s.checkRegions = none) : (datItemDone s).Inv :=
  datInner_inv ⟨h.mem, h.memAtStart, h.reader, h.sym, h.copy, h.datDict, h.builder, h.held, h.live⟩ hr

theorem afterTree_inv {s : State} (which : DatTree) (h : s.Sound) (hr : s.checkRegions = none)
    (hpos : s.dat.outPos < s.outLen.toNat) : (afterTree which s).Inv := by
  unfold afterTree
  split
  · exact datFinish_inv h
  · cases which with
    | sym => exact enterParse_inv _ h hr hpos
    | copy =>
      exact running_inv ⟨h.mem, h.memAtStart, h.reader, h.sym, h.copy, h.datDict, h.builder, h.held, h.live⟩ hr (by simp) hpos

theorem setTree_sound {s : State} (which : DatTree) {t : Tree} (h : s.Sound) (ht : t.Good Config.maxSymbols) :
    (s.setTree which t).Sound := by
  cases which with
  | sym => exact ⟨h.mem, h.memAtStart, h.reader, ht, h.copy, h.datDict, h.builder, h.held, h.live⟩
  | copy => exact ⟨h.mem, h.memAtStart, h.reader, h.sym, ht, h.datDict, h.builder, h.held, h.live⟩

theorem setTree_checkRegions (s : State) (which : DatTree) (t : Tree) :
    (s.setTree which t).checkRegions = s.checkRegions := by cases which <;> rfl

theorem finishTree_inv {s : State} (which : DatTree) (h : s.Sound) (hr : s.checkRegions = none)
    (hpos : s.dat.outPos < s.outLen.toNat) : (finishTree which s).Inv := by
  unfold finishTree
  split
  · exact datStop_inv (setTree_sound which h (emptyTree_good _)) _
  · refine afterTree_inv which (setTree_sound which h (build_good h.builder.below ‹_›)) ?_ (by simpa using hpos)
    rw [setTree_checkRegions]; exact hr

theorem datDescriptorNext_inv {s : State} (which : DatTree) (h : s.Sound) (hr : s.checkRegions = none)
    (hpos : s.dat.outPos < s.outLen.toNat) (hrem : s.dat.remaining < Config.maxSymbols) :
    (datDescriptorNext which s).Inv := by
  unfold datDescriptorNext
  split
  · exact running_inv ⟨h.mem, h.memAtStart, h.reader, h.sym, h.copy, h.datDict, h.builder, h.held, h.live⟩ hr (by simp)
      ⟨hpos, ‹_›, hrem⟩
  · exact finishTree_inv which h hr hpos

/-- The iterations of an add entry keep the builder good and only lower `remaining` (42_dat_inflater.md R330). -/
theorem addRun_good (len n : Nat) {b : Builder} {remaining : Int} (hb : b.Good) (hr : remaining < Config.maxSymbols) :
    (addRun len n b remaining).1.Good ∧ (addRun len n b remaining).2.1 ≤ remaining := by
  induction n generalizing b remaining with
  | zero => exact ⟨hb, Int.le_refl _⟩
  | succ n ih =>
    simp only [addRun]
    split
    · exact ⟨hb, Int.le_refl _⟩
    · have hs : (BitVec.ofNat 16 remaining.toNat).toNat < Config.maxSymbols := by
        simp only [Config.maxSymbols] at hr ⊢
        simp only [BitVec.toNat_ofNat]
        omega
      have := ih (add_good len hb hs) (by omega : remaining - 1 < (Config.maxSymbols : Int))
      exact ⟨this.1, by omega⟩

/-- A back-copy keeps the memory canonical and ends inside the output region (42_dat_inflater.md R338). -/
theorem backCopy_good (outBase : Word) (outLen dist n : Nat) {m : Memory} {pos : Nat} (hm : m.wf = true)
    (hp : pos ≤ outLen) :
    (backCopy outBase outLen dist n m pos).1.wf = true ∧ pos ≤ (backCopy outBase outLen dist n m pos).2 ∧
      (backCopy outBase outLen dist n m pos).2 ≤ outLen := by
  induction n generalizing m pos with
  | zero => exact ⟨hm, Nat.le_refl _, hp⟩
  | succ n ih =>
    simp only [backCopy]
    split
    · exact ⟨hm, Nat.le_refl _, hp⟩
    · have := @ih (m.write (outBase + BitVec.ofNat 32 pos) (m.read (outBase + BitVec.ofNat 32 (pos - dist)))) (pos + 1)
        (memory_write_wf _ _ hm) (by omega)
      exact ⟨this.1, by omega, this.2.2⟩

theorem finishCopy_inv {s : State} (dist : Nat) (h : s.Sound) (hr : s.checkRegions = none)
    (hpos : s.dat.outPos < s.outLen.toNat) : (finishCopy dist s).Inv := by
  unfold finishCopy
  split
  · exact datStop_inv h _
  · have hc := backCopy_good s.outBase s.outLen.toNat dist s.dat.copyLen h.mem (Nat.le_of_lt hpos)
    exact datItemDone_inv ⟨hc.1, h.memAtStart, h.reader, h.sym, h.copy, h.datDict, h.builder, h.held, h.live⟩ hr

theorem distanceCode_inv {s : State} (base extra : Nat) (h : s.Sound) (hr : s.checkRegions = none)
    (hpos : s.dat.outPos < s.outLen.toNat) : (distanceCode base extra s).Inv := by
  unfold distanceCode
  split
  · exact finishCopy_inv _ h hr hpos
  · rcases datTake_cases extra s (fun e t => finishCopy ((base ||| e.toNat) + 1) t) with ⟨_, e⟩ | ⟨_, r, hd, e⟩
    · rw [e]; exact datStop_inv h _
    · rw [e]; exact finishCopy_inv _ (Sound.withReader h (drop_good h.reader hd)) hr hpos

theorem lengthCode_inv {s : State} (base extra : Nat) (h : s.Sound) (hr : s.checkRegions = none)
    (hpos : s.dat.outPos < s.outLen.toNat) (hc : s.dat.count < s.dat.maxCount) : (lengthCode base extra s).Inv := by
  unfold lengthCode
  split
  · exact running_inv ⟨h.mem, h.memAtStart, h.reader, h.sym, h.copy, h.datDict, h.builder, h.held, h.live⟩ hr (by simp)
      ⟨hpos, hc⟩
  · rcases datTake_cases extra s (fun e t =>
      { t with dat := { t.dat with copyLen := (base ||| e.toNat) + t.dat.w }, phase := .datDistance }) with
      ⟨_, e⟩ | ⟨_, r, hd, e⟩
    · rw [e]; exact datStop_inv h _
    · rw [e]
      exact running_inv ⟨h.mem, h.memAtStart, drop_good h.reader hd, h.sym, h.copy, h.datDict, h.builder, h.held, h.live⟩ hr
        (by simp) ⟨hpos, hc⟩

/-! ### The texture stream -/

/-- `t` is `s` but for memory, the bitmaps and the block position; the bitmaps keep their sizes and memory its form. -/
structure BlocksOnly (s t : State) : Prop where
  rest : t = { s with
    mem := t.mem
    tex := { s.tex with colorSet := t.tex.colorSet, alphaSet := t.tex.alphaSet, pos := t.tex.pos } }
  colour : t.tex.colorSet.length = s.tex.colorSet.length
  alpha : t.tex.alphaSet.length = s.tex.alphaSet.length
  wf : s.mem.wf = true → t.mem.wf = true

theorem BlocksOnly.refl (s : State) : BlocksOnly s s := ⟨rfl, rfl, rfl, id⟩

theorem BlocksOnly.trans {s t u : State} (h : BlocksOnly s t) (k : BlocksOnly t u) : BlocksOnly s u := by
  refine ⟨?_, k.colour.trans h.colour, k.alpha.trans h.alpha, fun w => k.wf (h.wf w)⟩
  rw [k.rest, h.rest]

theorem BlocksOnly.sound {s t : State} (h : BlocksOnly s t) (hs : s.Sound) : t.Sound := by
  have hw := h.wf hs.mem
  rw [h.rest]
  exact ⟨hw, hs.memAtStart, hs.reader, hs.sym, hs.copy, hs.datDict, hs.builder, hs.held, hs.live⟩

theorem BlocksOnly.checkRegions {s t : State} (h : BlocksOnly s t) : t.checkRegions = s.checkRegions := by
  rw [h.rest]; rfl

theorem BlocksOnly.fmt {s t : State} (h : BlocksOnly s t) : t.fmt = s.fmt := by rw [h.rest]

theorem BlocksOnly.textureGood {s t : State} (h : BlocksOnly s t) (hs : s.TextureGood) : t.TextureGood := by
  have hc := h.colour
  have ha := h.alpha
  have e := h.rest
  refine ⟨?_, ?_, ?_, ?_⟩
  · rw [e]; exact hs.format
  · rw [e]; exact hs.fits
  · rw [h.fmt, hc]; exact hs.colour
  · rw [h.fmt, ha]; exact hs.alpha

theorem nextBlock_only (s : State) : BlocksOnly s s.nextBlock := ⟨rfl, rfl, rfl, id⟩

theorem withPos_only (s : State) (p : Nat) : BlocksOnly s { s with tex := { s.tex with pos := p } } := ⟨rfl, rfl, rfl, id⟩

/-- A run touches blocks only (44_texture_inflater.md R405). -/
theorem coverBlocks_only {target : State → List Bool} {put : State → State} (hput : ∀ s, BlocksOnly s (put s))
    (value : Bool) (fuel code : Nat) (s : State) : BlocksOnly s (coverBlocks target put value fuel code s) := by
  induction fuel generalizing code s with
  | zero => cases code <;> exact BlocksOnly.refl s
  | succ fuel ih =>
    cases code with
    | zero => exact BlocksOnly.refl s
    | succ code =>
      simp only [coverBlocks]
      split
      · exact (nextBlock_only s).trans (ih _ _)
      · refine BlocksOnly.trans ?_ (ih _ _)
        cases value
        · exact nextBlock_only s
        · exact (hput s).trans (nextBlock_only _)

theorem withMem_only {m : Memory} {s : State} (h : s.mem.wf = true → m.wf = true) : BlocksOnly s (s.withMem m) :=
  ⟨rfl, rfl, rfl, h⟩

theorem markColour_only (s : State) (pos : Nat) : BlocksOnly s (s.markColour pos) := ⟨rfl, by simp, rfl, id⟩

theorem markAlpha_only (s : State) (pos : Nat) : BlocksOnly s (s.markAlpha pos) := ⟨rfl, rfl, by simp, id⟩

theorem putWhite_only (s : State) : BlocksOnly s (putWhite s) :=
  ((withMem_only fun h => memory_writeLE_wf _ _ _ h).trans (markAlpha_only _ _)).trans (markColour_only _ _)

theorem putAlpha_only (b : Byte) (s : State) : BlocksOnly s (putAlpha b s) :=
  (withMem_only fun h => memory_writeBytes_wf _ _ h).trans (markAlpha_only _ _)

theorem putPlain_only (b : BitVec 64) (s : State) : BlocksOnly s (putPlain b s) :=
  (withMem_only fun h => memory_writeLE_wf _ _ _ h).trans (markColour_only _ _)

theorem seekColour_inv {s : State} (h : s.Sound) (hr : s.checkRegions = none) (ht : s.TextureGood) :
    (seekColour s).Inv := by
  simp only [seekColour]
  split
  · rename_i hc
    exact running_inv ⟨h.mem, h.memAtStart, h.reader, h.sym, h.copy, h.datDict, h.builder, h.held, h.live⟩ hr (by simp)
      ⟨⟨ht.format, ht.fits, ht.colour, ht.alpha⟩, hc.2, hc.1⟩
  · exact texFinish_inv h

theorem seekAlpha_inv {s : State} (h : s.Sound) (hr : s.checkRegions = none) (ht : s.TextureGood) :
    (seekAlpha s).Inv := by
  simp only [seekAlpha]
  split
  · rename_i hc
    exact running_inv ⟨h.mem, h.memAtStart, h.reader, h.sym, h.copy, h.datDict, h.builder, h.held, h.live⟩ hr (by simp)
      ⟨⟨ht.format, ht.fits, ht.colour, ht.alpha⟩, hc.2, hc.1⟩
  · exact seekColour_inv ⟨h.mem, h.memAtStart, h.reader, h.sym, h.copy, h.datDict, h.builder, h.held, h.live⟩ hr
      ⟨ht.format, ht.fits, ht.colour, ht.alpha⟩

theorem enterResidue_inv {s : State} (h : s.Sound) (hr : s.checkRegions = none) (ht : s.TextureGood) :
    (enterResidue s).Inv :=
  seekAlpha_inv ⟨h.mem, h.memAtStart, align32_good _ h.reader, h.sym, h.copy, h.datDict, h.builder, h.held, h.live⟩ hr
    ⟨ht.format, ht.fits, ht.colour, ht.alpha⟩

theorem nextPass_inv {s : State} (h : s.Sound) (hr : s.checkRegions = none) (ht : s.TextureGood) :
    (nextPass s).Inv := by
  unfold nextPass
  split
  · exact enterResidue_inv h hr ht
  · exact running_inv ⟨h.mem, h.memAtStart, h.reader, h.sym, h.copy, h.datDict, h.builder, h.held, h.live⟩ hr (by simp)
      ⟨⟨ht.format, ht.fits, ht.colour, ht.alpha⟩, ‹_›⟩

theorem nextRun_inv {s : State} (h : s.Sound) (hr : s.checkRegions = none) (ht : s.TextureGood) :
    (nextRun s).Inv := by
  unfold nextRun
  split
  · exact running_inv ⟨h.mem, h.memAtStart, h.reader, h.sym, h.copy, h.datDict, h.builder, h.held, h.live⟩ hr (by simp)
      ⟨⟨ht.format, ht.fits, ht.colour, ht.alpha⟩, ‹_›⟩
  · exact nextPass_inv h hr ht

theorem enterRuns_inv {s : State} (pass : Pass) (h : s.Sound) (hr : s.checkRegions = none) (ht : s.TextureGood) :
    (enterRuns pass s).Inv :=
  nextRun_inv ⟨h.mem, h.memAtStart, h.reader, h.sym, h.copy, h.datDict, h.builder, h.held, h.live⟩ hr
    ⟨ht.format, ht.fits, ht.colour, ht.alpha⟩

/-- A run keeps the invariant (44_texture_inflater.md R405). -/
theorem runBlocks_inv {target : State → List Bool} {put : State → State} (hput : ∀ s, BlocksOnly s (put s))
    (value : Bool) {s : State} (h : s.Sound) (hr : s.checkRegions = none) (ht : s.TextureGood) :
    (runBlocks target put value s).Inv := by
  have hc := coverBlocks_only (target := target) hput value s.blocksLeft s.tex.code s
  have hb := hc.trans (withPos_only _ (nextClear (target (coverBlocks target put value s.blocksLeft s.tex.code s))
    (coverBlocks target put value s.blocksLeft s.tex.code s).blocksLeft
    (coverBlocks target put value s.blocksLeft s.tex.code s).tex.pos))
  exact nextRun_inv (hb.sound h) (hb.checkRegions.trans hr) (hb.textureGood ht)

/-- A residue word keeps the invariant (44_texture_inflater.md R445, R446). -/
theorem storeResidue_inv {s : State} (offset : Nat) {seek : State → State} (word : Word)
    (hseek : ∀ t : State, t.Sound → t.checkRegions = none → t.TextureGood → (seek t).Inv)
    (h : s.Sound) (hr : s.checkRegions = none) (hp : s.phase ≠ .idle)
    (hj : ∀ t, BlocksOnly s t → t.tex.pos = s.tex.pos →
      State.JobGood { t with tex := { t.tex with second := true } })
    (ht : s.TextureGood) : (storeResidue offset seek word s).Inv := by
  have hw : BlocksOnly s (s.withMem (s.mem.writeLE (s.blockAddress s.tex.pos (offset + if s.tex.second then 4 else 0)) 4
      word.toNat)) := withMem_only fun w => memory_writeLE_wf _ _ _ w
  have hs := hw.sound h
  simp only [storeResidue]
  split
  · exact running_inv ⟨hs.mem, h.memAtStart, h.reader, h.sym, h.copy, h.datDict, h.builder, h.held, h.live⟩ hr hp (hj _ hw rfl)
  · exact hseek _ ⟨hs.mem, h.memAtStart, h.reader, h.sym, h.copy, h.datDict, h.builder, h.held, h.live⟩ hr
      ⟨ht.format, ht.fits, ht.colour, ht.alpha⟩

end Sys2Proof.Machine
end

