-- ==== Sys2Proof/Laws/Exec.lean ====
section
/-! SUPPORT. Every meaning, every fetch of an element and every host transaction keeps the invariant. -/

namespace Sys2Proof.Machine

theorem inPhase_next {p : Phase} {s t u : State} (e : inPhase p s t = .next u) : s.phase = p ∧ u = t := by
  unfold inPhase at e; split at e
  · cases e; exact ⟨‹_›, rfl⟩
  · cases e

theorem inv_regions_at {s : State} (h : s.Inv) {p} (e : s.phase = p) (hp : p ≠ .idle) : s.checkRegions = none :=
  h.regions (by rw [e]; exact hp)

theorem inv_live_at {s : State} (h : s.Inv) {p} (e : s.phase = p) (hp : p ≠ .idle) : s.inReset = false :=
  h.live (by rw [e]; exact hp)

theorem textureGood_of {s t : State} (h : s.TextureGood) (hf : t.fmt = s.fmt) (hl : t.outLen = s.outLen)
    (hx : t.texFourcc = s.texFourcc) (hw : t.texWidth = s.texWidth) (hh : t.texHeight = s.texHeight)
    (ht : t.tex = s.tex) : t.TextureGood :=
  ⟨by rw [hf, hx, hw, hh]; exact h.format, by rw [hf, hl]; exact h.fits, by rw [hf, ht]; exact h.colour,
    by rw [hf, ht]; exact h.alpha⟩

theorem jobGood_of {s t : State} (h : s.JobGood) (hp : t.phase = s.phase) (hd : t.dat = s.dat) (hf : t.fmt = s.fmt)
    (hl : t.outLen = s.outLen) (hx : t.texFourcc = s.texFourcc) (hw : t.texWidth = s.texWidth)
    (hh : t.texHeight = s.texHeight) (ht : t.tex = s.tex) (hb : t.builder = s.builder := by rfl) : t.JobGood := by
  have hT : s.TextureGood → t.TextureGood := fun g => textureGood_of g hf hl hx hw hh ht
  unfold State.JobGood at h ⊢
  rw [hp, hd, hl, hf, ht, hb]
  split at h <;> first | exact h | exact hT h | exact ⟨hT h.1, h.2⟩

theorem execLength_inv {s t : State} (h : s.Inv) (b x) (e : execLength b x s = .next t) : t.Inv := by
  obtain ⟨hp, rfl⟩ := inPhase_next e
  have hj := h.job; simp only [State.JobGood, hp] at hj
  exact lengthCode_inv _ _ (h.sound (inv_live_at h hp (by simp))) (inv_regions_at h hp (by simp)) hj.1 hj.2

theorem execDistance_inv {s t : State} (h : s.Inv) (b x) (e : execDistance b x s = .next t) : t.Inv := by
  obtain ⟨hp, rfl⟩ := inPhase_next e
  have hj := h.job; simp only [State.JobGood, hp] at hj
  exact distanceCode_inv _ _ (h.sound (inv_live_at h hp (by simp))) (inv_regions_at h hp (by simp)) hj.1

theorem execCount_inv {s t : State} (h : s.Inv) {n} (hn : 1 ≤ n ∧ n ≤ 18) (e : execCount n s = .next t) : t.Inv := by
  obtain ⟨hp, rfl⟩ := inPhase_next e
  have hj := h.job; simp only [State.JobGood, hp] at hj
  have hs := h.sound (inv_live_at h hp (by simp))
  have hr := inv_regions_at h hp (by simp)
  exact running_inv (s := startRun n s) ⟨hs.mem, hs.memAtStart, hs.reader, hs.sym, hs.copy, hs.datDict, hs.builder,
      hs.held, hs.live⟩ hr (by simp)
    ⟨⟨hj.1.format, hj.1.fits, hj.1.colour, hj.1.alpha⟩, hj.2, hn⟩

theorem selectFormat_inv {s t : State} (h : s.Inv) (fl : BitVec 10) (ps) (hf : findFourcc s.texFourcc fourccTable =
    some (fl, ps))
    (e : inPhase .texFourcc s (selectFormat fl ps s) = .next t) : t.Inv := by
  obtain ⟨hp, rfl⟩ := inPhase_next e
  have hs := h.sound (inv_live_at h hp (by simp))
  have hr := inv_regions_at h hp (by simp)
  have hlen : s.inBase.toNat + s.inLen.toNat ≤ 2^32 := by
    simp only [State.checkRegions] at hr
    split at hr; · cases hr
    split at hr; · cases hr
    split at hr; · cases hr
    rename_i h1; simp [regionWraps] at h1; omega
  simp only [selectFormat]
  split
  · exact jobError_inv hs _
  · rename_i hfit
    split
    · exact jobError_inv hs _
    · exact running_inv (s := openTexture _ s) ⟨hs.mem, hs.memAtStart, readerInit_good _ _ _ _ hlen, hs.sym,
        hs.copy, hs.datDict, hs.builder, hs.held, hs.live⟩ hr (by simp [openTexture])
        ⟨⟨fl, ps, hf, rfl⟩, Nat.le_of_not_lt hfit, by simp [openTexture], by simp [openTexture]⟩

theorem accept_sound {s : State} (v) (h : s.Sound) : (s.accept v).Sound := ⟨h.mem, h.memAtStart, h.reader, h.sym,
    h.copy, h.datDict, h.builder, h.held, h.live⟩

theorem complete_inv {s : State} (h : s.Sound) (ht : s.touched = false) (e p) : (s.complete e p).Inv :=
  idle_inv ⟨h.mem, h.memAtStart, h.reader, h.sym, h.copy, h.datDict, h.builder, h.held, h.live⟩ rfl ht

theorem succeed_inv {s : State} (h : s.Sound) (ht : s.touched = false) : s.succeed.Inv := complete_inv h ht _ _

/-- A command keeps the invariant, reset not asserted, if its body does from an idle state. -/
theorem command_inv {s t : State} {v : Word} {run : State → State} (h : s.Inv) (hl : s.inReset = false)
    (hr : ∀ u : State, u.Sound → u.touched = false → u.phase = .idle → (run u).Inv)
    (e : command v run s = .next t) : t.Inv := by
  unfold command at e
  split at e
  · cases e
    exact ⟨h.mem, h.memAtStart, h.reader, h.sym, h.copy, h.datDict, h.builder, h.quiet, h.held, h.regions,
      jobGood_of h.job rfl rfl rfl rfl rfl rfl rfl rfl, asserted_of_live hl⟩
  · cases e
    rename_i hb
    have hp : s.phase = .idle := by simpa [State.busy] using hb
    exact hr _ (accept_sound _ (h.sound hl)) (h.quiet hp) hp

theorem region_fits_of_not_wraps {b l : Word} (h : ¬ regionWraps b l = true) : b.toNat + l.toNat ≤ 2^32 := by
  simp [regionWraps] at h; omega

theorem checkRegions_wrap {s : State} (hr : s.checkRegions = none) : s.inBase.toNat + s.inLen.toNat ≤ 2^32 := by
    simp only [State.checkRegions] at hr
    split at hr; · cases hr
    split at hr; · cases hr
    split at hr; · cases hr
    exact region_fits_of_not_wraps ‹_›

theorem startJob_sound {s : State} (h : s.Sound) : s.startJob.Sound :=
  ⟨h.mem, h.mem, h.reader, h.sym, h.copy, h.datDict, h.builder, fun _ => rfl, h.live⟩

theorem fourcc_mem {v : Nat} {i : Instr} (h : decode .fourcc v = .ok i) : (v, i) ∈ fourccRows := by
  simp only [decode, rowOr] at h
  split at h
  · cases h
    rename_i hx
    have : ∀ (l : List (Nat × Instr)), findRow v l = some i → (v, i) ∈ l := by
      intro l
      induction l with
      | nil => intro e; cases e
      | cons x l ih =>
        obtain ⟨k, j⟩ := x
        intro e
        simp only [findRow] at e
        split at e
        · cases e; subst v; simp
        · exact List.mem_cons_of_mem _ (ih e)
    exact this _ hx
  · cases h

theorem fourcc_encode {v : Nat} {i : Instr} (h : decode .fourcc v = .ok i) : (encode i) = (.fourcc, v) := by
  have := fourcc_mem h
  have hall : ∀ x ∈ fourccRows, encode x.2 = (.fourcc, x.1) := by decide
  exact hall _ this

theorem fourcc_word {w : Word} {i : Instr} (h : decode .fourcc w.toNat = .ok i) : w = BitVec.ofNat 32 (encode i).2
    := by
  rw [fourcc_encode h]; simp

/-- Every instruction keeps the invariant, reset not asserted; a FourCC element if it is the one TEX_FOURCC holds. -/
theorem exec_inv {i : Instr} {s t : State} (h : s.Inv) (hl : s.inReset = false) (hf : s.phase = .texFourcc → (encode i).1 = .fourcc → decode
    .fourcc s.texFourcc.toNat = .ok i)
    (e : exec i s = .next t) : t.Inv := by
  have hs := h.sound hl
  cases i
  case nop => exact command_inv h hl (fun u hu ht _ => complete_inv hu ht _ _) e
  case illegalCommand => exact command_inv h hl (fun u hu ht _ => complete_inv hu ht _ _) e
  case texFormat =>
    refine command_inv h hl (fun u hu ht _ => ?_) e
    simp only [texFormat]; split
    · exact complete_inv hu ht _ _
    · exact succeed_inv ⟨hu.mem, hu.memAtStart, hu.reader, hu.sym, hu.copy, hu.datDict, hu.builder, hu.held, hu.live⟩ ht
  case brInit =>
    refine command_inv h hl (fun u hu ht _ => ?_) e
    simp only [brInit]; split
    · exact complete_inv hu ht _ _
    · split
      · exact complete_inv hu ht _ _
      · exact succeed_inv (Sound.withReader hu (readerInit_good _ _ _ _ (region_fits_of_not_wraps ‹_›))) ht
  case brPeek =>
    refine command_inv h hl (fun u hu ht _ => ?_) e
    simp only [brPeek]; split
    · exact complete_inv hu ht _ _
    · exact succeed_inv ⟨hu.mem, hu.memAtStart, hu.reader, hu.sym, hu.copy, hu.datDict, hu.builder, hu.held, hu.live⟩ ht
  case brRead =>
    refine command_inv h hl (fun u hu ht _ => ?_) e
    simp only [brRead]; split
    · exact complete_inv hu ht _ _
    · split
      · exact complete_inv hu ht _ _
      · exact succeed_inv ⟨hu.mem, hu.memAtStart, hu.reader, hu.sym, hu.copy, hu.datDict, hu.builder, hu.held, hu.live⟩ ht
  case brDrop =>
    refine command_inv h hl (fun u hu ht _ => ?_) e
    simp only [brDrop]; split
    · exact complete_inv hu ht _ _
    · split
      · exact complete_inv hu ht _ _
      · exact succeed_inv (Sound.withReader hu (drop_good hu.reader ‹_›)) ht
  case brTake =>
    refine command_inv h hl (fun u hu ht _ => ?_) e
    simp only [brTake]; split
    · exact complete_inv hu ht _ _
    · split
      · exact complete_inv hu ht _ _
      · exact succeed_inv ⟨hu.mem, hu.memAtStart, take_good hu.reader ‹_›, hu.sym, hu.copy, hu.datDict, hu.builder,
          hu.held, hu.live⟩ ht
  case hbClear =>
    refine command_inv h hl (fun u hu ht _ => ?_) e
    exact succeed_inv ⟨hu.mem, hu.memAtStart, hu.reader, hu.sym, hu.copy, hu.datDict, emptyBuilder_good, hu.held, hu.live⟩ ht
  case hbAdd =>
    refine command_inv h hl (fun u hu ht _ => ?_) e
    simp only [hbAdd]; split
    · exact complete_inv hu ht _ _
    · rename_i ha
      refine succeed_inv ⟨hu.mem, hu.memAtStart, hu.reader, hu.sym, hu.copy, hu.datDict, add_good _ hu.builder ?_,
          hu.held, hu.live⟩ ht
      simp [State.addArgsOk] at ha
      simp only [BitVec.toNat_setWidth]; have := ha.1.1.1; simp only [Config.maxSymbols] at *; omega
  case hbBuild =>
    refine command_inv h hl (fun u hu ht _ => ?_) e
    simp only [hbBuild]; split
    · exact complete_inv hu ht _ _
    · split
      · exact complete_inv (setTree_sound _ hu (emptyTree_good _)) (by simpa using ht) _ _
      · have := setTree_sound (datTreeOf u.arg0.toNat) hu (build_good hu.builder.below ‹_›)
        exact succeed_inv ⟨this.mem, this.memAtStart, this.reader, this.sym, this.copy, this.datDict, this.builder,
            this.held, this.live⟩ (by simpa using ht)
  case htDecode =>
    refine command_inv h hl (fun u hu ht _ => ?_) e
    simp only [htDecode]; split
    · exact complete_inv hu ht _ _
    · split
      · exact complete_inv hu ht _ _
      · exact succeed_inv ⟨hu.mem, hu.memAtStart, decodeTree_good hu.reader ‹_›, hu.sym, hu.copy, hu.datDict,
          hu.builder, hu.held, hu.live⟩ ht
  case htCode =>
    refine command_inv h hl (fun u hu ht _ => ?_) e
    simp only [htCode]; split
    · exact complete_inv hu ht _ _
    · split
      · exact succeed_inv ⟨hu.mem, hu.memAtStart, hu.reader, hu.sym, hu.copy, hu.datDict, hu.builder, hu.held, hu.live⟩ ht
      · exact succeed_inv ⟨hu.mem, hu.memAtStart, hu.reader, hu.sym, hu.copy, hu.datDict, hu.builder, hu.held, hu.live⟩ ht
  case inflateDat =>
    refine command_inv h hl (fun u hu ht _ => ?_) e
    simp only [startDat]; split
    · exact jobError_inv (startJob_sound hu) _
    · rename_i hr
      exact running_inv ⟨hu.mem, hu.mem, readerInit_good _ _ _ _ (checkRegions_wrap hr), hu.sym, hu.copy,
          hu.datDict, hu.builder, fun _ => rfl, hu.live⟩ hr (by simp) rfl
  case inflateTexture =>
    refine command_inv h hl (fun u hu ht _ => ?_) e
    simp only [startTexture]; split
    · exact jobError_inv (startJob_sound hu) _
    · rename_i hr
      exact running_inv ⟨hu.mem, hu.mem, hu.reader, hu.sym, hu.copy, hu.datDict, hu.builder, fun _ => rfl, hu.live⟩ hr
          (by simp) trivial
  case datHeader m w =>
    obtain ⟨hp, rfl⟩ := inPhase_next e
    have hr := inv_regions_at h hp (by simp)
    exact datOuter_inv (s := { s with datHdr := _, dat := { s.dat with w := _ } }) ⟨hs.mem, hs.memAtStart,
        hs.reader, hs.sym, hs.copy, hs.datDict, hs.builder, hs.held, hs.live⟩ hr
  case datNSymbols c =>
    simp only [exec, execDatNSymbols] at e
    split at e
    · rename_i which hp
      cases e
      have hr := inv_regions_at h hp (by simp)
      have hj := h.job; simp only [State.JobGood, hp] at hj
      split
      · exact datStop_inv hs _
      · refine datDescriptorNext_inv _ ⟨hs.mem, hs.memAtStart, hs.reader, hs.sym, hs.copy, hs.datDict, hs.builder,
          hs.held, hs.live⟩ hr hj.1 ?_
        simp [Config.maxSymbols] at *; omega
    · cases e
  case datDescSkip r =>
    simp only [exec, execDatDescSkip] at e
    split at e
    · rename_i which hp
      cases e
      have hr := inv_regions_at h hp (by simp)
      have hj := h.job; simp only [State.JobGood, hp] at hj
      refine datDescriptorNext_inv _ ⟨hs.mem, hs.memAtStart, hs.reader, hs.sym, hs.copy, hs.datDict, hs.builder,
          hs.held, hs.live⟩ hr hj.1 ?_
      simp [Config.maxSymbols] at *; omega
    · cases e
  case datDescAdd r l =>
    simp only [exec, execDatDescAdd] at e
    split at e
    · rename_i which hp
      cases e
      have hr := inv_regions_at h hp (by simp)
      have hj := h.job; simp only [State.JobGood, hp] at hj
      have ha := addRun_good l.toNat (r.toNat+1) hs.builder hj.2.2
      split
      · refine datDescriptorNext_inv _ ⟨hs.mem, hs.memAtStart, hs.reader, hs.sym, hs.copy, hs.datDict, ha.1,
          hs.held, hs.live⟩ hr hj.1 ?_
        simp [Config.maxSymbols] at *; omega
      · exact datStop_inv (s := { s with builder := (addRun l.toNat (r.toNat + 1) s.builder s.dat.remaining).1, dat
          := { s.dat with remaining := _ } })
          ⟨hs.mem, hs.memAtStart, hs.reader, hs.sym, hs.copy, hs.datDict, ha.1, hs.held, hs.live⟩ _
    · cases e
  case datMaxCount c =>
    obtain ⟨hp, rfl⟩ := inPhase_next e
    have hr := inv_regions_at h hp (by simp)
    exact datInner_inv ⟨hs.mem, hs.memAtStart, hs.reader, hs.sym, hs.copy, hs.datDict, hs.builder, hs.held, hs.live⟩ hr
  case symLiteral b =>
    obtain ⟨hp, rfl⟩ := inPhase_next e
    have hr := inv_regions_at h hp (by simp)
    exact datItemDone_inv ⟨memory_write_wf _ _ hs.mem, hs.memAtStart, hs.reader, hs.sym, hs.copy, hs.datDict,
        hs.builder, hs.held, hs.live⟩ hr
  case copyInvalid d =>
    obtain ⟨hp, rfl⟩ := inPhase_next e
    have hr := inv_regions_at h hp (by simp)
    exact datStop_inv hs _
  case texHeader a b =>
    obtain ⟨hp, rfl⟩ := inPhase_next e
    have hr := inv_regions_at h hp (by simp)
    have hj := h.job; simp only [State.JobGood, hp] at hj
    exact nextPass_inv ⟨hs.mem, hs.memAtStart, hs.reader, hs.sym, hs.copy, hs.datDict, hs.builder, hs.held, hs.live⟩ hr
        ⟨hj.format, hj.fits, hj.colour, hj.alpha⟩
  case texCflagWhite =>
    obtain ⟨hp, rfl⟩ := inPhase_next e
    have hr := inv_regions_at h hp (by simp)
    have hj := h.job; simp only [State.JobGood, hp] at hj; have hj := hj.1
    exact enterRuns_inv _ ⟨hs.mem, hs.memAtStart, hs.reader, hs.sym, hs.copy, hs.datDict, hs.builder, hs.held, hs.live⟩ hr
        ⟨hj.format, hj.fits, hj.colour, hj.alpha⟩
  case texCflagConstA4 =>
    obtain ⟨hp, rfl⟩ := inPhase_next e
    have hr := inv_regions_at h hp (by simp)
    have hj := h.job; simp only [State.JobGood, hp] at hj; have hj := hj.1
    exact running_inv ⟨hs.mem, hs.memAtStart, hs.reader, hs.sym, hs.copy, hs.datDict, hs.builder, hs.held, hs.live⟩ hr (by
        simp) ⟨hj.format, hj.fits, hj.colour, hj.alpha⟩
  case texCflagConstA8 =>
    obtain ⟨hp, rfl⟩ := inPhase_next e
    have hr := inv_regions_at h hp (by simp)
    have hj := h.job; simp only [State.JobGood, hp] at hj; have hj := hj.1
    exact running_inv ⟨hs.mem, hs.memAtStart, hs.reader, hs.sym, hs.copy, hs.datDict, hs.builder, hs.held, hs.live⟩ hr (by
        simp) ⟨hj.format, hj.fits, hj.colour, hj.alpha⟩
  case texCflagPlain =>
    obtain ⟨hp, rfl⟩ := inPhase_next e
    have hr := inv_regions_at h hp (by simp)
    have hj := h.job; simp only [State.JobGood, hp] at hj; have hj := hj.1
    exact running_inv ⟨hs.mem, hs.memAtStart, hs.reader, hs.sym, hs.copy, hs.datDict, hs.builder, hs.held, hs.live⟩ hr (by
        simp) ⟨hj.format, hj.fits, hj.colour, hj.alpha⟩
  case texAlphaStart w a =>
    obtain ⟨hp, rfl⟩ := inPhase_next e
    have hr := inv_regions_at h hp (by simp)
    have hj := h.job; simp only [State.JobGood, hp] at hj
    exact enterRuns_inv _ hs hr hj
  case texPlainStart c =>
    obtain ⟨hp, rfl⟩ := inPhase_next e
    have hr := inv_regions_at h hp (by simp)
    have hj := h.job; simp only [State.JobGood, hp] at hj
    exact enterRuns_inv _ hs hr hj
  case texWhiteRun v =>
    simp only [exec, execTexWhiteRun] at e
    split at e
    · obtain ⟨hp, rfl⟩ := inPhase_next e
      have hr := inv_regions_at h hp (by simp)
      have hj := h.job; simp only [State.JobGood, hp] at hj
      exact runBlocks_inv putWhite_only _ hs hr hj.1
    · cases e
  case texAlphaRun v n =>
    simp only [exec, execTexAlphaRun] at e
    split at e
    · obtain ⟨hp, rfl⟩ := inPhase_next e
      have hr := inv_regions_at h hp (by simp)
      have hj := h.job; simp only [State.JobGood, hp] at hj
      exact runBlocks_inv (putAlpha_only _) _ hs hr hj.1
    · cases e
  case texPlainRun v =>
    simp only [exec, execTexPlainRun] at e
    split at e
    · obtain ⟨hp, rfl⟩ := inPhase_next e
      have hr := inv_regions_at h hp (by simp)
      have hj := h.job; simp only [State.JobGood, hp] at hj
      exact runBlocks_inv (putPlain_only _) _ hs hr hj.1
    · cases e
  case texResidueWord w =>
    simp only [exec, execTexResidueWord] at e
    split at e
    · rename_i hp
      cases e
      have hr := inv_regions_at h hp (by simp)
      have hj := h.job; simp only [State.JobGood, hp] at hj
      refine storeResidue_inv _ _ (fun t a b c => seekAlpha_inv a b c) hs hr (by simp [hp]) ?_ hj.1
      intro t ht hpos
      have hg := ht.textureGood hj.1
      have hph : t.phase = .texAlphaResidue := by rw [ht.rest]; exact hp
      simp only [State.JobGood, hph]
      exact ⟨⟨hg.format, hg.fits, hg.colour, hg.alpha⟩, by rw [ht.fmt, hpos]; exact hj.2.1, by rw [ht.fmt]; exact
          hj.2.2⟩
    · rename_i hp
      cases e
      have hr := inv_regions_at h hp (by simp)
      have hj := h.job; simp only [State.JobGood, hp] at hj
      refine storeResidue_inv _ _ (fun t a b c => seekColour_inv a b c) hs hr (by simp [hp]) ?_ hj.1
      intro t ht hpos
      have hg := ht.textureGood hj.1
      have hph : t.phase = .texColourResidue := by rw [ht.rest]; exact hp
      simp only [State.JobGood, hph]
      exact ⟨⟨hg.format, hg.fits, hg.colour, hg.alpha⟩, by rw [ht.fmt, hpos]; exact hj.2.1, by rw [ht.fmt]; exact
          hj.2.2⟩
    · cases e
  all_goals first
    | exact execLength_inv h _ _ e
    | exact execDistance_inv h _ _ e
    | exact execCount_inv h (by decide) e
    | (obtain ⟨hp, _⟩ := inPhase_next e
       refine selectFormat_inv h _ _ ?_ e
       rw [fourcc_word (hf hp rfl)]
       rfl)

theorem fetchedAs_cases (k v s) : (∃ i, decode k v = .ok i ∧ fetchedAs k v s = .instr i s) ∨ (∃ r, decode k v =
    .error r ∧ fetchedAs k v s = .fault .noSuchElement) := by
  unfold fetchedAs
  split
  · exact .inl ⟨_, ‹_›, rfl⟩
  · exact .inr ⟨_, ‹_›, rfl⟩

/-- What reading an element at a place may give: an element that is no command, in a state at the same place that
    keeps the
invariant; or the end of the job, keeping it; never a fault. -/
def FetchGood (p : Phase) : Fetched → Prop
  | .instr i t => t.Inv ∧ t.phase = p ∧ (p = .texFourcc → decode .fourcc t.texFourcc.toNat = .ok i) ∧ (encode i).1
      ≠ .command
  | .ended t => t.Inv
  | .fault _ => False

theorem reader_inv {s : State} (h : s.Inv) (hl : s.inReset = false) {r : Reader} (hr : r.Good) : State.Inv { s with reader := r } :=
  ⟨h.mem, h.memAtStart, hr, h.sym, h.copy, h.datDict, h.builder, h.quiet, h.held, h.regions, jobGood_of h.job rfl
      rfl rfl rfl rfl rfl rfl rfl, asserted_of_live hl⟩

theorem fetchedAs_good {k : ElemKind} {v : Nat} {s : State} {p : Phase} (h : s.Inv) (hp : s.phase = p)
    (hx : p ≠ .texFourcc) (hd : ∃ i, decode k v = .ok i ∧ (encode i).1 ≠ .command) : FetchGood p (fetchedAs k v s) := by
  obtain ⟨i, hd, hc⟩ := hd
  unfold fetchedAs; rw [hd]
  exact ⟨h, hp, fun e => absurd e hx, hc⟩

theorem fetchTake_good {stop : StopCode → State → State} (hstop : ∀ c (t : State), t.Sound → (stop c t).Inv)
    {k : Nat} {s : State} {p : Phase} {go : Word → State → Fetched} (h : s.Inv) (hl : s.inReset = false)
    (hgo : ∀ r : Reader, r.Good → FetchGood p (go (s.reader.peek k) { s with reader := r })) :
    FetchGood p (fetchTake stop k s go) := by
  unfold fetchTake
  rcases take_cases s.mem s.reader k with ⟨_, e⟩ | ⟨_, r, hd, e⟩
  · rw [e]; exact hstop _ _ (h.sound hl)
  · rw [e]; exact hgo r (drop_good h.reader hd)

theorem fetchField_good {stop : StopCode → State → State} (hstop : ∀ c (t : State), t.Sound → (stop c t).Inv)
    {k : ElemKind} {n : Nat} {s : State} {p : Phase} (h : s.Inv) (hl : s.inReset = false) (hp : s.phase = p) (hx : p ≠ .texFourcc)
    (hd : ∀ v : Nat, ∃ i, decode k v = .ok i ∧ (encode i).1 ≠ .command) : FetchGood p (fetchField stop k n s) :=
  fetchTake_good hstop h hl fun _ hr => fetchedAs_good (reader_inv h hl hr) hp hx (hd _)

theorem fetchSymbol_good {stop : StopCode → State → State} (hstop : ∀ c (t : State), t.Sound → (stop c t).Inv)
    {k : ElemKind} {t : Tree} {s : State} {p : Phase} (h : s.Inv) (hl : s.inReset = false) (hp : s.phase = p) (hx : p ≠ .texFourcc)
    (hd : ∀ hh, hh < 256 → ∀ v sy len, t.resolve hh v = some (sy, len) →
      ∃ i, decode k sy.toNat = .ok i ∧ (encode i).1 ≠ .command) : FetchGood p (fetchSymbol stop k t s) := by
  unfold fetchSymbol
  rcases decodeTree_cases s.mem t s.reader with ⟨_, e⟩ | ⟨_, _, _, _, e⟩ | ⟨sy, len, r', hres, _, hdr, e⟩
  · rw [e]; exact hstop _ _ (h.sound hl)
  · rw [e]; exact hstop _ _ (h.sound hl)
  · rw [e]
    refine fetchedAs_good (reader_inv h hl (drop_good h.reader hdr)) hp hx (hd _ ?_ _ _ _ hres)
    simp only [Reader.peek, BitVec.toNat_setWidth, BitVec.toNat_ushiftRight, Nat.shiftRight_eq_div_pow]
    have := s.reader.win.isLt
    omega

theorem descriptor_decodes {n} (h : n < 256) : ∃ i, decode .descriptor n = .ok i ∧ (encode i).1 ≠ .command := by
  simp only [decode, decodeDescriptor]
  rw [if_neg (by omega)]
  split <;> exact ⟨_, rfl, by simp [encode]⟩

theorem symSymbol_decodes : ∀ n < 285, (∃ i, decode .symSymbol n = .ok i ∧ (encode i).1 ≠ .command) := by
  intro n h
  by_cases h2 : n < 256
  · exact ⟨_, by simp [decode, decodeSymSymbol, h2]; rfl, by simp [encode]⟩
  · have : ∀ m < 29, ∃ i, decode .symSymbol (m+256) = .ok i ∧ (encode i).1 ≠ .command := by
      intro m hm
      interval_cases m <;> exact ⟨_, rfl, by simp [encode]⟩
    have := this (n-256) (by omega)
    rwa [Nat.sub_add_cancel (by omega)] at this

theorem copySymbol_decodes : ∀ n < 285, (∃ i, decode .copySymbol n = .ok i ∧ (encode i).1 ≠ .command) := by
  intro n h
  by_cases h2 : n < 34
  · interval_cases n <;> exact ⟨_, rfl, by simp [encode]⟩
  · exact ⟨.copyInvalid (BitVec.ofNat 16 n), by simp [decode, decodeCopySymbol, h2]; omega, by simp [encode]⟩

theorem texCount_decodes : ∀ n, 1 ≤ n → n ≤ 18 → (∃ i, decode .texCount n = .ok i ∧ (encode i).1 ≠ .command) := by
  intro n h h2
  interval_cases n <;> exact ⟨_, rfl, by simp [encode]⟩

/-- Reading the next element keeps the invariant and never faults. -/
theorem fetch_good {s : State} (h : s.Inv) (hb : s.phase ≠ .idle) : FetchGood s.phase (fetch s) := by
  have hl := h.live hb
  have hd := fun c t ht => datStop_inv (s := t) ht c
  have ht := fun c t ht => texStop_inv (s := t) ht c
  unfold fetch
  split <;> rename_i hp
  · exact absurd hp hb
  · exact fetchTake_good hd h hl fun r hr => fetchTake_good hd (reader_inv h hl hr) hl fun r2 hr2 => fetchedAs_good
      (reader_inv h hl hr2) rfl (by simp [hp]) ⟨_, rfl, by simp [encode]⟩
  · exact fetchField_good hd h hl rfl (by simp [hp]) fun v => ⟨_, rfl, by simp [encode]⟩
  · exact fetchSymbol_good hd h hl rfl (by simp [hp]) fun _ _ v sy len hres => descriptor_decodes (resolve_good
      h.datDict (by decide) hres).1
  · exact fetchField_good hd h hl rfl (by simp [hp]) fun v => ⟨_, rfl, by simp [encode]⟩
  · exact fetchSymbol_good hd h hl rfl (by simp [hp]) fun _ _ v sy len hres => symSymbol_decodes _ (resolve_good h.sym
      (by decide) hres).1
  · exact fetchSymbol_good hd h hl rfl (by simp [hp]) fun _ _ v sy len hres => copySymbol_decodes _ (resolve_good
      h.copy (by decide) hres).1
  · unfold fetchFourcc
    split
    · exact ⟨h, rfl, fun _ => ‹_›, by rw [(fourcc_encode ‹_›)]; simp⟩
    · exact jobError_inv (h.sound hl) _
  · refine fetchTake_good ht h hl fun r hr => fetchTake_good ht (s := { s with reader := r, texDsize := _ }) ?_ hl
      fun r2 hr2 => fetchedAs_good ?_ rfl (by simp [hp]) ⟨_, rfl, by simp [encode]⟩
    · exact ⟨h.mem, h.memAtStart, hr, h.sym, h.copy, h.datDict, h.builder, h.quiet, h.held, h.regions, jobGood_of
        h.job rfl rfl rfl rfl rfl rfl rfl rfl, asserted_of_live hl⟩
    · exact ⟨h.mem, h.memAtStart, hr2, h.sym, h.copy, h.datDict, h.builder, h.quiet, h.held, h.regions, jobGood_of
        h.job rfl rfl rfl rfl rfl rfl rfl rfl, asserted_of_live hl⟩
  · refine fetchedAs_good h rfl (by simp [hp]) ?_
    have hj := h.job; simp only [State.JobGood, hp] at hj
    generalize s.tex.pending = q at hj
    have : ∀ q : BitVec 4, q ≠ 0 → ∃ i, decode .texFlag (lowestFlag q) = .ok i ∧ (encode i).1 ≠ .command := by
      intro q hq
      have hcases : lowestFlag q = 1 ∨ lowestFlag q = 2 ∨ lowestFlag q = 4 ∨ lowestFlag q = 8 := by revert q; decide
      rcases hcases with e | e | e | e <;> rw [e] <;> exact ⟨_, rfl, by simp [encode]⟩
    exact this q hj.2
  · exact fetchField_good ht h hl rfl (by simp [hp]) fun v => ⟨_, rfl, by simp [encode]⟩
  · exact fetchField_good ht h hl rfl (by simp [hp]) fun v => ⟨_, rfl, by simp [encode]⟩
  · exact fetchField_good ht h hl rfl (by simp [hp]) fun v => ⟨_, rfl, by simp [encode]⟩
  · refine fetchSymbol_good ht h hl rfl (by simp [hp]) fun hh hlt v sy len hres => ?_
    obtain ⟨s', l', e, h1, h2⟩ := texDict_resolve hlt v
    rw [e] at hres; cases hres
    exact texCount_decodes _ h1 h2
  · unfold fetchRun
    split
    · exact fetchField_good ht h hl rfl (by simp [hp]) fun v => ⟨_, rfl, by simp [encode]⟩
    · refine fetchTake_good ht h hl fun r hr => ?_
      have hi := reader_inv h hl hr
      simp only
      split
      · exact texStop_inv (hi.sound hl) _
      · split
        · split
          · exact texStop_inv (hi.sound hl) _
          · exact fetchedAs_good (reader_inv hi hl (drop_good hr ‹_›)) rfl (by simp [hp]) ⟨_, rfl, by simp [encode]⟩
        · exact fetchedAs_good hi rfl (by simp [hp]) ⟨_, rfl, by simp [encode]⟩
    · exact fetchField_good ht h hl rfl (by simp [hp]) fun v => ⟨_, rfl, by simp [encode]⟩
  · exact fetchField_good ht h hl rfl (by simp [hp]) fun v => ⟨_, rfl, by simp [encode]⟩
  · exact fetchField_good ht h hl rfl (by simp [hp]) fun v => ⟨_, rfl, by simp [encode]⟩

/-- A change of memory, of the host's side and of the free counter keeps the invariant. -/
theorem outside_inv {s : State} (h : s.Inv) {m : Memory} (hm : m.wf = true) (f : Nat) (b : List HostEvent) (d : Word) :
    State.Inv { s with mem := m, free := f, bus := b, busData := d } :=
  ⟨hm, h.memAtStart, h.reader, h.sym, h.copy, h.datDict, h.builder, h.quiet, h.held, h.regions,
    jobGood_of h.job rfl rfl rfl rfl rfl rfl rfl rfl,
    fun e => congrArg (fun u : State => { u with mem := m, free := f, bus := b, busData := d }) (h.asserted e)⟩

theorem bus_inv {s : State} (h : s.Inv) (b) : State.Inv { s with bus := b } := outside_inv h h.mem _ b _

/-- One element of the running job keeps the invariant. -/
theorem coreStep_inv {s t : State} (h : s.Inv) (hb : s.phase ≠ .idle) (e : coreStep s = .next t) : t.Inv := by
  have hf := fetch_good h hb
  unfold coreStep at e
  cases hx : fetch s with
  | instr i u =>
    rw [hx] at hf e
    exact exec_inv hf.1 (hf.1.live (by rw [hf.2.1]; exact hb)) (fun hp _ => hf.2.2.1 (hf.2.1.symm.trans hp)) e
  | ended u => rw [hx] at hf e; cases e; exact hf
  | fault f => rw [hx] at hf; exact hf.elim

theorem decodeCommand_kind (v : Word) : (encode (decodeCommand v)).1 = .command := by
  unfold decodeCommand
  cases hx : findRow v.toNat commandRows with
  | none => rfl
  | some i =>
    have : ∀ (l : List (Nat × Instr)), findRow v.toNat l = some i → (v.toNat, i) ∈ l := by
      intro l
      induction l with
      | nil => intro e; cases e
      | cons x l ih =>
        obtain ⟨k, j⟩ := x
        intro e
        simp only [findRow] at e
        split at e
        · cases e; rename_i hq; rw [hq]; simp
        · exact List.mem_cons_of_mem _ (ih e)
    have hall : ∀ x ∈ commandRows, (encode x.2).1 = .command := by decide
    exact hall _ (this _ hx)

/-- A host write to a register keeps the invariant, reset not asserted. -/
theorem writeRegister_inv {s : State} (h : s.Inv) (hl : s.inReset = false) (hp : s.phase = .idle) (o v) :
    (s.writeRegister o v).Inv := by
  have hs := h.sound hl
  unfold State.writeRegister
  split <;> first
    | exact h
    | exact idle_inv ⟨hs.mem, hs.memAtStart, hs.reader, hs.sym, hs.copy, hs.datDict, hs.builder, hs.held, hs.live⟩ hp
        (h.quiet hp)
    | (unfold State.writeStatus; split
       · exact idle_inv ⟨hs.mem, hs.memAtStart, hs.reader, hs.sym, hs.copy, hs.datDict, hs.builder, hs.held, hs.live⟩ hp
           (h.quiet hp)
       · exact h)

/-- A bus write to the window keeps the invariant. -/
theorem windowWrite_inv {s t : State} (h : s.Inv) {o n v} (e : s.windowWrite o n v = .next t) : t.Inv := by
  unfold State.windowWrite at e
  split at e
  · unfold State.hostWrite at e
    split at e
    · cases e; exact h
    · rename_i hl
      have hl : s.inReset = false := Bool.eq_false_iff.mpr hl
      split at e
      · refine exec_inv h hl (fun _ hk => ?_) e
        rw [decodeCommand_kind] at hk
        cases hk
      · cases e
        split
        · exact h
        · exact writeRegister_inv h hl (by simpa [State.busy] using ‹¬ s.busy = true›) _ _
  · cases e

/-- A bus read of the window keeps the invariant. -/
theorem windowRead_inv {s t : State} (h : s.Inv) {o n} (e : s.windowRead o n = .next t) : t.Inv := by
  unfold State.windowRead at e
  split at e
  · cases e
    unfold State.hostRead State.readBusy
    repeat' split
    all_goals exact outside_inv h h.mem _ _ _
  · cases e

/-- A host write to memory keeps the invariant. -/
theorem hostMemWrite_inv {s : State} (h : s.Inv) (a b) : (s.hostMemWrite a b).Inv := by
  unfold State.hostMemWrite
  split
  · have hp : s.phase ≠ .idle := by simpa [State.busy] using ‹s.busy = true›
    split
    · exact ⟨h.mem, h.memAtStart, h.reader, h.sym, h.copy, h.datDict, h.builder, fun e => absurd e hp, by simp,
        h.regions, jobGood_of h.job rfl rfl rfl rfl rfl rfl rfl rfl, asserted_of_live (h.live hp)⟩
    · split
      · exact ⟨h.mem, h.memAtStart, h.reader, h.sym, h.copy, h.datDict, h.builder, fun e => absurd e hp, by simp,
          h.regions, jobGood_of h.job rfl rfl rfl rfl rfl rfl rfl rfl, asserted_of_live (h.live hp)⟩
      · exact outside_inv h (memory_write_wf _ _ h.mem) _ _ _
  · exact outside_inv h (memory_write_wf _ _ h.mem) _ _ _

/-- A host read of memory keeps the invariant. -/
theorem hostMemRead_inv {s : State} (h : s.Inv) (a) : (s.hostMemRead a).Inv := by
  unfold State.hostMemRead
  split
  · rename_i hc
    have hp : s.phase ≠ .idle := by simp [State.busy] at hc; exact hc.1
    exact ⟨h.mem, h.memAtStart, h.reader, h.sym, h.copy, h.datDict, h.builder, fun e => absurd e hp, by simp,
      h.regions, jobGood_of h.job rfl rfl rfl rfl rfl rfl rfl rfl, asserted_of_live (h.live hp)⟩
  · exact outside_inv h h.mem _ _ _

/-- The memory a reset leaves is canonical. -/
theorem memAfterReset_wf {s : State} (h : s.Inv) : s.memAfterReset.wf = true := by
  unfold State.memAfterReset
  split
  · split
    · exact applyHeld_wf _ (memory_fill_wf _ _ _ h.mem)
    · refine memory_blend_wf _ _ _ ?_ h.mem
      intro a ha
      simp only [State.writtenAddresses, List.mem_filter, List.mem_map, List.mem_append] at ha
      obtain ⟨⟨c, hc, rfl⟩, _⟩ := ha
      have key : ∀ (m : Memory), m.wf = true → ∀ c ∈ m, c.1 < 2^32 := by
        intro m
        induction m with
        | nil => intro _ c hc; cases hc
        | cons x m ih =>
          obtain ⟨k, b⟩ := x
          intro hw c hc
          obtain ⟨h1, _, _, h4⟩ := (memory_wf_cons _ _ _).mp hw
          rcases List.mem_cons.mp hc with rfl | hc
          · exact h1
          · exact ih h4 c hc
      rcases hc with hc | hc
      · exact key _ h.memAtStart _ hc
      · exact key _ h.mem _ hc
  · exact h.mem

/-- Reset asserted: the invariant holds, the clause of an asserted reset by construction. -/
theorem assertReset_inv {s : State} (h : s.Inv) : s.assertReset.Inv :=
  ⟨memAfterReset_wf h, rfl, resetReader_good, emptyTree_good _, emptyTree_good _, h.datDict, emptyBuilder_good,
    fun _ => rfl, fun _ => rfl, fun hn => absurd rfl hn, trivial, fun _ => rfl⟩

theorem releaseReset_inv {s : State} (h : s.Inv) : s.releaseReset.Inv :=
  ⟨h.mem, h.memAtStart, h.reader, h.sym, h.copy, h.datDict, h.builder, h.quiet, h.held, h.regions,
    jobGood_of h.job rfl rfl rfl rfl rfl rfl rfl rfl, asserted_of_live rfl⟩

/-- What a transaction of the host can do: a write or a read of the window, an access to memory, the reset input, or
nothing to the core. -/
theorem hostStep_cases (op : HostOp) (s : State) :
    (∃ o n v, hostStep op s = s.windowWrite o n v) ∨ (∃ o n, hostStep op s = s.windowRead o n) ∨
      (∃ a b, hostStep op s = .next (s.hostMemWrite a b)) ∨ (∃ a, hostStep op s = .next (s.hostMemRead a)) ∨
      hostStep op s = .next s.assertReset ∨ hostStep op s = .next s.releaseReset ∨ hostStep op s = .next s := by
  cases op with
  | write o n v => exact .inl ⟨o, n, v, rfl⟩
  | read o n => exact .inr (.inl ⟨o, n, rfl⟩)
  | writeAt a n v =>
    cases e : s.reachesWindow a n with
    | true => exact .inl ⟨s.windowOffset a, n, v, by simp [hostStep, e]⟩
    | false => exact .inr (.inr (.inr (.inr (.inr (.inr (by simp [hostStep, e]))))))
  | readAt a n =>
    cases e : s.reachesWindow a n with
    | true => exact .inr (.inl ⟨s.windowOffset a, n, by simp [hostStep, e]⟩)
    | false => exact .inr (.inr (.inr (.inr (.inr (.inr (by simp [hostStep, e]))))))
  | memWrite a b => exact .inr (.inr (.inl ⟨a, b, rfl⟩))
  | memRead a => exact .inr (.inr (.inr (.inl ⟨a, rfl⟩)))
  | reset asserted =>
    cases asserted with
    | true => exact .inr (.inr (.inr (.inr (.inl rfl))))
    | false => exact .inr (.inr (.inr (.inr (.inr (.inl rfl)))))

/-- One host transaction keeps the invariant. -/
theorem hostStep_inv {s t : State} (h : s.Inv) (op) (e : hostStep op s = .next t) : t.Inv := by
  rcases hostStep_cases op s with ⟨o, n, v, k⟩ | ⟨o, n, k⟩ | ⟨a, b, k⟩ | ⟨a, k⟩ | k | k | k <;> rw [k] at e
  · exact windowWrite_inv h e
  · exact windowRead_inv h e
  · cases e; exact hostMemWrite_inv h a b
  · cases e; exact hostMemRead_inv h a
  · cases e; exact assertReset_inv h
  · cases e; exact releaseReset_inv h
  · cases e; exact h

end Sys2Proof.Machine
end

