-- ==== Sys2Proof/Laws/Ops.lean ====
section
/-! SUPPORT. The shared operations of Machine/Ops.lean: what each can do, said once. -/

namespace Sys2Proof.Machine

/-- The core is busy exactly off the idle phase (10_state.md R34). -/
theorem busy_eq_false {s : State} : s.busy = false ↔ s.phase = .idle := by simp [State.busy]

theorem busy_eq_true {s : State} : s.busy = true ↔ s.phase ≠ .idle := by simp [State.busy]

/-- A command of an idle core is accepted and run (45_control.md R470). -/
theorem command_idle {s : State} (h : s.phase = .idle) (v : Word) (run : State → State) :
    command v run s = .next (run (s.accept v)) := by simp [command, busy_eq_false.mpr h]

/-- A command of a busy core is ignored (45_control.md R471). -/
theorem command_busy {s : State} (h : s.phase ≠ .idle) (v : Word) (run : State → State) :
    command v run s = .next s.ignore := by simp [command, busy_eq_true.mpr h]

/-- A stream element at its place. -/
theorem inPhase_at {p : Phase} {s : State} (h : s.phase = p) (t : State) : inPhase p s t = .next t := by
  simp [inPhase, h]

/-- A stream element elsewhere. -/
theorem inPhase_off {p : Phase} {s : State} (h : s.phase ≠ p) (t : State) : inPhase p s t = .fault .outOfPhase := by
  simp [inPhase, h]

/-- What a table lookup finds is a row of the table. -/
theorem findRow_mem {v : Nat} {i : Instr} {l : List (Nat × Instr)} (h : findRow v l = some i) : (v, i) ∈ l := by
  induction l with
  | nil => cases h
  | cons x l ih =>
    obtain ⟨k, j⟩ := x
    simp only [findRow] at h
    split at h
    · cases h; subst v; simp
    · exact List.mem_cons_of_mem _ (ih h)

/-- What a failed lookup says. -/
theorem findRow_none {v : Nat} {l : List (Nat × Instr)} : findRow v l = none ↔ ∀ x ∈ l, x.1 ≠ v := by
  induction l with
  | nil => simp [findRow]
  | cons x l ih =>
    obtain ⟨k, j⟩ := x
    simp only [findRow]
    split <;> simp_all [eq_comm]

/-- Every command word runs one of the fifteen commands, with its own word latched (30_encoding.md R141, R142). -/
theorem exec_decodeCommand (v : Word) : ∃ run : State → State, ∀ s, exec (decodeCommand v) s = command v run s := by
  unfold decodeCommand
  cases h : findRow v.toNat commandRows with
  | none => exact ⟨_, fun s => rfl⟩
  | some i =>
    have hm := findRow_mem h
    have hv : v = BitVec.ofNat 32 v.toNat := by simp
    simp only [commandRows, List.mem_cons, Prod.mk.injEq, List.not_mem_nil, or_false] at hm
    rcases hm with ⟨e, rfl⟩ | ⟨e, rfl⟩ | ⟨e, rfl⟩ | ⟨e, rfl⟩ | ⟨e, rfl⟩ | ⟨e, rfl⟩ | ⟨e, rfl⟩ | ⟨e, rfl⟩ | ⟨e, rfl⟩ |
        ⟨e, rfl⟩ | ⟨e, rfl⟩ | ⟨e, rfl⟩ | ⟨e, rfl⟩ | ⟨e, rfl⟩ <;>
      (rw [e] at hv; subst hv; exact ⟨_, fun s => rfl⟩)

/-- What CHECK_REGIONS lets pass (60_exceptions.md R512). -/
theorem checkRegions_none {s : State} : s.checkRegions = none ↔
    s.inLen ≠ 0 ∧ s.outLen ≠ 0 ∧ s.inBase.toNat + s.inLen.toNat ≤ 2 ^ 32 ∧
      s.outBase.toNat + s.outLen.toNat ≤ 2 ^ 32 ∧
      (s.outBase.toNat + s.outLen.toNat ≤ s.inBase.toNat ∨ s.inBase.toNat + s.inLen.toNat ≤ s.outBase.toNat) := by
  unfold State.checkRegions
  repeat' split
  all_goals simp_all [regionWraps, State.regionsOverlap]
  all_goals omega

end Sys2Proof.Machine
end

