-- ==== Sys2Proof/Laws/PerInstr.lean ====
section
/-! SUPPORT. The per-instruction laws: the bits of a well-formed instruction fit the place they are read at. -/

namespace Sys2Proof.Laws.EncodingFits

/-- The encoding of a well-formed instruction has no bit beyond the width of its place. -/
def Statement (i : Instr) : Prop := i.wf = true → (encode i).2 < 2 ^ (encode i).1.width

theorem nop : Statement .nop := fun _ => by decide
theorem inflateDat : Statement .inflateDat := fun _ => by decide
theorem inflateTexture : Statement .inflateTexture := fun _ => by decide
theorem texFormat : Statement .texFormat := fun _ => by decide
theorem brInit : Statement .brInit := fun _ => by decide
theorem brPeek : Statement .brPeek := fun _ => by decide
theorem brRead : Statement .brRead := fun _ => by decide
theorem brDrop : Statement .brDrop := fun _ => by decide
theorem brTake : Statement .brTake := fun _ => by decide
theorem hbClear : Statement .hbClear := fun _ => by decide
theorem hbAdd : Statement .hbAdd := fun _ => by decide
theorem hbBuild : Statement .hbBuild := fun _ => by decide
theorem htDecode : Statement .htDecode := fun _ => by decide
theorem htCode : Statement .htCode := fun _ => by decide
theorem illegalCommand (word : Word) : Statement (.illegalCommand word) := fun _ => word.isLt
theorem datHeader (method : BitVec 4) (wraw : BitVec 4) : Statement (.datHeader method wraw) := fun _ => by
  have h1 := method.isLt; have h2 := wraw.isLt
  show method.toNat * 16 + wraw.toNat < 2 ^ 8; omega
theorem datNSymbols (count : BitVec 16) : Statement (.datNSymbols count) := fun _ => count.isLt
theorem datDescSkip (r : BitVec 3) : Statement (.datDescSkip r) := fun _ => by
  have h := r.isLt
  show r.toNat * 32 < 2 ^ 8; omega
theorem datDescAdd (r : BitVec 3) (len : BitVec 5) : Statement (.datDescAdd r len) := fun _ => by
  have h1 := r.isLt; have h2 := len.isLt
  show r.toNat * 32 + len.toNat < 2 ^ 8; omega
theorem datMaxCount (raw : BitVec 4) : Statement (.datMaxCount raw) := fun _ => raw.isLt
theorem symLiteral (byte : Byte) : Statement (.symLiteral byte) := fun _ => by
  have h := byte.isLt
  show byte.toNat < 2 ^ 9; omega
theorem symLen0 : Statement .symLen0 := fun _ => by decide
theorem symLen1 : Statement .symLen1 := fun _ => by decide
theorem symLen2 : Statement .symLen2 := fun _ => by decide
theorem symLen3 : Statement .symLen3 := fun _ => by decide
theorem symLen4 : Statement .symLen4 := fun _ => by decide
theorem symLen5 : Statement .symLen5 := fun _ => by decide
theorem symLen6 : Statement .symLen6 := fun _ => by decide
theorem symLen7 : Statement .symLen7 := fun _ => by decide
theorem symLen8 : Statement .symLen8 := fun _ => by decide
theorem symLen9 : Statement .symLen9 := fun _ => by decide
theorem symLen10 : Statement .symLen10 := fun _ => by decide
theorem symLen11 : Statement .symLen11 := fun _ => by decide
theorem symLen12 : Statement .symLen12 := fun _ => by decide
theorem symLen13 : Statement .symLen13 := fun _ => by decide
theorem symLen14 : Statement .symLen14 := fun _ => by decide
theorem symLen15 : Statement .symLen15 := fun _ => by decide
theorem symLen16 : Statement .symLen16 := fun _ => by decide
theorem symLen17 : Statement .symLen17 := fun _ => by decide
theorem symLen18 : Statement .symLen18 := fun _ => by decide
theorem symLen19 : Statement .symLen19 := fun _ => by decide
theorem symLen20 : Statement .symLen20 := fun _ => by decide
theorem symLen21 : Statement .symLen21 := fun _ => by decide
theorem symLen22 : Statement .symLen22 := fun _ => by decide
theorem symLen23 : Statement .symLen23 := fun _ => by decide
theorem symLen24 : Statement .symLen24 := fun _ => by decide
theorem symLen25 : Statement .symLen25 := fun _ => by decide
theorem symLen26 : Statement .symLen26 := fun _ => by decide
theorem symLen27 : Statement .symLen27 := fun _ => by decide
theorem symLen28 : Statement .symLen28 := fun _ => by decide
theorem copyDist0 : Statement .copyDist0 := fun _ => by decide
theorem copyDist1 : Statement .copyDist1 := fun _ => by decide
theorem copyDist2 : Statement .copyDist2 := fun _ => by decide
theorem copyDist3 : Statement .copyDist3 := fun _ => by decide
theorem copyDist4 : Statement .copyDist4 := fun _ => by decide
theorem copyDist5 : Statement .copyDist5 := fun _ => by decide
theorem copyDist6 : Statement .copyDist6 := fun _ => by decide
theorem copyDist7 : Statement .copyDist7 := fun _ => by decide
theorem copyDist8 : Statement .copyDist8 := fun _ => by decide
theorem copyDist9 : Statement .copyDist9 := fun _ => by decide
theorem copyDist10 : Statement .copyDist10 := fun _ => by decide
theorem copyDist11 : Statement .copyDist11 := fun _ => by decide
theorem copyDist12 : Statement .copyDist12 := fun _ => by decide
theorem copyDist13 : Statement .copyDist13 := fun _ => by decide
theorem copyDist14 : Statement .copyDist14 := fun _ => by decide
theorem copyDist15 : Statement .copyDist15 := fun _ => by decide
theorem copyDist16 : Statement .copyDist16 := fun _ => by decide
theorem copyDist17 : Statement .copyDist17 := fun _ => by decide
theorem copyDist18 : Statement .copyDist18 := fun _ => by decide
theorem copyDist19 : Statement .copyDist19 := fun _ => by decide
theorem copyDist20 : Statement .copyDist20 := fun _ => by decide
theorem copyDist21 : Statement .copyDist21 := fun _ => by decide
theorem copyDist22 : Statement .copyDist22 := fun _ => by decide
theorem copyDist23 : Statement .copyDist23 := fun _ => by decide
theorem copyDist24 : Statement .copyDist24 := fun _ => by decide
theorem copyDist25 : Statement .copyDist25 := fun _ => by decide
theorem copyDist26 : Statement .copyDist26 := fun _ => by decide
theorem copyDist27 : Statement .copyDist27 := fun _ => by decide
theorem copyDist28 : Statement .copyDist28 := fun _ => by decide
theorem copyDist29 : Statement .copyDist29 := fun _ => by decide
theorem copyDist30 : Statement .copyDist30 := fun _ => by decide
theorem copyDist31 : Statement .copyDist31 := fun _ => by decide
theorem copyDist32 : Statement .copyDist32 := fun _ => by decide
theorem copyDist33 : Statement .copyDist33 := fun _ => by decide
theorem copyInvalid (d : Symbol) : Statement (.copyInvalid d) := fun h => by
  simp only [Instr.wf, Bool.and_eq_true, decide_eq_true_eq] at h
  show d.toNat < 2 ^ 9; omega
theorem texHeader (size : Word) (flags : Word) : Statement (.texHeader size flags) := fun _ => by
  have h1 := size.isLt; have h2 := flags.isLt
  show size.toNat + flags.toNat * 2 ^ 32 < 2 ^ 64; omega
theorem texCflagWhite : Statement .texCflagWhite := fun _ => by decide
theorem texCflagConstA4 : Statement .texCflagConstA4 := fun _ => by decide
theorem texCflagConstA8 : Statement .texCflagConstA8 := fun _ => by decide
theorem texCflagPlain : Statement .texCflagPlain := fun _ => by decide
theorem texCount1 : Statement .texCount1 := fun _ => by decide
theorem texCount18 : Statement .texCount18 := fun _ => by decide
theorem texCount2 : Statement .texCount2 := fun _ => by decide
theorem texCount3 : Statement .texCount3 := fun _ => by decide
theorem texCount4 : Statement .texCount4 := fun _ => by decide
theorem texCount5 : Statement .texCount5 := fun _ => by decide
theorem texCount6 : Statement .texCount6 := fun _ => by decide
theorem texCount7 : Statement .texCount7 := fun _ => by decide
theorem texCount8 : Statement .texCount8 := fun _ => by decide
theorem texCount9 : Statement .texCount9 := fun _ => by decide
theorem texCount10 : Statement .texCount10 := fun _ => by decide
theorem texCount11 : Statement .texCount11 := fun _ => by decide
theorem texCount12 : Statement .texCount12 := fun _ => by decide
theorem texCount13 : Statement .texCount13 := fun _ => by decide
theorem texCount14 : Statement .texCount14 := fun _ => by decide
theorem texCount15 : Statement .texCount15 := fun _ => by decide
theorem texCount16 : Statement .texCount16 := fun _ => by decide
theorem texCount17 : Statement .texCount17 := fun _ => by decide
theorem texWhiteRun (value : Bool) : Statement (.texWhiteRun value) := fun _ => by cases value <;> decide
theorem texAlphaStart (wide : Bool) (alpha : Byte) : Statement (.texAlphaStart wide alpha) := fun h => by
  cases wide with
  | true => exact alpha.isLt
  | false =>
    simp only [Instr.wf, Bool.false_or, decide_eq_true_eq] at h
    exact h
theorem texAlphaRun (value : Bool) (notNull : Bool) : Statement (.texAlphaRun value notNull) := fun _ => by cases value <;> cases notNull <;> decide
theorem texPlainStart (colour : BitVec 24) : Statement (.texPlainStart colour) := fun _ => colour.isLt
theorem texPlainRun (value : Bool) : Statement (.texPlainRun value) := fun _ => by cases value <;> decide
theorem texResidueWord (word : Word) : Statement (.texResidueWord word) := fun _ => word.isLt
theorem fourccDxt1 : Statement .fourccDxt1 := fun _ => by decide
theorem fourccDxt2 : Statement .fourccDxt2 := fun _ => by decide
theorem fourccDxt3 : Statement .fourccDxt3 := fun _ => by decide
theorem fourccDxt4 : Statement .fourccDxt4 := fun _ => by decide
theorem fourccDxt5 : Statement .fourccDxt5 := fun _ => by decide
theorem fourccDxta : Statement .fourccDxta := fun _ => by decide
theorem fourccDxtl : Statement .fourccDxtl := fun _ => by decide
theorem fourccDxtn : Statement .fourccDxtn := fun _ => by decide
theorem fourcc3dcx : Statement .fourcc3dcx := fun _ => by decide

end Sys2Proof.Laws.EncodingFits
end

