-- ==== Sys2Proof/Tests/Slice0.lean ====
section
/-! SUPPORT. The model's own tests: what WellFormed refuses, words decoded from the spec's encodings, single steps with the
results of 95_test_vectors.md, and for every obligation with hypotheses a state that meets them. -/

namespace Sys2Proof.Machine.Tests

open Sys2Proof Sys2Proof.Machine

/-! ### WellFormed refuses -/

/-- 30_encoding.md R142: a legal command word is not an illegal one. -/
theorem test_wf_legal_word : (Instr.illegalCommand 0x00000024).wf = false := by decide

/-- 30_encoding.md R154: code_len 0 is a skip, not an add. -/
theorem test_wf_add_length_zero : (Instr.datDescAdd 3 0).wf = false := by decide

/-- 30_encoding.md R158: 33 is a valid distance code. -/
theorem test_wf_valid_distance : (Instr.copyInvalid 33).wf = false := by decide

/-- 30_encoding.md R158: the alphabet ends at 284. -/
theorem test_wf_distance_beyond_alphabet : (Instr.copyInvalid 285).wf = false := by decide

/-- 30_encoding.md R169: the constant alpha of k = 4 has 4 bits. -/
theorem test_wf_wide_nibble : (Instr.texAlphaStart false 16).wf = false := by decide

/-- The operands next to the refused ones are taken. -/
theorem test_wf_accepts :
    [Instr.illegalCommand 0x25, .datDescAdd 3 1, .copyInvalid 34, .copyInvalid 284, .texAlphaStart false 15,
      .texAlphaStart true 16].all Instr.wf = true := by decide

/-! ### Decoding, from the spec's encodings -/

/-- 30_encoding.md R141. -/
theorem test_decode_commands :
    [0x00, 0x01, 0x02, 0x03, 0x10, 0x11, 0x12, 0x13, 0x14, 0x20, 0x21, 0x22, 0x23, 0x24].map (decode .command) =
      [.ok .nop, .ok .inflateDat, .ok .inflateTexture, .ok .texFormat, .ok .brInit, .ok .brPeek, .ok .brRead, .ok .brDrop,
        .ok .brTake, .ok .hbClear, .ok .hbAdd, .ok .hbBuild, .ok .htDecode, .ok .htCode] := by decide

/-- 30_encoding.md R142: opcodes beside the map, and a set bit above them (95_test_vectors.md V-C3, V-C4). -/
theorem test_decode_illegal :
    [0x04, 0x0F, 0x15, 0x1F, 0x25, 0xFF, 0x101].map (decode .command) =
      [.ok (.illegalCommand 0x04), .ok (.illegalCommand 0x0F), .ok (.illegalCommand 0x15), .ok (.illegalCommand 0x1F),
        .ok (.illegalCommand 0x25), .ok (.illegalCommand 0xFF), .ok (.illegalCommand 0x101)] := by decide

/-- 30_encoding.md R152, R153, R159: method first; 16 bits; 4 bits. -/
theorem test_decode_dat_fields :
    decode .datHeader 0b00010010 = .ok (.datHeader 1 2) ∧ decode .datNSymbols 0b0000000100001001 = .ok (.datNSymbols 0x109) ∧
      decode .maxCount 0b1111 = .ok (.datMaxCount 15) := by decide

/-- 30_encoding.md R154, with TEST_DICT's meanings (95_test_vectors.md): skip 8, skip 2, skip 1, add 1, add 5, add 2. -/
theorem test_decode_descriptors :
    [0xE0, 0x20, 0x00, 0x01, 0x05, 0x21].map (decode .descriptor) =
      [.ok (.datDescSkip 7), .ok (.datDescSkip 1), .ok (.datDescSkip 0), .ok (.datDescAdd 0 1), .ok (.datDescAdd 0 5),
        .ok (.datDescAdd 1 1)] := by decide

/-- 30_encoding.md R155: literals below 0x100, 29 length codes from 0x100 in order, none above 0x11C. -/
theorem test_decode_sym :
    decode .symSymbol 0x041 = .ok (.symLiteral 0x41) ∧ decode .symSymbol 0x0FF = .ok (.symLiteral 0xFF) ∧
      (List.range 29).map (fun i => decode .symSymbol (0x100 + i)) =
        [.ok .symLen0, .ok .symLen1, .ok .symLen2, .ok .symLen3, .ok .symLen4, .ok .symLen5, .ok .symLen6, .ok .symLen7,
          .ok .symLen8, .ok .symLen9, .ok .symLen10, .ok .symLen11, .ok .symLen12, .ok .symLen13, .ok .symLen14,
          .ok .symLen15, .ok .symLen16, .ok .symLen17, .ok .symLen18, .ok .symLen19, .ok .symLen20, .ok .symLen21,
          .ok .symLen22, .ok .symLen23, .ok .symLen24, .ok .symLen25, .ok .symLen26, .ok .symLen27, .ok .symLen28] ∧
      decode .symSymbol 0x11D = .error .symbolOutOfAlphabet := by decide

/-- 30_encoding.md R158: 34 distance codes, invalid ones up to 284. -/
theorem test_decode_copy :
    (List.range 34).map (decode .copySymbol) =
        [.ok .copyDist0, .ok .copyDist1, .ok .copyDist2, .ok .copyDist3, .ok .copyDist4, .ok .copyDist5, .ok .copyDist6,
          .ok .copyDist7, .ok .copyDist8, .ok .copyDist9, .ok .copyDist10, .ok .copyDist11, .ok .copyDist12,
          .ok .copyDist13, .ok .copyDist14, .ok .copyDist15, .ok .copyDist16, .ok .copyDist17, .ok .copyDist18,
          .ok .copyDist19, .ok .copyDist20, .ok .copyDist21, .ok .copyDist22, .ok .copyDist23, .ok .copyDist24,
          .ok .copyDist25, .ok .copyDist26, .ok .copyDist27, .ok .copyDist28, .ok .copyDist29, .ok .copyDist30,
          .ok .copyDist31, .ok .copyDist32, .ok .copyDist33] ∧
      decode .copySymbol 34 = .ok (.copyInvalid 34) ∧ decode .copySymbol 284 = .ok (.copyInvalid 284) ∧
      decode .copySymbol 285 = .error .distanceOutOfAlphabet := by decide

/-- The texture header as its two words lie in memory (30_encoding.md R166): data_size 0x20, flags 1. -/
theorem test_decode_tex_header : decode .texHeader 0x0000000100000020 = .ok (.texHeader 0x20 1) := by decide

/-- 30_encoding.md R167: one flag bit; bit 4 is reserved. -/
theorem test_decode_flags :
    [0x01, 0x02, 0x04, 0x08].map (decode .texFlag) =
        [.ok .texCflagWhite, .ok .texCflagConstA4, .ok .texCflagConstA8, .ok .texCflagPlain] ∧
      decode .texFlag 0x10 = .error .noFlagBit := by decide

/-- The instruction behind a TEX_DICT code of some bits at the front of the window. -/
def countBehind (code len : Nat) : Option Instr :=
  let v : Word := BitVec.ofNat 32 (code * 2 ^ (32 - len))
  match texDict.resolve (v.toNat / 2 ^ 24) v with
  | some (x, n) => if n = len then (decode .texCount x.toNat).toOption else none
  | none => none

/-- 30_encoding.md R168: every code of the table. -/
theorem test_decode_counts :
    countBehind 0b1 1 = some .texCount1 ∧ countBehind 0b01 2 = some .texCount18 ∧
      (List.range 16).map (fun x => countBehind x 6) =
        [some .texCount2, some .texCount3, some .texCount4, some .texCount5, some .texCount6, some .texCount7,
          some .texCount8, some .texCount9, some .texCount10, some .texCount11, some .texCount12, some .texCount13,
          some .texCount14, some .texCount15, some .texCount16, some .texCount17] := by decide +kernel

/-- 30_encoding.md R169, R170: the fields of the passes and the residue. -/
theorem test_decode_pass_fields :
    decode .whiteRun 0b1 = .ok (.texWhiteRun true) ∧ decode .alphaStart4 0b1010 = .ok (.texAlphaStart false 0xA) ∧
      decode .alphaStart8 0b01011010 = .ok (.texAlphaStart true 0x5A) ∧
      decode .alphaRun 0b10 = .ok (.texAlphaRun true false) ∧ decode .alphaRun 0b01 = .ok (.texAlphaRun false true) ∧
      decode .plainStart 0x123456 = .ok (.texPlainStart 0x123456) ∧ decode .plainRun 0b0 = .ok (.texPlainRun false) ∧
      decode .residueWord 0x14131211 = .ok (.texResidueWord 0x14131211) := by decide

/-- 43_texture_formats.md R380: the bytes `44 58 54 31` and so on. -/
theorem test_decode_fourcc :
    [0x31545844, 0x32545844, 0x33545844, 0x34545844, 0x35545844, 0x41545844, 0x4C545844, 0x4E545844, 0x58434433].map
        (decode .fourcc) =
        [.ok .fourccDxt1, .ok .fourccDxt2, .ok .fourccDxt3, .ok .fourccDxt4, .ok .fourccDxt5, .ok .fourccDxta,
          .ok .fourccDxtl, .ok .fourccDxtn, .ok .fourcc3dcx] ∧
      decode .fourcc 0x31545845 = .error .unknownFourcc := by decide

/-! ### States -/

/-- The stand-in dictionary of 95_test_vectors.md. -/
def testDict : Tree := dictTree [(0x01, 3), (0xE0, 3), (0x20, 3), (0x00, 3), (0x02, 3), (0x03, 3), (0x04, 3), (0x05, 3)]

/-- Reset, with the parameters of 95_test_vectors.md. -/
def base : State := { State.reset with datDict := testDict, maxBlocks := none }

/-- Eight input bytes at 0x1000: `78 56 34 12 f0 de bc 9a` (95_test_vectors.md V-B1). -/
def inputBytes : Memory :=
  Memory.writeBytes [] 0x1000 [0x78, 0x56, 0x34, 0x12, 0xF0, 0xDE, 0xBC, 0x9A]

/-- The reader of V-B1. -/
def readerB1 : Reader :=
  { start := 0x1000, cursor := 4, remaining := 4, skip := .noSkip, win := 0x1234567800000000, bits := 32 }

/-- The reader of V-B5: no input left, 28 bits valid. -/
def readerB5 : Reader :=
  { start := 0x1000, cursor := 8, remaining := 0, skip := .noSkip, win := 0xABCDEF0000000000, bits := 28 }

/-- An idle core with arguments, the regions of V-B1 and a 32-byte output region. -/
def idleWith (arg0 arg1 : Word) (r : Reader) : State :=
  { base with
    arg0 := arg0, arg1 := arg1, reader := r, mem := inputBytes, inBase := 0x1000, inLen := 8, outBase := 0x2000,
    outLen := 32 }

/-- A dat job at a place, four of its 32 output bytes, `58 58 58 58`, written. -/
def datAt (p : Phase) : State :=
  { idleWith 0 0 readerB1 with
    phase := p
    mem := inputBytes.writeBytes 0x2000 [0x58, 0x58, 0x58, 0x58]
    dat := { outPos := 4, w := 1, count := 4, maxCount := 4096, remaining := 3, copyLen := 4 } }

/-- A texture job at a place: DXT5, 8 by 4 texels, two blocks. -/
def texAt (p : Phase) (pass : Pass) : State :=
  { idleWith 0 0 readerB1 with
    phase := p
    texWidth := 8
    texHeight := 4
    texFourcc := 0x35545844
    fmt := formatRecord 8 4 0x0B0 8
    tex :=
      { colorSet := [false, false], alphaSet := [false, false], pending := 0b1010, pass := pass, pos := 0, code := 1,
        second := false } }

/-- What an outcome shows, if it is a next state. -/
def shown {α : Type} (o : Host.Outcome State Fault Refusal) (f : State → α) : Option α :=
  match o with
  | .next t => some (f t)
  | .fault _ => none
  | .refused _ => none

/-- Bytes of memory from an address. -/
def bytesAt (a : Word) (n : Nat) (s : State) : List Byte := (List.range n).map fun j => s.mem.read (a + BitVec.ofNat 32 j)

/-! ### Single steps, with the results of 95_test_vectors.md -/

/-- V-C1. -/
theorem test_nop : shown (exec .nop base) State.statusWord = some 0x00000002 := by decide

/-- V-C3. -/
theorem test_bad_command : shown (exec (.illegalCommand 0x04) base) State.statusWord = some 0x00000502 := by decide

/-- V-B1. -/
theorem test_br_init : shown (exec .brInit (idleWith 0 0 resetReader)) State.reader = some readerB1 := by decide

/-- V-B17, V-B19. -/
theorem test_br_init_wrap :
    shown (exec .brInit { base with inBase := 0xFFFFFFF0, inLen := 0x20 }) State.statusWord = some 0x00000702 ∧
      shown (exec .brInit { base with inBase := 0xFFFFFFFC, inLen := 4 }) (fun t => t.reader.bits) = some 32 := by decide

/-- V-B2, V-B8: zeros past the valid bits. -/
theorem test_br_peek :
    shown (exec .brPeek (idleWith 8 0 readerB1)) State.result0 = some 0x12 ∧
      shown (exec .brPeek (idleWith 32 0 readerB5)) State.result0 = some 0xABCDEF00 := by decide

/-- V-B6, V-B7. -/
theorem test_br_read :
    shown (exec .brRead (idleWith 32 0 readerB5)) State.statusWord = some 0x00010002 ∧
      shown (exec .brRead (idleWith 28 0 readerB5)) State.result0 = some 0x0ABCDEF0 := by decide

/-- 40_bitreader.md R223's example. -/
theorem test_br_drop :
    shown (exec .brDrop (idleWith 4 0 readerB1)) State.reader =
      some { readerB1 with cursor := 8, remaining := 0, win := 0x23456789ABCDEF00, bits := 60 } := by decide

/-- V-B9, and V-B12's range. -/
theorem test_br_take :
    shown (exec .brTake (idleWith 28 0 readerB5)) (fun t => (t.result0, t.reader.bits, t.reader.head)) =
        some (0x0ABCDEF0, 0, 0) ∧
      shown (exec .brTake (idleWith 33 0 readerB5)) State.statusWord = some 0x00000602 := by decide

/-- V-S1, V-S6: the words that are skipped. -/
theorem test_skip :
    (List.range 7).filter (fun i => skipApplies (.everyNth 3) (4 * i)) = [2, 5] ∧
      skipApplies (.everyNth 1) 0 = false ∧ skipApplies (.everyNth 1) 4 = true ∧
      [65520, 65524, 65528, 131060].map (skipApplies .every64K) = [false, true, false, true] := by decide

/-- The builder of V-H1. -/
def builderH1 : Builder := builderOf [(0x41, 1), (0x42, 2), (0x43, 2)]

/-- V-H1: the codes of the built tree. -/
theorem test_hb_build :
    shown (exec .hbBuild { base with builder := builderH1 }) (fun t => (t.sym.codes, t.result0, t.builder)) =
      some ([⟨0x41, 1, 1⟩, ⟨0x42, 1, 2⟩, ⟨0x43, 0, 2⟩], 1, builderH1) := by decide +kernel

/-- V-H4: a lone symbol of length 1 takes the code `1`. -/
theorem test_hb_build_incomplete :
    shown (exec .hbBuild { base with builder := builderOf [(5, 1)] }) (fun t => t.sym.codes) = some [⟨5, 1, 1⟩] := by
  decide +kernel

/-- V-H3: oversubscription. -/
theorem test_hb_build_oversubscribed :
    shown (exec .hbBuild { base with builder := builderOf [(1, 1), (2, 1), (3, 1)], result0 := 9, sym := testDict })
      (fun t => (t.statusWord, t.sym, t.result0)) = some (0x00070002, emptyTree, 9) := by decide +kernel

/-- V-H7 and 41_huffman.md R275's example: a symbol present already, and the ranges. -/
theorem test_hb_add_refused :
    [(0x41, 2), (285, 1), (7, 0), (7, 32)].map
        (fun p => shown (exec .hbAdd { base with arg0 := p.1, arg1 := p.2, builder := builderH1 }) State.statusWord) =
      List.replicate 4 (some 0x00000602) := by decide +kernel

/-- An added pair stands behind the earlier ones (41_huffman.md R262). -/
theorem test_hb_add :
    shown (exec .hbAdd { base with arg0 := 0x44, arg1 := 2, builder := builderH1 }) (fun t => t.builder.symbolsOf 2) =
      some [0x42, 0x43, 0x44] := by decide

/-- 41_huffman.md R274. -/
theorem test_hb_clear : shown (exec .hbClear { base with builder := builderH1 }) State.builder = some emptyBuilder := by
  decide

/-- V-H5: the input `00 00 00 3c`. -/
theorem test_ht_decode :
    shown (exec .htDecode (idleWith 3 0 { readerB1 with win := 0x3C00000000000000, remaining := 0 }))
      (fun t => (t.result0, t.result1, t.reader.bits)) = some (0x11, 6, 26) := by decide +kernel

/-- The tree of V-H2, with long codes. -/
def treeH2 : Tree :=
  treeOrEmpty (build (builderOf [(0x41, 1), (0x42, 2), (0x43, 3), (0x44, 4), (0x45, 5), (0x46, 6), (0x47, 7), (0x100, 9),
    (0x101, 9), (0x110, 10), (0x111, 10), (0x112, 10), (0x113, 10)]))

/-- V-H2: the comparison entries and the decodes of the slow path. -/
theorem test_long_codes :
    treeH2.long = [⟨0x01000000, 9, 1⟩, ⟨0x00000000, 10, 5⟩] ∧
      [0x01FFFFFF, 0x017FFFFF, 0x00FFFFFF, 0x003FFFFF, 0x03FFFFFF].map
          (fun v : Word => treeH2.resolve (v.toNat / 2 ^ 24) v) =
        [some (0x100, 9), some (0x101, 9), some (0x110, 10), some (0x113, 10), some (0x47, 7)] := by decide +kernel

/-- V-H5, V-H8. -/
theorem test_ht_code :
    shown (exec .htCode (idleWith 3 0x11 readerB1)) (fun t => (t.result0, t.result1)) = some (0x0F, 6) ∧
      shown (exec .htCode (idleWith 0 0x50 readerB1)) (fun t => (t.result0, t.result1)) = some (0, 0) := by
  decide +kernel

/-- 43_texture_formats.md R387's example. -/
theorem test_tex_format :
    shown (exec .texFormat { base with texWidth := 8, texHeight := 8, texFourcc := 0x31545844 })
      (fun t => (t.readRegister 0x5C, t.readRegister 0x60, t.readRegister 0x64, t.result0)) =
        some (0x70, 4, 0x00080804, 32) := by decide

/-- V-F2: saturation, and an unknown FourCC. -/
theorem test_tex_format_saturates :
    shown (exec .texFormat { base with texWidth := 0xFFFFFFFF, texHeight := 0xFFFFFFFF, texFourcc := 0x35545844 })
        (fun t => (t.readRegister 0x60, t.result0)) = some (0xFFFFFFFF, 0xFFFFFFFF) ∧
      shown (exec .texFormat { base with texFourcc := 0x31545845 }) State.statusWord = some 0x00000402 := by decide

/-- V-D9, V-R7: the order of the checks. -/
theorem test_inflate_dat_errors :
    shown (exec .inflateDat base) State.statusWord = some 0x00000102 ∧
      shown (exec .inflateDat { base with inBase := 0x1000, inLen := 16, outBase := 0x100F, outLen := 1 }) State.statusWord =
        some 0x00000802 := by decide

/-- V-D9: adjacent regions do not overlap; the job starts on a reader under Every64KMinus12Bytes. -/
theorem test_inflate_dat_starts :
    shown (exec .inflateDat { base with inBase := 0x1000, inLen := 16, outBase := 0x1010, outLen := 1 })
      (fun t => (t.phase, t.readRegister 0x54, t.statusWord)) = some (.datHeader, 0xFFFF, 0x00000001) := by decide

/-- V-D1's header: `0000` `0010`. -/
theorem test_dat_header :
    shown (exec (.datHeader 0 2) { datAt .datHeader with dat := resetDat }) (fun t => (t.datHdr, t.dat.w)) =
      some (0x20, 3) := by decide

/-- V-D4: n_symbols 286. -/
theorem test_n_symbols_bad :
    shown (exec (.datNSymbols 286) (datAt (.datNSymbols .sym))) State.statusWord = some 0x00050002 := by decide

/-- V-D6: n_symbols 0 ends the job, and one bit is dropped. -/
theorem test_n_symbols_zero :
    shown (exec (.datNSymbols 0) { datAt (.datNSymbols .sym) with reader := readerB5 })
      (fun t => (t.statusWord, t.reader.bits)) = some (0x00000002, 27) := by decide +kernel

/-- V-D7: the second addition runs below index 0; the first stays in the builder. -/
theorem test_descriptor_overrun :
    shown (exec (.datDescAdd 1 1) { datAt (.datDescriptor .sym) with
        dat := { outPos := 0, w := 1, count := 0, maxCount := 0, remaining := 0, copyLen := 0 } })
      (fun t => (t.statusWord, t.builder.symbolsOf 1)) = some (0x00060002, [0]) := by decide +kernel

/-- A skip past index 0 ends the descriptor (42_dat_inflater.md R329): here with an empty tree, so the job. -/
theorem test_descriptor_skip :
    shown (exec (.datDescSkip 7) (datAt (.datDescriptor .sym))) (fun t => (t.statusWord, t.dat.remaining)) =
      some (0x00000002, -5) := by decide +kernel

/-- 42_dat_inflater.md R333. -/
theorem test_max_count :
    shown (exec (.datMaxCount 15) (datAt .datMaxCount)) (fun t => (t.dat.maxCount, t.dat.count)) = some (65536, 0) := by
  decide

/-- E3: the literal 'A'. -/
theorem test_literal :
    shown (exec (.symLiteral 0x41) (datAt .datItem)) (fun t => (bytesAt 0x2003 3 t, t.dat.outPos)) =
      some ([0x58, 0x41, 0], 5) := by decide

/-- V-D1: length code 8 with its extra bit, W = 3: 8 + 1 + 3. -/
theorem test_length_extra :
    shown (exec .symLen8 { datAt .datItem with
        reader := { readerB1 with win := 0x8000000000000000 }, dat := { (datAt .datItem).dat with w := 3 } })
      (fun t => (t.dat.copyLen, t.reader.bits)) = some (12, 63) := by decide

/-- E4: length 4, distance 1, after one 'X'. -/
theorem test_copy_overlaps :
    shown (exec .copyDist0 { datAt .datDistance with
        mem := inputBytes.writeBytes 0x2000 [0x58], dat := { (datAt .datDistance).dat with outPos := 1 } })
      (fun t => (bytesAt 0x2000 6 t, t.dat.outPos)) = some ([0x58, 0x58, 0x58, 0x58, 0x58, 0], 5) := by decide

/-- V-D2: distance code 4 with extra bit 1 is distance 6, beyond 5 bytes; the bit is consumed. -/
theorem test_distance_before_start :
    shown (exec .copyDist4 { datAt .datDistance with
        reader := { readerB5 with win := 0x8000000000000000 }, dat := { (datAt .datDistance).dat with outPos := 5 } })
      (fun t => (t.statusWord, t.outCount, t.reader.bits)) = some (0x00040002, 5, 27) := by decide

/-- V-D3: distance code 34. -/
theorem test_invalid_distance :
    shown (exec (.copyInvalid 34) (datAt .datDistance)) (fun t => (t.statusWord, t.reader)) = some (0x00030002, readerB1) := by
  decide

/-- V-T15, V-T16 and E2. -/
theorem test_texture_errors :
    shown (step { texAt .texFourcc .white with texFourcc := 0 }) State.statusWord = some 0x00000402 ∧
      shown (exec .fourccDxt1 { texAt .texFourcc .white with
        texWidth := 256, texHeight := 256, outLen := 32768, maxBlocks := some 1024 }) State.statusWord = some 0x00000902 ∧
      shown (exec .fourccDxt1 { texAt .texFourcc .white with texWidth := 8, texHeight := 8, outLen := 31 })
        State.statusWord = some 0x00000302 := by decide

/-- E5's header: data_size 0x20, WHITE. -/
theorem test_tex_header :
    shown (exec (.texHeader 0x20 1) (texAt .texHeader .white)) (fun t => (t.texDsize, t.texCflags, t.phase, t.tex.pending)) =
      some (0x20, 1, .texFlag, 1) := by decide

/-- V-T10: no flag set, so the alpha residue is next. -/
theorem test_tex_header_no_flags :
    shown (exec (.texHeader 0 0xFFFFFFF0) (texAt .texHeader .white)) State.phase = some .texAlphaResidue := by decide

/-- V-T14: the white pattern fills the first half only; V-T7: a count beyond the blocks left. -/
theorem test_white_run :
    shown (exec (.texWhiteRun true) { texAt .texRun .white with tex := { (texAt .texRun .white).tex with code := 18 } })
      (fun t => (bytesAt 0x200E 4 t, bytesAt 0x2000 2 t, t.tex.colorSet, t.tex.alphaSet)) =
        some ([0, 0, 0xFE, 0xFF], [0xFE, 0xFF], [true, true], [true, true]) := by decide +kernel

/-- V-T6: value 0 sets nothing. -/
theorem test_white_run_zero :
    shown (exec (.texWhiteRun false) (texAt .texRun .white)) (fun t => (t.tex.colorSet, t.tex.pos, t.mem)) =
      some ([false, false], 1, inputBytes) := by decide +kernel

/-- V-T1: alpha `1010` is the byte 0xAA. -/
theorem test_alpha_start :
    shown (exec (.texAlphaStart false 0xA) (texAt (.texAlphaStart false) .white)) (fun t => (t.tex.pass, t.phase)) =
      some (.alpha 0xAA, .texCount) := by decide

/-- V-T1, V-T2: the pattern, and zeros for is_not_null 0. -/
theorem test_alpha_run :
    shown (exec (.texAlphaRun true true) (texAt .texRun (.alpha 0xAA))) (fun t => (bytesAt 0x2007 2 t, t.tex.alphaSet)) =
        some ([0xAA, 0], [true, false]) ∧
      shown (exec (.texAlphaRun true false) { texAt .texRun (.alpha 0xAA) with mem := [(0x2000, 0xCC), (0x2008, 0xCC)] })
        (fun t => (bytesAt 0x2000 1 t, bytesAt 0x2008 1 t)) = some ([0], [0xCC]) := by decide +kernel

/-- V-T17: the blocks of the colours, DEDUCED_ALPHA or not, and SEQ8. -/
theorem test_plain_blocks :
    colourBlock .le24 0x808080 false = 0x000000007C1083F0 ∧ colourBlock .le24 0x808080 true = 0xAAAAAAAA7C0F83F0 ∧
      colourBlock .le24 0x123456 true = 0xAAAAAAAA51A359A2 ∧ colourBlock .le24 0xFF0000 false = 0x55555555001F001F ∧
      colourBlock .seq8 0x123456 false = 0x5555555511AB19AB := by decide +kernel

/-- V-T5: the plain block of 0x808080 at the colour half. -/
theorem test_plain_run :
    shown (exec (.texPlainRun true) (texAt .texRun (.plain 0x000000007C1083F0)))
      (fun t => (bytesAt 0x2007 5 t, t.tex.colorSet, t.tex.alphaSet)) =
        some ([0, 0xF0, 0x83, 0x10, 0x7C], [true, false], [false, false]) := by decide +kernel

/-- V-T10: the first alpha word of block 0, the block's second word next. -/
theorem test_residue_word :
    shown (exec (.texResidueWord 0x04030201) (texAt .texAlphaResidue .white))
      (fun t => (bytesAt 0x2000 5 t, t.tex.second, t.phase)) = some ([1, 2, 3, 4, 0], true, .texAlphaResidue) := by
  decide +kernel

/-- V-T10: a colour word goes behind the alpha half. -/
theorem test_residue_colour :
    shown (exec (.texResidueWord 0x0C0B0A09) (texAt .texColourResidue .white)) (bytesAt 0x2007 5) =
      some [0, 9, 10, 11, 12] := by decide +kernel

/-- V-C5, V-C6, V-C9. -/
theorem test_interrupt :
    shown (hostStep (.write 0x0C 4 0x00000002) { base with ie := true, status := { done := true, ign := false, err := 0, stop := 0 } })
        State.irq = some false ∧
      shown (hostStep (.write 0x04 4 1) { base with status := { done := true, ign := false, err := 0, stop := 0 } })
        State.irq = some true ∧
      shown (hostStep (.write 0x0C 4 0xFFFFFFFD) { base with status := { done := true, ign := false, err := 0, stop := 0 } })
        State.statusWord = some 0x00000002 := by decide

/-- V-C7: a CMD write while BUSY sets IGN. -/
theorem test_ignored_command :
    shown (step { datAt .datItem with bus := [⟨0, .write 0x08 4 0⟩] }) State.statusWord = some 0x00000005 := by decide

/-- V-R1, V-C11. -/
theorem test_reset_reads :
    [0x00, 0x04, 0x0C, 0x80].map State.reset.readRegister = [0x43325747, 0, 0, 0] := by decide

/-- A core held in reset, with NOP written to CMD next, then the release, then NOP again. -/
def held : State :=
  { base.underReset with bus := [⟨0, .write 0x08 4 0⟩, ⟨0, .reset false⟩, ⟨0, .write 0x08 4 0⟩] }

/-- 70_reset_and_hazards.md R600: the command written while reset is asserted is lost, the one after its release is not. -/
theorem test_reset_held :
    shown (step held) (fun t => (t.statusWord, t.inReset, t.bus.length)) = some (0, true, 2) ∧
      (runSteps 3 held).map (fun t => (t.statusWord, t.inReset)) = some (2, false) := by decide

/-- 70_reset_and_hazards.md R600: a job abandoned by reset reports no completion and leaves no register. -/
theorem test_reset_abandons :
    shown (step { datAt .datItem with ie := true, bus := [⟨0, .reset true⟩] })
      (fun t => (t.irq, t.statusWord, t.inReset, t.phase, t.inLen)) = some (false, 0, true, .idle, 0) := by decide +kernel

/-- A core whose window stands at 0x40000000. -/
def baseAt : State := { base with regBase := 0x40000000, busData := 7 }

/-- 20_memory.md R100: the window at REG_BASE; ID at its first address, the last register, the address behind it. -/
theorem test_window_at_base :
    [0x40000000, 0x400000FC, 0x40000100].map (fun a => shown (hostStep (.readAt a 4) baseAt) State.busData) =
        [some 0x43325747, some 0, some 7] ∧
      shown (hostStep (.writeAt 0x40000008 4 0) baseAt) State.statusWord = some 2 := by decide

/-- Log entry 8: a misaligned access that runs into the window from below. -/
theorem test_window_from_below :
    hostStep (.readAt 0x3FFFFFFE 4) baseAt = .refused (.registerAccess 0xFFFFFFFE 4) := by rfl

/-- 42_dat_inflater.md R323: a header short of its second nibble keeps DAT_HDR; 44_texture_inflater.md R404: a texture header
short of its second word has written TEX_DSIZE. -/
theorem test_short_headers :
    shown (step { datAt .datHeader with reader := { readerB5 with bits := 7 }, datHdr := 0x31 })
        (fun t => (t.statusWord, t.datHdr, t.reader.bits)) = some (0x00010002, 0x31, 3) ∧
      shown (step { texAt .texHeader .white with reader := { readerB1 with remaining := 0 }, texCflags := 9 })
        (fun t => (t.statusWord, t.texDsize, t.texCflags)) = some (0x00010002, 0x12345678, 9) := by decide +kernel

/-- A step of a running job: the next code of TEST_DICT, `000`, adds one symbol of length 5 (V-D8). -/
theorem test_step_descriptor :
    shown (step { datAt (.datDescriptor .sym) with reader := { readerB1 with win := 0 } })
      (fun t => (t.builder.symbolsOf 5, t.dat.remaining, t.reader.bits)) = some ([3], 2, 61) := by decide +kernel

/-- V-T3: with value 0 the is_not_null bit is not consumed. -/
theorem test_step_alpha_run :
    shown (step { texAt .texRun (.alpha 0x5A) with reader := { readerB5 with win := 0x5800000000000000 } })
      (fun t => (t.reader.bits, t.tex.pos, t.tex.alphaSet)) = some (27, 1, [false, false]) := by decide +kernel

/-- 44_texture_inflater.md R417: a value that is the last valid bit stops the job, though it is 0. -/
theorem test_step_alpha_run_last_bit :
    shown (step { texAt .texRun (.alpha 0x5A) with reader := { readerB5 with win := 0, bits := 1 } })
      (fun t => (t.statusWord, t.outCount)) = some (0x00010002, 32) := by decide +kernel

/-! ### The obligations' hypotheses are met

Each theorem names the obligation whose hypotheses its state meets, at the boundary values of each clause. -/

/-- The readers of the tests meet the reader's invariant. -/
theorem witness_readers_good : readerB1.Good ∧ readerB5.Good :=
  ⟨⟨by decide, by decide, by decide, by decide, by decide, by decide⟩,
    ⟨by decide, by decide, by decide, by decide, by decide, by decide⟩⟩

theorem testDict_good : testDict.Good 256 := dictTree_good _

theorem dat_sound (p : Phase) : (datAt p).Sound :=
  ⟨rfl, rfl, witness_readers_good.1, emptyTree_good _, emptyTree_good _, testDict_good, emptyBuilder_good,
    fun _ => rfl, rfl⟩

theorem tex_sound (p : Phase) (pass : Pass) : (texAt p pass).Sound :=
  ⟨rfl, rfl, witness_readers_good.1, emptyTree_good _, emptyTree_good _, testDict_good, emptyBuilder_good,
    fun _ => rfl, rfl⟩

theorem tex_good (p : Phase) (pass : Pass) : (texAt p pass).TextureGood :=
  ⟨⟨0x0B0, 8, rfl, rfl⟩, show (formatRecord 8 4 0x0B0 8).outputSize ≤ (32 : Word).toNat by decide, rfl, rfl⟩

theorem witness_idle_inv : (idleWith 0 0 readerB1).Inv :=
  idle_inv ⟨rfl, rfl, witness_readers_good.1, emptyTree_good _, emptyTree_good _, testDict_good,
    emptyBuilder_good, fun _ => rfl, rfl⟩ rfl rfl

theorem witness_idle_base_inv : base.Inv :=
  idle_inv ⟨rfl, rfl, resetReader_good, emptyTree_good _, emptyTree_good _, testDict_good, emptyBuilder_good,
    fun _ => rfl, rfl⟩ rfl rfl

/-- DescriptorEntries, LiteralStoresOneByte, DistanceCodesCopyBack, JobWritesOnlyOutputRegion, EveryJobCompletes,
StepKeepsInvariant, StepNeverFaults: states of a dat job that meet the invariant, undisturbed, no transaction pending. -/
theorem witness_dat_inv :
    ((datAt (.datDescriptor .sym)).Inv ∧ (datAt .datItem).Inv ∧ (datAt .datDistance).Inv) ∧
      (datAt .datItem).phase ≠ .idle ∧ (datAt .datItem).touched = false ∧ (datAt .datItem).bus = [] ∧
      (datAt .datItem).hostWaits [] :=
  ⟨⟨running_inv (dat_sound _) (by decide) (by decide) (And.intro (by decide) (And.intro (by decide) (by decide))),
      running_inv (dat_sound _) (by decide) (by decide) (And.intro (by decide) (by decide)),
      running_inv (dat_sound _) (by decide) (by decide) (And.intro (by decide) (by decide))⟩,
    by decide, rfl, rfl, .inl ⟨rfl, rfl⟩⟩

/-- TexHeaderSelectsPasses, FlagsAndCountCodes, PassStartsSetPattern, the run and residue statements: states of a texture
job that meet the invariant, undisturbed, at each place the statements name. -/
theorem witness_tex_inv :
    (texAt .texHeader .white).Inv ∧ (texAt .texFlag .white).Inv ∧ (texAt (.texAlphaStart false) .white).Inv ∧
      (texAt (.texAlphaStart true) .white).Inv ∧ (texAt .texPlainStart .white).Inv ∧ (texAt .texRun .white).Inv ∧
      (texAt .texRun (.alpha 0xAA)).Inv ∧ (texAt .texRun (.plain 5)).Inv ∧ (texAt .texAlphaResidue .white).Inv ∧
      (texAt .texColourResidue .white).Inv ∧ (texAt .texHeader .white).touched = false :=
  have h : ∀ p pass, p ≠ .idle → (texAt p pass).JobGood → (texAt p pass).Inv := fun p pass hp hj =>
    running_inv (tex_sound p pass) (show (texAt p pass).checkRegions = none by cases p <;> rfl) hp hj
  ⟨h _ _ (by decide) (tex_good _ _), h _ _ (by decide) ⟨tex_good _ _, by decide⟩, h _ _ (by decide) (tex_good _ _),
    h _ _ (by decide) (tex_good _ _), h _ _ (by decide) (tex_good _ _),
    h _ _ (by decide) ⟨tex_good _ _, by decide, by decide, by decide⟩,
    h _ _ (by decide) ⟨tex_good _ _, by decide, by decide, by decide⟩,
    h _ _ (by decide) ⟨tex_good _ _, by decide, by decide, by decide⟩,
    h _ _ (by decide) ⟨tex_good _ _, by decide, by decide⟩, h _ _ (by decide) ⟨tex_good _ _, by decide, by decide⟩, rfl⟩

/-- NopAndIllegalWords, BusyCommandIsIgnored, BrInitConstructsReader, InterruptFollowsDone, IdleMachineWaits: an idle and a
busy state; the skip code at and past its range, the region at and past the top of the address space. -/
theorem witness_idle_commands :
    (idleWith 0xFFFF 0 readerB1).phase = .idle ∧ (datAt .datItem).phase ≠ .idle ∧
      0xFFFF < (idleWith 0x10000 0 readerB1).arg0.toNat ∧ (idleWith 0xFFFF 0 readerB1).arg0.toNat ≤ 0xFFFF ∧
      2 ^ 32 < ({ idleWith 0xFFFF 0 readerB1 with inBase := 0xFFFFFFFC, inLen := 5 } : State).inBase.toNat +
        ({ idleWith 0xFFFF 0 readerB1 with inBase := 0xFFFFFFFC, inLen := 5 } : State).inLen.toNat ∧
      ({ idleWith 0xFFFF 0 readerB1 with inBase := 0xFFFFFFFC, inLen := 4 } : State).inBase.toNat +
        ({ idleWith 0xFFFF 0 readerB1 with inBase := 0xFFFFFFFC, inLen := 4 } : State).inLen.toNat ≤ 2 ^ 32 ∧
      (base.bus = [] ∧ (encode .symLen0).1 ≠ .command) := by decide

/-- PeekAndReadCommands, DropAndTakeCommands: k = 32 with 28 and with 32 valid bits, k = 33. -/
theorem witness_reader_commands :
    (idleWith 32 0 readerB5).phase = .idle ∧ (idleWith 32 0 readerB5).reader.Good ∧
      (idleWith 32 0 readerB5).reader.bits < (idleWith 32 0 readerB5).arg0.toNat ∧
      (idleWith 32 0 readerB1).arg0.toNat ≤ (idleWith 32 0 readerB1).reader.bits ∧
      (idleWith 32 0 readerB1).arg0 = 32 ∧ 32 < (idleWith 33 0 readerB1).arg0.toNat :=
  ⟨rfl, witness_readers_good.2, by decide, by decide, rfl, by decide⟩

/-- PullSkipsAndLoadsWords, MergeIsTwoWordForm, AlignReachesWordBoundary: 31 valid bits with a word left, under a policy that
skips the next of two words. -/
theorem witness_pull :
    let r : Reader := { readerB1 with bits := 31, win := 0x8000000000000000, remaining := 8, skip := .everyNth 2 }
    r.win <<< r.bits = 0 ∧ r.bits < 32 ∧ skipApplies r.skip r.cursor.toNat = true ∧ 4 ≤ r.remaining.toNat ∧
      4 ≤ (r.remaining - 4).toNat ∧ (readerB1.remaining - 4).toNat < 4 := by decide

/-- 20_memory.md R104: the bytes `78 56 34 12` are the word 0x12345678. -/
theorem test_little_endian_word : memRead inputBytes 0x1000 4 = 0x12345678 ∧ inputBytes.readWord 0x1000 = 0x12345678 := by
  decide

/-- TakeIsSequential: 4 and 28 bits of V-B1. -/
theorem witness_take :
    readerB1.Good ∧ 4 + 28 ≤ readerB1.bits ∧
      Reader.take inputBytes readerB1 4 =
        .ok (0x1, { readerB1 with cursor := 8, remaining := 0, win := 0x23456789ABCDEF00, bits := 60 }) ∧
      Reader.take inputBytes { readerB1 with cursor := 8, remaining := 0, win := 0x23456789ABCDEF00, bits := 60 } 28 =
        .ok (0x2345678, { readerB1 with cursor := 8, remaining := 0, win := 0x9ABCDEF000000000, bits := 32 }) :=
  ⟨witness_readers_good.1, by decide, by decide, by decide⟩

/-- BuilderCommands: the last symbol and length, and those past them. -/
theorem witness_builder :
    (idleWith 284 31 readerB1).phase = .idle ∧ (idleWith 284 31 readerB1).builder.lists.length = 31 ∧
      (idleWith 284 31 readerB1).arg0.toNat ≤ 284 ∧ (idleWith 284 31 readerB1).arg1.toNat ≤ 31 ∧
      (idleWith 284 31 readerB1).builder.present (BitVec.ofNat 16 (idleWith 284 31 readerB1).arg0.toNat) = false ∧
      284 < (idleWith 285 1 readerB1).arg0.toNat ∧ (idleWith 0 0 readerB1).arg1.toNat < 1 ∧
      31 < (idleWith 0 32 readerB1).arg1.toNat := by decide

/-- HbBuildReplacesTree: a build that stops and one that does not. -/
theorem witness_hb_build :
    build (builderOf [(1, 1), (2, 1), (3, 1)]) = .error .oversubscribed ∧
      build builderH1 = .ok (treeOrEmpty (build builderH1)) ∧ 1 < (idleWith 2 0 readerB1).arg0.toNat := by
  decide +kernel

/-- BuildStopsIffKraftFails, BuildAssignsCanonicalCodes, EveryCodeDecodesToItsSymbol, OnlyCodesDecode: a builder whose tree
has the code `01` of 0x42, and a window that starts with it. -/
theorem witness_build :
    builderH1.Good ∧ build builderH1 = .ok (treeOrEmpty (build builderH1)) ∧
      (treeOrEmpty (build builderH1)).codes = [⟨0x41, 1, 1⟩] ++ ⟨0x42, 1, 2⟩ :: ⟨0x43, 0, 2⟩ :: [] ∧
      (⟨0x42, 1, 2⟩ : CodeEntry) ∈ (treeOrEmpty (build builderH1)).codes ∧
      (0x7FFFFFFF : Word).toNat / 2 ^ (32 - 2) = (1 : Word).toNat ∧
      (treeOrEmpty (build builderH1)).resolve ((0x7FFFFFFF : Word).toNat / 2 ^ 24) 0x7FFFFFFF = some (0x42, 2) :=
  ⟨⟨by decide +kernel, by decide +kernel⟩, by decide +kernel, by decide +kernel, by decide +kernel, by decide, by decide +kernel⟩

/-- HtDecodeReadsSymbol, HtCodeReturnsCode: the last tree id and one past it; a symbol, bits of no code, a code longer than
the valid bits; a symbol held and one not held. -/
theorem witness_ht :
    (idleWith 3 0x11 readerB1).phase = .idle ∧ 3 < (idleWith 4 0 readerB1).arg0.toNat ∧
      windowSymbol ((idleWith 3 0 readerB1).treeOf 3) readerB1 = some (6, 6) ∧
      windowSymbol ((idleWith 0 0 readerB1).treeOf 0) readerB1 = none ∧ resetReader.bits < 6 ∧
      windowSymbol ((idleWith 3 0 resetReader).treeOf 3) resetReader = some (2, 6) ∧
      ((idleWith 3 0x12 readerB1).treeOf 3).codes =
        [⟨1, 1, 1⟩] ++ ⟨0x12, 1, 2⟩ :: ((idleWith 3 0x12 readerB1).treeOf 3).codes.drop 2 ∧
      (∀ c ∈ ((idleWith 3 0 readerB1).treeOf 3).codes, c.symbol ≠ BitVec.ofNat 16 (idleWith 3 0 readerB1).arg1.toNat) ∧
      0xFFFF < (idleWith 0 0x10000 readerB1).arg1.toNat := by decide +kernel

/-- TexFormatComputesRecord, FourccOpensTexture: a recognised and an unrecognised FourCC; an output region one byte short
and one just large enough; a capacity below and at the number of blocks. -/
theorem witness_formats :
    (⟨.fourccDxt5, 0x35545844, 0x0B0, 8, 16, true, 8⟩ : FormatRow) ∈ formatRows ∧
      (∀ f ∈ formatRows, (0x31545845 : Word) ≠ f.fourcc) ∧
      (texAt .texFourcc .white).phase = .texFourcc ∧ (texAt .texFourcc .white).touched = false ∧
      (31 : Word).toNat < 16 * blockCount 8 4 ∧ 16 * blockCount 8 4 ≤ (texAt .texFourcc .white).outLen.toNat ∧
      1 < blockCount 8 4 ∧ blockCount 8 4 ≤ 2 := by decide

/-- InflateDatChecksAndStarts, InflateTextureStarts: regions that fail each check, the first four passed in turn, and
regions that fit, adjacent and ending at the top of the address space. -/
theorem witness_regions :
    (base.inLen = 0 ∧ (idleWith 0 0 readerB1).inLen ≠ 0 ∧ ({ idleWith 0 0 readerB1 with outLen := 0 } : State).outLen = 0) ∧
      2 ^ 32 < ((0xFFFFFFF0 : Word).toNat + (0x20 : Word).toNat) ∧ 2 ^ 32 < ((0xFFFFFFFF : Word).toNat + (2 : Word).toNat) ∧
      (∃ a, ({ base with inBase := 0x1000, inLen := 16, outBase := 0x100F, outLen := 1 } : State).inputHolds a ∧
        ({ base with inBase := 0x1000, inLen := 16, outBase := 0x100F, outLen := 1 } : State).outputHolds a) ∧
      ({ base with inBase := 0xFFFFFFE0, inLen := 16, outBase := 0xFFFFFFF0, outLen := 16 } : State).regionsFit := by
  refine ⟨by decide, by decide, by decide, ⟨0x100F, And.intro (by decide) (by decide), And.intro (by decide) (by decide)⟩, by decide, by decide, by decide, by decide, ?_⟩
  rintro a ⟨h, k⟩
  exact absurd (lt_of_lt_of_le h.2 k.1) (lt_irrefl _)

/-- DatHeaderAndMaxCount, NSymbolsStartsDescriptor, LengthCodesSetLength: the places of a dat job, undisturbed, output left;
n_symbols at 285 and 286; 5 extra bits with 5 and with 4 valid. -/
theorem witness_dat_places :
    (datAt .datHeader).dat.outPos < (datAt .datHeader).outLen.toNat ∧ (datAt .datHeader).phase = .datHeader ∧
      (datAt .datMaxCount).phase = .datMaxCount ∧ (datAt (.datNSymbols .copy)).phase = .datNSymbols .copy ∧
      (datAt (.datNSymbols .copy)).touched = false ∧ (datAt (.datNSymbols .copy)).builder = emptyBuilder ∧
      285 < (286 : BitVec 16).toNat ∧ (285 : BitVec 16).toNat ≤ 285 ∧ (Instr.symLen24, 128, 5) ∈ lengthTable ∧
      ({ readerB5 with bits := 4 } : Reader).bits < 5 ∧ ({ readerB5 with bits := 5 } : Reader).bits = 5 ∧
      (datAt .datItem).phase = .datItem := by decide

/-- DescriptorEntries, DistanceCodesCopyBack: an add that ends at index 0 and one that passes it; a distance that reaches
the first byte written and one before it. -/
theorem witness_dat_boundaries :
    (3 : BitVec 3).toNat ≤ (datAt (.datDescriptor .sym)).dat.remaining.toNat ∧
      (datAt (.datDescriptor .sym)).dat.remaining.toNat < (4 : BitVec 3).toNat ∧
      (Instr.copyDist3, 3, 0) ∈ distanceTable ∧ 3 + firstBits readerB1 0 + 1 ≤ (datAt .datDistance).dat.outPos ∧
      (Instr.copyDist4, 4, 1) ∈ distanceTable ∧ (datAt .datDistance).dat.outPos < 4 + firstBits readerB1 1 + 1 ∧
      1 ≤ readerB1.bits := by decide

/-- FlagsAndCountCodes, PassStartsSetPattern: a count place, and the widest nibble. -/
theorem witness_tex_places :
    (texAt .texCount .white).phase = .texCount ∧ (Instr.texCount18, 18) ∈ countTable ∧ (15 : Byte).toNat < 16 ∧
      (texAt .texRun (.alpha 0xAA)).tex.pass = .alpha 0xAA ∧ (texAt .texRun (.plain 5)).tex.pass = .plain 5 := by decide

/-- StepRunsCommand, RegisterWrites, NopAndIllegalWords: reset is not asserted in the test states. StepRunsCommand,
ResetRestoresState: a command and a reset due while idle, and while a job runs. -/
theorem witness_due :
    ({ base with bus := [⟨3, .write 0x08 4 0x24⟩] } : State).phase = .idle ∧ base.inReset = false ∧
      ({ datAt .datItem with bus := [⟨0, .reset true⟩] } : State).bus = [⟨0, .reset true⟩] ∧
      ({ datAt .datItem with bus := [⟨0, .reset true⟩] } : State).phase ≠ .idle ∧ (⟨0, .reset true⟩ : HostEvent).wait = 0 := by
  decide

/-- ResetRestoresState: the state of a running job with a reset due meets the invariant. -/
theorem witness_reset_inv : State.Inv { datAt .datItem with bus := [⟨0, .reset true⟩] } := bus_inv witness_dat_inv.1.2.1 _

/-- StepRunsField, StepRunsHeadersAndSelectors, StepStopsAtShortStream: a transaction one step away, a field just held by
the window and one a bit too long, both fields of a header, the flags with bit 1 the lowest, a FourCC known and unknown. -/
theorem witness_fields :
    ({ datAt .datMaxCount with bus := [⟨1, .reset true⟩] } : State).hostWaits [⟨0, .reset true⟩] ∧
      (datAt .datMaxCount).fieldPlace = some (.maxCount, 4) ∧ 4 ≤ (datAt .datMaxCount).reader.bits ∧
      decode .maxCount (firstBits readerB1 4) = .ok (.datMaxCount 1) ∧ ({ readerB5 with bits := 3 } : Reader).bits < 4 ∧
      4 ≤ (afterDrop inputBytes readerB1 4).bits ∧ 32 ≤ (afterDrop inputBytes readerB1 32).bits ∧
      (texAt .texFlag .white).tex.pending.getLsbD 1 = true ∧ (texAt .texFlag .white).tex.pending.getLsbD 0 = false ∧
      (texAt .texFourcc .white).texFourcc = 0x35545844 :=
  ⟨.inr ⟨_, _, rfl, by decide, rfl⟩, by decide, by decide, by decide, by decide, by decide, by decide, by decide, by decide,
    rfl⟩

/-- StepRunsSymbol, StepStopsAtShortStream: a code of TEX_DICT in the window, one longer than the valid bits, and bits of no
code. -/
theorem witness_symbols :
    (texAt .texCount .white).symbolPlace = some (.texCount, texDict) ∧ windowSymbol texDict readerB1 = some (6, 6) ∧
      6 ≤ readerB1.bits ∧ decode .texCount (6 : Symbol).toNat = .ok .texCount6 ∧
      windowSymbol texDict resetReader = some (2, 6) ∧ resetReader.bits < 6 ∧
      (datAt .datItem).symbolPlace = some (.symSymbol, emptyTree) ∧ windowSymbol emptyTree readerB1 = none := by
  decide +kernel

/-- RegisterReads, RegisterWrites, OtherAccessesAreRefused: the last offset of the window, and accesses past it, misaligned,
and of another width. -/
theorem witness_registers :
    ((0xFC : Nat) < 256 ∧ 0xFC % 4 = 0) ∧ ¬((4 : Nat) = 4 ∧ 0x100 % 4 = 0 ∧ (0x100 : Nat) < 256) ∧
      ¬((4 : Nat) = 4 ∧ 0x02 % 4 = 0 ∧ (0x02 : Nat) < 256) ∧ ¬((2 : Nat) = 4 ∧ 0x08 % 4 = 0 ∧ (0x08 : Nat) < 256) := by
  decide

/-- RegisterReads: the most valid bits a window shows, one code of each policy. -/
theorem witness_reader_views :
    ({ readerB1 with bits := 63 } : Reader).bits ≤ 63 ∧ readerB1.skip = .noSkip ∧
      ({ readerB1 with skip := .everyNth 0xFFFE } : Reader).skip = .everyNth 0xFFFE ∧
      ({ readerB1 with skip := .every64K } : Reader).skip = .every64K := by decide

/-- StepStopsAtShortStream: at each place of two fields, the first too long, and the first just held with the second one
bit too long. -/
theorem witness_short_pairs :
    ((datAt .datHeader).phase = .datHeader ∧ ({ readerB5 with bits := 3 } : Reader).bits < 4 ∧
      4 ≤ ({ readerB5 with bits := 7 } : Reader).bits ∧
      (afterDrop inputBytes { readerB5 with bits := 7 } 4).bits < 4) ∧
      ((texAt .texHeader .white).phase = .texHeader ∧ ({ readerB5 with bits := 31 } : Reader).bits < 32 ∧
        32 ≤ ({ readerB1 with remaining := 0, bits := 63 } : Reader).bits ∧
        (afterDrop inputBytes { readerB1 with remaining := 0, bits := 63 } 32).bits < 32) ∧
      (texAt .texRun (.alpha 0xAA)).tex.pass = .alpha 0xAA ∧ resetReader.bits < 1 ∧
      1 ≤ ({ readerB5 with bits := 1 } : Reader).bits ∧
      (afterDrop inputBytes { readerB5 with bits := 1 } 1).bits < 1 := by decide

/-- ResetRestoresState: a state held in reset meets the invariant, and so does one with the release due. -/
theorem witness_held_inv :
    held.Inv ∧ held.inReset = true ∧ State.Inv { held with bus := [⟨0, .reset false⟩] } :=
  ⟨bus_inv (assertReset_inv witness_idle_base_inv) _, rfl, bus_inv (assertReset_inv witness_idle_base_inv) _⟩

/-- InterruptFollowsDone: a running job with DONE = 0, an element that ends it and one that does not. -/
theorem witness_interrupt :
    ((datAt .datDistance).phase ≠ .idle ∧ (datAt .datDistance).status.done = false ∧ (datAt .datDistance).inReset = false) ∧
      shown (exec (.copyInvalid 34) { datAt .datDistance with ie := true }) (fun t => (t.irq, t.phase)) =
        some (true, .idle) ∧
      shown (exec .copyDist0 { datAt .datDistance with ie := true }) (fun t => (t.irq, t.phase)) =
        some (false, .datItem) := by decide +kernel

/-- WindowStandsAtRegBase: the last offset of the window, an access that runs into it from below, the address behind it. -/
theorem witness_window :
    (0x400000FC : Word) = baseAt.regBase + BitVec.ofNat 32 0xFC ∧
      (256 ≤ ((0x3FFFFFFE : Word) - baseAt.regBase).toNat ∧ 2 < 4 ∧ (0x3FFFFFFE : Word) + BitVec.ofNat 32 2 = baseAt.regBase) ∧
      ∀ j < 4, 256 ≤ ((0x40000100 : Word) + BitVec.ofNat 32 j - baseAt.regBase).toNat := by decide

/-- InstructionsKeepArguments, ResultsAndCodes, OtherInstructionsStoreNothing: an instruction that stores nothing and
answers a next state; one that writes RESULT0. -/
theorem witness_next :
    shown (exec (.datMaxCount 0) (datAt .datMaxCount)) (fun t => (t.touched, t.status.err)) = some (false, 0) ∧
      shown (exec .brPeek (idleWith 8 0 readerB1)) (fun t => decide (t.result0 ≠ (idleWith 8 0 readerB1).result0)) =
        some true := by decide

/-- DecodeReadsEncoding, EncodingReadsDecoded: a well-formed instruction, and a value of a place that decodes. -/
theorem witness_encoding :
    (Instr.copyInvalid 284).wf = true ∧ (284 : Nat) < 2 ^ ElemKind.copySymbol.width ∧
      decode .copySymbol 284 = .ok (.copyInvalid 284) := by decide

/-- DisturbedJobStillCompletes: the last byte of each region of a running job and the byte behind it, and a held write with
none after it at its address. -/
theorem witness_host_memory :
    (datAt .datItem).Inv ∧ (datAt .datItem).phase ≠ .idle ∧ (datAt .datItem).outputHolds 0x201F ∧
      (¬(datAt .datItem).outputHolds 0x2020 ∧ ¬(datAt .datItem).inputHolds 0x2020) ∧
      (¬(datAt .datItem).outputHolds 0x1007 ∧ (datAt .datItem).inputHolds 0x1007) ∧
      ¬(datAt .datItem).inputHolds 0x1008 ∧
      ([(0x1000, 4), (0x1000, 5)] : List (Word × Byte)) = [(0x1000, 4)] ++ (0x1000, 5) :: [] := by
  refine ⟨witness_dat_inv.1.2.1, by decide, ?_, ⟨?_, ?_⟩, ⟨?_, ?_⟩, ?_, rfl⟩ <;>
    (simp only [State.outputHolds, State.inputHolds]; decide)

/-- 70_reset_and_hazards.md R620: a write behind the output region lands, one inside it disturbs the job. -/
theorem test_host_memory :
    shown (hostStep (.memWrite 0x2020 7) (datAt .datItem)) (fun t => (t.mem.read 0x2020, t.touched)) = some (7, false) ∧
      shown (hostStep (.memWrite 0x201F 7) (datAt .datItem)) (fun t => (t.mem.read 0x201F, t.touched)) = some (0, true) := by
  decide

/-- DisturbedJobStillCompletes: a disturbed job that meets the invariant, with a held write. -/
theorem witness_disturbed :
    State.Inv { datAt .datItem with touched := true, held := [(0x1000, 5)] } ∧
      ({ datAt .datItem with touched := true, held := [(0x1000, 5)] } : State).touched = true :=
  ⟨running_inv ⟨rfl, rfl, witness_readers_good.1, emptyTree_good _, emptyTree_good _, testDict_good,
    emptyBuilder_good, fun h => absurd h (by decide), rfl⟩ (by decide) (by decide) (And.intro (by decide) (by decide)), rfl⟩

end Sys2Proof.Machine.Tests
end

section
/-! PROOFS. A field taken in two parts (00_scope.md R16, 20_memory.md R107, 40_bitreader.md R207). The idea: a PULL only
writes behind the valid bits, so it commutes with a shift and leaves the next bits as they are. -/

namespace Sys2Proof.Machine

/-! ### Shifts and PULL -/

theorem shiftOut_shiftOut (r : Reader) (k j : Nat) : (r.shiftOut k).shiftOut j = r.shiftOut (k + j) := by
  simp [Reader.shiftOut, BitVec.shiftLeft_add, Nat.sub_sub]

theorem skipWord_shiftOut (r : Reader) (j : Nat) : (r.shiftOut j).skipWord = r.skipWord.shiftOut j := by
  simp only [Reader.skipWord, shiftOut_skip, shiftOut_cursor, shiftOut_remaining]
  rw [apply_ite (Reader.shiftOut · j)]
  rfl

/-- Where no whole word remains a PULL neither skips nor loads (40_bitreader.md R209). -/
theorem pull_of_no_word (m : Memory) {r : Reader} (h : r.remaining.toNat < 4) : r.pull m = r := by
  have hskip : r.skipWord = r := by
    rcases skipWord_cases r with e | ⟨h4, _, _⟩
    · exact e
    · omega
  rw [Reader.pull, hskip, Reader.loadWord, if_pos h]

/-- The merged word moves with the valid bits in front of it (40_bitreader.md R203). -/
theorem merge_shiftOut {r : Reader} {j : Nat} (v : Word) (hj : j ≤ r.bits) (hn : r.bits ≤ 32) :
    (r.shiftOut j).merge v = (r.merge v).shiftOut j := by
  have hplace : 32 - (r.bits - j) = 32 - r.bits + j := by omega
  have hbits : r.bits - j + 32 = r.bits + 32 - j := by omega
  simp only [Reader.merge, Reader.shiftOut, hplace, hbits, BitVec.shiftLeft_add, BitVec.shiftLeft_or_distrib]

theorem pull_shiftOut (m : Memory) {r : Reader} {j : Nat} (hj : j ≤ r.bits) (hn : r.bits ≤ 32) :
    (r.shiftOut j).pull m = (r.pull m).shiftOut j := by
  simp only [Reader.pull, Reader.loadWord, skipWord_shiftOut, shiftOut_remaining, shiftOut_start, shiftOut_cursor]
  split
  · rfl
  · exact merge_shiftOut (r := r.skipWord.stepOver) _ (by simpa using hj) (by simpa using hn)

/-- A DROP that leaves fewer than 32 valid bits pulls (40_bitreader.md R205). -/
theorem drop_of_lt (m : Memory) {r : Reader} {k : Nat} (hk : k ≤ r.bits) (hn : r.bits - k < 32) :
    Reader.drop m r k = .ok ((r.shiftOut k).pull m) := by
  rw [Reader.drop, if_neg (by omega), if_pos hn]

/-- A DROP that leaves 32 valid bits does not pull (40_bitreader.md R205). -/
theorem drop_of_le (m : Memory) {r : Reader} {k : Nat} (hn : 32 ≤ r.bits - k) :
    Reader.drop m r k = .ok (r.shiftOut k) := by
  rw [Reader.drop, if_neg (by omega), if_neg (by omega)]

/-- A DROP behind a PULL is a PULL behind both shifts: where the first PULL loaded a word the second is not made, where it
found none the second finds none. -/
theorem drop_pull (m : Memory) {r : Reader} {j : Nat} (hj : j ≤ r.bits) (hn : r.bits < 32) :
    Reader.drop m (r.pull m) j = .ok ((r.shiftOut j).pull m) := by
  rw [pull_shiftOut m hj (by omega)]
  obtain ⟨_, rfl, ⟨hrem, e⟩ | ⟨_, e⟩⟩ := pull_cases m r
  · rw [e, drop_of_lt m (by simpa using hj) (by simp; omega), pull_of_no_word m (by simpa using hrem)]
  · rw [e, drop_of_le m (by simp; omega)]

/-- Valid bits dropped in two parts are dropped whole, the place of the PULL aside. -/
theorem drop_drop {m : Memory} {r r₁ : Reader} {k j : Nat} (hkj : k + j ≤ r.bits) (e : Reader.drop m r k = .ok r₁) :
    Reader.drop m r₁ j = Reader.drop m r (k + j) := by
  rcases drop_cases m r k with ⟨_, e'⟩ | ⟨_, hn, e'⟩ | ⟨_, _, e'⟩
  · omega
  · rw [e'] at e; cases e
    rw [drop_pull m (by simp; omega) (by simpa using hn), shiftOut_shiftOut, drop_of_lt m hkj (by omega)]
  · rw [e'] at e; cases e
    have hfirst : ¬ r.bits - k < j := by omega
    have hwhole : ¬ r.bits < k + j := by omega
    simp only [Reader.drop, shiftOut_shiftOut, shiftOut_bits, Nat.sub_sub, if_neg hfirst, if_neg hwhole]

/-! ### The value of a field -/

theorem peek_toNat (r : Reader) {k : Nat} (hk : k ≤ 32) : (r.peek k).toNat = firstBits r k := by
  have hlt : r.win.toNat / 2 ^ (64 - k) < 2 ^ 32 := by
    rw [Nat.div_lt_iff_lt_mul (Nat.two_pow_pos _), ← pow_add]
    exact r.win.isLt.trans_le (Nat.pow_le_pow_right (by decide) (by omega))
  rw [Reader.peek, BitVec.toNat_setWidth, BitVec.toNat_ushiftRight, Nat.shiftRight_eq_div_pow,
    Nat.mod_eq_of_lt hlt, firstBits]

/-- The first-read bits are the high ones (00_scope.md R16). -/
theorem firstBits_add (r : Reader) {k j : Nat} (h : k + j ≤ 64) :
    firstBits r (k + j) = firstBits r k * 2 ^ j + firstBits (r.shiftOut k) j := by
  have hhigh : 2 ^ (64 - k) = 2 ^ (64 - (k + j)) * 2 ^ j := by rw [← pow_add]; congr 1; omega
  have hlow : 2 ^ (64 - j) = 2 ^ (64 - (k + j)) * 2 ^ k := by rw [← pow_add]; congr 1; omega
  have hall : 2 ^ 64 = 2 ^ (64 - k) * 2 ^ k := by rw [← pow_add]; congr 1; omega
  have hnext : firstBits (r.shiftOut k) j = firstBits r (k + j) % 2 ^ j := by
    simp only [firstBits, shiftOut_win, BitVec.toNat_shiftLeft, Nat.shiftLeft_eq]
    rw [hall, Nat.mul_mod_mul_right, hlow, Nat.mul_div_mul_right _ _ (Nat.two_pow_pos k), hhigh,
      Nat.mod_mul_right_div_self]
  rw [hnext, firstBits, firstBits, hhigh, ← Nat.div_div_eq_div_mul, Nat.div_add_mod']

/-- The merged word lies behind the valid bits. -/
theorem firstBits_merge {r : Reader} {j : Nat} (v : Word) (hj : j ≤ r.bits) (hn : r.bits ≤ 32) :
    firstBits (r.merge v) j = firstBits r j := by
  have hbehind : (v.setWidth 64 <<< (32 - r.bits)).toNat / 2 ^ (64 - j) = 0 := by
    have hsplit : 2 ^ (64 - r.bits) = 2 ^ 32 * 2 ^ (32 - r.bits) := by rw [← pow_add]; congr 1; omega
    rw [BitVec.toNat_shiftLeft, BitVec.toNat_setWidth_of_le (by decide), Nat.shiftLeft_eq]
    refine Nat.div_eq_of_lt ((Nat.mod_le _ _).trans_lt (lt_of_lt_of_le ?_
      (Nat.pow_le_pow_right (n := 2) (by decide) (show 64 - r.bits ≤ 64 - j by omega))))
    rw [hsplit]
    exact Nat.mul_lt_mul_of_pos_right v.isLt (Nat.two_pow_pos _)
  rw [firstBits, merge_win, BitVec.toNat_or, Nat.or_div_two_pow, hbehind, Nat.or_zero, firstBits]

theorem firstBits_pull (m : Memory) {r : Reader} {j : Nat} (hj : j ≤ r.bits) (hn : r.bits ≤ 32) :
    firstBits (r.pull m) j = firstBits r j := by
  obtain ⟨_, rfl, ⟨_, e⟩ | ⟨_, e⟩⟩ := pull_cases m r
  · rw [e, firstBits, skipWord_win, firstBits]
  · rw [e, firstBits_merge _ (by simpa using hj) (by simpa using hn), firstBits, stepOver_win, skipWord_win, firstBits]

theorem firstBits_drop {m : Memory} {r r₁ : Reader} {k j : Nat} (hkj : k + j ≤ r.bits)
    (e : Reader.drop m r k = .ok r₁) : firstBits r₁ j = firstBits (r.shiftOut k) j := by
  rcases drop_cases m r k with ⟨_, e'⟩ | ⟨_, hn, e'⟩ | ⟨_, _, e'⟩
  · rw [e'] at e; cases e
  · rw [e'] at e; cases e
    exact firstBits_pull m (by simp; omega) (by simp; omega)
  · rw [e'] at e; cases e; rfl

/-! ### TAKE -/

/-- A TAKE that answers gives PEEK's value and DROP's reader (40_bitreader.md R207). -/
theorem take_eq_ok_iff {m : Memory} {r r' : Reader} {k : Nat} {v : Word} :
    Reader.take m r k = .ok (v, r') ↔ v = r.peek k ∧ Reader.drop m r k = .ok r' := by
  rcases take_cases m r k with ⟨hn, e⟩ | ⟨_, r'', hd, e⟩
  · have hd : Reader.drop m r k = .error .exhausted := by rw [Reader.drop, if_pos hn]
    simp [e, hd]
  · simp [e, hd, eq_comm]

/-- Settles O8: the readers agree by `drop_drop`, the values by `firstBits_add`. -/
theorem takeIsSequential : Obligations.TakeIsSequential := by
  intro m r r₁ r₂ k j v w _ hle hbits hfirst hsecond
  obtain ⟨rfl, hdrop₁⟩ := take_eq_ok_iff.mp hfirst
  obtain ⟨rfl, hdrop₂⟩ := take_eq_ok_iff.mp hsecond
  refine take_eq_ok_iff.mpr ⟨?_, drop_drop hbits hdrop₁ ▸ hdrop₂⟩
  have hvalue : (r.peek (k + j)).toNat = (r.peek k).toNat * 2 ^ j + (r₁.peek j).toNat := by
    rw [peek_toNat r hle, peek_toNat r (by omega), peek_toNat r₁ (by omega), firstBits_add r (by omega),
      firstBits_drop hbits hdrop₁]
  rw [← hvalue, BitVec.ofNat_toNat, BitVec.setWidth_eq]

end Sys2Proof.Machine
end

section
/-! PROOFS. The register window refuses what is no aligned 32-bit access (10_state.md R30, U18), and every step keeps the
invariant: a step is nothing, one element of the running job or one transaction of the host, and each keeps it. -/

namespace Sys2Proof.Machine

/-! ### The register window -/

theorem accessOk_iff {offset bytes : Nat} : accessOk offset bytes = true ↔ bytes = 4 ∧ offset % 4 = 0 ∧ offset < 256 := by
  simp [accessOk, and_assoc]

/-- An access the window does not take is refused by name (10_state.md R30). -/
theorem window_refuses {offset bytes : Nat} (h : ¬(bytes = 4 ∧ offset % 4 = 0 ∧ offset < 256)) (v : Word) (s : State) :
    s.windowWrite offset bytes v = .refused (.registerAccess offset bytes) ∧
      s.windowRead offset bytes = .refused (.registerAccess offset bytes) := by
  rw [← accessOk_iff] at h
  exact ⟨if_neg h, if_neg h⟩

/-- A command word never faults and is never refused, whatever state the core is in (45_control.md R470, R471). -/
theorem exec_decodeCommand_next (v : Word) (s : State) : ∃ t, exec (decodeCommand v) s = .next t := by
  obtain ⟨run, hrun⟩ := exec_decodeCommand v
  rw [hrun]
  by_cases hp : s.phase = .idle
  · exact ⟨_, command_idle hp v run⟩
  · exact ⟨_, command_busy hp v run⟩

/-- A write the window takes answers a next state, at CMD by running a command. -/
theorem hostWrite_next (offset : Nat) (v : Word) (s : State) : ∃ t, s.hostWrite offset v = .next t := by
  unfold State.hostWrite
  split
  · exact ⟨_, rfl⟩
  · split
    · exact exec_decodeCommand_next v s
    · exact ⟨_, rfl⟩

/-- Settles O44: `window_refuses` outside the window's contract, `hostWrite_next` inside. -/
theorem otherAccessesAreRefused : Obligations.OtherAccessesAreRefused := by
  intro s offset bytes v
  refine ⟨fun h => window_refuses (by omega) v s, fun h => ?_⟩
  have hok := accessOk_iff.mpr h
  obtain ⟨t, ht⟩ := hostWrite_next offset v s
  exact ⟨⟨s.hostRead offset, if_pos hok⟩, t, (if_pos hok).trans ht⟩

/-! ### One step -/

theorem step_asleep {s : State} (hp : s.phase = .idle) (hb : s.bus = []) : step s = .next s := by
  simp [step, advance, hb, busy_eq_false.mpr hp]

/-- A due transaction is the step (log entry 2). -/
theorem step_hostDue {s : State} {e : HostEvent} {rest : List HostEvent} (hb : s.bus = e :: rest)
    (hd : s.phase = .idle ∨ e.wait = 0) : step s = hostStep e.op { s with bus := rest } := by
  have hn : ¬(s.busy = true ∧ 0 < e.wait) := by
    rw [busy_eq_true]
    rcases hd with hp | hw
    · exact fun h => h.1 hp
    · omega
  simp [step, advance, hb, hn]

/-- A running job goes on while no transaction is due (log entry 2). -/
theorem step_hostWaits {s : State} {b : List HostEvent} (hp : s.phase ≠ .idle) (hw : s.hostWaits b) :
    step s = coreStep { s with bus := b } := by
  have hbusy := busy_eq_true.mpr hp
  rcases hw with ⟨hb, rfl⟩ | ⟨e, rest, hb, hwait, rfl⟩
  · have hs : { s with bus := [] } = s := by rw [← hb]
    simp [step, advance, hb, hbusy, hs]
  · simp [step, advance, hb, hbusy, hwait]

/-- What a step can be (log entries 1 to 3): nothing, an element of the running job, or a due transaction. -/
theorem step_cases (s : State) :
    (s.phase = .idle ∧ s.bus = [] ∧ step s = .next s) ∨
      (∃ b, s.phase ≠ .idle ∧ s.hostWaits b ∧ step s = coreStep { s with bus := b }) ∨
      ∃ e rest, s.bus = e :: rest ∧ (s.phase = .idle ∨ e.wait = 0) ∧ step s = hostStep e.op { s with bus := rest } := by
  rcases hb : s.bus with _ | ⟨e, rest⟩
  · by_cases hp : s.phase = .idle
    · exact .inl ⟨hp, rfl, step_asleep hp hb⟩
    · have hw : s.hostWaits [] := .inl ⟨hb, rfl⟩
      exact .inr (.inl ⟨_, hp, hw, step_hostWaits hp hw⟩)
  · by_cases hd : s.phase = .idle ∨ e.wait = 0
    · exact .inr (.inr ⟨e, rest, rfl, hd, step_hostDue hb hd⟩)
    · obtain ⟨hp, hwait⟩ := not_or.mp hd
      have hw : s.hostWaits ({ e with wait := e.wait - 1 } :: rest) := .inr ⟨e, rest, hb, Nat.pos_of_ne_zero hwait, rfl⟩
      exact .inr (.inl ⟨_, hp, hw, step_hostWaits hp hw⟩)

/-- Settles O53: an element keeps the invariant by `coreStep_inv`, a transaction by `hostStep_inv`. -/
theorem stepKeepsInvariant : Obligations.StepKeepsInvariant := by
  intro s t h e
  rcases step_cases s with ⟨_, _, k⟩ | ⟨b, hp, _, k⟩ | ⟨event, rest, _, _, k⟩ <;> rw [k] at e
  · cases e; exact h
  · exact coreStep_inv (bus_inv h b) hp e
  · exact hostStep_inv (bus_inv h rest) event.op e

end Sys2Proof.Machine
end

section
/-! PROOFS. What an element of a running job can do: it goes on with the job, or ends it with one code. Everything the job
does not work on stays, the result registers among it, so only the commands whose rules write RESULT0 and RESULT1 change
them (10_state.md R35, R45, R46). -/

namespace Sys2Proof.Machine

/-! ### The frame of a running job -/

/-- `t` is `s` but for what the elements of a job work on: memory, the views of the stream headers, the reader, the builder,
SYM and COPY, the job's place and transient state, the format record. -/
def JobOnly (s t : State) : Prop :=
  t = { s with
    texCflags := t.texCflags
    texDsize := t.texDsize
    datHdr := t.datHdr
    reader := t.reader
    sym := t.sym
    copy := t.copy
    builder := t.builder
    phase := t.phase
    dat := t.dat
    tex := t.tex
    fmt := t.fmt
    mem := t.mem }

theorem JobOnly.trans {s t u : State} (h : JobOnly s t) (k : JobOnly t u) : JobOnly s u := by
  unfold JobOnly at *
  rw [k, h]

theorem JobOnly.status {s t : State} (h : JobOnly s t) : t.status = s.status := by rw [h]
theorem JobOnly.result0 {s t : State} (h : JobOnly s t) : t.result0 = s.result0 := by rw [h]
theorem JobOnly.result1 {s t : State} (h : JobOnly s t) : t.result1 = s.result1 := by rw [h]
theorem JobOnly.touched {s t : State} (h : JobOnly s t) : t.touched = s.touched := by rw [h]

theorem setTree_jobOnly (s : State) (which : DatTree) (t : Tree) : JobOnly s (s.setTree which t) := by
  cases which <;> rfl

theorem BlocksOnly.jobOnly {s t : State} (h : BlocksOnly s t) : JobOnly s t := by
  have e := h.rest
  unfold JobOnly
  rw [e]

/-- What an element of a job can do: the job goes on, or it ends with at most one of ERR and STOP (10_state.md R35). -/
inductive JobStep (s : State) : State → Prop
  | goesOn {t : State} (frame : JobOnly s t) (busy : t.phase ≠ .idle) : JobStep s t
  | ends {t : State} (frame : JobOnly s t) {err stop : Byte} (oneCode : err = 0 ∨ stop = 0) (count : Word) :
      JobStep s (t.endJob err stop count)

/-- What the job does after some work on its own state. -/
theorem JobStep.after {s t u : State} (k : JobStep t u) (h : JobOnly s t) : JobStep s u := by
  cases k with
  | goesOn frame busy => exact .goesOn (h.trans frame) busy
  | ends frame oneCode count => exact .ends (h.trans frame) oneCode count

theorem jobError_jobStep (code : ErrCode) (s : State) : JobStep s (s.jobError code) := .ends (t := s) rfl (.inr rfl) _
theorem datStop_jobStep (code : StopCode) (s : State) : JobStep s (s.datStop code) := .ends (t := s) rfl (.inl rfl) _
theorem datFinish_jobStep (s : State) : JobStep s s.datFinish :=
  .ends (t := { s with reader := s.reader.dropFinalBit s.mem }) rfl (.inl rfl) _
theorem texFinish_jobStep (s : State) : JobStep s s.texFinish := .ends (t := s) rfl (.inl rfl) _

/-! ### The dat stream -/

theorem datOuter_jobStep (s : State) : JobStep s (datOuter s) := by
  unfold datOuter
  split
  · exact .goesOn rfl (by simp)
  · exact datFinish_jobStep s

theorem datInner_jobStep (s : State) : JobStep s (datInner s) := by
  unfold datInner
  split
  · exact .goesOn rfl (by simp)
  · exact datOuter_jobStep s

theorem datItemDone_jobStep (s : State) : JobStep s (datItemDone s) := (datInner_jobStep _).after rfl

theorem afterTree_jobStep (which : DatTree) (s : State) : JobStep s (afterTree which s) := by
  unfold afterTree
  split
  · exact datFinish_jobStep s
  · cases which with
    | sym => exact .goesOn rfl (by simp)
    | copy => exact .goesOn rfl (by simp)

theorem finishTree_jobStep (which : DatTree) (s : State) : JobStep s (finishTree which s) := by
  unfold finishTree
  split
  · exact (datStop_jobStep _ _).after (setTree_jobOnly s which _)
  · exact (afterTree_jobStep which _).after (setTree_jobOnly s which _)

theorem datDescriptorNext_jobStep (which : DatTree) (s : State) : JobStep s (datDescriptorNext which s) := by
  unfold datDescriptorNext
  split
  · exact .goesOn rfl (by simp)
  · exact finishTree_jobStep which s

/-- A TAKE within an item: the job ends there or goes on with another reader. -/
theorem datTake_jobStep (k : Nat) (s : State) {go : Word → State → State} (hgo : ∀ v t, JobStep t (go v t)) :
    JobStep s (datTake k s go) := by
  rcases datTake_cases k s go with ⟨_, e⟩ | ⟨_, r, _, e⟩ <;> rw [e]
  · exact datStop_jobStep _ s
  · exact (hgo _ _).after (s := s) rfl

theorem lengthCode_jobStep (base extra : Nat) (s : State) : JobStep s (lengthCode base extra s) := by
  unfold lengthCode
  split
  · exact .goesOn rfl (by simp)
  · exact datTake_jobStep _ s fun _ _ => .goesOn rfl (by simp)

theorem finishCopy_jobStep (dist : Nat) (s : State) : JobStep s (finishCopy dist s) := by
  unfold finishCopy
  split
  · exact datStop_jobStep _ s
  · exact (datItemDone_jobStep _).after rfl

theorem distanceCode_jobStep (base extra : Nat) (s : State) : JobStep s (distanceCode base extra s) := by
  unfold distanceCode
  split
  · exact finishCopy_jobStep _ s
  · exact datTake_jobStep _ s fun _ t => finishCopy_jobStep _ t

/-! ### The texture stream -/

theorem selectFormat_jobStep (flags : BitVec 10) (ps : Nat) (s : State) : JobStep s (selectFormat flags ps s) := by
  simp only [selectFormat]
  split
  · exact jobError_jobStep _ s
  · split
    · exact jobError_jobStep _ s
    · exact .goesOn rfl (by simp [openTexture])

theorem seekColour_jobStep (s : State) : JobStep s (seekColour s) := by
  simp only [seekColour]
  split
  · exact .goesOn rfl (by simp)
  · exact texFinish_jobStep s

theorem seekAlpha_jobStep (s : State) : JobStep s (seekAlpha s) := by
  simp only [seekAlpha]
  split
  · exact .goesOn rfl (by simp)
  · exact (seekColour_jobStep _).after rfl

theorem nextPass_jobStep (s : State) : JobStep s (nextPass s) := by
  unfold nextPass
  split
  · exact (seekAlpha_jobStep _).after rfl
  · exact .goesOn rfl (by simp)

theorem nextRun_jobStep (s : State) : JobStep s (nextRun s) := by
  unfold nextRun
  split
  · exact .goesOn rfl (by simp)
  · exact nextPass_jobStep s

theorem enterRuns_jobStep (pass : Pass) (s : State) : JobStep s (enterRuns pass s) := (nextRun_jobStep _).after rfl

theorem runBlocks_jobStep {target : State → List Bool} {put : State → State} (hput : ∀ s, BlocksOnly s (put s))
    (value : Bool) (s : State) : JobStep s (runBlocks target put value s) :=
  (nextRun_jobStep _).after ((coverBlocks_only hput value s.blocksLeft s.tex.code s).trans (withPos_only _ _)).jobOnly

theorem storeResidue_jobStep (offset : Nat) {seek : State → State} (hseek : ∀ t, JobStep t (seek t)) (word : Word)
    {s : State} (hp : s.phase ≠ .idle) : JobStep s (storeResidue offset seek word s) := by
  simp only [storeResidue]
  split
  · exact .goesOn rfl hp
  · exact (hseek _).after rfl

/-! ### Every element -/

theorem inPhase_jobStep {p : Phase} {s t u : State} (e : inPhase p s t = .next u) (h : JobStep s t) : JobStep s u := by
  obtain ⟨_, rfl⟩ := inPhase_next e
  exact h

/-! The length codes, the distance codes, the count codes and the FourCCs are one meaning each, at many operands. -/

theorem execLength_jobStep {base extra : Nat} {s t : State} (e : execLength base extra s = .next t) : JobStep s t :=
  inPhase_jobStep e (lengthCode_jobStep base extra s)

theorem execDistance_jobStep {base extra : Nat} {s t : State} (e : execDistance base extra s = .next t) : JobStep s t :=
  inPhase_jobStep e (distanceCode_jobStep base extra s)

theorem execCount_jobStep {count : Nat} {s t : State} (e : execCount count s = .next t) : JobStep s t :=
  inPhase_jobStep e (.goesOn (t := startRun count s) rfl (by simp))

theorem execFourcc_jobStep {flags : BitVec 10} {ps : Nat} {s t : State}
    (e : inPhase .texFourcc s (selectFormat flags ps s) = .next t) : JobStep s t :=
  inPhase_jobStep e (selectFormat_jobStep flags ps s)

/-- Every instruction but the commands is an element: it goes on with the job or ends it. -/
theorem exec_element_jobStep {i : Instr} {s t : State} (hk : (encode i).1 ≠ .command) (e : exec i s = .next t) :
    JobStep s t := by
  cases i
  case nop | inflateDat | inflateTexture | texFormat | brInit | brPeek | brRead | brDrop | brTake | hbClear | hbAdd |
      hbBuild | htDecode | htCode | illegalCommand => exact absurd rfl hk
  case datHeader method wraw => exact inPhase_jobStep e ((datOuter_jobStep _).after rfl)
  case datNSymbols count =>
    simp only [exec, execDatNSymbols] at e
    split at e <;> cases e
    split
    · exact datStop_jobStep _ s
    · exact (datDescriptorNext_jobStep _ _).after rfl
  case datDescSkip r =>
    simp only [exec, execDatDescSkip] at e
    split at e <;> cases e
    exact (datDescriptorNext_jobStep _ _).after rfl
  case datDescAdd r len =>
    simp only [exec, execDatDescAdd] at e
    split at e <;> cases e
    split
    · exact (datDescriptorNext_jobStep _ _).after rfl
    · exact (datStop_jobStep _ _).after rfl
  case datMaxCount raw => exact inPhase_jobStep e ((datInner_jobStep _).after rfl)
  case symLiteral byte => exact inPhase_jobStep e ((datItemDone_jobStep _).after rfl)
  case copyInvalid d => exact inPhase_jobStep e (datStop_jobStep _ s)
  case texHeader size flags => exact inPhase_jobStep e ((nextPass_jobStep _).after rfl)
  case texCflagWhite => exact inPhase_jobStep e ((enterRuns_jobStep _ _).after rfl)
  case texCflagConstA4 | texCflagConstA8 | texCflagPlain => exact inPhase_jobStep e (.goesOn rfl (by simp))
  case texAlphaStart wide alpha => exact inPhase_jobStep e (enterRuns_jobStep _ s)
  case texPlainStart colour => exact inPhase_jobStep e (enterRuns_jobStep _ s)
  case texWhiteRun value =>
    simp only [exec, execTexWhiteRun] at e
    split at e
    · exact inPhase_jobStep e (runBlocks_jobStep putWhite_only value s)
    · cases e
  case texAlphaRun value notNull =>
    simp only [exec, execTexAlphaRun] at e
    split at e
    · exact inPhase_jobStep e (runBlocks_jobStep (putAlpha_only _) value s)
    · cases e
  case texPlainRun value =>
    simp only [exec, execTexPlainRun] at e
    split at e
    · exact inPhase_jobStep e (runBlocks_jobStep (putPlain_only _) value s)
    · cases e
  case texResidueWord word =>
    simp only [exec, execTexResidueWord] at e
    split at e <;> cases e
    · exact storeResidue_jobStep _ seekAlpha_jobStep word (by simp [*])
    · exact storeResidue_jobStep _ seekColour_jobStep word (by simp [*])
  all_goals first
    | exact execLength_jobStep e
    | exact execDistance_jobStep e
    | exact execCount_jobStep e
    | exact execFourcc_jobStep e

/-! ### The start of a job -/

/-- A job is accepted, then ends at its checks or stands before its first element (42_dat_inflater.md R322). -/
theorem startDat_jobStep (s : State) : JobStep s.startJob (startDat s) := by
  unfold startDat
  split
  · exact jobError_jobStep _ s.startJob
  · exact .goesOn rfl (by simp)

theorem startTexture_jobStep (s : State) : JobStep s.startJob (startTexture s) := by
  unfold startTexture
  split
  · exact jobError_jobStep _ s.startJob
  · exact .goesOn rfl (by simp)

/-! ### Results and codes -/

/-- The commands whose rules write RESULT0 (10_state.md R45). -/
def result0Writers : List Instr := [.texFormat, .brPeek, .brRead, .brTake, .hbBuild, .htDecode, .htCode]

/-- The commands whose rules write RESULT1 (10_state.md R46). -/
def result1Writers : List Instr := [.htDecode, .htCode]

/-- ERR and STOP are not both set (10_state.md R35). -/
def State.OneCode (s : State) : Prop := s.status.err = 0 ∨ s.status.stop = 0

/-- What an instruction may do to the results and the codes. -/
structure ResultsLaw (i : Instr) (s t : State) : Prop where
  result0 : t.result0 = s.result0 ∨ i ∈ result0Writers ∧ t.status.err = 0 ∧ t.status.stop = 0
  result1 : t.result1 = s.result1 ∨ i ∈ result1Writers ∧ t.status.err = 0 ∧ t.status.stop = 0
  codes : s.touched = false → s.OneCode → t.OneCode

theorem complete_results {i : Instr} (s : State) {err stop : Byte} (h : err = 0 ∨ stop = 0) :
    ResultsLaw i s (s.complete err stop) := ⟨.inl rfl, .inl rfl, fun _ _ => h⟩

/-- A command that succeeds, with results of its own if its rule writes them. -/
theorem succeed_results {i : Instr} {s t : State} (h0 : t.result0 = s.result0 ∨ i ∈ result0Writers)
    (h1 : t.result1 = s.result1 ∨ i ∈ result1Writers) : ResultsLaw i s t.succeed :=
  ⟨h0.imp_right fun h => ⟨h, rfl, rfl⟩, h1.imp_right fun h => ⟨h, rfl, rfl⟩, fun _ _ => .inl rfl⟩

theorem raiseError_results {i : Instr} (s : State) (code : ErrCode) : ResultsLaw i s (s.raiseError code) :=
  complete_results s (.inr rfl)

theorem raiseStop_results {i : Instr} (s : State) (code : StopCode) : ResultsLaw i s (s.raiseStop code) :=
  complete_results s (.inl rfl)

/-- The end of an undisturbed job sets the codes it is given; that of a disturbed one is no part of the law (log entry 11). -/
theorem endJob_results {i : Instr} (s : State) {err stop : Byte} (h : err = 0 ∨ stop = 0) (count : Word) :
    ResultsLaw i s (s.endJob err stop count) :=
  ⟨.inl (by simp), .inl (by simp), fun ht _ => by rw [endJob_undisturbed ht]; exact h⟩

theorem ResultsLaw.after {i : Instr} {s t u : State} (k : ResultsLaw i t u) (h : JobOnly s t) : ResultsLaw i s u :=
  ⟨h.result0 ▸ k.result0, h.result1 ▸ k.result1, fun ht hc =>
    k.codes (h.touched.trans ht) (by rw [State.OneCode, h.status]; exact hc)⟩

theorem JobStep.results {i : Instr} {s t : State} (h : JobStep s t) : ResultsLaw i s t := by
  cases h with
  | goesOn frame _ => exact ResultsLaw.after ⟨.inl rfl, .inl rfl, fun _ h => h⟩ frame
  | ends frame oneCode count => exact (endJob_results _ oneCode count).after frame

/-- A command ignored keeps results and codes (45_control.md R471), one accepted starts with both codes 0 (R470). -/
theorem command_results {i : Instr} {v : Word} {run : State → State} {s t : State}
    (hrun : ∀ u, ResultsLaw i u (run u)) (e : command v run s = .next t) : ResultsLaw i s t := by
  by_cases hp : s.phase = .idle
  · rw [command_idle hp] at e
    cases e
    exact ⟨(hrun _).result0, (hrun _).result1, fun ht _ => (hrun _).codes ht (.inl rfl)⟩
  · rw [command_busy hp] at e
    cases e
    exact ⟨.inl rfl, .inl rfl, fun _ h => h⟩

/-- The acceptance of a job keeps results and codes, and makes the job an undisturbed one. -/
theorem startJob_results {i : Instr} {s t : State} (h : ResultsLaw i s.startJob t) : ResultsLaw i s t :=
  ⟨h.result0, h.result1, fun _ => h.codes rfl⟩

/-! ### The bodies of the commands -/

theorem texFormat_results (s : State) : ResultsLaw .texFormat s (texFormat s) := by
  unfold texFormat
  split
  · exact raiseError_results s _
  · exact succeed_results (.inr (by simp [result0Writers])) (.inl rfl)

theorem brInit_results (s : State) : ResultsLaw .brInit s (brInit s) := by
  unfold brInit
  repeat' split
  · exact raiseError_results s _
  · exact raiseError_results s _
  · exact succeed_results (.inl rfl) (.inl rfl)

theorem brPeek_results (s : State) : ResultsLaw .brPeek s (brPeek s) := by
  unfold brPeek
  split
  · exact raiseError_results s _
  · exact succeed_results (.inr (by simp [result0Writers])) (.inl rfl)

theorem brRead_results (s : State) : ResultsLaw .brRead s (brRead s) := by
  unfold brRead
  repeat' split
  · exact raiseError_results s _
  · exact raiseStop_results s _
  · exact succeed_results (.inr (by simp [result0Writers])) (.inl rfl)

theorem brDrop_results (s : State) : ResultsLaw .brDrop s (brDrop s) := by
  unfold brDrop
  repeat' split
  · exact raiseError_results s _
  · exact raiseStop_results s _
  · exact succeed_results (.inl rfl) (.inl rfl)

theorem brTake_results (s : State) : ResultsLaw .brTake s (brTake s) := by
  unfold brTake
  repeat' split
  · exact raiseError_results s _
  · exact raiseStop_results s _
  · exact succeed_results (.inr (by simp [result0Writers])) (.inl rfl)

theorem hbClear_results (s : State) : ResultsLaw .hbClear s (hbClear s) := succeed_results (.inl rfl) (.inl rfl)

theorem hbAdd_results (s : State) : ResultsLaw .hbAdd s (hbAdd s) := by
  unfold hbAdd
  split
  · exact raiseError_results s _
  · exact succeed_results (.inl rfl) (.inl rfl)

theorem hbBuild_results (s : State) : ResultsLaw .hbBuild s (hbBuild s) := by
  unfold hbBuild
  split
  · exact raiseError_results s _
  · split
    · exact (raiseStop_results _ _).after (setTree_jobOnly s _ _)
    · exact succeed_results (.inr (by simp [result0Writers])) (.inl (by simp))

theorem htDecode_results (s : State) : ResultsLaw .htDecode s (htDecode s) := by
  unfold htDecode
  repeat' split
  · exact raiseError_results s _
  · exact raiseStop_results s _
  · exact succeed_results (.inr (by simp [result0Writers])) (.inr (by simp [result1Writers]))

theorem htCode_results (s : State) : ResultsLaw .htCode s (htCode s) := by
  unfold htCode
  repeat' split
  · exact raiseError_results s _
  · exact succeed_results (.inr (by simp [result0Writers])) (.inr (by simp [result1Writers]))
  · exact succeed_results (.inr (by simp [result0Writers])) (.inr (by simp [result1Writers]))

/-! ### Every instruction -/

/-- Every instruction obeys the law: the commands by the ends of their bodies, the elements as steps of a job. -/
theorem exec_results {i : Instr} {s t : State} (e : exec i s = .next t) : ResultsLaw i s t := by
  by_cases hk : (encode i).1 ≠ .command
  · exact (exec_element_jobStep hk e).results
  cases i
  case nop => exact command_results (fun u => succeed_results (.inl rfl) (.inl rfl)) e
  case illegalCommand word => exact command_results (fun u => raiseError_results u _) e
  case inflateDat => exact command_results (fun u => startJob_results (startDat_jobStep u).results) e
  case inflateTexture => exact command_results (fun u => startJob_results (startTexture_jobStep u).results) e
  case texFormat => exact command_results texFormat_results e
  case brInit => exact command_results brInit_results e
  case brPeek => exact command_results brPeek_results e
  case brRead => exact command_results brRead_results e
  case brDrop => exact command_results brDrop_results e
  case brTake => exact command_results brTake_results e
  case hbClear => exact command_results hbClear_results e
  case hbAdd => exact command_results hbAdd_results e
  case hbBuild => exact command_results hbBuild_results e
  case htDecode => exact command_results htDecode_results e
  case htCode => exact command_results htCode_results e
  case texAlphaStart wide alpha => cases wide <;> exact absurd nofun hk
  all_goals exact absurd nofun hk

/-- Settles O48: the law of `exec_results`, read clause by clause. -/
theorem resultsAndCodes : Obligations.ResultsAndCodes := by
  refine ⟨fun i s t e => ?_, fun i s t e => (exec_results e).codes⟩
  have h := exec_results e
  exact ⟨h.result0.resolve_left, h.result1.resolve_left⟩

end Sys2Proof.Machine
end

section
/-! PROOFS. The register window in the host's address space (00_scope.md R12, 20_memory.md R100, log entry 8): where an
access begins and how far it runs decides whether it has a byte in the window. -/

namespace Sys2Proof.Machine

theorem windowOffset_regBase_add (s : State) {offset : Nat} (h : offset < 2 ^ 32) :
    s.windowOffset (s.regBase + BitVec.ofNat 32 offset) = offset := by
  unfold State.windowOffset
  bv_omega

/-- An access has a byte in the window exactly if one of its bytes is less than 256 above REG_BASE. -/
theorem reachesWindow_iff (s : State) (a : Word) {bytes : Nat} (hb : 0 < bytes) :
    s.reachesWindow a bytes = true ↔ ∃ j < bytes, s.windowOffset (a + BitVec.ofNat 32 j) < 256 := by
  simp only [State.reachesWindow, Bool.or_eq_true, decide_eq_true_eq]
  constructor
  · rintro (hin | hbelow)
    · exact ⟨0, hb, by simpa using hin⟩
    · refine ⟨2 ^ 32 - s.windowOffset a, by omega, ?_⟩
      unfold State.windowOffset
      bv_omega
  · rintro ⟨j, hj, hin⟩
    unfold State.windowOffset at hin ⊢
    bv_omega

theorem hostStep_writeAt_reaching {s : State} {a : Word} {bytes : Nat} (h : s.reachesWindow a bytes = true) (v : Word) :
    hostStep (.writeAt a bytes v) s = s.windowWrite (s.windowOffset a) bytes v := if_pos h

theorem hostStep_readAt_reaching {s : State} {a : Word} {bytes : Nat} (h : s.reachesWindow a bytes = true) :
    hostStep (.readAt a bytes) s = s.windowRead (s.windowOffset a) bytes := if_pos h

/-- Settles O60: `reachesWindow_iff` places the access, `window_refuses` refuses one that begins below the window. -/
theorem windowStandsAtRegBase : Obligations.WindowStandsAtRegBase := by
  intro s a bytes v hb
  refine ⟨fun offset ho ha => ?_, fun hout hinto => ?_, fun hout => ?_⟩
  · have hoff : s.windowOffset a = offset := ha ▸ windowOffset_regBase_add s (by omega)
    have hreach : s.reachesWindow a bytes = true := (reachesWindow_iff s a hb).mpr ⟨0, hb, by simpa [hoff] using ho⟩
    rw [hostStep_writeAt_reaching hreach, hostStep_readAt_reaching hreach, hoff]
    exact ⟨rfl, rfl⟩
  · obtain ⟨j, hj, hbase⟩ := hinto
    have hreach : s.reachesWindow a bytes = true :=
      (reachesWindow_iff s a hb).mpr ⟨j, hj, by simp [State.windowOffset, hbase]⟩
    rw [hostStep_writeAt_reaching hreach, hostStep_readAt_reaching hreach]
    exact window_refuses (fun hok => absurd hok.2.2 (Nat.not_lt.mpr hout)) v s
  · have hmiss : ¬s.reachesWindow a bytes = true := by
      rw [reachesWindow_iff s a hb]
      rintro ⟨j, hj, hin⟩
      exact absurd hin (Nat.not_lt.mpr (hout j hj))
    exact ⟨if_neg hmiss, if_neg hmiss⟩

end Sys2Proof.Machine
end

section
/-! PROOFS. What an undisturbed job stores (20_memory.md R111, 44_texture_inflater.md R450). The control flow between two
stream elements stores nothing; a literal, a back-copy, a block of a run and a residue word each store inside the output
region: the first two below OUT_LEN by their own test, the others because a texture's blocks fit in the region. -/

namespace Sys2Proof.Machine

/-! ### What stores nothing -/

/-- An operation of a job that leaves memory as it is, unless the job is a disturbed one (log entry 11). -/
def StoresNothing (f : State → State) : Prop := ∀ s : State, s.touched = false → (f s).mem = s.mem

theorem endJob_storesNothing (err stop : Byte) (count : Word) : StoresNothing (State.endJob err stop count) := by
  intro s ht
  rw [endJob_undisturbed ht, complete_mem]

theorem jobError_storesNothing (code : ErrCode) : StoresNothing (State.jobError code) := endJob_storesNothing _ _ _
theorem datStop_storesNothing (code : StopCode) : StoresNothing (State.datStop code) :=
  fun s => endJob_storesNothing _ _ _ s
theorem texStop_storesNothing (code : StopCode) : StoresNothing (State.texStop code) :=
  fun s => endJob_storesNothing _ _ _ s
theorem texFinish_storesNothing : StoresNothing State.texFinish := fun s => endJob_storesNothing _ _ _ s
theorem datFinish_storesNothing : StoresNothing State.datFinish :=
  fun s => endJob_storesNothing _ _ _ { s with reader := s.reader.dropFinalBit s.mem }

theorem datOuter_storesNothing : StoresNothing datOuter := by
  intro s ht
  unfold datOuter
  split
  · rfl
  · exact datFinish_storesNothing s ht

theorem datInner_storesNothing : StoresNothing datInner := by
  intro s ht
  unfold datInner
  split
  · rfl
  · exact datOuter_storesNothing s ht

theorem datItemDone_storesNothing : StoresNothing datItemDone := fun _ ht => datInner_storesNothing _ ht

theorem afterTree_storesNothing (which : DatTree) : StoresNothing (afterTree which) := by
  intro s ht
  unfold afterTree
  split
  · exact datFinish_storesNothing s ht
  · cases which <;> rfl

theorem finishTree_storesNothing (which : DatTree) : StoresNothing (finishTree which) := by
  intro s ht
  unfold finishTree
  split
  · rw [datStop_storesNothing _ _ (by simpa using ht), setTree_mem]
  · rw [afterTree_storesNothing _ _ (by simpa using ht), setTree_mem]

theorem datDescriptorNext_storesNothing (which : DatTree) : StoresNothing (datDescriptorNext which) := by
  intro s ht
  unfold datDescriptorNext
  split
  · rfl
  · exact finishTree_storesNothing which s ht

theorem lengthCode_storesNothing (base extra : Nat) : StoresNothing (lengthCode base extra) := by
  intro s ht
  unfold lengthCode
  split
  · rfl
  · rcases datTake_cases extra s _ with ⟨_, e⟩ | ⟨_, r, _, e⟩ <;> rw [e]
    exact datStop_storesNothing _ s ht

theorem selectFormat_storesNothing (flags : BitVec 10) (ps : Nat) : StoresNothing (selectFormat flags ps) := by
  intro s ht
  simp only [selectFormat]
  split
  · exact jobError_storesNothing _ s ht
  · split
    · exact jobError_storesNothing _ s ht
    · rfl

theorem seekColour_storesNothing : StoresNothing seekColour := by
  intro s ht
  simp only [seekColour]
  split
  · rfl
  · exact texFinish_storesNothing s ht

theorem seekAlpha_storesNothing : StoresNothing seekAlpha := by
  intro s ht
  simp only [seekAlpha]
  split
  · rfl
  · exact seekColour_storesNothing _ ht

theorem nextPass_storesNothing : StoresNothing nextPass := by
  intro s ht
  unfold nextPass
  split
  · exact seekAlpha_storesNothing _ ht
  · rfl

theorem nextRun_storesNothing : StoresNothing nextRun := by
  intro s ht
  unfold nextRun
  split
  · rfl
  · exact nextPass_storesNothing s ht

theorem enterRuns_storesNothing (pass : Pass) : StoresNothing (enterRuns pass) := fun _ ht => nextRun_storesNothing _ ht

/-! ### Reading an element -/

/-- `t` is `s` after reads of the stream: the job's frame is kept, and nothing is stored. -/
def ReadsOnly (s t : State) : Prop := JobOnly s t ∧ t.mem = s.mem

theorem ReadsOnly.refl (s : State) : ReadsOnly s s := ⟨rfl, rfl⟩

theorem ReadsOnly.touched {s t : State} (h : ReadsOnly s t) (ht : s.touched = false) : t.touched = false :=
  h.1.touched.trans ht

theorem ReadsOnly.withReader {s t : State} (h : ReadsOnly s t) (r : Reader) : ReadsOnly s { t with reader := r } :=
  ⟨h.1.trans rfl, h.2⟩

/-- Reading an element leaves memory as it is, whether it gives an element or ends the job. -/
def FetchStoresNothing (s : State) : Fetched → Prop
  | .instr _ t => ReadsOnly s t
  | .ended t => t.mem = s.mem
  | .fault _ => True

theorem fetchStop_storesNothing {stop : State → State} (hstop : StoresNothing stop) {s t : State} (h : ReadsOnly s t)
    (ht : s.touched = false) : FetchStoresNothing s (.ended (stop t)) := (hstop t (h.touched ht)).trans h.2

theorem fetchedAs_storesNothing (kind : ElemKind) (v : Nat) {s t : State} (h : ReadsOnly s t) :
    FetchStoresNothing s (fetchedAs kind v t) := by
  rcases fetchedAs_cases kind v t with ⟨i, _, e⟩ | ⟨r, _, e⟩ <;> rw [e]
  · exact h
  · trivial

theorem fetchTake_storesNothing {stop : StopCode → State → State} (hstop : ∀ c, StoresNothing (stop c)) (k : Nat)
    {s t : State} {go : Word → State → Fetched} (h : ReadsOnly s t) (ht : s.touched = false)
    (hgo : ∀ v r, FetchStoresNothing s (go v { t with reader := r })) :
    FetchStoresNothing s (fetchTake stop k t go) := by
  unfold fetchTake
  split
  · exact hgo _ _
  · exact fetchStop_storesNothing (hstop _) h ht

theorem fetchField_storesNothing {stop : StopCode → State → State} (hstop : ∀ c, StoresNothing (stop c))
    (kind : ElemKind) (k : Nat) {s : State} (ht : s.touched = false) :
    FetchStoresNothing s (fetchField stop kind k s) :=
  fetchTake_storesNothing hstop k (.refl s) ht fun _ r => fetchedAs_storesNothing _ _ ((ReadsOnly.refl s).withReader r)

theorem fetchSymbol_storesNothing {stop : StopCode → State → State} (hstop : ∀ c, StoresNothing (stop c))
    (kind : ElemKind) (tree : Tree) {s : State} (ht : s.touched = false) :
    FetchStoresNothing s (fetchSymbol stop kind tree s) := by
  unfold fetchSymbol
  split
  · exact fetchedAs_storesNothing _ _ ((ReadsOnly.refl s).withReader _)
  · exact fetchStop_storesNothing (hstop _) (.refl s) ht

theorem fetchDatHeader_storesNothing {s : State} (ht : s.touched = false) : FetchStoresNothing s (fetchDatHeader s) :=
  fetchTake_storesNothing datStop_storesNothing 4 (.refl s) ht fun _ r =>
    have hmethod := (ReadsOnly.refl s).withReader r
    fetchTake_storesNothing datStop_storesNothing 4 hmethod ht fun _ r' =>
      fetchedAs_storesNothing _ _ (hmethod.withReader r')

theorem fetchTexHeader_storesNothing {s : State} (ht : s.touched = false) : FetchStoresNothing s (fetchTexHeader s) :=
  fetchTake_storesNothing texStop_storesNothing 32 (.refl s) ht fun size r =>
    have hsize : ReadsOnly s { s with reader := r, texDsize := size } := ⟨rfl, rfl⟩
    fetchTake_storesNothing texStop_storesNothing 32 hsize ht fun _ r' =>
      fetchedAs_storesNothing _ _ (hsize.withReader r')

theorem fetchAlphaRun_storesNothing {s : State} (ht : s.touched = false) : FetchStoresNothing s (fetchAlphaRun s) := by
  refine fetchTake_storesNothing texStop_storesNothing 1 (.refl s) ht fun value r => ?_
  have hvalue := (ReadsOnly.refl s).withReader r
  simp only
  split
  · exact fetchStop_storesNothing (texStop_storesNothing _) hvalue ht
  · split
    · split
      · exact fetchStop_storesNothing (texStop_storesNothing _) hvalue ht
      · exact fetchedAs_storesNothing _ _ (hvalue.withReader _)
    · exact fetchedAs_storesNothing _ _ hvalue

theorem fetchRun_storesNothing {s : State} (ht : s.touched = false) : FetchStoresNothing s (fetchRun s) := by
  unfold fetchRun
  split
  · exact fetchField_storesNothing texStop_storesNothing _ _ ht
  · exact fetchAlphaRun_storesNothing ht
  · exact fetchField_storesNothing texStop_storesNothing _ _ ht

theorem fetchFourcc_storesNothing {s : State} (ht : s.touched = false) : FetchStoresNothing s (fetchFourcc s) := by
  unfold fetchFourcc
  split
  · exact .refl s
  · exact fetchStop_storesNothing (jobError_storesNothing _) (.refl s) ht

theorem fetch_storesNothing {s : State} (ht : s.touched = false) : FetchStoresNothing s (fetch s) := by
  unfold fetch
  cases s.phase
  case idle => exact rfl
  case datHeader => exact fetchDatHeader_storesNothing ht
  case datNSymbols | datMaxCount => exact fetchField_storesNothing datStop_storesNothing _ _ ht
  case datDescriptor | datItem | datDistance => exact fetchSymbol_storesNothing datStop_storesNothing _ _ ht
  case texFourcc => exact fetchFourcc_storesNothing ht
  case texHeader => exact fetchTexHeader_storesNothing ht
  case texFlag => exact fetchedAs_storesNothing _ _ (.refl s)
  case texAlphaStart wide => cases wide <;> exact fetchField_storesNothing texStop_storesNothing _ _ ht
  case texCount => exact fetchSymbol_storesNothing texStop_storesNothing _ _ ht
  case texRun => exact fetchRun_storesNothing ht
  case texPlainStart | texAlphaResidue | texColourResidue =>
    exact fetchField_storesNothing texStop_storesNothing _ _ ht

/-! ### Places in the output region -/

/-- `t` holds the bytes of `s` outside the output region of `s`. -/
def OutsideKept (s t : State) : Prop := ∀ a, ¬s.outputHolds a → t.mem.read a = s.mem.read a

theorem OutsideKept.of_mem {s t : State} (h : t.mem = s.mem) : OutsideKept s t := fun _ _ => by rw [h]

theorem OutsideKept.andThen {s t : State} {f : State → State} (h : OutsideKept s t) (hf : StoresNothing f)
    (ht : t.touched = false) : OutsideKept s (f t) := fun a ha => (hf t ht).symm ▸ h a ha

theorem OutsideKept.trans {s t u : State} (h : OutsideKept s t) (k : OutsideKept t u) (hb : t.outBase = s.outBase)
    (hl : t.outLen = s.outLen) : OutsideKept s u := fun a ha =>
  (k a (by rw [State.outputHolds, hb, hl]; exact ha)).trans (h a ha)

/-- The addresses of a piece of the output region lie in it: the region does not wrap (20_memory.md R102). -/
theorem outputHolds_of_spans {s : State} {k n : Nat} {a : Word} (hr : s.checkRegions = none)
    (hk : k + n ≤ s.outLen.toNat) (h : spans (s.outBase + BitVec.ofNat 32 k) n a) : s.outputHolds a := by
  obtain ⟨_, _, _, hfit, _⟩ := checkRegions_none.mp hr
  simp only [spans] at h
  simp only [State.outputHolds]
  bv_omega

/-- A byte stored below OUT_LEN leaves the bytes outside the output region. -/
theorem read_write_outside {s : State} {m : Memory} {k : Nat} {a : Word} (hr : s.checkRegions = none)
    (hm : m.wf = true) (hk : k < s.outLen.toNat) (ha : ¬s.outputHolds a) (b : Byte) :
    (m.write (s.outBase + BitVec.ofNat 32 k) b).read a = m.read a := by
  have hne : a ≠ s.outBase + BitVec.ofNat 32 k := by
    rintro rfl
    exact ha (outputHolds_of_spans (n := 1) hr hk (by simp [spans]))
  rw [memory_read_write _ _ _ hm, if_neg hne]

theorem findFourcc_mem {f : Word} {v : BitVec 10 × Nat} {l : List (Word × BitVec 10 × Nat)}
    (h : findFourcc f l = some v) : (f, v) ∈ l := by
  induction l with
  | nil => cases h
  | cons x l ih =>
    obtain ⟨k, w⟩ := x
    simp only [findFourcc] at h
    split at h
    · cases h; subst f; simp
    · exact List.mem_cons_of_mem _ (ih h)

/-- A component of a recognised format is at least 8 bytes, and the colour component ends with its block
(43_texture_formats.md R380 to R384, 44_texture_inflater.md R442). -/
theorem State.TextureGood.component {s : State} (h : s.TextureGood) :
    8 ≤ s.fmt.bytesPerComponent ∧ s.fmt.colourOffset + s.fmt.bytesPerComponent = s.fmt.bytesPerBlock := by
  obtain ⟨flags, ps, hrow, hfmt⟩ := h.format
  have hall : ∀ row ∈ fourccTable, 8 ≤ (formatRecord 0 0 row.2.1 row.2.2).bytesPerComponent ∧
      (formatRecord 0 0 row.2.1 row.2.2).colourOffset + (formatRecord 0 0 row.2.1 row.2.2).bytesPerComponent =
        (formatRecord 0 0 row.2.1 row.2.2).bytesPerBlock := by decide
  rw [hfmt]
  exact hall _ (findFourcc_mem hrow)

/-- A piece of a block of the texture lies in the output region: the texture fits in it (60_exceptions.md R513). -/
theorem outputHolds_of_block {s : State} {pos offset n : Nat} {a : Word} (hr : s.checkRegions = none)
    (ht : s.TextureGood) (hpos : pos < s.fmt.nBlocks) (hn : offset + n ≤ s.fmt.bytesPerBlock)
    (h : spans (s.blockAddress pos offset) n a) : s.outputHolds a := by
  refine outputHolds_of_spans hr ?_ h
  calc s.fmt.bytesPerBlock * pos + offset + n
      ≤ s.fmt.bytesPerBlock * (pos + 1) := by rw [Nat.mul_succ]; omega
    _ ≤ s.fmt.outputSize := Nat.mul_le_mul_left _ hpos
    _ ≤ s.outLen.toNat := ht.fits

/-! ### Stores of a dat job -/

/-- A back-copy stores below OUT_LEN only (42_dat_inflater.md R338). -/
theorem backCopy_read_outside {s : State} (hr : s.checkRegions = none) (dist n : Nat) {m : Memory} (pos : Nat)
    {a : Word} (hm : m.wf = true) (ha : ¬s.outputHolds a) :
    (backCopy s.outBase s.outLen.toNat dist n m pos).1.read a = m.read a := by
  induction n generalizing m pos with
  | zero => rfl
  | succ n ih =>
    simp only [backCopy]
    split
    · rfl
    · rw [ih _ (memory_write_wf _ _ hm), read_write_outside hr hm (Nat.lt_of_not_le ‹_›) ha]

theorem finishCopy_outside (dist : Nat) {s : State} (hm : s.mem.wf = true) (hr : s.checkRegions = none)
    (ht : s.touched = false) : OutsideKept s (finishCopy dist s) := by
  unfold finishCopy
  split
  · exact .of_mem (datStop_storesNothing _ s ht)
  · refine OutsideKept.andThen (fun a ha => ?_) datItemDone_storesNothing ht
    exact backCopy_read_outside hr dist _ _ hm ha

theorem distanceCode_outside (base extra : Nat) {s : State} (hm : s.mem.wf = true) (hr : s.checkRegions = none)
    (ht : s.touched = false) : OutsideKept s (distanceCode base extra s) := by
  unfold distanceCode
  split
  · exact finishCopy_outside _ hm hr ht
  · rcases datTake_cases extra s (fun e t => finishCopy ((base ||| e.toNat) + 1) t) with
      ⟨_, e⟩ | ⟨_, r, _, e⟩ <;> rw [e]
    · exact .of_mem (datStop_storesNothing _ s ht)
    · exact finishCopy_outside (s := { s with reader := r }) _ hm hr ht

/-! ### Stores of a texture job -/

/-- A little-endian store to a piece of a block keeps the bytes outside the output region. -/
theorem blockWriteLE_outside {s : State} {pos offset n : Nat} (v : Nat) (hm : s.mem.wf = true)
    (hr : s.checkRegions = none) (ht : s.TextureGood) (hpos : pos < s.fmt.nBlocks)
    (hn : offset + n ≤ s.fmt.bytesPerBlock) :
    OutsideKept s (s.withMem (s.mem.writeLE (s.blockAddress pos offset) n v)) := fun _ ha =>
  memory_read_writeLE_outside _ _ _ _ hm fun hspan => ha (outputHolds_of_block hr ht hpos hn hspan)

/-- The write of a pass at one block: it leaves the job at the block, and the bytes outside the output region. -/
structure BlockPut (put : State → State) : Prop where
  only : ∀ s, BlocksOnly s (put s)
  samePos : ∀ s, (put s).tex.pos = s.tex.pos
  outside : ∀ s : State, s.mem.wf = true → s.checkRegions = none → s.TextureGood → s.tex.pos < s.fmt.nBlocks →
    OutsideKept s (put s)

theorem putWhite_blockPut : BlockPut putWhite where
  only := putWhite_only
  samePos _ := rfl
  outside s hm hr ht hpos := by
    obtain ⟨hsize, hend⟩ := ht.component
    have hkept := blockWriteLE_outside (offset := 0) (n := 8) 0xFFFFFFFFFFFFFFFE hm hr ht hpos (by omega)
    simpa only [OutsideKept, putWhite, markColour_mem, markAlpha_mem] using hkept

theorem putAlpha_blockPut (byte : Byte) : BlockPut (putAlpha byte) where
  only := putAlpha_only byte
  samePos _ := rfl
  outside _ hm hr ht hpos _ ha := by
    obtain ⟨_, hend⟩ := ht.component
    refine memory_read_writeBytes_outside _ _ _ hm fun hspan => ha (outputHolds_of_block hr ht hpos ?_ hspan)
    rw [List.length_replicate]
    omega

theorem putPlain_blockPut (block : BitVec 64) : BlockPut (putPlain block) where
  only := putPlain_only block
  samePos _ := rfl
  outside _ hm hr ht hpos := blockWriteLE_outside _ hm hr ht hpos ht.component.2.le

/-- The blocks of a run are blocks of the texture, so what they store lies in the output region (44_texture_inflater.md
R405). -/
theorem coverBlocks_outside {target : State → List Bool} {put : State → State} (hput : BlockPut put) (value : Bool)
    (fuel code : Nat) {s : State} (hm : s.mem.wf = true) (hr : s.checkRegions = none) (ht : s.TextureGood)
    (hfuel : s.tex.pos + fuel ≤ s.fmt.nBlocks) : OutsideKept s (coverBlocks target put value fuel code s) := by
  induction fuel generalizing code s with
  | zero => cases code <;> exact .of_mem rfl
  | succ fuel ih =>
    have goOn : ∀ (c : Nat) (t : State), BlocksOnly s t → t.tex.pos = s.tex.pos → OutsideKept s t →
        OutsideKept s (coverBlocks target put value fuel c t.nextBlock) := fun c t hblocks hpos hkept => by
      have hnext := hblocks.trans (nextBlock_only t)
      have hrest := ih c (hnext.wf hm) (hnext.checkRegions.trans hr) (hnext.textureGood ht)
        (by rw [hnext.fmt, nextBlock_tex, hpos]; simp only; omega)
      exact OutsideKept.trans (t := t.nextBlock) hkept hrest (by rw [hnext.rest]) (by rw [hnext.rest])
    cases code with
    | zero => exact .of_mem rfl
    | succ code =>
      simp only [coverBlocks]
      split
      · exact goOn _ s (.refl s) rfl (.of_mem rfl)
      · cases value with
        | false => exact goOn _ s (.refl s) rfl (.of_mem rfl)
        | true => exact goOn _ _ (hput.only s) (hput.samePos s) (hput.outside s hm hr ht (by omega))

theorem runBlocks_outside {target : State → List Bool} {put : State → State} (hput : BlockPut put) (value : Bool)
    {s : State} (hm : s.mem.wf = true) (hr : s.checkRegions = none) (ht : s.TextureGood)
    (hpos : s.tex.pos < s.fmt.nBlocks) (hu : s.touched = false) : OutsideKept s (runBlocks target put value s) := by
  have hkept := coverBlocks_outside (target := target) hput value s.blocksLeft s.tex.code hm hr ht
    (by rw [State.blocksLeft]; omega)
  have hframe := (coverBlocks_only (target := target) hput.only value s.blocksLeft s.tex.code s).jobOnly
  exact OutsideKept.andThen (t := { coverBlocks target put value s.blocksLeft s.tex.code s with tex := _ }) hkept
    nextRun_storesNothing (hframe.touched.trans hu)

/-- A residue word is one of the two words of its component (44_texture_inflater.md R445, R446). -/
theorem storeResidue_outside (offset : Nat) {seek : State → State} (hseek : StoresNothing seek) (word : Word)
    {s : State} (hm : s.mem.wf = true) (hr : s.checkRegions = none) (ht : s.TextureGood)
    (hpos : s.tex.pos < s.fmt.nBlocks) (hoff : offset + s.fmt.bytesPerComponent ≤ s.fmt.bytesPerBlock)
    (hu : s.touched = false) :
    OutsideKept s (storeResidue offset seek word s) := by
  have hsize := ht.component.1
  have hkept := blockWriteLE_outside (offset := offset + if s.tex.second then 4 else 0) (n := 4) word.toNat hm hr
    ht hpos (by split <;> omega)
  simp only [storeResidue]
  split
  · exact hkept
  · exact OutsideKept.andThen hkept hseek hu

/-! ### Every element -/

theorem inPhase_outside {p : Phase} {s t u : State} (e : inPhase p s t = .next u)
    (h : s.phase = p → OutsideKept s t) : OutsideKept s u := by
  obtain ⟨hp, rfl⟩ := inPhase_next e
  exact h hp

theorem execLength_outside {base extra : Nat} {s t : State} (hu : s.touched = false)
    (e : execLength base extra s = .next t) : OutsideKept s t :=
  inPhase_outside e fun _ => .of_mem (lengthCode_storesNothing base extra s hu)

theorem execDistance_outside {base extra : Nat} {s t : State} (h : s.Inv) (hu : s.touched = false)
    (e : execDistance base extra s = .next t) : OutsideKept s t :=
  inPhase_outside e fun hp => distanceCode_outside base extra h.mem (inv_regions_at h hp (by simp)) hu

theorem execCount_outside {count : Nat} {s t : State} (e : execCount count s = .next t) : OutsideKept s t :=
  inPhase_outside e fun _ => .of_mem rfl

theorem execFourcc_outside {flags : BitVec 10} {ps : Nat} {s t : State} (hu : s.touched = false)
    (e : inPhase .texFourcc s (selectFormat flags ps s) = .next t) : OutsideKept s t :=
  inPhase_outside e fun _ => .of_mem (selectFormat_storesNothing flags ps s hu)

/-- The fields of a run, of any of the three passes. -/
theorem execRun_outside {target : State → List Bool} {put : State → State} (hput : BlockPut put) {value : Bool}
    {s t : State} (h : s.Inv) (hu : s.touched = false)
    (e : inPhase .texRun s (runBlocks target put value s) = .next t) : OutsideKept s t := by
  refine inPhase_outside e fun hp => ?_
  have hjob := h.job
  simp only [State.JobGood, hp] at hjob
  obtain ⟨htex, hpos, _⟩ := hjob
  exact runBlocks_outside hput value h.mem (inv_regions_at h hp (by simp)) htex hpos hu

theorem execSymLiteral_outside {byte : Byte} {s t : State} (h : s.Inv) (hu : s.touched = false)
    (e : execSymLiteral byte s = .next t) : OutsideKept s t := by
  refine inPhase_outside e fun hp => ?_
  have hjob := h.job
  simp only [State.JobGood, hp] at hjob
  obtain ⟨hpos, _⟩ := hjob
  refine OutsideKept.andThen (fun a ha => ?_) datItemDone_storesNothing hu
  exact read_write_outside (inv_regions_at h hp (by simp)) h.mem hpos ha byte

/-- A word of the alpha residue lies at the start of its block, one of the colour residue in the colour component. -/
theorem execTexResidueWord_outside {word : Word} {s t : State} (h : s.Inv) (hu : s.touched = false)
    (e : execTexResidueWord word s = .next t) : OutsideKept s t := by
  have hjob := h.job
  simp only [execTexResidueWord] at e
  split at e
  case h_1 hp =>
    cases e
    simp only [State.JobGood, hp] at hjob
    obtain ⟨htex, hpos, _⟩ := hjob
    have hend := htex.component.2
    exact storeResidue_outside 0 seekAlpha_storesNothing word h.mem (inv_regions_at h hp (by simp)) htex hpos
      (by omega) hu
  case h_2 hp =>
    cases e
    simp only [State.JobGood, hp] at hjob
    obtain ⟨htex, hpos, _⟩ := hjob
    have hend := htex.component.2
    exact storeResidue_outside _ seekColour_storesNothing word h.mem (inv_regions_at h hp (by simp)) htex hpos
      hend.le hu
  case h_3 => cases e

/-- Every element of an undisturbed job keeps the bytes outside the output region. -/
theorem exec_element_outside {i : Instr} {s t : State} (h : s.Inv) (hu : s.touched = false)
    (hk : (encode i).1 ≠ .command) (e : exec i s = .next t) : OutsideKept s t := by
  cases i
  case nop | inflateDat | inflateTexture | texFormat | brInit | brPeek | brRead | brDrop | brTake | hbClear | hbAdd |
      hbBuild | htDecode | htCode | illegalCommand => exact absurd rfl hk
  case symLiteral byte => exact execSymLiteral_outside h hu e
  case texWhiteRun value =>
    simp only [exec, execTexWhiteRun] at e
    split at e
    · exact execRun_outside putWhite_blockPut h hu e
    · cases e
  case texAlphaRun value notNull =>
    simp only [exec, execTexAlphaRun] at e
    split at e
    · exact execRun_outside (putAlpha_blockPut _) h hu e
    · cases e
  case texPlainRun value =>
    simp only [exec, execTexPlainRun] at e
    split at e
    · exact execRun_outside (putPlain_blockPut _) h hu e
    · cases e
  case texResidueWord word => exact execTexResidueWord_outside h hu e
  case datNSymbols count =>
    simp only [exec, execDatNSymbols] at e
    split at e <;> cases e
    split
    · exact .of_mem (datStop_storesNothing _ s hu)
    · exact .of_mem (datDescriptorNext_storesNothing _ _ hu)
  case datDescSkip r =>
    simp only [exec, execDatDescSkip] at e
    split at e <;> cases e
    exact .of_mem (datDescriptorNext_storesNothing _ _ hu)
  case datDescAdd r len =>
    simp only [exec, execDatDescAdd] at e
    split at e <;> cases e
    split
    · exact .of_mem (datDescriptorNext_storesNothing _ _ hu)
    · exact .of_mem (datStop_storesNothing _ { s with builder := _, dat := _ } hu)
  case datHeader method wraw => exact inPhase_outside e fun _ => .of_mem (datOuter_storesNothing _ hu)
  case datMaxCount raw => exact inPhase_outside e fun _ => .of_mem (datInner_storesNothing _ hu)
  case copyInvalid d => exact inPhase_outside e fun _ => .of_mem (datStop_storesNothing _ s hu)
  case texHeader size flags => exact inPhase_outside e fun _ => .of_mem (nextPass_storesNothing _ hu)
  case texCflagWhite => exact inPhase_outside e fun _ => .of_mem (enterRuns_storesNothing _ _ hu)
  case texCflagConstA4 | texCflagConstA8 | texCflagPlain => exact inPhase_outside e fun _ => .of_mem rfl
  case texAlphaStart wide alpha => exact inPhase_outside e fun _ => .of_mem (enterRuns_storesNothing _ s hu)
  case texPlainStart colour => exact inPhase_outside e fun _ => .of_mem (enterRuns_storesNothing _ s hu)
  all_goals first
    | exact execLength_outside hu e
    | exact execDistance_outside h hu e
    | exact execCount_outside e
    | exact execFourcc_outside hu e

theorem coreStep_outside {s t : State} (h : s.Inv) (hp : s.phase ≠ .idle) (hu : s.touched = false)
    (e : coreStep s = .next t) : OutsideKept s t := by
  have hgood := fetch_good h hp
  have hread := fetch_storesNothing hu
  unfold coreStep at e
  cases hx : fetch s with
  | instr i u =>
    rw [hx] at hgood hread e
    obtain ⟨hinv, _, _, hkind⟩ := hgood
    have hkept := exec_element_outside hinv (hread.touched hu) hkind e
    exact (OutsideKept.of_mem hread.2).trans hkept (by rw [hread.1]) (by rw [hread.1])
  | ended u =>
    rw [hx] at hread e
    cases e
    exact .of_mem hread
  | fault f => rw [hx] at e; cases e

/-- Settles O56: with no transaction due the step is one element, and `coreStep_outside` speaks of it. -/
theorem jobWritesOnlyOutputRegion : Obligations.JobWritesOnlyOutputRegion := by
  intro s t b h hp hw hu e
  rw [step_hostWaits hp hw] at e
  exact coreStep_outside (s := { s with bus := b }) (bus_inv h b) hp hu e

end Sys2Proof.Machine
end

section
/-! PROOFS. Decoder and encoder are inverse (30_encoding.md R140 to R171). The idea: a row without operands is found in
its table, whose numbers are the encoder's; an element with operands is a number in fields that division takes apart. -/

namespace Sys2Proof.Machine

/-! ### Encodings are read back -/

/-- The decoder reads the instruction back from its encoding. -/
def ReadBack (i : Instr) : Prop := decode (encode i).1 (encode i).2 = .ok i

/-- Two fields in one number, the first-read one in the high bits, are the two fields again (00_scope.md R16). -/
theorem split_fields {m n : Nat} (hi : BitVec m) (lo : BitVec n) :
    (hi.toNat * 2 ^ n + lo.toNat) / 2 ^ n = hi.toNat ∧ (hi.toNat * 2 ^ n + lo.toNat) % 2 ^ n = lo.toNat := by
  have hlo := lo.isLt
  rw [Nat.mul_comm]
  exact ⟨by rw [Nat.mul_add_div (Nat.two_pow_pos n), Nat.div_eq_of_lt hlo, Nat.add_zero],
    by rw [Nat.mul_add_mod, Nat.mod_eq_of_lt hlo]⟩

@[simp] theorem bitNat_mod_two (b : Bool) : bitNat b % 2 = bitNat b := by cases b <;> rfl
@[simp] theorem bitNat_beq_one (b : Bool) : (bitNat b == 1) = b := by cases b <;> rfl

/-- A word that no row of the opcode map holds is an illegal command (30_encoding.md R142). -/
theorem findRow_commandRows_none {v : Word} : findRow v.toNat commandRows = none ↔ v.toNat ∉ commandOpcodes := by
  have hkeys : commandOpcodes = commandRows.map Prod.fst := rfl
  rw [findRow_none, hkeys]
  simp only [List.mem_map, not_exists, not_and, ne_eq]

theorem illegalCommand_wf {v : Word} : (Instr.illegalCommand v).wf = true ↔ v.toNat ∉ commandOpcodes := by
  simp [Instr.wf]

theorem illegalCommand_readBack {v : Word} (h : (Instr.illegalCommand v).wf = true) : ReadBack (.illegalCommand v) := by
  have hnone := findRow_commandRows_none.mpr (illegalCommand_wf.mp h)
  simp [ReadBack, encode, decode, decodeCommand, hnone]

theorem datHeader_readBack (method wraw : BitVec 4) : ReadBack (.datHeader method wraw) := by
  obtain ⟨hhi, hlo⟩ : (method.toNat * 16 + wraw.toNat) / 16 = method.toNat ∧
      (method.toNat * 16 + wraw.toNat) % 16 = wraw.toNat := split_fields method wraw
  simp [ReadBack, encode, decode, hhi, hlo]

/-- A descriptor byte is a run and a length; the length 0 is a skip (30_encoding.md R154). -/
theorem decodeDescriptor_fields (r : BitVec 3) (len : BitVec 5) :
    decodeDescriptor (r.toNat * 32 + len.toNat) = .ok (if len = 0 then .datDescSkip r else .datDescAdd r len) := by
  obtain ⟨hhi, hlo⟩ : (r.toNat * 32 + len.toNat) / 32 = r.toNat ∧ (r.toNat * 32 + len.toNat) % 32 = len.toNat :=
    split_fields r len
  have hbyte : ¬256 ≤ r.toNat * 32 + len.toNat := by omega
  have hzero : len.toNat = 0 ↔ len = 0 := by simp [BitVec.toNat_eq]
  rw [decodeDescriptor, if_neg hbyte, hhi, hlo]
  simp only [hzero, BitVec.ofNat_toNat, BitVec.setWidth_eq]
  split <;> rfl

theorem datDescSkip_readBack (r : BitVec 3) : ReadBack (.datDescSkip r) := decodeDescriptor_fields r 0

theorem datDescAdd_readBack {r : BitVec 3} {len : BitVec 5} (h : (Instr.datDescAdd r len).wf = true) :
    ReadBack (.datDescAdd r len) := by
  have hadd : len ≠ 0 := by simpa [Instr.wf] using h
  have hread := decodeDescriptor_fields r len
  rwa [if_neg hadd] at hread

theorem symLiteral_readBack (byte : Byte) : ReadBack (.symLiteral byte) := by
  have hbyte : byte.toNat < 256 := byte.isLt
  simp [ReadBack, encode, decode, decodeSymSymbol, hbyte]

theorem copyInvalid_readBack {d : Symbol} (h : (Instr.copyInvalid d).wf = true) : ReadBack (.copyInvalid d) := by
  obtain ⟨hlow, hhigh⟩ : 34 ≤ d.toNat ∧ d.toNat ≤ 284 := by simpa [Instr.wf] using h
  simp [ReadBack, encode, decode, decodeCopySymbol, hhigh, Nat.not_lt.mpr hlow]

/-- The two words of a texture header, the first in the low half. -/
theorem texHeader_readBack (size flags : Word) : ReadBack (.texHeader size flags) := by
  obtain ⟨hhi, hlo⟩ := split_fields flags size
  have hsize : BitVec.ofNat 32 (flags.toNat * 2 ^ 32 + size.toNat) = size :=
    BitVec.eq_of_toNat_eq (by rw [BitVec.toNat_ofNat, hlo])
  simp only [ReadBack, encode, decode]
  rw [Nat.add_comm, hsize, hhi, BitVec.ofNat_toNat, BitVec.setWidth_eq]

theorem texAlphaStart_readBack {wide : Bool} {alpha : Byte} (h : (Instr.texAlphaStart wide alpha).wf = true) :
    ReadBack (.texAlphaStart wide alpha) := by
  cases wide with
  | true => simp [ReadBack, encode, decode]
  | false =>
    have hnibble : alpha.toNat < 16 := by simpa [Instr.wf] using h
    simp [ReadBack, encode, decode, Nat.mod_eq_of_lt hnibble]

theorem texAlphaRun_readBack (value notNull : Bool) : ReadBack (.texAlphaRun value notNull) := by
  cases value <;> cases notNull <;> rfl

/-- Settles O51: the instructions with operands by the lemmas above or as one whole field; the rows without operands
are looked up under their table's number. -/
theorem decodeReadsEncoding : Obligations.DecodeReadsEncoding := by
  intro i h
  cases i
  case illegalCommand word => exact illegalCommand_readBack h
  case datHeader method wraw => exact datHeader_readBack method wraw
  case datDescSkip r => exact datDescSkip_readBack r
  case datDescAdd r len => exact datDescAdd_readBack h
  case symLiteral byte => exact symLiteral_readBack byte
  case copyInvalid d => exact copyInvalid_readBack h
  case texHeader size flags => exact texHeader_readBack size flags
  case texAlphaStart wide alpha => exact texAlphaStart_readBack h
  case texAlphaRun value notNull => exact texAlphaRun_readBack value notNull
  case datNSymbols | datMaxCount | texPlainStart | texResidueWord | texWhiteRun | texPlainRun => simp [encode, decode]
  all_goals rfl

/-! ### What is decoded is encoded back -/

/-- The instruction is well-formed, and the number is its encoding at the place. -/
def EncodesAs (kind : ElemKind) (v : Nat) (i : Instr) : Prop := i.wf = true ∧ encode i = (kind, v)

/-- Every row of the tables is well-formed and encoded by its number (30_encoding.md R141, R156, R158, R167, R168,
43_texture_formats.md R380). -/
theorem commandRows_encodesAs : ∀ x ∈ commandRows, EncodesAs .command x.1 x.2 := by unfold EncodesAs; decide
theorem lengthRows_encodesAs : ∀ x ∈ lengthRows, EncodesAs .symSymbol x.1 x.2 := by unfold EncodesAs; decide
theorem distanceRows_encodesAs : ∀ x ∈ distanceRows, EncodesAs .copySymbol x.1 x.2 := by unfold EncodesAs; decide
theorem countRows_encodesAs : ∀ x ∈ countRows, EncodesAs .texCount x.1 x.2 := by unfold EncodesAs; decide
theorem flagRows_encodesAs : ∀ x ∈ flagRows, EncodesAs .texFlag x.1 x.2 := by unfold EncodesAs; decide
theorem fourccRows_encodesAs : ∀ x ∈ fourccRows, EncodesAs .fourcc x.1 x.2 := by unfold EncodesAs; decide

/-- What a table yields is what its row says. -/
theorem rowOr_eq_ok_iff {reject : Reject} {table : List (Nat × Instr)} {v : Nat} {i : Instr} :
    rowOr reject table v = .ok i ↔ findRow v table = some i := by
  unfold rowOr
  split <;> simp [*]

theorem rowOr_encodesAs {kind : ElemKind} {reject : Reject} {table : List (Nat × Instr)} {v : Nat} {i : Instr}
    (hrows : ∀ x ∈ table, EncodesAs kind x.1 x.2) (e : rowOr reject table v = .ok i) : EncodesAs kind v i :=
  hrows (v, i) (findRow_mem (rowOr_eq_ok_iff.mp e))

theorem decodeCommand_encodesAs (v : Word) : EncodesAs .command v.toNat (decodeCommand v) := by
  unfold decodeCommand
  cases hx : findRow v.toNat commandRows with
  | some i => exact commandRows_encodesAs _ (findRow_mem hx)
  | none => exact ⟨illegalCommand_wf.mpr (findRow_commandRows_none.mp hx), rfl⟩

theorem decodeDescriptor_encodesAs {c : Nat} {i : Instr} (e : decodeDescriptor c = .ok i) :
    EncodesAs .descriptor c i := by
  by_cases hbyte : 256 ≤ c
  · rw [decodeDescriptor, if_pos hbyte] at e; cases e
  have hc : c = (BitVec.ofNat 3 (c / 32)).toNat * 32 + (BitVec.ofNat 5 (c % 32)).toNat := by
    simp only [BitVec.toNat_ofNat]; omega
  generalize BitVec.ofNat 3 (c / 32) = r, BitVec.ofNat 5 (c % 32) = len at hc
  subst hc
  rw [decodeDescriptor_fields] at e
  split at e <;> cases e
  · subst len; exact ⟨rfl, rfl⟩
  · exact ⟨by simpa [Instr.wf], rfl⟩

theorem decodeSymSymbol_encodesAs {x : Nat} {i : Instr} (e : decodeSymSymbol x = .ok i) : EncodesAs .symSymbol x i := by
  unfold decodeSymSymbol at e
  split at e
  case isTrue hlit => cases e; exact ⟨rfl, by simp [encode, Nat.mod_eq_of_lt hlit]⟩
  case isFalse => exact rowOr_encodesAs lengthRows_encodesAs e

/-- A number that fits a field is the field's value. -/
theorem toNat_ofNat_of_lt {k v : Nat} (h : v < 2 ^ k) : (BitVec.ofNat k v).toNat = v := by
  rw [BitVec.toNat_ofNat, Nat.mod_eq_of_lt h]

theorem decodeCopySymbol_encodesAs {d : Nat} {i : Instr} (e : decodeCopySymbol d = .ok i) :
    EncodesAs .copySymbol d i := by
  unfold decodeCopySymbol at e
  split at e
  case isTrue => exact rowOr_encodesAs distanceRows_encodesAs e
  case isFalse hlow =>
    split at e
    case isTrue hhigh =>
      cases e
      have hd : (BitVec.ofNat 16 d).toNat = d := toNat_ofNat_of_lt (by omega)
      refine ⟨?_, by rw [encode, hd]⟩
      simp only [Instr.wf, hd, Bool.and_eq_true, decide_eq_true_eq]
      omega
    case isFalse => cases e

/-- The low bit of a number, read as a flag. -/
theorem bitNat_beq (v : Nat) : bitNat (v % 2 == 1) = v % 2 := by
  rcases Nat.mod_two_eq_zero_or_one v with h | h <;> rw [h] <;> rfl

/-- Settles O52: place by place, the tables by their rows, the fields by their widths. -/
theorem encodingReadsDecoded : Obligations.EncodingReadsDecoded := by
  intro kind v i hv e
  cases kind
  case command =>
    cases e
    have hword : (BitVec.ofNat 32 v).toNat = v := toNat_ofNat_of_lt hv
    have hrow := decodeCommand_encodesAs (BitVec.ofNat 32 v)
    rw [hword] at hrow
    exact hrow
  case descriptor => exact decodeDescriptor_encodesAs e
  case symSymbol => exact decodeSymSymbol_encodesAs e
  case copySymbol => exact decodeCopySymbol_encodesAs e
  case texFlag => exact rowOr_encodesAs flagRows_encodesAs e
  case texCount => exact rowOr_encodesAs countRows_encodesAs e
  case fourcc => exact rowOr_encodesAs fourccRows_encodesAs e
  all_goals
    cases e
    simp only [ElemKind.width] at hv
  case datHeader | texHeader =>
    refine ⟨rfl, ?_⟩
    simp only [encode, BitVec.toNat_ofNat, Prod.mk.injEq, true_and]
    omega
  case alphaRun | whiteRun | plainRun =>
    refine ⟨rfl, ?_⟩
    simp only [encode, bitNat_beq, Prod.mk.injEq, true_and]
    omega
  case alphaStart4 =>
    have hnibble : (BitVec.ofNat 8 (v % 16)).toNat = v := by rw [BitVec.toNat_ofNat]; omega
    exact ⟨by simpa [Instr.wf, hnibble] using hv, by simp [encode, hnibble]⟩
  case datNSymbols | maxCount | alphaStart8 | plainStart | residueWord =>
    refine ⟨rfl, ?_⟩
    simp only [encode, toNat_ofNat_of_lt hv, if_true]

/-- Settles O50: each word is looked up or taken apart as its encoding table says. -/
theorem specWordsDecode : Obligations.SpecWordsDecode :=
  ⟨rfl, rfl, rfl, rfl, rfl, rfl, rfl, rfl, rfl, rfl, rfl, rfl, rfl⟩

end Sys2Proof.Machine
end

section
/-! PROOFS. How a step reads the next element (30_encoding.md R150, R151, R165, R169). With no transaction due the step
fetches one element; each read that finds its bits valid is PEEK's value and DROP's reader, so the fetch comes down to
the decoder on the bits. -/

namespace Sys2Proof.Machine

/-! ### Reads that find their bits -/

/-- A DROP of valid bits (40_bitreader.md R205). -/
theorem drop_eq_afterDrop (m : Memory) {r : Reader} {k : Nat} (hk : k ≤ r.bits) :
    Reader.drop m r k = .ok (afterDrop m r k) := by
  simp only [Reader.drop, if_neg (Nat.not_lt.mpr hk), afterDrop]
  split <;> rfl

/-- A TAKE of valid bits (40_bitreader.md R207). -/
theorem take_eq_afterDrop (m : Memory) {r : Reader} {k : Nat} (hk : k ≤ r.bits) :
    Reader.take m r k = .ok (r.peek k, afterDrop m r k) := take_eq_ok_iff.mpr ⟨rfl, drop_eq_afterDrop m hk⟩

/-- The value a READ of at most 32 bits returns (40_bitreader.md R204). -/
theorem peek_eq_firstBits (r : Reader) {k : Nat} (hk : k ≤ 32) : r.peek k = BitVec.ofNat 32 (firstBits r k) := by
  rw [← peek_toNat r hk, BitVec.ofNat_toNat, BitVec.setWidth_eq]

/-- k bits are a number below 2^k. -/
theorem firstBits_lt (r : Reader) {k : Nat} (hk : k ≤ 64) : firstBits r k < 2 ^ k := by
  rw [firstBits, Nat.div_lt_iff_lt_mul (Nat.two_pow_pos _), ← pow_add, Nat.add_sub_cancel' hk]
  exact r.win.isLt

theorem fetchedAs_of_decode {kind : ElemKind} {v : Nat} {i : Instr} (hd : decode kind v = .ok i) (s : State) :
    fetchedAs kind v s = .instr i s := by rw [fetchedAs, hd]

theorem fetchTake_of_le {k : Nat} {s : State} (hk : k ≤ s.reader.bits) (stop : StopCode → State → State)
    (go : Word → State → Fetched) :
    fetchTake stop k s go = go (s.reader.peek k) { s with reader := afterDrop s.mem s.reader k } := by
  rw [fetchTake, take_eq_afterDrop s.mem hk]

/-- A field whose bits are valid is the element they decode to (30_encoding.md R150). -/
theorem fetchField_of_decode {kind : ElemKind} {k : Nat} {i : Instr} {s : State} (h32 : k ≤ 32)
    (hk : k ≤ s.reader.bits) (hd : decode kind (firstBits s.reader k) = .ok i) (stop : StopCode → State → State) :
    fetchField stop kind k s = .instr i { s with reader := afterDrop s.mem s.reader k } := by
  rw [fetchField, fetchTake_of_le hk, peek_toNat _ h32, fetchedAs_of_decode hd]

/-- The symbol the window starts with is the one DECODE resolves (41_huffman.md R270). -/
theorem resolve_peek (t : Tree) (r : Reader) : t.resolve (r.peek 8).toNat (r.peek 32) = windowSymbol t r := by
  rw [windowSymbol, peek_toNat r (by decide), peek_eq_firstBits r (by decide)]

/-- A symbol whose code is valid is the element it decodes to (41_huffman.md R270). -/
theorem fetchSymbol_of_decode {kind : ElemKind} {tree : Tree} {x : Symbol} {len : Nat} {i : Instr} {s : State}
    (hx : windowSymbol tree s.reader = some (x, len)) (hlen : len ≤ s.reader.bits)
    (hd : decode kind x.toNat = .ok i) (stop : StopCode → State → State) :
    fetchSymbol stop kind tree s = .instr i { s with reader := afterDrop s.mem s.reader len } := by
  have hdecode : decodeTree s.mem tree s.reader = .ok (x, len, afterDrop s.mem s.reader len) := by
    simp only [decodeTree, resolve_peek, hx, drop_eq_afterDrop s.mem hlen]
  simp only [fetchSymbol, hdecode, fetchedAs_of_decode hd]

/-- With no transaction due a step runs the element fetched (log entry 2). -/
theorem step_of_fetch {s t : State} {b : List HostEvent} {i : Instr} (hp : s.phase ≠ .idle) (hw : s.hostWaits b)
    (hf : fetch { s with bus := b } = .instr i t) : step s = exec i t := by
  rw [step_hostWaits hp hw, coreStep, hf]

/-! ### Fields and symbols -/

/-- At the place of a field a job is running, the field has at most 32 bits, and the fetch takes it. -/
theorem fetch_at_field {s : State} {kind : ElemKind} {k : Nat} (h : s.fieldPlace = some (kind, k)) :
    s.phase ≠ .idle ∧ k ≤ 32 ∧ ∃ stop, fetch s = fetchField stop kind k s := by
  unfold State.fieldPlace at h
  unfold fetch
  split at h
  all_goals cases h
  all_goals
    simp only [*, fetchRun]
    exact ⟨by simp, by decide, _, rfl⟩

/-- At the place of a Huffman code a job is running, and the fetch decodes with the place's tree. -/
theorem fetch_at_symbol {s : State} {kind : ElemKind} {tree : Tree} (h : s.symbolPlace = some (kind, tree)) :
    s.phase ≠ .idle ∧ ∃ stop, fetch s = fetchSymbol stop kind tree s := by
  unfold State.symbolPlace at h
  unfold fetch
  split at h
  all_goals cases h
  all_goals
    simp only [*]
    exact ⟨by simp, _, rfl⟩

/-- Settles O38: the place fetches a field (`fetch_at_field`), the field is its element (`fetchField_of_decode`). -/
theorem stepRunsField : Obligations.StepRunsField := by
  intro s b kind k i hw hplace hk hd
  obtain ⟨hp, h32, stop, hfetch⟩ := fetch_at_field (s := { s with bus := b }) hplace
  exact step_of_fetch hp hw (hfetch.trans (fetchField_of_decode (s := { s with bus := b }) h32 hk hd stop))

/-- Settles O39: the place fetches a symbol (`fetch_at_symbol`), the symbol is its element (`fetchSymbol_of_decode`). -/
theorem stepRunsSymbol : Obligations.StepRunsSymbol := by
  intro s b kind tree x len i hw hplace hx hlen hd
  obtain ⟨hp, stop, hfetch⟩ := fetch_at_symbol (s := { s with bus := b }) hplace
  exact step_of_fetch hp hw (hfetch.trans (fetchSymbol_of_decode (s := { s with bus := b }) hx hlen hd stop))

/-! ### Elements of two fields -/

theorem fetch_datHeader {s : State} (hp : s.phase = .datHeader) (h₁ : 4 ≤ s.reader.bits)
    (h₂ : 4 ≤ (afterDrop s.mem s.reader 4).bits) :
    fetch s =
      .instr (.datHeader (BitVec.ofNat 4 (firstBits s.reader 4))
          (BitVec.ofNat 4 (firstBits (afterDrop s.mem s.reader 4) 4)))
        { s with reader := afterDrop s.mem (afterDrop s.mem s.reader 4) 4 } := by
  have hfetch : fetch s = fetchDatHeader s := by simp only [fetch, hp]
  rw [hfetch, fetchDatHeader, fetchTake_of_le h₁, fetchTake_of_le h₂, peek_toNat _ (by decide),
    peek_toNat _ (by decide)]
  refine fetchedAs_of_decode ?_ _
  have hread := datHeader_readBack (BitVec.ofNat 4 (firstBits s.reader 4))
    (BitVec.ofNat 4 (firstBits (afterDrop s.mem s.reader 4) 4))
  simp only [ReadBack, encode] at hread
  rwa [toNat_ofNat_of_lt (firstBits_lt _ (by decide)), toNat_ofNat_of_lt (firstBits_lt _ (by decide))] at hread

theorem fetch_texHeader {s : State} (hp : s.phase = .texHeader) (h₁ : 32 ≤ s.reader.bits)
    (h₂ : 32 ≤ (afterDrop s.mem s.reader 32).bits) :
    fetch s =
      .instr (.texHeader (BitVec.ofNat 32 (firstBits s.reader 32))
          (BitVec.ofNat 32 (firstBits (afterDrop s.mem s.reader 32) 32)))
        { s with
          texDsize := BitVec.ofNat 32 (firstBits s.reader 32)
          reader := afterDrop s.mem (afterDrop s.mem s.reader 32) 32 } := by
  have hfetch : fetch s = fetchTexHeader s := by simp only [fetch, hp]
  rw [hfetch, fetchTexHeader, fetchTake_of_le h₁, fetchTake_of_le h₂, ← peek_eq_firstBits _ (by decide),
    ← peek_eq_firstBits _ (by decide)]
  exact fetchedAs_of_decode (texHeader_readBack _ _) _

/-- A READ of valid bits (40_bitreader.md R206). -/
theorem read_of_le {r : Reader} {k : Nat} (hk : k ≤ r.bits) : r.read k = .ok (r.peek k) := by
  rw [Reader.read, if_neg (Nat.not_lt.mpr hk)]

theorem decode_alphaRun {v n : Nat} (hv : v < 2) (hn : n < 2) :
    decode .alphaRun (v * 2 + n) = .ok (.texAlphaRun (v == 1) (n == 1)) := by
  interval_cases v <;> interval_cases n <;> rfl

/-- The second bit of a constant-alpha run is read, and dropped only behind a 1 (44_texture_inflater.md R417). -/
theorem fetch_alphaRun {s : State} {byte : Byte} (hp : s.phase = .texRun) (hpass : s.tex.pass = .alpha byte)
    (h₁ : 1 ≤ s.reader.bits) (h₂ : 1 ≤ (afterDrop s.mem s.reader 1).bits) :
    fetch s =
      .instr (.texAlphaRun (firstBits s.reader 1 == 1) (firstBits (afterDrop s.mem s.reader 1) 1 == 1))
        { s with
          reader :=
            if firstBits s.reader 1 = 1 then afterDrop s.mem (afterDrop s.mem s.reader 1) 1
            else afterDrop s.mem s.reader 1 } := by
  have hone : s.reader.peek 1 = 1 ↔ firstBits s.reader 1 = 1 := by
    rw [BitVec.toNat_eq, peek_toNat _ (by decide)]; rfl
  have hdecode := decode_alphaRun (firstBits_lt s.reader (k := 1) (by decide))
    (firstBits_lt (afterDrop s.mem s.reader 1) (k := 1) (by decide))
  have hfetch : fetch s = fetchAlphaRun s := by simp only [fetch, hp, fetchRun, hpass]
  rw [hfetch, fetchAlphaRun, fetchTake_of_le h₁]
  simp only [read_of_le h₂, drop_eq_afterDrop s.mem h₂, hone, peek_toNat, Nat.one_le_ofNat, fetchedAs_of_decode hdecode]
  split <;> rfl

/-! ### Elements read from registers -/

/-- The lowest flag still set is the one whose pass is next (30_encoding.md R167). -/
theorem lowestFlag_eq {p : BitVec 4} {k : Nat} (hk : k < 4) (hset : p.getLsbD k = true)
    (hbelow : ∀ j < k, p.getLsbD j = false) : lowestFlag p = 2 ^ k := by
  unfold lowestFlag
  interval_cases k
  · rw [if_pos hset]; rfl
  · simp only [hset, hbelow 0 (by decide)]; rfl
  · simp only [hset, hbelow 0 (by decide), hbelow 1 (by decide)]; rfl
  · simp only [hset, hbelow 0 (by decide), hbelow 1 (by decide), hbelow 2 (by decide)]; rfl

theorem decode_texFlag : ∀ k < 4, decode .texFlag (2 ^ k) =
    .ok ([Instr.texCflagWhite, .texCflagConstA4, .texCflagConstA8, .texCflagPlain].getD k .nop) := by decide

theorem fetch_texFlag {s : State} {k : Nat} (hp : s.phase = .texFlag) (hk : k < 4)
    (hset : s.tex.pending.getLsbD k = true) (hbelow : ∀ j < k, s.tex.pending.getLsbD j = false) :
    fetch s =
      .instr ([Instr.texCflagWhite, .texCflagConstA4, .texCflagConstA8, .texCflagPlain].getD k .nop) s := by
  have hfetch : fetch s = fetchedAs .texFlag (lowestFlag s.tex.pending) s := by simp only [fetch, hp]
  rw [hfetch, lowestFlag_eq hk hset hbelow, fetchedAs_of_decode (decode_texFlag k hk)]

/-- The decoder reads each FourCC of the format table (43_texture_formats.md R380). -/
theorem decode_fourcc_row : ∀ f ∈ formatRows, decode .fourcc f.fourcc.toNat = .ok f.instr := by decide

/-- It reads no other (43_texture_formats.md R386). -/
theorem decode_fourcc_unknown {w : Word} (h : ∀ f ∈ formatRows, w ≠ f.fourcc) :
    decode .fourcc w.toNat = .error .unknownFourcc := by
  have hkeys : ∀ x ∈ fourccRows, ∃ f ∈ formatRows, f.fourcc.toNat = x.1 := by decide
  have hnone : findRow w.toNat fourccRows = none := findRow_none.mpr fun x hx hw => by
    obtain ⟨f, hf, hkey⟩ := hkeys x hx
    exact h f hf (BitVec.eq_of_toNat_eq (hw.symm.trans hkey.symm))
  simp only [decode, rowOr, hnone]

theorem fetch_fourcc {s : State} {f : FormatRow} (hp : s.phase = .texFourcc) (hf : f ∈ formatRows)
    (hw : s.texFourcc = f.fourcc) : fetch s = .instr f.instr s := by
  have hfetch : fetch s = fetchFourcc s := by simp only [fetch, hp]
  rw [hfetch, fetchFourcc, hw, decode_fourcc_row f hf]

/-- An unknown FourCC ends an undisturbed job with INVALID_FOURCC (60_exceptions.md R513, R514). -/
theorem fetch_unknown_fourcc {s : State} (hp : s.phase = .texFourcc) (hall : ∀ f ∈ formatRows, s.texFourcc ≠ f.fourcc)
    (ht : s.touched = false) : fetch s = .ended (State.finished 4 0 0 s) := by
  have hfetch : fetch s = fetchFourcc s := by simp only [fetch, hp]
  rw [hfetch, fetchFourcc, decode_fourcc_unknown hall]
  exact congrArg Fetched.ended (endJob_undisturbed ht _ _ _)

/-- Settles O40: each clause names what the place fetches, and `step_of_fetch` runs it. -/
theorem stepRunsHeadersAndSelectors : Obligations.StepRunsHeadersAndSelectors := by
  refine ⟨fun s b hw => ⟨?datHeader, ?texHeader, ?alphaRun⟩, fun s b hw => ⟨?flag, fun hp => ⟨?known, ?unknown⟩⟩⟩
  case datHeader =>
    rintro hp r rfl h₁ h₂
    exact step_of_fetch (by simp [hp]) hw (fetch_datHeader (s := { s with bus := b }) hp h₁ h₂)
  case texHeader =>
    rintro hp r rfl h₁ h₂
    exact step_of_fetch (by simp [hp]) hw (fetch_texHeader (s := { s with bus := b }) hp h₁ h₂)
  case alphaRun =>
    rintro hp ⟨byte, hpass⟩ r rfl h₁ h₂
    exact step_of_fetch (by simp [hp]) hw (fetch_alphaRun (s := { s with bus := b }) hp hpass h₁ h₂)
  case flag =>
    intro hp k hk hset hbelow
    exact step_of_fetch (by simp [hp]) hw (fetch_texFlag (s := { s with bus := b }) hp hk hset hbelow)
  case known =>
    intro f hf hfourcc
    exact step_of_fetch (by simp [hp]) hw (fetch_fourcc (s := { s with bus := b }) hp hf hfourcc)
  case unknown =>
    intro hall ht
    rw [step_hostWaits (by simp [hp]) hw, coreStep, fetch_unknown_fourcc (s := { s with bus := b }) hp hall ht]

end Sys2Proof.Machine
end

section
/-! PROOFS. NOP and the illegal command words (30_encoding.md R142, 45_control.md R472, R474): a word is illegal exactly
if no row of the opcode map has its number, and both only accept and complete. -/

namespace Sys2Proof.Machine

/-- A command word is illegal exactly if it is none of the opcodes (30_encoding.md R142). -/
theorem decodeCommand_illegal_iff {v : Word} : decodeCommand v = .illegalCommand v ↔ v.toNat ∉ commandOpcodes := by
  rw [← findRow_commandRows_none]
  unfold decodeCommand
  cases hx : findRow v.toNat commandRows with
  | none => simp
  | some i =>
    have hlegal : ∀ x ∈ commandRows, ∀ w, x.2 ≠ .illegalCommand w := by simp [commandRows]
    simpa using hlegal _ (findRow_mem hx) v

/-- A word is the number of a listed byte exactly if its upper bytes are 0 and its low byte is listed. -/
theorem toNat_mem_map_toNat {v : Word} {l : List Byte} :
    v.toNat ∈ l.map BitVec.toNat ↔ v.extractLsb' 8 24 = 0 ∧ v.extractLsb' 0 8 ∈ l := by
  have hv := v.isLt
  have hhigh : v.extractLsb' 8 24 = 0 ↔ v.toNat < 256 := by
    simp only [BitVec.toNat_eq, BitVec.extractLsb'_toNat, Nat.shiftRight_eq_div_pow,
      BitVec.ofNat_eq_ofNat, BitVec.toNat_ofNat]
    omega
  rw [hhigh, List.mem_map]
  constructor
  · rintro ⟨b, hb, e⟩
    have hbyte := b.isLt
    refine ⟨by omega, ?_⟩
    have hlow : v.extractLsb' 0 8 = b := BitVec.eq_of_toNat_eq (by simp; omega)
    rwa [hlow]
  · rintro ⟨hlt, hmem⟩
    exact ⟨_, hmem, by simp; omega⟩

/-- STATUS after a completion without error or stop reads 2, DONE alone (10_state.md R34). -/
theorem completed_statusWord (v : Word) (s : State) : (s.completed v 0 0).statusWord = 2 := by
  simp [State.statusWord, State.completed, State.busy, flagWord]

/-- Settles O1: the two commands by `command_idle`, the illegal words by `decodeCommand_illegal_iff`. -/
theorem nopAndIllegalWords : Obligations.NopAndIllegalWords := by
  refine ⟨fun s hp => ⟨fun hr => ?_, command_idle hp _ _, completed_statusWord _ s⟩, fun v => ?_,
    fun v s hp => command_idle hp _ _⟩
  · have hwrite : hostStep (.write 0x08 4 0x00000000) s = exec .nop s := by
      simp [hostStep, State.windowWrite, accessOk, State.hostWrite, hr, decodeCommand, findRow, commandRows]
    exact hwrite.trans (command_idle hp _ _)
  · have hopcodes : commandOpcodes = ([0x00, 0x01, 0x02, 0x03, 0x10, 0x11, 0x12, 0x13, 0x14, 0x20, 0x21, 0x22, 0x23,
        0x24] : List Byte).map BitVec.toNat := rfl
    rw [decodeCommand_illegal_iff, hopcodes, toNat_mem_map_toNat, not_and_or]

end Sys2Proof.Machine
end

section
/-! PROOFS. Which instructions store to memory (30_encoding.md R141, 20_memory.md R105, R113). The idea: the bodies of
the commands and the control flow between two elements store nothing; only the elements that write bytes do. -/

namespace Sys2Proof.Machine

/-- A command stores nothing if its body stores nothing: it is ignored, or accepted and run (45_control.md R470,
R471). -/
theorem command_storesNothing {v : Word} {run : State → State} (hrun : StoresNothing run) {s t : State}
    (hu : s.touched = false) (e : command v run s = .next t) : t.mem = s.mem := by
  by_cases hp : s.phase = .idle
  · rw [command_idle hp] at e
    cases e
    exact hrun (s.accept v) hu
  · rw [command_busy hp] at e
    cases e
    rfl

/-! ### The bodies of the commands -/

theorem succeed_storesNothing : StoresNothing State.succeed := fun _ _ => rfl
theorem raiseError_storesNothing (code : ErrCode) : StoresNothing (State.raiseError code) := fun _ _ => rfl
theorem hbClear_storesNothing : StoresNothing hbClear := fun _ _ => rfl

theorem startDat_storesNothing : StoresNothing startDat := by
  intro s _
  unfold startDat
  split
  · exact jobError_storesNothing _ s.startJob rfl
  · rfl

theorem startTexture_storesNothing : StoresNothing startTexture := by
  intro s _
  unfold startTexture
  split
  · exact jobError_storesNothing _ s.startJob rfl
  · rfl

theorem texFormat_storesNothing : StoresNothing texFormat := by
  intro s _
  unfold texFormat
  split <;> rfl

theorem brInit_storesNothing : StoresNothing brInit := by
  intro s _
  unfold brInit
  repeat' split
  all_goals rfl

theorem brPeek_storesNothing : StoresNothing brPeek := by
  intro s _
  unfold brPeek
  split <;> rfl

theorem brRead_storesNothing : StoresNothing brRead := by
  intro s _
  unfold brRead
  repeat' split
  all_goals rfl

theorem brDrop_storesNothing : StoresNothing brDrop := by
  intro s _
  unfold brDrop
  repeat' split
  all_goals rfl

theorem brTake_storesNothing : StoresNothing brTake := by
  intro s _
  unfold brTake
  repeat' split
  all_goals rfl

theorem hbAdd_storesNothing : StoresNothing hbAdd := by
  intro s _
  unfold hbAdd
  split <;> rfl

theorem hbBuild_storesNothing : StoresNothing hbBuild := by
  intro s _
  unfold hbBuild
  split
  · rfl
  · split
    · exact setTree_mem _ _ _
    · exact setTree_mem _ _ _

theorem htDecode_storesNothing : StoresNothing htDecode := by
  intro s _
  unfold htDecode
  repeat' split
  all_goals rfl

theorem htCode_storesNothing : StoresNothing htCode := by
  intro s _
  unfold htCode
  repeat' split
  all_goals rfl

/-! ### The elements -/

/-- An element stores nothing if its meaning at its place stores nothing. -/
theorem inPhase_storesNothing {p : Phase} {s t u : State} (e : inPhase p s t = .next u) (h : t.mem = s.mem) :
    u.mem = s.mem := by
  obtain ⟨_, rfl⟩ := inPhase_next e
  exact h

/-- The instructions that store to memory: a literal, a valid distance code, the fields of a run, a residue word. -/
inductive StoresBytes : Instr → Prop
  | literal (byte : Byte) : StoresBytes (.symLiteral byte)
  | distance {i : Instr} (row : i ∈ distanceTable.map Prod.fst) : StoresBytes i
  | whiteRun (value : Bool) : StoresBytes (.texWhiteRun value)
  | alphaRun (value notNull : Bool) : StoresBytes (.texAlphaRun value notNull)
  | plainRun (value : Bool) : StoresBytes (.texPlainRun value)
  | residueWord (word : Word) : StoresBytes (.texResidueWord word)

theorem execLength_storesNothing {base extra : Nat} {s t : State} (hu : s.touched = false)
    (e : execLength base extra s = .next t) : t.mem = s.mem :=
  inPhase_storesNothing e (lengthCode_storesNothing base extra s hu)

theorem execCount_storesNothing {count : Nat} {s t : State} (e : execCount count s = .next t) : t.mem = s.mem :=
  inPhase_storesNothing e rfl

theorem execFourcc_storesNothing {flags : BitVec 10} {ps : Nat} {s t : State} (hu : s.touched = false)
    (e : inPhase .texFourcc s (selectFormat flags ps s) = .next t) : t.mem = s.mem :=
  inPhase_storesNothing e (selectFormat_storesNothing flags ps s hu)

theorem execDatNSymbols_storesNothing {count : BitVec 16} {s t : State} (hu : s.touched = false)
    (e : execDatNSymbols count s = .next t) : t.mem = s.mem := by
  simp only [execDatNSymbols] at e
  split at e <;> cases e
  split
  · exact datStop_storesNothing _ s hu
  · exact datDescriptorNext_storesNothing _ { s with dat := _ } hu

theorem execDatDescSkip_storesNothing {r : BitVec 3} {s t : State} (hu : s.touched = false)
    (e : execDatDescSkip r s = .next t) : t.mem = s.mem := by
  simp only [execDatDescSkip] at e
  split at e <;> cases e
  exact datDescriptorNext_storesNothing _ { s with dat := _ } hu

theorem execDatDescAdd_storesNothing {r : BitVec 3} {len : BitVec 5} {s t : State} (hu : s.touched = false)
    (e : execDatDescAdd r len s = .next t) : t.mem = s.mem := by
  simp only [execDatDescAdd] at e
  split at e <;> cases e
  split
  · exact datDescriptorNext_storesNothing _ { s with builder := _, dat := _ } hu
  · exact datStop_storesNothing _ { s with builder := _, dat := _ } hu

/-! ### Every instruction -/

/-- An instruction of an undisturbed job stores bytes by its kind, or leaves memory as it is. -/
theorem exec_storesNothing {i : Instr} {s t : State} (hi : ¬StoresBytes i) (hu : s.touched = false)
    (e : exec i s = .next t) : t.mem = s.mem := by
  cases i
  case nop => exact command_storesNothing succeed_storesNothing hu e
  case illegalCommand word => exact command_storesNothing (raiseError_storesNothing .badCommand) hu e
  case inflateDat => exact command_storesNothing startDat_storesNothing hu e
  case inflateTexture => exact command_storesNothing startTexture_storesNothing hu e
  case texFormat => exact command_storesNothing texFormat_storesNothing hu e
  case brInit => exact command_storesNothing brInit_storesNothing hu e
  case brPeek => exact command_storesNothing brPeek_storesNothing hu e
  case brRead => exact command_storesNothing brRead_storesNothing hu e
  case brDrop => exact command_storesNothing brDrop_storesNothing hu e
  case brTake => exact command_storesNothing brTake_storesNothing hu e
  case hbClear => exact command_storesNothing hbClear_storesNothing hu e
  case hbAdd => exact command_storesNothing hbAdd_storesNothing hu e
  case hbBuild => exact command_storesNothing hbBuild_storesNothing hu e
  case htDecode => exact command_storesNothing htDecode_storesNothing hu e
  case htCode => exact command_storesNothing htCode_storesNothing hu e
  case datHeader method wraw => exact inPhase_storesNothing e (datOuter_storesNothing _ hu)
  case datNSymbols count => exact execDatNSymbols_storesNothing hu e
  case datDescSkip r => exact execDatDescSkip_storesNothing hu e
  case datDescAdd r len => exact execDatDescAdd_storesNothing hu e
  case datMaxCount raw => exact inPhase_storesNothing e (datInner_storesNothing _ hu)
  case copyInvalid d => exact inPhase_storesNothing e (datStop_storesNothing _ s hu)
  case texHeader size flags => exact inPhase_storesNothing e (nextPass_storesNothing _ hu)
  case texCflagWhite => exact inPhase_storesNothing e (enterRuns_storesNothing _ (s.clearFlag 0) hu)
  case texCflagConstA4 | texCflagConstA8 | texCflagPlain => exact inPhase_storesNothing e rfl
  case texAlphaStart wide alpha => exact inPhase_storesNothing e (enterRuns_storesNothing _ s hu)
  case texPlainStart colour => exact inPhase_storesNothing e (enterRuns_storesNothing _ s hu)
  case symLiteral byte => exact absurd (.literal byte) hi
  case texWhiteRun value => exact absurd (.whiteRun value) hi
  case texAlphaRun value notNull => exact absurd (.alphaRun value notNull) hi
  case texPlainRun value => exact absurd (.plainRun value) hi
  case texResidueWord word => exact absurd (.residueWord word) hi
  case copyDist0 | copyDist1 | copyDist2 | copyDist3 | copyDist4 | copyDist5 | copyDist6 | copyDist7 |
      copyDist8 | copyDist9 | copyDist10 | copyDist11 | copyDist12 | copyDist13 | copyDist14 | copyDist15 |
      copyDist16 | copyDist17 | copyDist18 | copyDist19 | copyDist20 | copyDist21 | copyDist22 | copyDist23 |
      copyDist24 | copyDist25 | copyDist26 | copyDist27 | copyDist28 | copyDist29 | copyDist30 | copyDist31 |
      copyDist32 | copyDist33 =>
    exact absurd (.distance (by decide)) hi
  all_goals first
    | exact execLength_storesNothing hu e
    | exact execCount_storesNothing e
    | exact execFourcc_storesNothing hu e

/-- Settles O49: the instructions excluded are those that store bytes, and `exec_storesNothing` speaks of the others. -/
theorem otherInstructionsStoreNothing : Obligations.OtherInstructionsStoreNothing := by
  intro i s t e hu hliteral hdistance hwhite halpha hplain hresidue a
  have hi : ¬StoresBytes i := by
    intro h
    cases h with
    | literal byte => exact hliteral byte rfl
    | distance row =>
      obtain ⟨c, hc, rfl⟩ := List.mem_map.mp row
      exact hdistance c hc rfl
    | whiteRun value => exact hwhite value rfl
    | alphaRun value notNull => exact halpha value notNull rfl
    | plainRun value => exact hplain value rfl
    | residueWord word => exact hresidue word rfl
  rw [exec_storesNothing hi hu e]

end Sys2Proof.Machine
end

section
/-! PROOFS. The BitReader's own operations (40_bitreader.md R201 to R203, R208): which words PULL skips and what it
loads, the merge in its two-word form, and ALIGN32. The window's unused bits are 0, so a merged word is added to it. -/

namespace Sys2Proof.Machine

/-! ### Words of memory -/

/-- Appending puts the first word above the second. -/
theorem toNat_append_eq_add {m n : Nat} (x : BitVec m) (y : BitVec n) : (x ++ y).toNat = x.toNat * 2 ^ n + y.toNat := by
  rw [BitVec.toNat_append, ← Nat.shiftLeft_add_eq_or_of_lt y.isLt, Nat.shiftLeft_eq]

/-- A word read is the little-endian sum of its four bytes (20_memory.md R104, R106). -/
theorem readWord_toNat (m : Memory) (a : Word) : (m.readWord a).toNat = memRead m a 4 := by
  simp only [memRead, List.range_succ, List.range_zero, List.map_append, List.map_cons, List.map_nil, List.nil_append,
    List.sum_append, List.sum_singleton, Memory.readWord, toNat_append_eq_add, BitVec.ofNat_eq_ofNat, BitVec.add_zero]
  ring

theorem read_toNat (m : Memory) (a : Word) : (m.read a).toNat = memRead m a 1 := by
  simp [memRead]

/-! ### The skip -/

/-- No policy skips word 0 (40_bitreader.md R202). -/
theorem skipApplies_zero (policy : SkipPolicy) : skipApplies policy 0 = false := by
  cases policy <;> simp [skipApplies]

theorem skipApplies_everyNth_iff {n : BitVec 16} {p : Nat} :
    skipApplies (.everyNth n) p = true ↔ (p / 4 + 1) % n.toNat = 0 ∧ p / 4 ≠ 0 := by
  simp [skipApplies]

theorem skipApplies_every64K_iff {p : Nat} : skipApplies .every64K p = true ↔ ∃ m, p = 65524 + 65536 * m := by
  simp only [skipApplies, Bool.and_eq_true, decide_eq_true_eq, beq_iff_eq]
  constructor
  · rintro ⟨hpos, hmod⟩
    exact ⟨p / 65536, by omega⟩
  · rintro ⟨m, rfl⟩
    omega

theorem skipWord_eq_ite (r : Reader) :
    r.skipWord =
      if skipApplies r.skip r.cursor.toNat = true ∧ 4 ≤ r.remaining.toNat then
        { r with cursor := r.cursor + 4, remaining := r.remaining - 4 }
      else r := by
  simp [Reader.skipWord, Reader.stepOver]

/-! ### The merge -/

/-- The places behind n valid bits: a word and what is below it. -/
theorem two_pow_behind {n : Nat} (hn : n ≤ 32) : 2 ^ (64 - n) = 2 ^ 32 * 2 ^ (32 - n) := by
  rw [← pow_add]
  congr 1
  omega

/-- Zeros below the valid bits: the window is a multiple of their place (10_state.md R51). -/
theorem two_pow_dvd_win {r : Reader} (h : r.win <<< r.bits = 0) (hn : r.bits ≤ 64) :
    2 ^ (64 - r.bits) ∣ r.win.toNat := by
  have hzero : 2 ^ (64 - r.bits) * 2 ^ r.bits ∣ r.win.toNat * 2 ^ r.bits := by
    rw [← pow_add, Nat.sub_add_cancel hn, ← Nat.shiftLeft_eq]
    exact Nat.dvd_of_mod_eq_zero (by rw [← BitVec.toNat_shiftLeft, h]; rfl)
  exact Nat.dvd_of_mul_dvd_mul_right (Nat.two_pow_pos _) hzero

/-- The merged word is added behind the valid bits (40_bitreader.md R203). -/
theorem merge_win_toNat {r : Reader} (v : Word) (h : r.win <<< r.bits = 0) (hn : r.bits ≤ 32) :
    (r.merge v).win.toNat = r.win.toNat + v.toNat * 2 ^ (32 - r.bits) := by
  obtain ⟨high, hhigh⟩ := two_pow_dvd_win h (by omega)
  have hbelow : v.toNat * 2 ^ (32 - r.bits) < 2 ^ (64 - r.bits) := by
    rw [two_pow_behind hn]
    exact Nat.mul_lt_mul_of_pos_right v.isLt (Nat.two_pow_pos _)
  have hfits : v.toNat * 2 ^ (32 - r.bits) < 2 ^ 64 :=
    hbelow.trans_le (Nat.pow_le_pow_right (by decide) (Nat.sub_le _ _))
  rw [merge_win, BitVec.toNat_or, BitVec.toNat_shiftLeft, BitVec.toNat_setWidth_of_le (by decide), Nat.shiftLeft_eq,
    Nat.mod_eq_of_lt hfits, hhigh, Nat.two_pow_add_eq_or_of_lt hbelow]

theorem merge_head {r : Reader} (v : Word) (hn : r.bits ≤ 32) : (r.merge v).head = r.head ||| (v >>> r.bits) := by
  ext i hi
  have hin : 32 + i < 64 := by omega
  have hbehind : ¬ 32 + i < 32 - r.bits := by omega
  have hplace : 32 + i - (32 - r.bits) = r.bits + i := by omega
  simp [Reader.head, hin, hbehind, hplace]

/-- Fewer than 32 valid bits all lie in the head (10_state.md R51). -/
theorem buffer_eq_zero {r : Reader} (h : r.win <<< r.bits = 0) (hn : r.bits ≤ 32) : r.buffer = 0 := by
  obtain ⟨high, hhigh⟩ := two_pow_dvd_win h (by omega)
  refine BitVec.eq_of_toNat_eq ?_
  rw [Reader.buffer, BitVec.extractLsb'_toNat, Nat.shiftRight_zero, hhigh, two_pow_behind hn, Nat.mul_assoc,
    Nat.mul_mod_right]
  rfl

theorem merge_buffer {r : Reader} (v : Word) (h : r.win <<< r.bits = 0) (hn : r.bits ≤ 32) :
    (r.merge v).buffer = v <<< (32 - r.bits) := by
  have hor : (r.merge v).buffer = r.buffer ||| v <<< (32 - r.bits) := by
    ext i hi
    have hin : i < 64 := by omega
    simp [Reader.buffer, hin, BitVec.getLsbD_eq_getElem (show i - (32 - r.bits) < 32 by omega)]
  rw [hor, buffer_eq_zero h hn]
  exact BitVec.zero_or

theorem win_eq_zero_of_no_bits {r : Reader} (h : r.win <<< r.bits = 0) (hn : r.bits = 0) : r.win = 0 := by
  simpa [hn] using h

/-! ### Reads past the valid bits -/

/-- A DROP of more than the valid bits (40_bitreader.md R205). -/
theorem drop_of_short (m : Memory) {r : Reader} {k : Nat} (hk : r.bits < k) : Reader.drop m r k = .error .exhausted :=
  if_pos hk

/-- A READ of more than the valid bits (40_bitreader.md R206). -/
theorem read_of_short {r : Reader} {k : Nat} (hk : r.bits < k) : r.read k = .error .exhausted := if_pos hk

/-- A TAKE of more than the valid bits (40_bitreader.md R207). -/
theorem take_of_short (m : Memory) {r : Reader} {k : Nat} (hk : r.bits < k) : Reader.take m r k = .error .exhausted := by
  rw [Reader.take, read_of_short hk]

/-! ### The statements -/

/-- Settles O6: the skip by `skipWord_eq_ite`, the load by the cases of PULL and `merge_win_toNat`. -/
theorem pullSkipsAndLoadsWords : Obligations.PullSkipsAndLoadsWords := by
  refine ⟨fun p _ => ⟨rfl, fun n _ => skipApplies_everyNth_iff, skipApplies_every64K_iff⟩, ?pull,
    fun m a => ⟨readWord_toNat m a, read_toNat m a⟩⟩
  rintro m r hzero hn q rfl
  rw [← skipWord_eq_ite]
  obtain ⟨_, rfl, ⟨hrem, hpull⟩ | ⟨hrem, hpull⟩⟩ := pull_cases m r
  · exact ⟨fun _ => hpull, fun h => by omega⟩
  · refine ⟨fun h => by omega, fun _ =>
      ⟨(r.skipWord.stepOver.merge (m.readWord (r.skipWord.start + r.skipWord.cursor))).win, ?reader, ?window⟩⟩
    case reader =>
      rw [hpull, Reader.merge, stepOver_bits, skipWord_bits]
      rfl
    case window =>
      have hwin := merge_win_toNat (r := r.skipWord.stepOver) (m.readWord (r.skipWord.start + r.skipWord.cursor))
        (by simpa using hzero) (by simpa using hn.le)
      simpa [readWord_toNat] using hwin

/-- Settles O7: without a valid bit the window is 0, and the two forms agree on it. -/
theorem mergeIsTwoWordForm : Obligations.MergeIsTwoWordForm := by
  intro r v hzero hn
  rw [merge_head v (by omega), merge_buffer v hzero (by omega)]
  refine ⟨?head, ?buffer, rfl, by simp, by simp; omega⟩
  case head =>
    split
    · have hwin := win_eq_zero_of_no_bits hzero ‹_›
      simp [Reader.head, hwin, ‹r.bits = 0›]
    · rfl
  case buffer =>
    split
    · simp [*]
    · rfl

/-- Settles O9: with a whole word valid the rest in front of it is dropped, else all valid bits, and then no word is left
to pull (10_state.md R52). -/
theorem alignReachesWordBoundary : Obligations.AlignReachesWordBoundary := by
  intro m r h
  have hdrop : Reader.drop m r (r.bits % 32) = .ok (alignedReader r) := by
    have hfew := h.few
    by_cases hword : 32 ≤ r.bits
    · have hmod : r.bits % 32 = r.bits - 32 := by omega
      have hleft : r.bits - (r.bits - 32) = 32 := by omega
      rw [hmod, drop_of_le m (by omega), alignedReader, if_pos hword, Reader.shiftOut, hleft]
    · have hrem : r.remaining.toNat < 4 := h.filled.resolve_left hword
      rw [Nat.mod_eq_of_lt (by omega), drop_of_lt m le_rfl (by omega), pull_of_no_word m (by simpa using hrem),
        alignedReader, if_neg hword, Reader.shiftOut, h.zeroBelow, Nat.sub_self]
  exact ⟨hdrop, by rw [Reader.align32, hdrop]⟩

end Sys2Proof.Machine
end

section
/-! PROOFS. The BR_* commands (40_bitreader.md R220 to R224): each body is its argument check, then the reader's
operation, whose bits are valid or not. -/

namespace Sys2Proof.Machine

/-! ### BR_INIT -/

/-- The construction of a reader (40_bitreader.md R200): its PULL skips nothing, and loads word 0 if the region holds
it. -/
theorem readerInit_eq_freshReader (m : Memory) (a len : Word) (code : BitVec 16) :
    readerInit m a len code = freshReader m a len code := by
  have hskip : ∀ r : Reader, r.cursor = 0 → r.skipWord = r := fun r hr => by
    simp [Reader.skipWord, hr, skipApplies_zero]
  rw [readerInit, Reader.pull, hskip _ rfl, Reader.loadWord, freshReader]
  split
  · rfl
  · simp [Reader.stepOver, Reader.merge, skipPolicyOf, codedPolicy]

theorem brInit_eq (s : State) :
    brInit s =
      if 0xFFFF < s.arg0.toNat then s.raiseError .badArgument
      else if 2 ^ 32 < s.inBase.toNat + s.inLen.toNat then s.raiseError .regionWrap
      else State.succeed
        { s with reader := freshReader s.mem s.inBase s.inLen (BitVec.ofNat 16 s.arg0.toNat) } := by
  simp [brInit, State.skipCodeOk, regionWraps, readerInit_eq_freshReader, BitVec.ofNat_toNat]

theorem exec_brInit {s : State} (hp : s.phase = .idle) :
    exec .brInit s = .next
      (if 0xFFFF < s.arg0.toNat then s.completed 0x10 6 0
      else if 2 ^ 32 < s.inBase.toNat + s.inLen.toNat then s.completed 0x10 7 0
      else { s.completed 0x10 0 0 with
        reader := freshReader s.mem s.inBase s.inLen (BitVec.ofNat 16 s.arg0.toNat) }) :=
  (command_idle hp _ _).trans (congrArg Host.Outcome.next (brInit_eq _))

/-- Settles O3: the three cases of `exec_brInit`. -/
theorem brInitConstructsReader : Obligations.BrInitConstructsReader := by
  intro s hp
  rw [exec_brInit hp]
  refine ⟨fun harg => ?badArgument, fun harg hwrap => ?regionWrap, fun harg hfits => ?fresh⟩
  case badArgument => rw [if_pos harg]
  case regionWrap => rw [if_neg (Nat.not_lt.mpr harg), if_pos hwrap]
  case fresh => rw [if_neg (Nat.not_lt.mpr harg), if_neg (Nat.not_lt.mpr hfits)]

/-! ### BR_PEEK, BR_READ, BR_DROP, BR_TAKE -/

theorem brPeek_eq (s : State) :
    brPeek s =
      if 32 < s.arg0.toNat then s.raiseError .badArgument
      else State.succeed { s with result0 := BitVec.ofNat 32 (firstBits s.reader s.arg0.toNat) } := by
  by_cases harg : 32 < s.arg0.toNat
  · simp [brPeek, State.bitCountOk, harg]
  · simp [brPeek, State.bitCountOk, harg, Nat.not_lt.mp harg, peek_eq_firstBits]

theorem brRead_eq (s : State) :
    brRead s =
      if 32 < s.arg0.toNat then s.raiseError .badArgument
      else if s.reader.bits < s.arg0.toNat then s.raiseStop .exhausted
      else State.succeed { s with result0 := BitVec.ofNat 32 (firstBits s.reader s.arg0.toNat) } := by
  by_cases harg : 32 < s.arg0.toNat
  · simp [brRead, State.bitCountOk, harg]
  · by_cases hk : s.reader.bits < s.arg0.toNat
    · simp [brRead, State.bitCountOk, harg, Nat.not_lt.mp harg, hk, read_of_short]
    · simp [brRead, State.bitCountOk, harg, Nat.not_lt.mp harg, hk, read_of_le (Nat.not_lt.mp hk), peek_eq_firstBits]

theorem brDrop_eq (s : State) :
    brDrop s =
      if 32 < s.arg0.toNat then s.raiseError .badArgument
      else if s.reader.bits < s.arg0.toNat then s.raiseStop .exhausted
      else State.succeed { s with reader := afterDrop s.mem s.reader s.arg0.toNat } := by
  by_cases harg : 32 < s.arg0.toNat
  · simp [brDrop, State.bitCountOk, harg]
  · by_cases hk : s.reader.bits < s.arg0.toNat
    · simp [brDrop, State.bitCountOk, harg, Nat.not_lt.mp harg, hk, drop_of_short]
    · simp [brDrop, State.bitCountOk, harg, Nat.not_lt.mp harg, hk, drop_eq_afterDrop s.mem (Nat.not_lt.mp hk)]

theorem brTake_eq (s : State) :
    brTake s =
      if 32 < s.arg0.toNat then s.raiseError .badArgument
      else if s.reader.bits < s.arg0.toNat then s.raiseStop .exhausted
      else State.succeed
        { s with
          result0 := BitVec.ofNat 32 (firstBits s.reader s.arg0.toNat)
          reader := afterDrop s.mem s.reader s.arg0.toNat } := by
  by_cases harg : 32 < s.arg0.toNat
  · simp [brTake, State.bitCountOk, harg]
  · by_cases hk : s.reader.bits < s.arg0.toNat
    · simp [brTake, State.bitCountOk, harg, Nat.not_lt.mp harg, hk, take_of_short]
    · simp [brTake, State.bitCountOk, harg, Nat.not_lt.mp harg, hk, take_eq_afterDrop s.mem (Nat.not_lt.mp hk),
        peek_eq_firstBits]

/-! ### The commands run on an idle core -/

theorem exec_brPeek {s : State} (hp : s.phase = .idle) :
    exec .brPeek s = .next
      (if 32 < s.arg0.toNat then s.completed 0x11 6 0
      else { s.completed 0x11 0 0 with result0 := BitVec.ofNat 32 (firstBits s.reader s.arg0.toNat) }) :=
  (command_idle hp _ _).trans (congrArg Host.Outcome.next (brPeek_eq _))

theorem exec_brRead {s : State} (hp : s.phase = .idle) :
    exec .brRead s = .next
      (if 32 < s.arg0.toNat then s.completed 0x12 6 0
      else if s.reader.bits < s.arg0.toNat then s.completed 0x12 0 1
      else { s.completed 0x12 0 0 with result0 := BitVec.ofNat 32 (firstBits s.reader s.arg0.toNat) }) :=
  (command_idle hp _ _).trans (congrArg Host.Outcome.next (brRead_eq _))

theorem exec_brDrop {s : State} (hp : s.phase = .idle) :
    exec .brDrop s = .next
      (if 32 < s.arg0.toNat then s.completed 0x13 6 0
      else if s.reader.bits < s.arg0.toNat then s.completed 0x13 0 1
      else { s.completed 0x13 0 0 with reader := afterDrop s.mem s.reader s.arg0.toNat }) :=
  (command_idle hp _ _).trans (congrArg Host.Outcome.next (brDrop_eq _))

theorem exec_brTake {s : State} (hp : s.phase = .idle) :
    exec .brTake s = .next
      (if 32 < s.arg0.toNat then s.completed 0x14 6 0
      else if s.reader.bits < s.arg0.toNat then s.completed 0x14 0 1
      else
        { s.completed 0x14 0 0 with
          result0 := BitVec.ofNat 32 (firstBits s.reader s.arg0.toNat)
          reader := afterDrop s.mem s.reader s.arg0.toNat }) :=
  (command_idle hp _ _).trans (congrArg Host.Outcome.next (brTake_eq _))

/-- Past the valid bits the window reads zeros (40_bitreader.md R204, R221). -/
theorem firstBits_past_valid {r : Reader} {k : Nat} (h : r.win <<< r.bits = 0) (hk : r.bits ≤ k) (h64 : k ≤ 64) :
    firstBits r k = firstBits r r.bits * 2 ^ (k - r.bits) := by
  have hsplit := firstBits_add r (k := r.bits) (j := k - r.bits) (by omega)
  have hrest : firstBits (r.shiftOut r.bits) (k - r.bits) = 0 := by simp [firstBits, h]
  rwa [Nat.add_sub_cancel' hk, hrest] at hsplit

/-- The first 32 bits of the window are the head (10_state.md R50). -/
theorem firstBits_head (r : Reader) : BitVec.ofNat 32 (firstBits r 32) = r.head := by
  simp [firstBits, Reader.head, BitVec.extractLsb', Nat.shiftRight_eq_div_pow]

/-- Settles O4: the cases of `exec_brPeek` and `exec_brRead`, the zeros by `firstBits_past_valid`. -/
theorem peekAndReadCommands : Obligations.PeekAndReadCommands := by
  refine ⟨fun s hp => ?peek, fun s hp => ?read⟩
  case peek =>
    rw [exec_brPeek hp]
    refine ⟨fun harg => ?_, fun harg => ?_, fun harg hgood hk => ?_⟩
    · rw [if_pos harg]
    · rw [if_neg (Nat.not_lt.mpr harg)]
    · exact firstBits_past_valid hgood.zeroBelow hk.le (by omega)
  case read =>
    rw [exec_brRead hp]
    refine ⟨fun harg => ?_, fun harg hk => ?_, fun harg hk => ?_⟩
    · rw [if_pos harg]
    · rw [if_neg (Nat.not_lt.mpr harg), if_pos hk]
    · rw [if_neg (Nat.not_lt.mpr harg), if_neg (Nat.not_lt.mpr hk)]

/-- Settles O5: the cases of `exec_brDrop` and `exec_brTake`, the head by `firstBits_head`. -/
theorem dropAndTakeCommands : Obligations.DropAndTakeCommands := by
  refine ⟨fun s hp => ?drop, fun s hp => ?take⟩
  case drop =>
    rw [exec_brDrop hp]
    refine ⟨fun harg => ?_, fun harg hk => ?_, fun harg hk => ?_⟩
    · rw [if_pos harg]
    · rw [if_neg (Nat.not_lt.mpr harg), if_pos hk]
    · rw [if_neg (Nat.not_lt.mpr harg), if_neg (Nat.not_lt.mpr hk)]
  case take =>
    rw [exec_brTake hp]
    refine ⟨fun harg => ?_, fun harg hk => ?_, fun harg hk => ?_, fun harg => ?_⟩
    · rw [if_pos harg]
    · rw [if_neg (Nat.not_lt.mpr harg), if_pos hk]
    · rw [if_neg (Nat.not_lt.mpr harg), if_neg (Nat.not_lt.mpr hk)]
    · rw [harg]
      exact firstBits_head s.reader

end Sys2Proof.Machine
end

section
/-! PROOFS. Where the stream is short (40_bitreader.md R206, 41_huffman.md R272, R273, 60_exceptions.md R522): the read
that finds too few bits, or bits of no code, answers its stop, and the fetch ends the job with it. -/

namespace Sys2Proof.Machine

/-! ### Reads that stop -/

theorem fetchTake_of_short {k : Nat} {s : State} (hk : s.reader.bits < k) (stop : StopCode → State → State)
    (go : Word → State → Fetched) : fetchTake stop k s go = .ended (stop .exhausted s) := by
  rw [fetchTake, take_of_short s.mem hk]

/-- Bits that start no code stop with INVALID_CODE (41_huffman.md R272). -/
theorem fetchSymbol_of_no_code {tree : Tree} {s : State} (hx : windowSymbol tree s.reader = none)
    (stop : StopCode → State → State) (kind : ElemKind) :
    fetchSymbol stop kind tree s = .ended (stop .invalidCode s) := by
  have hdecode : decodeTree s.mem tree s.reader = .error .invalidCode := by simp only [decodeTree, resolve_peek, hx]
  rw [fetchSymbol, hdecode]

/-- A code longer than the valid bits stops with EXHAUSTED (41_huffman.md R273). -/
theorem fetchSymbol_of_short {tree : Tree} {x : Symbol} {len : Nat} {s : State}
    (hx : windowSymbol tree s.reader = some (x, len)) (hlen : s.reader.bits < len) (stop : StopCode → State → State)
    (kind : ElemKind) : fetchSymbol stop kind tree s = .ended (stop .exhausted s) := by
  have hdecode : decodeTree s.mem tree s.reader = .error .exhausted := by
    simp only [decodeTree, resolve_peek, hx, drop_of_short s.mem hlen]
  rw [fetchSymbol, hdecode]

/-- With no transaction due a fetch that ends the job is the step (log entry 2). -/
theorem step_of_fetch_ended {s t : State} {b : List HostEvent} (hp : s.phase ≠ .idle) (hw : s.hostWaits b)
    (hf : fetch { s with bus := b } = .ended t) : step s = .next t := by
  rw [step_hostWaits hp hw, coreStep, hf]

/-! ### The stop of a job -/

theorem datStop_undisturbed {s : State} (ht : s.touched = false) (code : StopCode) :
    s.datStop code = State.finished 0 (stopNumber code) s.written s := endJob_undisturbed ht _ _ _

theorem texStop_undisturbed {s : State} (ht : s.touched = false) (code : StopCode) :
    s.texStop code = State.finished 0 (stopNumber code) s.textureBytes s := endJob_undisturbed ht _ _ _

theorem fetchTake_datStop_short {k : Nat} {s : State} (ht : s.touched = false) (hk : s.reader.bits < k)
    (go : Word → State → Fetched) : fetchTake State.datStop k s go = .ended (State.finished 0 1 s.written s) :=
  (fetchTake_of_short hk _ go).trans (congrArg Fetched.ended (datStop_undisturbed ht _))

theorem fetchTake_texStop_short {k : Nat} {s : State} (ht : s.touched = false) (hk : s.reader.bits < k)
    (go : Word → State → Fetched) : fetchTake State.texStop k s go = .ended (State.finished 0 1 s.textureBytes s) :=
  (fetchTake_of_short hk _ go).trans (congrArg Fetched.ended (texStop_undisturbed ht _))

/-- The stop ends an undisturbed job with its code and the OUT_COUNT of its kind (42_dat_inflater.md R345,
44_texture_inflater.md R450). -/
def StopsJob (stop : StopCode → State → State) (s : State) : Prop :=
  ∀ code, stop code s = State.finished 0 (stopNumber code) s.stopCount s

/-- What a field's place takes, `fetch_at_field` with the stop of the place's job. -/
theorem fetch_at_field_stop {s : State} {kind : ElemKind} {k : Nat} (h : s.fieldPlace = some (kind, k))
    (ht : s.touched = false) :
    ∃ stop, fetch s = fetchField stop kind k s ∧ StopsJob stop s := by
  unfold State.fieldPlace at h
  unfold fetch StopsJob State.stopCount
  split at h
  all_goals cases h
  all_goals
    simp only [*, fetchRun]
    exact ⟨_, rfl, fun _ => endJob_undisturbed ht _ _ _⟩

/-- What a Huffman code's place decodes, `fetch_at_symbol` with the stop of the place's job. -/
theorem fetch_at_symbol_stop {s : State} {kind : ElemKind} {tree : Tree} (h : s.symbolPlace = some (kind, tree))
    (ht : s.touched = false) :
    ∃ stop, fetch s = fetchSymbol stop kind tree s ∧ StopsJob stop s := by
  unfold State.symbolPlace at h
  unfold fetch StopsJob State.stopCount
  split at h
  all_goals cases h
  all_goals
    simp only [*]
    exact ⟨_, rfl, fun _ => endJob_undisturbed ht _ _ _⟩

theorem fetch_field_short {s : State} {kind : ElemKind} {k : Nat} (hplace : s.fieldPlace = some (kind, k))
    (ht : s.touched = false) (hk : s.reader.bits < k) : fetch s = .ended (State.finished 0 1 s.stopCount s) := by
  obtain ⟨stop, hfetch, hstop⟩ := fetch_at_field_stop hplace ht
  rw [hfetch, fetchField, fetchTake_of_short hk, hstop]
  rfl

theorem fetch_symbol_no_code {s : State} {kind : ElemKind} {tree : Tree} (hplace : s.symbolPlace = some (kind, tree))
    (ht : s.touched = false) (hx : windowSymbol tree s.reader = none) :
    fetch s = .ended (State.finished 0 2 s.stopCount s) := by
  obtain ⟨stop, hfetch, hstop⟩ := fetch_at_symbol_stop hplace ht
  rw [hfetch, fetchSymbol_of_no_code hx, hstop]
  rfl

theorem fetch_symbol_short {s : State} {kind : ElemKind} {tree : Tree} {x : Symbol} {len : Nat}
    (hplace : s.symbolPlace = some (kind, tree)) (ht : s.touched = false)
    (hx : windowSymbol tree s.reader = some (x, len)) (hlen : s.reader.bits < len) :
    fetch s = .ended (State.finished 0 1 s.stopCount s) := by
  obtain ⟨stop, hfetch, hstop⟩ := fetch_at_symbol_stop hplace ht
  rw [hfetch, fetchSymbol_of_short hx hlen, hstop]
  rfl

/-! ### The places of two fields -/

/-- A dat header short of its first or of its second field (42_dat_inflater.md R323). -/
theorem fetch_datHeader_short {s : State} (hp : s.phase = .datHeader) (ht : s.touched = false) :
    (s.reader.bits < 4 → fetch s = .ended (State.finished 0 1 s.written s)) ∧
      (4 ≤ s.reader.bits → (afterDrop s.mem s.reader 4).bits < 4 →
        fetch s = .ended (State.finished 0 1 s.written { s with reader := afterDrop s.mem s.reader 4 })) := by
  have hfetch : fetch s = fetchDatHeader s := by simp only [fetch, hp]
  rw [hfetch, fetchDatHeader]
  refine ⟨fun h₁ => ?_, fun h₁ h₂ => ?_⟩
  · exact fetchTake_datStop_short ht h₁ _
  · rw [fetchTake_of_le h₁]
    exact fetchTake_datStop_short (s := { s with reader := afterDrop s.mem s.reader 4 }) ht h₂ _

/-- A texture header short of its first or of its second word; the first is in TEX_DSIZE by then
(44_texture_inflater.md R404). -/
theorem fetch_texHeader_short {s : State} (hp : s.phase = .texHeader) (ht : s.touched = false) :
    (s.reader.bits < 32 → fetch s = .ended (State.finished 0 1 s.textureBytes s)) ∧
      (32 ≤ s.reader.bits → (afterDrop s.mem s.reader 32).bits < 32 →
        fetch s = .ended
          (State.finished 0 1 s.textureBytes
            { s with
              reader := afterDrop s.mem s.reader 32
              texDsize := BitVec.ofNat 32 (firstBits s.reader 32) })) := by
  have hfetch : fetch s = fetchTexHeader s := by simp only [fetch, hp]
  rw [hfetch, fetchTexHeader]
  refine ⟨fun h₁ => ?_, fun h₁ h₂ => ?_⟩
  · exact fetchTake_texStop_short ht h₁ _
  · rw [fetchTake_of_le h₁, peek_eq_firstBits _ (by decide)]
    exact fetchTake_texStop_short
      (s := { s with
        reader := afterDrop s.mem s.reader 32
        texDsize := BitVec.ofNat 32 (firstBits s.reader 32) }) ht h₂ _

/-- A constant-alpha run short of its value, or of the bit behind it, which is read whatever the value is
(44_texture_inflater.md R417). -/
theorem fetch_alphaRun_short {s : State} {byte : Byte} (hp : s.phase = .texRun) (hpass : s.tex.pass = .alpha byte)
    (ht : s.touched = false) :
    (s.reader.bits < 1 → fetch s = .ended (State.finished 0 1 s.textureBytes s)) ∧
      (1 ≤ s.reader.bits → (afterDrop s.mem s.reader 1).bits < 1 →
        fetch s = .ended (State.finished 0 1 s.textureBytes { s with reader := afterDrop s.mem s.reader 1 })) := by
  have hfetch : fetch s = fetchAlphaRun s := by simp only [fetch, hp, fetchRun, hpass]
  rw [hfetch, fetchAlphaRun]
  refine ⟨fun h₁ => ?_, fun h₁ h₂ => ?_⟩
  · exact fetchTake_texStop_short ht h₁ _
  · rw [fetchTake_of_le h₁]
    simp only [read_of_short h₂]
    exact congrArg Fetched.ended
      (texStop_undisturbed (s := { s with reader := afterDrop s.mem s.reader 1 }) ht .exhausted)

/-- Settles O41: each clause names how the fetch at the place ends, and `step_of_fetch_ended` makes it the step. -/
theorem stepStopsAtShortStream : Obligations.StepStopsAtShortStream := by
  intro s b hw ht
  refine ⟨?field, ?symbol, fun hp => ?datHeader, fun hp => ?texHeader, fun hp => ?alphaRun⟩
  case field =>
    intro kind k hplace hk
    have hp := (fetch_at_field hplace).1
    exact step_of_fetch_ended hp hw (fetch_field_short (s := { s with bus := b }) hplace ht hk)
  case symbol =>
    intro kind tree hplace
    have hp := (fetch_at_symbol hplace).1
    refine ⟨fun hx => ?_, fun x len hx hlen => ?_⟩
    · exact step_of_fetch_ended hp hw (fetch_symbol_no_code (s := { s with bus := b }) hplace ht hx)
    · exact step_of_fetch_ended hp hw (fetch_symbol_short (s := { s with bus := b }) hplace ht hx hlen)
  case datHeader =>
    obtain ⟨hfirst, hsecond⟩ := fetch_datHeader_short (s := { s with bus := b }) hp ht
    refine ⟨fun h₁ => step_of_fetch_ended (by simp [hp]) hw (hfirst h₁), ?_⟩
    rintro r rfl h₁ h₂
    exact step_of_fetch_ended (by simp [hp]) hw (hsecond h₁ h₂)
  case texHeader =>
    obtain ⟨hfirst, hsecond⟩ := fetch_texHeader_short (s := { s with bus := b }) hp ht
    refine ⟨fun h₁ => step_of_fetch_ended (by simp [hp]) hw (hfirst h₁), ?_⟩
    rintro r rfl h₁ h₂
    exact step_of_fetch_ended (by simp [hp]) hw (hsecond h₁ h₂)
  case alphaRun =>
    rintro ⟨byte, hpass⟩
    obtain ⟨hfirst, hsecond⟩ := fetch_alphaRun_short (s := { s with bus := b }) hp hpass ht
    refine ⟨fun h₁ => step_of_fetch_ended (by simp [hp]) hw (hfirst h₁), ?_⟩
    rintro r rfl h₁ h₂
    exact step_of_fetch_ended (by simp [hp]) hw (hsecond h₁ h₂)

end Sys2Proof.Machine
end

section
/-! PROOFS. What a build makes of its builder (41_huffman.md R260 to R272). The idea: left-aligned in 32 bits, a code is an
interval of windows, those that start with it. The codes of a build tile the windows from the top down to a floor, under
which the codes still free lie; entering a length keeps the floor, and a symbol lowers it by one code of its length. So a
code is given exactly while one is free (Kraft's inequality), and the look-up finds the code of every window above the
floor and none below it. -/

namespace Sys2Proof.Machine

/-! ### A code is an interval of windows -/

/-- The least window that starts with the code: the code left-aligned in 32 bits. -/
def CodeEntry.low (c : CodeEntry) : Nat := c.code.toNat * 2 ^ (32 - c.length)

/-- The end of the windows that start with the code. -/
def CodeEntry.high (c : CodeEntry) : Nat := (c.code.toNat + 1) * 2 ^ (32 - c.length)

/-- The window starts with the code (41_huffman.md R268). -/
def CodeEntry.Starts (c : CodeEntry) (v : Word) : Prop := v.toNat / 2 ^ (32 - c.length) = c.code.toNat

theorem CodeEntry.starts_iff {c : CodeEntry} {v : Word} : c.Starts v ↔ c.low ≤ v.toNat ∧ v.toNat < c.high := by
  rw [CodeEntry.Starts, Nat.div_eq_iff (Nat.two_pow_pos _), CodeEntry.low, CodeEntry.high, Nat.add_mul, Nat.one_mul]
  have := Nat.two_pow_pos (32 - c.length)
  omega

theorem CodeEntry.low_le_high (c : CodeEntry) : c.low ≤ c.high := Nat.mul_le_mul_right _ (Nat.le_succ _)

/-- The codes fill the windows from `top` down to `bottom` in their order, each ending where the one before it starts
(41_huffman.md R263, R268 (c)). -/
def Tiles : Nat → List CodeEntry → Nat → Prop
  | top, [], bottom => top = bottom
  | top, c :: rest, bottom => c.high = top ∧ Tiles c.low rest bottom

theorem tiles_append {top bottom : Nat} {cs ds : List CodeEntry} :
    Tiles top (cs ++ ds) bottom ↔ ∃ mid, Tiles top cs mid ∧ Tiles mid ds bottom := by
  induction cs generalizing top with
  | nil => simp [Tiles]
  | cons c cs ih => simp [Tiles, ih, and_assoc]

theorem Tiles.append {top mid bottom : Nat} {cs ds : List CodeEntry} (h : Tiles top cs mid) (h' : Tiles mid ds bottom) :
    Tiles top (cs ++ ds) bottom := tiles_append.mpr ⟨mid, h, h'⟩

theorem Tiles.bottom_le {top bottom : Nat} {cs : List CodeEntry} (h : Tiles top cs bottom) : bottom ≤ top := by
  induction cs generalizing top with
  | nil => exact h.ge
  | cons c cs ih =>
    obtain ⟨hc, hrest⟩ := h
    exact (ih hrest).trans (c.low_le_high.trans hc.le)

theorem Tiles.between {top bottom : Nat} {cs : List CodeEntry} (h : Tiles top cs bottom) :
    ∀ c ∈ cs, bottom ≤ c.low ∧ c.high ≤ top := by
  induction cs generalizing top with
  | nil => simp
  | cons c cs ih =>
    obtain ⟨hc, hrest⟩ := h
    intro d hd
    rcases List.mem_cons.mp hd with rfl | hd
    · exact ⟨hrest.bottom_le, hc.le⟩
    · obtain ⟨hlow, hhigh⟩ := ih hrest d hd
      exact ⟨hlow, hhigh.trans (c.low_le_high.trans hc.le)⟩

/-- No two codes of a tiling share a window. -/
theorem Tiles.pairwise {top bottom : Nat} {cs : List CodeEntry} (h : Tiles top cs bottom) :
    cs.Pairwise fun c d => d.high ≤ c.low := by
  induction cs generalizing top with
  | nil => exact .nil
  | cons c cs ih =>
    obtain ⟨_, hrest⟩ := h
    exact .cons (fun d hd => (hrest.between d hd).2) (ih hrest)

/-- A tiling leaves no gap. -/
theorem Tiles.exists_starts {top bottom : Nat} {cs : List CodeEntry} {v : Word} (h : Tiles top cs bottom)
    (hlow : bottom ≤ v.toNat) (hhigh : v.toNat < top) : ∃ c ∈ cs, c.Starts v := by
  induction cs generalizing top with
  | nil => exact absurd (h ▸ hhigh) (Nat.not_lt.mpr hlow)
  | cons c cs ih =>
    obtain ⟨hc, hrest⟩ := h
    by_cases hv : c.low ≤ v.toNat
    · exact ⟨c, by simp, CodeEntry.starts_iff.mpr ⟨hv, hc ▸ hhigh⟩⟩
    · obtain ⟨d, hd, hstarts⟩ := ih hrest (Nat.lt_of_not_le hv)
      exact ⟨d, by simp [hd], hstarts⟩

/-! ### The codes still free -/

/-- How many codes of the current length are free while `code` is the next of them (41_huffman.md R263); after the last of
them the code is -1. -/
def freeCodes (code : Word) : Nat := (code + 1).toNat

/-- The end of the windows no code of the build starts, while `code` is the next of length `len`. -/
def floorOf (len : Nat) (code : Word) : Nat := freeCodes code * 2 ^ (32 - len)

theorem freeCodes_pred (code : Word) : freeCodes (code - 1) = code.toNat := by
  rw [freeCodes, BitVec.sub_add_cancel]

/-- While a code is free the next one is the greatest of them. -/
theorem freeCodes_of_lt {len : Nat} {code : Word} (h31 : len ≤ 31) (h : code.toNat < 2 ^ len) :
    freeCodes code = code.toNat + 1 := by
  have hle : 2 ^ len ≤ 2 ^ 31 := Nat.pow_le_pow_right (by decide) h31
  rw [freeCodes]
  bv_omega

/-- The guard of R267: a code value past its length is the -1 after the last free code. -/
theorem freeCodes_eq_zero {len : Nat} {code : Word} (hfree : freeCodes code ≤ 2 ^ len) (h : 2 ^ len ≤ code.toNat) :
    freeCodes code = 0 := by
  rw [freeCodes] at *
  bv_omega

theorem freeCodes_nextLengthCode {code : Word} (h : freeCodes code < 2 ^ 31) :
    freeCodes (nextLengthCode code) = 2 * freeCodes code := by
  have hdouble : nextLengthCode code + 1 = (code + 1) + (code + 1) := by
    have hshift : code <<< 1 = code + code := by bv_omega
    rw [nextLengthCode, hshift]
    ring
  rw [freeCodes] at h
  rw [freeCodes, hdouble, BitVec.toNat_add, freeCodes]
  omega

theorem freeCodes_le_of_floorOf_le {len : Nat} {code : Word} (h : len ≤ 32) (hfloor : floorOf len code ≤ 2 ^ 32) :
    freeCodes code ≤ 2 ^ len := by
  rw [floorOf, ← pow_mul_pow_sub 2 h] at hfloor
  exact Nat.le_of_mul_le_mul_right hfloor (Nat.two_pow_pos _)

/-- Entering a length leaves the floor where it is (41_huffman.md R263). -/
theorem floorOf_nextLengthCode {n : Nat} {code : Word} (hn : n < 31) (hfloor : floorOf n code ≤ 2 ^ 32) :
    floorOf (n + 1) (nextLengthCode code) = floorOf n code := by
  have hfree := freeCodes_le_of_floorOf_le (by omega) hfloor
  have hlt : 2 ^ n < 2 ^ 31 := Nat.pow_lt_pow_right (by decide) hn
  have hstep : 32 - n = 32 - (n + 1) + 1 := by omega
  rw [floorOf, freeCodes_nextLengthCode (hfree.trans_lt hlt), floorOf, hstep, pow_succ]
  ring

/-! ### The symbols of one length -/

/-- The codes the symbols of one length take (41_huffman.md R263, R265). -/
def codesFrom (len : Nat) : List Symbol → Word → List CodeEntry
  | [], _ => []
  | s :: rest, code => { symbol := s, code := code, length := len } :: codesFrom len rest (code - 1)

theorem codesFrom_map (len : Nat) (l : List Symbol) (code : Word) :
    (codesFrom len l code).map (fun c => (c.symbol, c.length)) = l.map fun s => (s, len) := by
  induction l generalizing code with
  | nil => rfl
  | cons s l ih => simp [codesFrom, ih]

/-- The codes of one length are consecutive: the i-th is i below the first. -/
theorem codesFrom_mem {len : Nat} {l : List Symbol} {code : Word} (hfree : l.length ≤ freeCodes code) {c : CodeEntry}
    (hc : c ∈ codesFrom len l code) :
    ∃ i, l[i]? = some c.symbol ∧ c.length = len ∧ c.code.toNat + 1 + i = freeCodes code := by
  induction l generalizing code with
  | nil => cases hc
  | cons s l ih =>
    have hcode : freeCodes code = code.toNat + 1 := by
      rw [List.length_cons, freeCodes] at hfree
      rw [freeCodes]
      bv_omega
    rcases List.mem_cons.mp hc with rfl | hc
    · exact ⟨0, rfl, rfl, hcode.symm⟩
    · have hfree' : l.length ≤ freeCodes (code - 1) := by
        rw [freeCodes_pred]
        rw [List.length_cons] at hfree
        omega
      obtain ⟨i, hi, hlen, hvalue⟩ := ih hfree' hc
      rw [freeCodes_pred] at hvalue
      exact ⟨i + 1, hi, hlen, by omega⟩

theorem placeSymbols_cons_ok {len : Nat} {s : Symbol} {l : List Symbol} {t : Tree} {code : Word} {r : Tree × Word} :
    placeSymbols len (s :: l) t code = .ok r ↔
      code.toNat < 2 ^ len ∧
        placeSymbols len l (if len ≤ 8 then t.addShort len s code else t.addLong len s code) (code - 1) = .ok r := by
  rw [placeSymbols]
  split
  · simp [*]
  · simp [Nat.lt_of_not_le ‹_›]

/-- Each symbol takes one of the free codes. -/
theorem placeSymbols_freeCodes {len : Nat} {l : List Symbol} {t t' : Tree} {code code' : Word} (h31 : len ≤ 31)
    (e : placeSymbols len l t code = .ok (t', code')) : freeCodes code' + l.length = freeCodes code := by
  induction l generalizing t code with
  | nil => cases e; rfl
  | cons s l ih =>
    obtain ⟨hlt, e⟩ := placeSymbols_cons_ok.mp e
    have := ih e
    rw [freeCodes_pred] at this
    rw [List.length_cons, freeCodes_of_lt h31 hlt]
    omega

/-- The symbols of a length find their codes exactly if enough are free (41_huffman.md R267). -/
theorem placeSymbols_ok_iff {len : Nat} {l : List Symbol} {t : Tree} {code : Word} (h31 : len ≤ 31)
    (hfree : freeCodes code ≤ 2 ^ len) :
    (∃ r, placeSymbols len l t code = .ok r) ↔ l.length ≤ freeCodes code := by
  induction l generalizing t code with
  | nil => exact ⟨fun _ => Nat.zero_le _, fun _ => ⟨_, rfl⟩⟩
  | cons s l ih =>
    simp only [placeSymbols_cons_ok, exists_and_left, List.length_cons]
    by_cases hlt : code.toNat < 2 ^ len
    · rw [ih (by rw [freeCodes_pred]; exact hlt.le), freeCodes_pred, freeCodes_of_lt h31 hlt]
      omega
    · rw [freeCodes_eq_zero hfree (Nat.le_of_not_lt hlt)]
      omega

theorem placeSymbols_codes {len : Nat} {l : List Symbol} {t t' : Tree} {code code' : Word}
    (e : placeSymbols len l t code = .ok (t', code')) : t'.codes = t.codes ++ codesFrom len l code := by
  induction l generalizing t code with
  | nil => cases e; simp [codesFrom]
  | cons s l ih =>
    obtain ⟨_, e⟩ := placeSymbols_cons_ok.mp e
    rw [ih e]
    split <;> simp [Tree.addShort, Tree.addLong, codesFrom]

theorem codesFrom_tiles {len : Nat} {l : List Symbol} {t t' : Tree} {code code' : Word} (h31 : len ≤ 31)
    (e : placeSymbols len l t code = .ok (t', code')) :
    Tiles (floorOf len code) (codesFrom len l code) (floorOf len code') := by
  induction l generalizing t code with
  | nil => cases e; rfl
  | cons s l ih =>
    obtain ⟨hlt, e⟩ := placeSymbols_cons_ok.mp e
    have hrest := ih e
    rw [floorOf, freeCodes_pred] at hrest
    refine ⟨?_, hrest⟩
    rw [CodeEntry.high, floorOf, freeCodes_of_lt h31 hlt]

/-! ### Trees under construction -/

/-- A tree whose codes tile the windows down to a floor, and that resolves exactly the windows above it. -/
structure Tree.Built (floor : Nat) (t : Tree) : Prop where
  hashSize : t.hash.length = 256
  tiles : Tiles (2 ^ 32) t.codes floor
  decodes : ∀ c ∈ t.codes, ∀ v : Word, c.Starts v → t.resolve (v.toNat / 2 ^ 24) v = some (c.symbol, c.length)
  misses : ∀ v : Word, v.toNat < floor → t.resolve (v.toNat / 2 ^ 24) v = none
  offsets : ∀ e ∈ t.long, e.offset < t.symbols.length

theorem Tree.Built.floor_le {floor : Nat} {t : Tree} (h : t.Built floor) {c : CodeEntry} {v : Word} (hc : c ∈ t.codes)
    (hv : c.Starts v) : floor ≤ v.toNat :=
  (h.tiles.between c hc).1.trans (CodeEntry.starts_iff.mp hv).1

/-- The fast path of DECODE (41_huffman.md R270). -/
theorem resolve_of_hit {t : Tree} {h : Nat} {e : HashEntry} (hhit : t.hashEntry h = some e) (v : Word) :
    t.resolve h v = some (e.symbol, e.bits) := by rw [Tree.resolve, hhit]

/-- The slow path of DECODE (41_huffman.md R271). -/
theorem resolve_of_miss {t : Tree} {h : Nat} (hmiss : t.hashEntry h = none) (v : Word) :
    t.resolve h v = (findLong v t.long).map fun e => (t.longSymbol e v, e.bits) := by
  rw [Tree.resolve, hmiss]
  cases findLong v t.long <;> rfl

/-- The empty tree resolves nothing (41_huffman.md R261). -/
theorem resolve_emptyTree (h : Nat) (v : Word) : emptyTree.resolve h v = none := by
  have hhash : emptyTree.hashEntry h = none := by
    rw [Tree.hashEntry, emptyTree, List.getD_eq_getElem?_getD, List.getElem?_replicate]
    split <;> rfl
  rw [resolve_of_miss hhash]
  rfl

/-- Before length 1 all windows are free. -/
theorem emptyTree_built : emptyTree.Built (floorOf 0 0) :=
  ⟨List.length_replicate, (rfl : 2 ^ 32 = floorOf 0 0), (fun _ hc => nomatch hc),
    fun v _ => resolve_emptyTree _ v, fun _ he => nomatch he⟩

/-! ### Short codes -/

theorem fillTable_getD {α : Type} (x d : α) {start count i : Nat} {l : List α} (hi : i < l.length) :
    (fillTable x start count l).getD i d = if start ≤ i ∧ i < start + count then x else l.getD i d := by
  induction l generalizing start count i with
  | nil => simp at hi
  | cons y l ih =>
    rcases start with _ | start
    · rcases count with _ | count
      · simp [fillTable]
      · rcases i with _ | i
        · simp [fillTable]
        · have := ih (start := 0) (count := count) (Nat.lt_of_succ_lt_succ hi)
          simpa [fillTable] using this
    · rcases i with _ | i
      · cases count <;> simp [fillTable]
      · have := ih (start := start) (count := count) (Nat.lt_of_succ_lt_succ hi)
        cases count <;> simpa [fillTable, Nat.add_right_comm start 1] using this

/-- The hash entries of a short code are those of the windows that start with it (41_huffman.md R264). -/
theorem hash_range_iff {len code : Nat} {v : Word} (h8 : len ≤ 8) :
    (code * 2 ^ (8 - len) ≤ v.toNat / 2 ^ 24 ∧ v.toNat / 2 ^ 24 < code * 2 ^ (8 - len) + 2 ^ (8 - len)) ↔
      v.toNat / 2 ^ (32 - len) = code := by
  have hsplit : 32 - len = 24 + (8 - len) := by omega
  rw [hsplit, pow_add, ← Nat.div_div_eq_div_mul, Nat.div_eq_iff (Nat.two_pow_pos _)]
  have := Nat.two_pow_pos (8 - len)
  omega

theorem hash_index_lt (v : Word) : v.toNat / 2 ^ 24 < 256 := by omega

theorem hashEntry_addShort {len : Nat} {t : Tree} {code v : Word} (s : Symbol) (hsize : t.hash.length = 256)
    (h8 : len ≤ 8) :
    (t.addShort len s code).hashEntry (v.toNat / 2 ^ 24) =
      if v.toNat / 2 ^ (32 - len) = code.toNat then some ⟨s, len⟩ else t.hashEntry (v.toNat / 2 ^ 24) := by
  rw [Tree.hashEntry, Tree.addShort, fillTable_getD _ _ (hsize ▸ hash_index_lt v), Tree.hashEntry]
  simp only [hash_range_iff h8]

/-- Placing a short code makes the windows that start with it resolve to its symbol. -/
theorem resolve_addShort_of_starts {len : Nat} {t : Tree} {code v : Word} {s : Symbol} (hsize : t.hash.length = 256)
    (h8 : len ≤ 8) (hv : CodeEntry.Starts ⟨s, code, len⟩ v) :
    (t.addShort len s code).resolve (v.toNat / 2 ^ 24) v = some (s, len) :=
  resolve_of_hit ((hashEntry_addShort s hsize h8).trans (if_pos hv)) v

/-- Placing a short code leaves the other windows as they are. -/
theorem resolve_addShort_of_not_starts {len : Nat} {t : Tree} {code v : Word} {s : Symbol} (hsize : t.hash.length = 256)
    (h8 : len ≤ 8) (hv : ¬ CodeEntry.Starts ⟨s, code, len⟩ v) :
    (t.addShort len s code).resolve (v.toNat / 2 ^ 24) v = t.resolve (v.toNat / 2 ^ 24) v := by
  have hentry : (t.addShort len s code).hashEntry (v.toNat / 2 ^ 24) = t.hashEntry (v.toNat / 2 ^ 24) :=
    (hashEntry_addShort s hsize h8).trans (if_neg hv)
  cases hhash : t.hashEntry (v.toNat / 2 ^ 24) with
  | some e => rw [resolve_of_hit hhash, resolve_of_hit (hentry.trans hhash)]
  | none =>
    rw [resolve_of_miss hhash, resolve_of_miss (hentry.trans hhash)]
    rfl

theorem addShort_built {len : Nat} {t : Tree} {code : Word} (s : Symbol) (h8 : len ≤ 8) (hlt : code.toNat < 2 ^ len)
    (h : t.Built (floorOf len code)) : (t.addShort len s code).Built (floorOf len (code - 1)) := by
  have hhigh : CodeEntry.high ⟨s, code, len⟩ = floorOf len code := by
    rw [CodeEntry.high, floorOf, freeCodes_of_lt (by omega) hlt]
  have hlow : CodeEntry.low ⟨s, code, len⟩ = floorOf len (code - 1) := by
    rw [CodeEntry.low, floorOf, freeCodes_pred]
  refine ⟨(fillTable_length _ _ _ _).trans h.hashSize, h.tiles.append ⟨hhigh, hlow⟩, ?decodes, ?misses, h.offsets⟩
  case decodes =>
    intro c hc v hv
    rcases List.mem_append.mp hc with hc | hc
    · have hnew : ¬ CodeEntry.Starts ⟨s, code, len⟩ v := fun hs =>
        Nat.not_lt.mpr (h.floor_le hc hv) (hhigh ▸ (CodeEntry.starts_iff.mp hs).2)
      rw [resolve_addShort_of_not_starts h.hashSize h8 hnew, h.decodes c hc v hv]
    · rw [List.mem_singleton.mp hc] at hv ⊢
      exact resolve_addShort_of_starts h.hashSize h8 hv
  case misses =>
    intro v hv
    have hnew : ¬ CodeEntry.Starts ⟨s, code, len⟩ v := fun hs =>
      Nat.not_lt.mpr (CodeEntry.starts_iff.mp hs).1 (hlow ▸ hv)
    rw [resolve_addShort_of_not_starts h.hashSize h8 hnew]
    exact h.misses v (hv.trans_le (hlow ▸ hhigh ▸ CodeEntry.low_le_high _))

theorem placeSymbols_short_built {len : Nat} {l : List Symbol} {t t' : Tree} {code code' : Word} (h8 : len ≤ 8)
    (h : t.Built (floorOf len code)) (e : placeSymbols len l t code = .ok (t', code')) :
    t'.Built (floorOf len code') := by
  induction l generalizing t code with
  | nil => cases e; exact h
  | cons s l ih =>
    obtain ⟨hlt, e⟩ := placeSymbols_cons_ok.mp e
    rw [if_pos h8] at e
    exact ih (addShort_built s h8 hlt h) e

/-! ### Long codes -/

/-- Placing long codes only lists their symbols (41_huffman.md R266). -/
theorem placeSymbols_long {len : Nat} {l : List Symbol} {t t' : Tree} {code code' : Word} (h9 : 8 < len)
    (e : placeSymbols len l t code = .ok (t', code')) :
    t'.hash = t.hash ∧ t'.long = t.long ∧ t'.symbols = t.symbols ++ l := by
  induction l generalizing t code with
  | nil => cases e; simp
  | cons s l ih =>
    obtain ⟨_, e⟩ := placeSymbols_cons_ok.mp e
    rw [if_neg (Nat.not_le.mpr h9)] at e
    obtain ⟨hhash, hlong, hsymbols⟩ := ih e
    exact ⟨hhash, hlong, by rw [hsymbols]; simp [Tree.addLong]⟩

/-- Symbols appended behind those the comparison entries reach change nothing that resolves. -/
theorem resolve_append_symbols {t t' : Tree} {l : List Symbol} (hoffsets : ∀ e ∈ t.long, e.offset < t.symbols.length)
    (hhash : t'.hash = t.hash) (hlong : t'.long = t.long) (hsymbols : t'.symbols = t.symbols ++ l) (h : Nat) (v : Word) :
    t'.resolve h v = t.resolve h v := by
  have hentry : t'.hashEntry h = t.hashEntry h := by rw [Tree.hashEntry, hhash, Tree.hashEntry]
  cases hhit : t.hashEntry h with
  | some e => rw [resolve_of_hit hhit, resolve_of_hit (hentry.trans hhit)]
  | none =>
    rw [resolve_of_miss hhit, resolve_of_miss (hentry.trans hhit), hlong]
    refine Option.map_congr fun e he => ?_
    have hlt := hoffsets e (findLong_mem he)
    rw [Tree.longSymbol, hsymbols, List.getD_append _ _ _ _ (by omega), Tree.longSymbol]

theorem findLong_append (v : Word) (l : List LongEntry) (e : LongEntry) :
    findLong v (l ++ [e]) = (findLong v l).or (if e.compare.toNat ≤ v.toNat then some e else none) := by
  induction l with
  | nil => rfl
  | cons x l ih =>
    simp only [List.cons_append, findLong, ih]
    split <;> simp

/-- The comparison entry that closes a length (41_huffman.md R266). -/
def closingEntry (t : Tree) (len : Nat) (code : Word) : LongEntry :=
  { compare := (code + 1) <<< (32 - len), bits := len, offset := t.symbols.length - 1 }

/-- Closing a length resolves the windows from its comparison value up that resolved to nothing before. -/
theorem resolve_closeLength (t : Tree) (len : Nat) (code : Word) (h : Nat) (v : Word) :
    (t.closeLength len code).resolve h v =
      (t.resolve h v).or (if (closingEntry t len code).compare.toNat ≤ v.toNat then
        some (t.longSymbol (closingEntry t len code) v, len) else none) := by
  cases hhash : t.hashEntry h with
  | some e =>
    rw [resolve_of_hit hhash, resolve_of_hit (t := t.closeLength len code) hhash]
    rfl
  | none =>
    have hlong : (t.closeLength len code).long = t.long ++ [closingEntry t len code] := rfl
    rw [resolve_of_miss hhash, resolve_of_miss (t := t.closeLength len code) hhash, hlong, findLong_append, Option.map_or]
    split <;> rfl

theorem closingEntry_compare {len : Nat} {code : Word} (t : Tree) (h : floorOf len code < 2 ^ 32) :
    (closingEntry t len code).compare.toNat = floorOf len code := by
  rw [closingEntry, BitVec.toNat_shiftLeft, Nat.shiftLeft_eq]
  exact Nat.mod_eq_of_lt h

/-- The comparison entry that closes a length leads each window that starts with a code of the length to the symbol of
that code (41_huffman.md R271). -/
theorem longSymbol_closingEntry {len : Nat} {l before : List Symbol} {t : Tree} {code code' : Word} {c : CodeEntry}
    {v : Word} (hsymbols : t.symbols = before ++ l) (hfree : freeCodes code' + l.length = freeCodes code)
    (hcompare : (closingEntry t len code').compare.toNat = floorOf len code') (hc : c ∈ codesFrom len l code)
    (hv : c.Starts v) (hle : floorOf len code' ≤ v.toNat) :
    t.longSymbol (closingEntry t len code') v = c.symbol := by
  obtain ⟨i, hi, hlen, hvalue⟩ := codesFrom_mem (by omega) hc
  have hlt : i < l.length := (List.getElem?_eq_some_iff.mp hi).1
  have hsteps : ((v - (closingEntry t len code').compare) >>> (32 - len)).toNat = c.code.toNat - freeCodes code' := by
    rw [CodeEntry.Starts, hlen] at hv
    have hle' : (closingEntry t len code').compare ≤ v := by rw [BitVec.le_def, hcompare]; exact hle
    rw [BitVec.toNat_ushiftRight, Nat.shiftRight_eq_div_pow, BitVec.toNat_sub_of_le hle', hcompare, floorOf,
      Nat.mul_comm, Nat.sub_mul_div, hv]
  have hindex : t.symbols.length - 1 - (c.code.toNat - freeCodes code') = before.length + i := by
    rw [hsymbols, List.length_append]
    omega
  show t.symbols.getD (t.symbols.length - 1 - ((v - (closingEntry t len code').compare) >>> (32 - len)).toNat) 0 = c.symbol
  rw [hsteps, hindex, hsymbols, List.getD_append_right _ _ _ _ (by omega), Nat.add_sub_cancel_left,
    List.getD_eq_getElem?_getD, hi, Option.getD_some]

/-- A populated long length, placed and closed, resolves its own windows and leaves those of the lengths before it. -/
theorem placeSymbols_closeLength_built {len : Nat} {l : List Symbol} {t t' : Tree} {code code' : Word} (h9 : 8 < len)
    (h31 : len ≤ 31) (hl : l ≠ []) (h : t.Built (floorOf len code)) (e : placeSymbols len l t code = .ok (t', code')) :
    (t'.closeLength len code').Built (floorOf len code') := by
  obtain ⟨hhash, hlong, hsymbols⟩ := placeSymbols_long h9 e
  have hcodes : (t'.closeLength len code').codes = t.codes ++ codesFrom len l code :=
    placeSymbols_codes (t' := t') e
  have hnew := codesFrom_tiles h31 e
  have hfree := placeSymbols_freeCodes h31 e
  have hpos := List.length_pos_iff.mpr hl
  have hbelow : floorOf len code' < floorOf len code :=
    Nat.mul_lt_mul_of_pos_right (by omega) (Nat.two_pow_pos _)
  have hcompare := closingEntry_compare t' (hbelow.trans_le h.tiles.bottom_le)
  have hresolve : ∀ v : Word, (t'.closeLength len code').resolve (v.toNat / 2 ^ 24) v =
      (t.resolve (v.toNat / 2 ^ 24) v).or
        (if floorOf len code' ≤ v.toNat then some (t'.longSymbol (closingEntry t' len code') v, len) else none) := by
    intro v
    rw [resolve_closeLength, hcompare, resolve_append_symbols h.offsets hhash hlong hsymbols]
  refine ⟨(congrArg List.length hhash).trans h.hashSize, ?tiles, ?decodes, ?misses, ?offsets⟩
  case tiles => rw [hcodes]; exact h.tiles.append hnew
  case decodes =>
    intro c hc v hv
    rw [hresolve]
    rcases List.mem_append.mp (hcodes ▸ hc) with hc | hc
    · rw [h.decodes c hc v hv, Option.some_or]
    · obtain ⟨hlow, hhigh⟩ := hnew.between c hc
      obtain ⟨hclow, hchigh⟩ := CodeEntry.starts_iff.mp hv
      obtain ⟨_, _, hlen, _⟩ := codesFrom_mem (by omega) hc
      rw [h.misses v (hchigh.trans_le hhigh), if_pos (hlow.trans hclow),
        longSymbol_closingEntry hsymbols hfree hcompare hc hv (hlow.trans hclow), hlen, Option.none_or]
  case misses =>
    intro v hv
    rw [hresolve, h.misses v (hv.trans hbelow), if_neg (Nat.not_le.mpr hv), Option.none_or]
  case offsets =>
    intro x hx
    have hlen : t.symbols.length < t'.symbols.length := by rw [hsymbols, List.length_append]; omega
    rcases List.mem_append.mp hx with hx | hx
    · exact (h.offsets x (hlong ▸ hx)).trans hlen
    · rw [List.mem_singleton.mp hx]
      exact Nat.sub_lt (by omega) (by decide)

/-! ### The build -/

/-- What one length of the build can do (41_huffman.md R260). -/
theorem buildLength_ok {b : Builder} {len : Nat} {t t' : Tree} {code code' : Word}
    (e : buildLength b len t code = .ok (t', code')) :
    ∃ t₁, placeSymbols len (b.symbolsOf len) t (nextLengthCode code) = .ok (t₁, code') ∧
      ((len ≤ 8 ∧ t' = t₁) ∨ (8 < len ∧ b.symbolsOf len = [] ∧ t' = t₁) ∨
        (8 < len ∧ b.symbolsOf len ≠ [] ∧ t' = t₁.closeLength len code')) := by
  unfold buildLength at e
  split at e
  · cases e
  · rename_i t₁ code₁ hplace
    split at e <;> rename_i hguard
    · cases e
      have hopen : len ≤ 8 ∨ b.symbolsOf len = [] := by simpa using hguard
      refine ⟨_, hplace, ?_⟩
      rcases Nat.lt_or_ge 8 len with h9 | h8
      · exact .inr (.inl ⟨h9, hopen.resolve_left (Nat.not_le.mpr h9), rfl⟩)
      · exact .inl ⟨h8, rfl⟩
    · cases e
      have hclosed : 8 < len ∧ b.symbolsOf len ≠ [] := by simpa using hguard
      exact ⟨_, hplace, .inr (.inr ⟨hclosed.1, hclosed.2, rfl⟩)⟩

theorem buildLength_built {b : Builder} {len : Nat} {t t' : Tree} {code code' : Word} (h31 : len ≤ 31)
    (h : t.Built (floorOf len (nextLengthCode code))) (e : buildLength b len t code = .ok (t', code')) :
    t'.Built (floorOf len code') := by
  obtain ⟨t₁, hplace, ⟨h8, rfl⟩ | ⟨_, hl, rfl⟩ | ⟨h9, hl, rfl⟩⟩ := buildLength_ok e
  · exact placeSymbols_short_built h8 h hplace
  · rw [hl] at hplace
    cases hplace
    exact h
  · exact placeSymbols_closeLength_built h9 h31 hl h hplace

theorem buildLengths_cons_ok {b : Builder} {len : Nat} {lens : List Nat} {t t' : Tree} {code : Word} :
    buildLengths b (len :: lens) t code = .ok t' ↔
      ∃ t₁ code₁, buildLength b len t code = .ok (t₁, code₁) ∧ buildLengths b lens t₁ code₁ = .ok t' := by
  rw [buildLengths]
  split <;> simp_all

theorem buildLengths_built {b : Builder} {n k : Nat} {t t' : Tree} {code : Word} (hn : n + k = 31)
    (h : t.Built (floorOf n code)) (e : buildLengths b (List.range' (n + 1) k) t code = .ok t') :
    ∃ floor, t'.Built floor := by
  induction k generalizing n t code with
  | zero => cases e; exact ⟨_, h⟩
  | succ k ih =>
    obtain ⟨t₁, code₁, hlength, hrest⟩ := buildLengths_cons_ok.mp e
    rw [← floorOf_nextLengthCode (by omega) h.tiles.bottom_le] at h
    exact ih (by omega) (buildLength_built (by omega) h hlength) hrest

theorem symbolsOf_of_noSymbols {b : Builder} (h : b.noSymbols = true) (len : Nat) : b.symbolsOf len = [] := by
  refine List.eq_nil_iff_forall_not_mem.mpr fun s hs => ?_
  obtain ⟨l, hl, hsl⟩ := symbolsOf_mem hs
  have := List.all_eq_true.mp h l hl
  simp_all

theorem buildLengths_of_noSymbols {b : Builder} (h : b.noSymbols = true) (lens : List Nat) (t : Tree) (code : Word) :
    buildLengths b lens t code = .ok t := by
  induction lens generalizing code with
  | nil => rfl
  | cons len lens ih =>
    refine buildLengths_cons_ok.mpr ⟨t, nextLengthCode code, ?_, ih _⟩
    simp [buildLength, symbolsOf_of_noSymbols h, placeSymbols]

/-- The walk over the lengths makes the empty tree of an empty builder too (41_huffman.md R261). -/
theorem build_eq (b : Builder) : build b = buildLengths b (List.range' 1 31) emptyTree 0 := by
  unfold build
  split
  · exact (buildLengths_of_noSymbols ‹_› _ _ _).symm
  · rfl

theorem build_built {b : Builder} {t : Tree} (e : build b = .ok t) : ∃ floor, t.Built floor :=
  buildLengths_built (n := 0) rfl emptyTree_built (build_eq b ▸ e)

/-- Settles O14: the invariant `Tree.Built` of the build says it of every code. -/
theorem everyCodeDecodesToItsSymbol : Obligations.EveryCodeDecodesToItsSymbol := by
  intro b t _ e c hc v hv
  obtain ⟨_, hbuilt⟩ := build_built e
  exact hbuilt.decodes c hc v hv

/-- Settles O15: a window above the floor starts with a code, whose symbol it then decodes to; one below decodes to
nothing. -/
theorem onlyCodesDecode : Obligations.OnlyCodesDecode := by
  intro b t _ e v x len hx
  obtain ⟨floor, hbuilt⟩ := build_built e
  by_cases hv : v.toNat < floor
  · rw [hbuilt.misses v hv] at hx
    cases hx
  · obtain ⟨c, hc, hstarts⟩ := hbuilt.tiles.exists_starts (Nat.le_of_not_lt hv) v.isLt
    rw [hbuilt.decodes c hc v hstarts] at hx
    cases hx
    exact ⟨c, hc, rfl, rfl, hstarts⟩

/-! ### The codes of a build -/

theorem buildLength_pairs {b : Builder} {len : Nat} {t t' : Tree} {code code' : Word}
    (e : buildLength b len t code = .ok (t', code')) :
    t'.codes.map (fun c => (c.symbol, c.length)) =
      t.codes.map (fun c => (c.symbol, c.length)) ++ (b.symbolsOf len).map fun s => (s, len) := by
  obtain ⟨t₁, hplace, hclose⟩ := buildLength_ok e
  have hcodes : t'.codes = t₁.codes := by
    rcases hclose with ⟨_, rfl⟩ | ⟨_, _, rfl⟩ | ⟨_, _, rfl⟩ <;> rfl
  rw [hcodes, placeSymbols_codes hplace, List.map_append, codesFrom_map]

theorem buildLengths_pairs {b : Builder} {lens : List Nat} {t t' : Tree} {code : Word}
    (e : buildLengths b lens t code = .ok t') :
    t'.codes.map (fun c => (c.symbol, c.length)) =
      t.codes.map (fun c => (c.symbol, c.length)) ++ lens.flatMap fun len => (b.symbolsOf len).map fun s => (s, len) := by
  induction lens generalizing t code with
  | nil => cases e; simp
  | cons len lens ih =>
    obtain ⟨t₁, code₁, hlength, hrest⟩ := buildLengths_cons_ok.mp e
    rw [ih hrest, buildLength_pairs hlength, List.append_assoc, List.flatMap_cons]

/-- Every pair of the builder takes a code, in the order of R262 and R263. -/
theorem build_pairs {b : Builder} {t : Tree} (e : build b = .ok t) :
    t.codes.map (fun c => (c.symbol, c.length)) = b.pairs :=
  buildLengths_pairs (build_eq b ▸ e)

theorem pairs_length {b : Builder} {p : Symbol × Nat} (h : p ∈ b.pairs) : 1 ≤ p.2 ∧ p.2 ≤ 31 := by
  obtain ⟨len, hlen, hp⟩ := List.mem_flatMap.mp h
  obtain ⟨s, _, rfl⟩ := List.mem_map.mp hp
  rw [List.mem_range'_1] at hlen
  exact ⟨hlen.1, Nat.le_of_lt_succ hlen.2⟩

theorem pairs_sorted (b : Builder) : b.pairs.Pairwise fun p q => p.2 ≤ q.2 := by
  refine List.pairwise_flatMap.mpr ⟨fun len _ => List.pairwise_map.mpr (List.pairwise_of_forall fun _ _ => le_rfl), ?_⟩
  refine (List.pairwise_lt_range' 1).imp fun hlt p hp q hq => ?_
  obtain ⟨_, _, rfl⟩ := List.mem_map.mp hp
  obtain ⟨_, _, rfl⟩ := List.mem_map.mp hq
  exact hlt.le

theorem build_codes_length {b : Builder} {t : Tree} (e : build b = .ok t) {c : CodeEntry} (hc : c ∈ t.codes) :
    1 ≤ c.length ∧ c.length ≤ 31 :=
  pairs_length (p := (c.symbol, c.length)) (build_pairs e ▸ List.mem_map_of_mem hc)

theorem build_codes_sorted {b : Builder} {t : Tree} (e : build b = .ok t) :
    t.codes.Pairwise fun c d => c.length ≤ d.length :=
  (List.pairwise_map (f := fun c : CodeEntry => (c.symbol, c.length))).mp (build_pairs e ▸ pairs_sorted b)

/-- A code lies within the windows exactly if its value has no more bits than its length. -/
theorem CodeEntry.high_le_iff {c : CodeEntry} (h : c.length ≤ 32) : c.high ≤ 2 ^ 32 ↔ c.code.toNat < 2 ^ c.length := by
  rw [CodeEntry.high, ← pow_mul_pow_sub 2 h, Nat.mul_le_mul_right_iff (Nat.two_pow_pos _), Nat.succ_le_iff]

/-- The code at the top of the windows is the one of all ones. -/
theorem CodeEntry.high_eq_iff {c : CodeEntry} (h : c.length ≤ 32) :
    c.high = 2 ^ 32 ↔ c.code.toNat + 1 = 2 ^ c.length := by
  rw [CodeEntry.high, ← pow_mul_pow_sub 2 h, Nat.mul_left_inj (Nat.two_pow_pos _).ne']

/-- Settles O13: the pairs by `build_pairs`, the code values by the tiling of `Tree.Built`. -/
theorem buildAssignsCanonicalCodes : Obligations.BuildAssignsCanonicalCodes := by
  intro b t _ e
  obtain ⟨floor, hbuilt⟩ := build_built e
  have htiles := hbuilt.tiles
  have hlength : ∀ c ∈ t.codes, c.length ≤ 32 := fun c hc => (build_codes_length e hc).2.trans (by decide)
  refine ⟨build_pairs e, fun c hc => ?below, fun c rest hcodes => ?first, fun before c d after hcodes => ?next,
    (build_codes_sorted e).and htiles.pairwise⟩
  case below => exact (CodeEntry.high_le_iff (hlength c hc)).mp (htiles.between c hc).2
  case first =>
    rw [hcodes] at htiles
    have hones := (CodeEntry.high_eq_iff (hlength c (by simp [hcodes]))).mp htiles.1
    omega
  case next =>
    rw [hcodes] at htiles
    obtain ⟨_, _, _, hnext, _⟩ := tiles_append.mp htiles
    exact hnext

/-! ### Kraft's inequality -/

theorem buildLength_ok_iff {b : Builder} {len : Nat} {t : Tree} {code : Word} (h31 : len ≤ 31)
    (hfree : freeCodes (nextLengthCode code) ≤ 2 ^ len) :
    (∃ r, buildLength b len t code = .ok r) ↔ (b.symbolsOf len).length ≤ freeCodes (nextLengthCode code) := by
  rw [← placeSymbols_ok_iff (t := t) h31 hfree, buildLength]
  split
  · simp [*]
  · split <;> simp [*]

theorem buildLength_freeCodes {b : Builder} {len : Nat} {t t' : Tree} {code code' : Word} (h31 : len ≤ 31)
    (e : buildLength b len t code = .ok (t', code')) :
    freeCodes code' + (b.symbolsOf len).length = freeCodes (nextLengthCode code) := by
  obtain ⟨_, hplace, _⟩ := buildLength_ok e
  exact placeSymbols_freeCodes h31 hplace

/-- From any length on the build goes through exactly if what the remaining symbols take, in units of a code of length
31, is no more than what is free. -/
theorem buildLengths_ok_iff {b : Builder} {n k : Nat} {t : Tree} {code : Word} (hn : n + k = 31)
    (hfree : freeCodes code ≤ 2 ^ n) :
    (∃ t', buildLengths b (List.range' (n + 1) k) t code = .ok t') ↔
      ((List.range' (n + 1) k).map fun len => (b.symbolsOf len).length * 2 ^ (31 - len)).sum ≤
        freeCodes code * 2 ^ (31 - n) := by
  induction k generalizing n t code with
  | zero => simp [buildLengths]
  | succ k ih =>
    have hlt : 2 ^ n < 2 ^ 31 := Nat.pow_lt_pow_right (by decide) (by omega)
    have hnext := freeCodes_nextLengthCode (hfree.trans_lt hlt)
    have hnextLe : freeCodes (nextLengthCode code) ≤ 2 ^ (n + 1) := by rw [hnext, pow_succ]; omega
    have hunits : freeCodes code * 2 ^ (31 - n) = freeCodes (nextLengthCode code) * 2 ^ (31 - (n + 1)) := by
      rw [hnext, show 31 - n = 31 - (n + 1) + 1 by omega, pow_succ]
      ring
    rw [hunits, List.range'_succ, List.map_cons, List.sum_cons]
    constructor
    · rintro ⟨t', e⟩
      obtain ⟨t₁, code₁, hlength, hrest⟩ := buildLengths_cons_ok.mp e
      have htake := buildLength_freeCodes (by omega) hlength
      have := (ih (by omega) (by omega)).mp ⟨t', hrest⟩
      rw [← htake, Nat.add_mul]
      omega
    · intro hsum
      have hfits : (b.symbolsOf (n + 1)).length ≤ freeCodes (nextLengthCode code) :=
        Nat.le_of_mul_le_mul_right (by omega) (Nat.two_pow_pos (31 - (n + 1)))
      obtain ⟨⟨t₁, code₁⟩, hlength⟩ := (buildLength_ok_iff (t := t) (by omega) hnextLe).mpr hfits
      have htake := buildLength_freeCodes (by omega) hlength
      rw [← htake, Nat.add_mul] at hsum
      obtain ⟨t', hrest⟩ := (ih (n := n + 1) (t := t₁) (code := code₁) (by omega) (by omega)).mpr (by omega)
      exact ⟨t', buildLengths_cons_ok.mpr ⟨t₁, code₁, hlength, hrest⟩⟩

theorem buildLengths_error {b : Builder} {lens : List Nat} {t : Tree} {code : Word} {e : StopCode}
    (h : buildLengths b lens t code = .error e) : e = .oversubscribed := by
  induction lens generalizing t code with
  | nil => cases h
  | cons len lens ih =>
    rw [buildLengths, buildLength] at h
    split at h
    · rename_i hlength
      split at hlength
      · cases h; cases hlength; exact placeSymbols_error _ ‹_›
      · split at hlength <;> cases hlength
    · exact ih h

theorem build_error {b : Builder} {e : StopCode} (h : build b = .error e) : e = .oversubscribed :=
  buildLengths_error (build_eq b ▸ h)

/-- Settles O12: `buildLengths_ok_iff` from length 0 on, where the one empty code is free. -/
theorem buildStopsIffKraftFails : Obligations.BuildStopsIffKraftFails := by
  intro b _
  refine ⟨?_, fun e => build_error⟩
  rw [build_eq]
  exact buildLengths_ok_iff (n := 0) (code := 0) rfl le_rfl

end Sys2Proof.Machine
end

section
/-! PROOFS. The HB_* and HT_* commands (41_huffman.md R274 to R278, R280): each body is its argument check, then the
operation on the builder, a tree or the reader. -/

namespace Sys2Proof.Machine

/-! ### The builder -/

theorem emptyBuilder_noSymbols : emptyBuilder.noSymbols = true := by decide

/-- A symbol is present exactly if it is on the list of a length (10_state.md R59). -/
theorem present_iff {b : Builder} {x : Symbol} : b.present x = true ↔ ∃ len, x ∈ b.symbolsOf len := by
  simp only [Builder.present, List.any_eq_true, List.contains_iff_mem]
  constructor
  · rintro ⟨l, hl, hx⟩
    obtain ⟨i, hi⟩ := List.mem_iff_getElem?.mp hl
    exact ⟨i + 1, by simpa [Builder.symbolsOf, hi] using hx⟩
  · rintro ⟨len, hx⟩
    exact symbolsOf_mem hx

/-- B_ADD puts the symbol behind those of its length and leaves the other lengths (41_huffman.md R251). -/
theorem symbolsOf_add {b : Builder} {len : Nat} (s : Symbol) (h1 : 1 ≤ len) (hlen : len ≤ b.lists.length) (n : Nat) :
    (b.add s len).symbolsOf n = if n = len then b.symbolsOf len ++ [s] else b.symbolsOf n := by
  have hpos : len ≠ 0 := by omega
  have hlt : len - 1 < b.lists.length := by omega
  rcases Nat.eq_zero_or_pos n with rfl | hn
  · rw [if_neg hpos.symm]
    rfl
  · have hn0 : n ≠ 0 := by omega
    simp only [Builder.symbolsOf, Builder.add, if_neg hpos, if_neg hn0, List.getD_eq_getElem?_getD]
    by_cases hsame : n = len
    · simp [hsame, hlt]
    · rw [if_neg hsame, List.getElem?_set_ne (by omega)]

theorem present_add {b : Builder} {len : Nat} (s : Symbol) (h1 : 1 ≤ len) (hlen : len ≤ b.lists.length) (x : Symbol) :
    (b.add s len).present x = (b.present x || x == s) := by
  rw [Bool.eq_iff_iff, Bool.or_eq_true, present_iff, present_iff, beq_iff_eq]
  simp only [symbolsOf_add s h1 hlen]
  constructor
  · rintro ⟨n, hx⟩
    split at hx
    · rcases List.mem_append.mp hx with hx | hx
      · exact .inl ⟨_, hx⟩
      · exact .inr (List.mem_singleton.mp hx)
    · exact .inl ⟨n, hx⟩
  · rintro (⟨n, hx⟩ | rfl)
    · refine ⟨n, ?_⟩
      split
      · subst n
        exact List.mem_append_left _ hx
      · exact hx
    · exact ⟨len, by simp⟩

/-! ### HB_CLEAR and HB_ADD -/

theorem exec_hbClear {s : State} (hp : s.phase = .idle) :
    exec .hbClear s = .next { s.completed 0x20 0 0 with builder := emptyBuilder } := command_idle hp _ _

/-- The arguments HB_ADD refuses (41_huffman.md R275). -/
def State.addRefused (s : State) : Prop :=
  284 < s.arg0.toNat ∨ s.arg1.toNat < 1 ∨ 31 < s.arg1.toNat ∨ s.builder.present (BitVec.ofNat 16 s.arg0.toNat) = true

theorem not_addArgsOk_iff {s : State} : (!s.addArgsOk) = true ↔ s.addRefused := by
  have hsymbol : s.arg0.toNat < Config.maxSymbols ↔ ¬ 284 < s.arg0.toNat := by rw [Config.maxSymbols]; omega
  have hlength : s.arg1.toNat ≤ Config.maxCodeLength ↔ ¬ 31 < s.arg1.toNat := by rw [Config.maxCodeLength]; omega
  simp [State.addArgsOk, State.addRefused, hsymbol, hlength, or_assoc]

theorem exec_hbAdd_refused {s : State} (hp : s.phase = .idle) (h : s.addRefused) :
    exec .hbAdd s = .next (s.completed 0x21 6 0) :=
  (command_idle hp _ _).trans (congrArg Host.Outcome.next (if_pos ((not_addArgsOk_iff (s := s.accept 0x21)).mpr h)))

theorem exec_hbAdd_added {s : State} (hp : s.phase = .idle) (h : ¬ s.addRefused) :
    exec .hbAdd s = .next
      { s.completed 0x21 0 0 with builder := s.builder.add (BitVec.ofNat 16 s.arg0.toNat) s.arg1.toNat } := by
  refine (command_idle hp _ _).trans (congrArg Host.Outcome.next ?_)
  rw [hbAdd, if_neg (mt (not_addArgsOk_iff (s := s.accept 0x21)).mp h), BitVec.ofNat_toNat]
  rfl

/-- Settles O10: HB_CLEAR leaves the empty builder; HB_ADD's builder is read by `symbolsOf_add` and `present_add`. -/
theorem builderCommands : Obligations.BuilderCommands := by
  refine ⟨fun s hp => ?clear, fun s hp hlists => ⟨fun hrefused => ?refused, fun h0 h1 h31 hnew => ?added⟩⟩
  case clear =>
    have hlists := symbolsOf_of_noSymbols emptyBuilder_noSymbols
    refine ⟨_, exec_hbClear hp, hlists, fun x => ?_, emptyBuilder_noSymbols⟩
    rw [← Bool.not_eq_true, present_iff]
    rintro ⟨len, hx⟩
    exact List.not_mem_nil (hlists len ▸ hx)
  case refused => exact exec_hbAdd_refused hp hrefused
  case added =>
    have hok : ¬ s.addRefused := by
      rintro (hsymbol | hshort | hlong | hpresent)
      · omega
      · omega
      · omega
      · exact absurd (hnew.symm.trans hpresent) (by decide)
    have hlen : s.arg1.toNat ≤ s.builder.lists.length := hlists ▸ h31
    exact ⟨_, exec_hbAdd_added hp hok, by rw [symbolsOf_add _ h1 hlen, if_pos rfl],
      fun len hne => by rw [symbolsOf_add _ h1 hlen, if_neg hne], present_add _ h1 hlen⟩

/-! ### HB_BUILD -/

theorem exec_hbBuild_refused {s : State} (hp : s.phase = .idle) (h : 1 < s.arg0.toNat) :
    exec .hbBuild s = .next (s.completed 0x22 6 0) := by
  refine (command_idle hp _ _).trans (congrArg Host.Outcome.next ?_)
  have hid : (s.accept 0x22).buildIdOk = false := decide_eq_false (Nat.not_le.mpr h)
  rw [hbBuild, hid]
  rfl

/-- HB_BUILD of a tree id 0 or 1 whose build stops (41_huffman.md R267, R277). -/
theorem exec_hbBuild_stopped {s : State} {e : StopCode} (hp : s.phase = .idle) (h : s.arg0.toNat ≤ 1)
    (hb : build s.builder = .error e) :
    exec .hbBuild s = .next ((s.completed 0x22 0 7).setTree (datTreeOf s.arg0.toNat) emptyTree) := by
  refine (command_idle hp _ _).trans (congrArg Host.Outcome.next ?_)
  have hid : (s.accept 0x22).buildIdOk = true := decide_eq_true h
  have hb' : build (s.accept 0x22).builder = .error .oversubscribed := build_error hb ▸ hb
  rw [hbBuild, hid, hb']
  cases hwhich : datTreeOf s.arg0.toNat <;> simp [hwhich, State.setTree] <;> rfl

/-- HB_BUILD of a tree id 0 or 1 whose build goes through (41_huffman.md R277). -/
theorem exec_hbBuild_built {s : State} {t : Tree} (hp : s.phase = .idle) (h : s.arg0.toNat ≤ 1)
    (hb : build s.builder = .ok t) :
    exec .hbBuild s = .next
      { (s.completed 0x22 0 0).setTree (datTreeOf s.arg0.toNat) t with
        result0 := if s.builder.noSymbols then 0 else 1 } := by
  refine (command_idle hp _ _).trans (congrArg Host.Outcome.next ?_)
  have hid : (s.accept 0x22).buildIdOk = true := decide_eq_true h
  have hb' : build (s.accept 0x22).builder = .ok t := hb
  rw [hbBuild, hid, hb']
  cases hwhich : datTreeOf s.arg0.toNat <;> simp [hwhich, State.setTree] <;> rfl

/-- Settles O11: the three outcomes of HB_BUILD, the target named by the tree id. -/
theorem hbBuildReplacesTree : Obligations.HbBuildReplacesTree := by
  intro s hp
  refine ⟨exec_hbBuild_refused hp, fun e he => ⟨fun h0 => ?_, fun h1 => ?_⟩,
    fun t v ht hv => ⟨fun h0 => ?_, fun h1 => ?_⟩⟩
  · rw [exec_hbBuild_stopped hp (by simp [h0]) he, h0]; rfl
  · rw [exec_hbBuild_stopped hp (by simp [h1]) he, h1]; rfl
  · rw [exec_hbBuild_built hp (by simp [h0]) ht, h0, hv]; rfl
  · rw [exec_hbBuild_built hp (by simp [h1]) ht, h1, hv]; rfl

/-! ### HT_DECODE and HT_CODE -/

/-- The tree id as a number and as a word (30_encoding.md R145). -/
theorem tree_eq_treeOf (s : State) (id : Word) : s.tree id.toNat = s.treeOf id := by
  have h0 : id.toNat = 0 ↔ id = 0 := by bv_omega
  have h1 : id.toNat = 1 ↔ id = 1 := by bv_omega
  have h2 : id.toNat = 2 ↔ id = 2 := by bv_omega
  simp only [State.tree, State.treeOf, h0, h1, h2]

/-- DECODE of bits that start no code (41_huffman.md R272). -/
theorem decodeTree_of_no_code (m : Memory) {t : Tree} {r : Reader} (hx : windowSymbol t r = none) :
    decodeTree m t r = .error .invalidCode := by
  simp only [decodeTree, resolve_peek, hx]

/-- DECODE of a code longer than the valid bits (41_huffman.md R273). -/
theorem decodeTree_of_short (m : Memory) {t : Tree} {r : Reader} {x : Symbol} {len : Nat}
    (hx : windowSymbol t r = some (x, len)) (hlen : r.bits < len) : decodeTree m t r = .error .exhausted := by
  simp only [decodeTree, resolve_peek, hx, drop_of_short m hlen]

/-- DECODE of a code whose bits are valid (41_huffman.md R270). -/
theorem decodeTree_of_le (m : Memory) {t : Tree} {r : Reader} {x : Symbol} {len : Nat}
    (hx : windowSymbol t r = some (x, len)) (hlen : len ≤ r.bits) :
    decodeTree m t r = .ok (x, len, afterDrop m r len) := by
  simp only [decodeTree, resolve_peek, hx, drop_eq_afterDrop m hlen]

theorem exec_htDecode_refused {s : State} (hp : s.phase = .idle) (h : 3 < s.arg0.toNat) :
    exec .htDecode s = .next (s.completed 0x23 6 0) := by
  refine (command_idle hp _ _).trans (congrArg Host.Outcome.next ?_)
  have hid : (s.accept 0x23).treeIdOk = false := decide_eq_false (Nat.not_le.mpr h)
  rw [htDecode, hid]
  rfl

theorem exec_htDecode_stopped {s : State} {e : StopCode} (hp : s.phase = .idle) (h : s.arg0.toNat ≤ 3)
    (hd : decodeTree s.mem (s.treeOf s.arg0) s.reader = .error e) :
    exec .htDecode s = .next (s.completed 0x23 0 (stopNumber e)) := by
  refine (command_idle hp _ _).trans (congrArg Host.Outcome.next ?_)
  have hid : (s.accept 0x23).treeIdOk = true := decide_eq_true h
  have hd' : decodeTree (s.accept 0x23).mem ((s.accept 0x23).tree (s.accept 0x23).arg0.toNat) (s.accept 0x23).reader =
      .error e := by rw [tree_eq_treeOf]; exact hd
  rw [htDecode, hid, hd']
  rfl

theorem exec_htDecode_decoded {s : State} {x : Symbol} {len : Nat} {r : Reader} (hp : s.phase = .idle)
    (h : s.arg0.toNat ≤ 3) (hd : decodeTree s.mem (s.treeOf s.arg0) s.reader = .ok (x, len, r)) :
    exec .htDecode s = .next
      { s.completed 0x23 0 0 with
        result0 := BitVec.ofNat 32 x.toNat
        result1 := BitVec.ofNat 32 len
        reader := r } := by
  refine (command_idle hp _ _).trans (congrArg Host.Outcome.next ?_)
  have hid : (s.accept 0x23).treeIdOk = true := decide_eq_true h
  have hd' : decodeTree (s.accept 0x23).mem ((s.accept 0x23).tree (s.accept 0x23).arg0.toNat) (s.accept 0x23).reader =
      .ok (x, len, r) := by rw [tree_eq_treeOf]; exact hd
  rw [htDecode, hid, hd', BitVec.ofNat_toNat]
  rfl

/-- Settles O16: HT_DECODE ends as DECODE of the selected tree does. -/
theorem htDecodeReadsSymbol : Obligations.HtDecodeReadsSymbol := by
  intro s hp
  refine ⟨exec_htDecode_refused hp, fun h => ⟨fun hx => ?noCode, fun x len hx => ?code⟩⟩
  case noCode => exact exec_htDecode_stopped hp h (decodeTree_of_no_code s.mem hx)
  case code =>
    exact ⟨fun hlen => exec_htDecode_stopped hp h (decodeTree_of_short s.mem hx hlen),
      fun hlen => exec_htDecode_decoded hp h (decodeTree_of_le s.mem hx hlen)⟩

theorem findCode_eq_none {x : Symbol} {l : List CodeEntry} (h : ∀ c ∈ l, c.symbol ≠ x) : findCode x l = none := by
  induction l with
  | nil => rfl
  | cons c l ih =>
    rw [findCode, if_neg (h c (by simp))]
    exact ih fun d hd => h d (by simp [hd])

/-- The first entry of a symbol is the one found (41_huffman.md R276). -/
theorem findCode_append_cons {x : Symbol} {before after : List CodeEntry} {c : CodeEntry}
    (h : ∀ d ∈ before, d.symbol ≠ x) (hc : c.symbol = x) : findCode x (before ++ c :: after) = some c := by
  induction before with
  | nil => exact if_pos hc
  | cons d before ih =>
    rw [List.cons_append, findCode, if_neg (h d (by simp))]
    exact ih fun e he => h e (by simp [he])

theorem htCode_args_iff {s : State} :
    (!s.treeIdOk || !s.codeSymbolOk) = true ↔ 3 < s.arg0.toNat ∨ 0xFFFF < s.arg1.toNat := by
  simp [State.treeIdOk, State.codeSymbolOk]

theorem exec_htCode_refused {s : State} (hp : s.phase = .idle) (h : 3 < s.arg0.toNat ∨ 0xFFFF < s.arg1.toNat) :
    exec .htCode s = .next (s.completed 0x24 6 0) :=
  (command_idle hp _ _).trans (congrArg Host.Outcome.next (if_pos ((htCode_args_iff (s := s.accept 0x24)).mpr h)))

/-- HT_CODE of arguments in range is the look-up in the list of codes (41_huffman.md R276). -/
theorem exec_htCode_found {s : State} (hp : s.phase = .idle) (h0 : s.arg0.toNat ≤ 3) (h1 : s.arg1.toNat ≤ 0xFFFF)
    {o : Option CodeEntry} (ho : findCode (BitVec.ofNat 16 s.arg1.toNat) (s.treeOf s.arg0).codes = o) :
    exec .htCode s = .next
      { s.completed 0x24 0 0 with
        result0 := o.elim 0 CodeEntry.code
        result1 := o.elim 0 fun c => BitVec.ofNat 32 c.length } := by
  refine (command_idle hp _ _).trans (congrArg Host.Outcome.next ?_)
  have hargs := mt (htCode_args_iff (s := s.accept 0x24)).mp (not_or.mpr ⟨Nat.not_lt.mpr h0, Nat.not_lt.mpr h1⟩)
  have hfind : findCode ((s.accept 0x24).arg1.setWidth 16) ((s.accept 0x24).tree (s.accept 0x24).arg0.toNat).codes = o := by
    rw [tree_eq_treeOf, ← BitVec.ofNat_toNat]
    exact ho
  rw [htCode, if_neg hargs, hfind]
  cases o <;> rfl

/-- Settles O17: HT_CODE answers the first entry of the symbol in the tree's list of codes, if there is one. -/
theorem htCodeReturnsCode : Obligations.HtCodeReturnsCode := by
  intro s hp
  refine ⟨exec_htCode_refused hp, fun h0 h1 => ⟨fun hall => ?absent, fun before c after hcodes hbefore hc => ?held⟩⟩
  case absent => exact exec_htCode_found hp h0 h1 (findCode_eq_none hall)
  case held => exact exec_htCode_found hp h0 h1 (hcodes ▸ findCode_append_cons hbefore hc)

/-! ### TEX_DICT -/

/-- What R280 lists at a hash entry. -/
def texEntry (h : Nat) : HashEntry :=
  if 0x80 ≤ h then ⟨0x01, 1⟩ else if 0x40 ≤ h then ⟨0x12, 2⟩ else ⟨BitVec.ofNat 16 (h / 4 + 2), 6⟩

theorem texDict_eq :
    texDict = { hash := (List.range 256).map fun h => some (texEntry h), long := [], symbols := [],
                codes := texCodeTable.map fun c => ⟨c.1, BitVec.ofNat 32 c.2.1, c.2.2⟩ } := by
  decide +kernel

/-- Settles O18: the build of the insertion list, run once in `texDict_eq`. -/
theorem texDictContent : Obligations.TexDictContent := by
  rw [Obligations.TexDictContent, texDict_eq]
  refine ⟨fun h hh => ?_, rfl, rfl⟩
  rw [Tree.hashEntry, List.getD_eq_getElem?_getD, List.getElem?_map, List.getElem?_range hh]
  rfl

end Sys2Proof.Machine
end

section
/-! PROOFS. The dat stream up to its items (42_dat_inflater.md R323 to R333). In an undisturbed job each test between
two elements leads where the rules say, `afterItem`, `afterEntry` and `afterBuild` in the statements' words. -/

namespace Sys2Proof.Machine

/-! ### The control flow of an undisturbed job -/

/-- The final bit is dropped exactly if the window holds one (42_dat_inflater.md R341). -/
theorem dropFinalBit_eq_finalBit (m : Memory) (r : Reader) : r.dropFinalBit m = finalBit m r := by
  unfold Reader.dropFinalBit finalBit
  by_cases h : r.bits = 0
  · rw [if_pos h, drop_of_short m (by omega)]
  · rw [if_neg h, drop_eq_afterDrop m (by omega)]

theorem datFinish_undisturbed {s : State} (ht : s.touched = false) :
    s.datFinish = State.finished 0 0 s.written { s with reader := finalBit s.mem s.reader } := by
  rw [State.datFinish, dropFinalBit_eq_finalBit]
  exact endJob_undisturbed (s := { s with reader := finalBit s.mem s.reader }) ht _ _ _

/-- With output left a new block begins (42_dat_inflater.md R324). -/
theorem datOuter_of_lt {s : State} (h : s.dat.outPos < s.outLen.toNat) : datOuter s = enterParse .sym s := if_pos h

/-- With items and output left the next item follows (42_dat_inflater.md R334). -/
theorem datInner_of_lt {s : State} (hc : s.dat.count < s.dat.maxCount) (h : s.dat.outPos < s.outLen.toNat) :
    datInner s = { s with phase := .datItem } := if_pos ⟨hc, h⟩

theorem datInner_eq_afterItem {s : State} (ht : s.touched = false) : datInner s = s.afterItem := by
  unfold State.afterItem
  by_cases hfull : s.outLen.toNat ≤ s.dat.outPos
  · rw [if_pos hfull, datInner, if_neg (by omega), datOuter, if_neg (by omega), datFinish_undisturbed ht]
  · have hleft : s.dat.outPos < s.outLen.toNat := Nat.lt_of_not_le hfull
    rw [if_neg hfull]
    by_cases hc : s.dat.count < s.dat.maxCount
    · rw [if_pos hc, datInner_of_lt hc hleft]
    · rw [if_neg hc, datInner, if_neg (by omega), datOuter_of_lt hleft]
      rfl

theorem afterTree_eq_afterBuild (which : DatTree) {s : State} (ht : s.touched = false) :
    afterTree which s = s.afterBuild which := by
  unfold afterTree State.afterBuild Builder.noSymbols
  split
  · exact datFinish_undisturbed ht
  · cases which <;> rfl

theorem datDescriptorNext_eq_afterEntry (which : DatTree) {s : State} (ht : s.touched = false) :
    datDescriptorNext which s = s.afterEntry which := by
  have htree : ∀ t, (s.setTree which t).touched = false := fun t => (setTree_jobOnly s which t).touched.trans ht
  by_cases hrem : 0 ≤ s.dat.remaining
  · rw [datDescriptorNext, State.afterEntry, if_pos hrem, if_pos hrem]
  · rw [datDescriptorNext, State.afterEntry, if_neg hrem, if_neg hrem, finishTree]
    cases hbuild : build s.builder with
    | error e =>
      obtain rfl := build_error hbuild
      exact (datStop_undisturbed (htree emptyTree) _).trans (by cases which <;> rfl)
    | ok t => exact afterTree_eq_afterBuild which (htree t)

/-! ### The header and max_count -/

/-- Settles O23: with output left the outer test enters the SYM descriptor, and max_count, at least 4096, the items. -/
theorem datHeaderAndMaxCount : Obligations.DatHeaderAndMaxCount := by
  refine ⟨fun s method wraw hp hpos => ?header, fun s raw hp hpos => ?maxCount⟩
  case header =>
    have hbyte : wraw ++ method = BitVec.ofNat 8 (wraw.toNat * 16 + method.toNat) :=
      BitVec.eq_of_toNat_eq (by rw [toNat_append_eq_add]; exact (toNat_ofNat_of_lt (by omega)).symm)
    rw [← hbyte]
    exact (inPhase_at hp _).trans (congrArg Host.Outcome.next (datOuter_of_lt hpos))
  case maxCount =>
    have hitems : 0 < (raw.toNat + 1) * 2 ^ 12 := by omega
    exact (inPhase_at hp _).trans (congrArg Host.Outcome.next (datInner_of_lt hitems hpos))

/-! ### n_symbols -/

theorem exec_datNSymbols {s : State} {which : DatTree} (hp : s.phase = .datNSymbols which) (n : BitVec 16) :
    exec (.datNSymbols n) s = .next
      (if 285 < n.toNat then s.datStop .badSymbolCount
       else datDescriptorNext which { s with dat := { s.dat with remaining := (n.toNat : Int) - 1 } }) := by
  simp only [exec, execDatNSymbols, hp]
  rfl

/-- A descriptor that ends with an empty builder ends the job, its tree empty (42_dat_inflater.md R331). -/
theorem afterEntry_of_emptyBuilder (which : DatTree) {s : State} (hrem : s.dat.remaining < 0)
    (hb : s.builder = emptyBuilder) :
    s.afterEntry which =
      State.finished 0 0 s.written { s.setTree which emptyTree with reader := finalBit s.mem s.reader } := by
  have hempty : ((s.setTree which emptyTree).builder.lists.all fun l => l.isEmpty) = true := by
    rw [(setTree_builder s which emptyTree).trans hb]
    exact emptyBuilder_noSymbols
  have hbuild : build s.builder = .ok emptyTree := by rw [hb, build, if_pos emptyBuilder_noSymbols]
  simp only [State.afterEntry, if_neg (Int.not_le.mpr hrem), hbuild, State.afterBuild, hempty, if_true]
  cases which <;> rfl

/-- Settles O24: the three ranges of n_symbols are the branches of `exec_datNSymbols` and of `afterEntry`. -/
theorem nSymbolsStartsDescriptor : Obligations.NSymbolsStartsDescriptor := by
  intro s which n hp ht
  rw [exec_datNSymbols hp]
  refine ⟨fun hbig => ?stops, fun h1 h285 => ?entries, fun h0 hb => ?empty⟩
  case stops => rw [if_pos hbig, datStop_undisturbed ht, stopNumber]
  case entries =>
    have hrem : (0 : Int) ≤ (n.toNat : Int) - 1 := by omega
    rw [if_neg (Nat.not_lt.mpr h285)]
    exact congrArg Host.Outcome.next (if_pos hrem)
  case empty =>
    subst n
    have hend :=
      afterEntry_of_emptyBuilder which (s := { s with dat := { s.dat with remaining := -1 } }) neg_one_lt_zero hb
    refine congrArg Host.Outcome.next ((datDescriptorNext_eq_afterEntry which (by exact ht)).trans (hend.trans ?_))
    cases which <;> rfl

/-! ### The entries of a descriptor -/

theorem exec_datDescSkip {s : State} {which : DatTree} (hp : s.phase = .datDescriptor which) (r : BitVec 3) :
    exec (.datDescSkip r) s = .next
      (datDescriptorNext which { s with dat := { s.dat with remaining := s.dat.remaining - (r.toNat + 1) } }) := by
  simp only [exec, execDatDescSkip, hp]

theorem exec_datDescAdd {s : State} {which : DatTree} (hp : s.phase = .datDescriptor which) (r : BitVec 3)
    (len : BitVec 5) {remaining : Int} {fits : Bool}
    (hend : (addRun len.toNat (r.toNat + 1) s.builder s.dat.remaining).2 = (remaining, fits)) :
    exec (.datDescAdd r len) s = .next
      (let t := { s with
        builder := (addRun len.toNat (r.toNat + 1) s.builder s.dat.remaining).1
        dat := { s.dat with remaining := remaining } }
      if fits then datDescriptorNext which t else t.datStop .descriptorOverrun) := by
  simp only [exec, execDatDescAdd, hp, hend]

theorem add_lists_length (b : Builder) (x : Symbol) (len : Nat) : (b.add x len).lists.length = b.lists.length := by
  unfold Builder.add
  split
  · rfl
  · exact List.length_set

/-! An add entry with `k` indices left, the highest of them `k - 1`. -/

theorem addRun_no_index (len n : Nat) (b : Builder) : addRun len (n + 1) b ((0 : Nat) - 1 : Int) = (b, -1, false) := rfl

theorem addRun_index (len n k : Nat) (b : Builder) :
    addRun len (n + 1) b ((k + 1 : Nat) - 1 : Int) = addRun len n (b.add (BitVec.ofNat 16 k) len) (k - 1 : Int) := by
  have hk : ((k + 1 : Nat) - 1 : Int) = k := by omega
  rw [addRun, hk, if_neg (by omega), Int.toNat_natCast]

/-- Where an add entry ends: below the indices it gives the length, or at -1 where it finds none (42_dat_inflater.md
R330). -/
theorem addRun_end (len n k : Nat) (b : Builder) :
    (addRun len n b (k - 1 : Int)).2 = if n ≤ k then ((k : Int) - 1 - n, true) else (-1, false) := by
  induction n generalizing b k with
  | zero => simp [addRun]
  | succ n ih =>
    cases k with
    | zero => rfl
    | succ k =>
      rw [addRun_index, ih]
      by_cases h : n ≤ k
      · rw [if_pos h, if_pos (by omega), Prod.mk.injEq]
        exact ⟨by omega, rfl⟩
      · rw [if_neg h, if_neg (by omega)]

/-- What an add entry adds: the highest `n` of the `k` indices left, descending, to the list of its length
(42_dat_inflater.md R330). -/
theorem addRun_symbolsOf_same {len : Nat} (n k : Nat) {b : Builder} (h1 : 1 ≤ len) (hlen : len ≤ b.lists.length) :
    (addRun len n b (k - 1 : Int)).1.symbolsOf len =
      b.symbolsOf len ++ (List.range (min n k)).map fun j => BitVec.ofNat 16 (k - 1 - j) := by
  induction n generalizing b k with
  | zero => simp [addRun]
  | succ n ih =>
    cases k with
    | zero => rw [addRun_no_index, Nat.min_zero, List.range_zero, List.map_nil, List.append_nil]
    | succ k =>
      have hshift : (fun j => BitVec.ofNat 16 (k + 1 - 1 - j)) ∘ Nat.succ = fun j => BitVec.ofNat 16 (k - 1 - j) :=
        funext fun j => congrArg (BitVec.ofNat 16) (by omega)
      rw [addRun_index, ih k (by rwa [add_lists_length]), symbolsOf_add _ h1 hlen, if_pos rfl, Nat.succ_min_succ,
        List.range_succ_eq_map, List.map_cons, List.map_map, hshift, List.append_assoc]
      rfl

/-- An add entry leaves the lists of the other lengths (42_dat_inflater.md R330). -/
theorem addRun_symbolsOf_ne {len other : Nat} (n k : Nat) {b : Builder} (h1 : 1 ≤ len) (hlen : len ≤ b.lists.length)
    (hne : other ≠ len) : (addRun len n b (k - 1 : Int)).1.symbolsOf other = b.symbolsOf other := by
  induction n generalizing b k with
  | zero => rfl
  | succ n ih =>
    cases k with
    | zero => rw [addRun_no_index]
    | succ k => rw [addRun_index, ih k (by rwa [add_lists_length]), symbolsOf_add _ h1 hlen, if_neg hne]

/-- Settles O25: a skip only lowers `remaining`; an add is `addRun` with the indices 0 to `remaining` left. -/
theorem descriptorEntries : Obligations.DescriptorEntries := by
  refine ⟨fun s which r hp ht => ?skip, fun s which r len hlen hinv ht hp => ?add⟩
  case skip =>
    rw [exec_datDescSkip hp]
    exact congrArg Host.Outcome.next (datDescriptorNext_eq_afterEntry which ht)
  case add =>
    have hjob := hinv.job
    simp only [State.JobGood, hp] at hjob
    obtain ⟨_, hnonneg, _⟩ := hjob
    have h1 : 1 ≤ len.toNat := Nat.one_le_iff_ne_zero.mpr fun h0 => hlen (BitVec.eq_of_toNat_eq h0)
    have h31 : len.toNat ≤ s.builder.lists.length := by rw [hinv.builder.lengths]; omega
    obtain ⟨k, hk⟩ : ∃ k : Nat, s.dat.remaining = (k + 1 : Nat) - 1 := ⟨s.dat.remaining.toNat, by omega⟩
    have hk' : s.dat.remaining.toNat = k := by omega
    have hsame := addRun_symbolsOf_same (r.toNat + 1) (k + 1) h1 h31
    have hother := fun other => addRun_symbolsOf_ne (other := other) (r.toNat + 1) (k + 1) h1 h31
    have hend := addRun_end len.toNat (r.toNat + 1) (k + 1) s.builder
    rw [← hk] at hsame hother hend
    rw [hk']
    refine ⟨_, hsame, hother, fun hfits => ?_, fun hover => ?_⟩
    · rw [if_pos (by omega)] at hend
      rw [exec_datDescAdd hp r len hend, if_pos rfl]
      exact congrArg Host.Outcome.next (datDescriptorNext_eq_afterEntry which ht)
    · rw [if_neg (by omega)] at hend
      rw [exec_datDescAdd hp r len hend, if_neg Bool.false_ne_true]
      exact congrArg Host.Outcome.next (datStop_undisturbed (by exact ht) _)

end Sys2Proof.Machine
end

section
/-! PROOFS. The items of a dat job (42_dat_inflater.md R334 to R339): a byte stored, or a length and a distance, each a
base and extra bits, and the copy back. The copy's idea: each iteration stores the byte `dist` before it at an address
no later iteration stores to, so both bytes still read the same at the end. -/

namespace Sys2Proof.Machine

/-! ### Literals -/

theorem datItemDone_eq_afterItem {s : State} (ht : s.touched = false) :
    datItemDone s = State.afterItem { s with dat := { s.dat with count := s.dat.count + 1 } } :=
  datInner_eq_afterItem (s := { s with dat := { s.dat with count := s.dat.count + 1 } }) ht

/-- Settles O26: one store, read back by `memory_read_write`, then the end of the item. -/
theorem literalStoresOneByte : Obligations.LiteralStoresOneByte := by
  intro s byte hinv ht hp
  have hread := fun a => memory_read_write (s.outBase + BitVec.ofNat 32 s.dat.outPos) a byte hinv.mem
  refine ⟨_, ?_, (hread _).trans (if_pos rfl), fun a ha => (hread a).trans (if_neg ha)⟩
  exact (inPhase_at hp _).trans (congrArg Host.Outcome.next (datItemDone_eq_afterItem ht))

/-! ### Extra bits -/

theorem datTake_of_short {k : Nat} {s : State} (ht : s.touched = false) (hk : s.reader.bits < k)
    (go : Word → State → State) : datTake k s go = State.finished 0 1 s.written s := by
  rw [datTake, take_of_short s.mem hk]
  exact datStop_undisturbed ht _

theorem datTake_of_le {k : Nat} {s : State} (hk : k ≤ s.reader.bits) (go : Word → State → State) :
    datTake k s go = go (s.reader.peek k) { s with reader := afterDrop s.mem s.reader k } := by
  rw [datTake, take_eq_afterDrop s.mem hk]

/-- Extra bits below a base's lowest set bit: to or them in is to add them. -/
theorem or_peek_eq_add {base extra : Nat} (r : Reader) (h32 : extra ≤ 32) (hbase : 2 ^ extra ∣ base) :
    base ||| (r.peek extra).toNat = base + firstBits r extra := by
  obtain ⟨q, rfl⟩ := hbase
  rw [peek_toNat r h32, Nat.two_pow_add_eq_or_of_lt (firstBits_lt r (by omega))]

theorem firstBits_zero (r : Reader) : firstBits r 0 = 0 := Nat.lt_one_iff.mp (firstBits_lt r (Nat.zero_le _))

/-! ### Length codes -/

theorem exec_length {c : Instr × Nat × Nat} (hc : c ∈ lengthTable) (s : State) :
    exec c.1 s = execLength c.2.1 c.2.2 s := by
  fin_cases hc <;> rfl

theorem lengthTable_aligned : ∀ c ∈ lengthTable, c.2.2 ≤ 32 ∧ 2 ^ c.2.2 ∣ c.2.1 := by decide

/-- Settles O27: every row of R156 is one meaning, `lengthCode` with its base and its extra bits. -/
theorem lengthCodesSetLength : Obligations.LengthCodesSetLength := by
  intro s hp ht c hc
  obtain ⟨h32, hbase⟩ := lengthTable_aligned c hc
  rw [exec_length hc, execLength, inPhase_at hp, lengthCode]
  refine ⟨fun h0 => by rw [if_pos h0], fun hpos hshort => ?_, fun hpos hk => ?_⟩
  · rw [if_neg hpos.ne', datTake_of_short ht hshort]
  · rw [if_neg hpos.ne', datTake_of_le hk, or_peek_eq_add _ h32 hbase]

/-! ### The copy -/

/-- `m'` is `m` after a copy of `n` bytes from `dist` before offset `pos` to `pos` on (42_dat_inflater.md R338). -/
structure CopiedBack (base : Word) (dist n pos : Nat) (m m' : Memory) : Prop where
  copies : ∀ j < n, m'.read (base + BitVec.ofNat 32 (pos + j)) = m'.read (base + BitVec.ofNat 32 (pos + j - dist))
  frame : ∀ a, (∀ j < n, a ≠ base + BitVec.ofNat 32 (pos + j)) → m'.read a = m.read a

theorem CopiedBack.none (base : Word) (dist pos : Nat) (m : Memory) : CopiedBack base dist 0 pos m m :=
  ⟨fun _ h => absurd h (Nat.not_lt_zero _), fun _ _ => rfl⟩

/-- Different offsets below 2^32 are different addresses. -/
theorem add_ofNat_ne (base : Word) {i j : Nat} (hi : i < 2 ^ 32) (hj : j < 2 ^ 32) (h : i ≠ j) :
    base + BitVec.ofNat 32 i ≠ base + BitVec.ofNat 32 j := by
  intro e
  have heq := congrArg BitVec.toNat (add_left_cancel e)
  rw [toNat_ofNat_of_lt hi, toNat_ofNat_of_lt hj] at heq
  exact h heq

/-- One iteration, then the others from the next offset on. -/
theorem CopiedBack.cons {base : Word} {dist n pos : Nat} {m m' : Memory} (hm : m.wf = true) (h1 : 1 ≤ dist)
    (hdist : dist ≤ pos) (hend : pos + n < 2 ^ 32)
    (h : CopiedBack base dist n (pos + 1)
      (m.write (base + BitVec.ofNat 32 pos) (m.read (base + BitVec.ofNat 32 (pos - dist)))) m') :
    CopiedBack base dist (n + 1) pos m m' := by
  have hkept : ∀ i ≤ pos, m'.read (base + BitVec.ofNat 32 i) =
      (m.write (base + BitVec.ofNat 32 pos) (m.read (base + BitVec.ofNat 32 (pos - dist)))).read
        (base + BitVec.ofNat 32 i) := fun i hi =>
    h.frame _ fun j hj => add_ofNat_ne base (by omega) (by omega) (by omega)
  refine ⟨fun j hj => ?_, fun a ha => ?_⟩
  · cases j with
    | zero =>
      have hsource := add_ofNat_ne base (i := pos - dist) (j := pos) (by omega) (by omega) (by omega)
      rw [Nat.add_zero, hkept pos le_rfl, hkept (pos - dist) (by omega), memory_read_write _ _ _ hm, if_pos rfl,
        memory_read_write _ _ _ hm, if_neg hsource]
    | succ j =>
      have hnext := h.copies j (by omega)
      rwa [Nat.add_right_comm, Nat.add_assoc] at hnext
  · have hfirst : a ≠ base + BitVec.ofNat 32 pos := ha 0 (Nat.succ_pos n)
    rw [h.frame a fun j hj => ?_, memory_read_write _ _ _ hm, if_neg hfirst]
    have hlater := ha (j + 1) (by omega)
    rwa [← Nat.add_assoc, Nat.add_right_comm] at hlater

/-- BACK_COPY stops where the output is full (42_dat_inflater.md R338). -/
theorem backCopy_spec (base : Word) {outLen dist : Nat} (n : Nat) {m : Memory} {pos : Nat} (hm : m.wf = true)
    (h1 : 1 ≤ dist) (hdist : dist ≤ pos) (hout : outLen < 2 ^ 32) :
    CopiedBack base dist (min n (outLen - pos)) pos m (backCopy base outLen dist n m pos).1 ∧
      (backCopy base outLen dist n m pos).2 = pos + min n (outLen - pos) := by
  induction n generalizing m pos with
  | zero =>
    rw [Nat.zero_min]
    exact ⟨.none base dist pos m, rfl⟩
  | succ n ih =>
    rw [backCopy]
    by_cases hfull : outLen ≤ pos
    · rw [if_pos hfull, Nat.sub_eq_zero_of_le hfull, Nat.min_zero]
      exact ⟨.none base dist pos m, rfl⟩
    · have hcount : min (n + 1) (outLen - pos) = min n (outLen - (pos + 1)) + 1 := by omega
      obtain ⟨hcopied, hpos⟩ := ih (memory_write_wf (base + BitVec.ofNat 32 pos)
        (m.read (base + BitVec.ofNat 32 (pos - dist))) hm) (pos := pos + 1) (by omega)
      rw [if_neg hfull, hcount]
      exact ⟨hcopied.cons hm h1 hdist (by omega), by rw [hpos]; omega⟩

/-! ### Distance codes -/

theorem exec_distance {c : Instr × Nat × Nat} (hc : c ∈ distanceTable) (s : State) :
    exec c.1 s = execDistance c.2.1 c.2.2 s := by
  fin_cases hc <;> rfl

theorem distanceTable_aligned : ∀ c ∈ distanceTable, c.2.2 ≤ 32 ∧ 2 ^ c.2.2 ∣ c.2.1 := by decide

theorem distanceCode_of_short {base extra : Nat} {s : State} (ht : s.touched = false) (hk : s.reader.bits < extra) :
    distanceCode base extra s = State.finished 0 1 s.written s := by
  rw [distanceCode, if_neg (by omega), datTake_of_short ht hk]

/-- The distance is the base, the extra bits added, plus 1 (42_dat_inflater.md R337). -/
theorem distanceCode_of_le {base extra : Nat} {s : State} (h32 : extra ≤ 32) (hbase : 2 ^ extra ∣ base)
    (hk : extra ≤ s.reader.bits) :
    distanceCode base extra s = finishCopy (base + firstBits s.reader extra + 1)
      { s with reader := if extra = 0 then s.reader else afterDrop s.mem s.reader extra } := by
  rw [distanceCode]
  by_cases h0 : extra = 0
  · rw [if_pos h0, if_pos h0, h0, firstBits_zero, Nat.add_zero]
  · rw [if_neg h0, if_neg h0, datTake_of_le hk, or_peek_eq_add _ h32 hbase]

/-- A distance beyond the bytes written stops before any byte is copied (42_dat_inflater.md R339). -/
theorem finishCopy_of_lt {dist : Nat} {s : State} (ht : s.touched = false) (h : s.dat.outPos < dist) :
    finishCopy dist s = State.finished 0 4 s.written s := (if_pos h).trans (datStop_undisturbed ht _)

/-- A distance within the bytes written copies, and the item is done (42_dat_inflater.md R338). -/
theorem finishCopy_of_le {dist : Nat} {s : State} (hm : s.mem.wf = true) (ht : s.touched = false) (h1 : 1 ≤ dist)
    (h : dist ≤ s.dat.outPos) :
    ∃ m, CopiedBack s.outBase dist (min s.dat.copyLen (s.outLen.toNat - s.dat.outPos)) s.dat.outPos s.mem m ∧
      finishCopy dist s = State.afterItem
        { s with
          mem := m
          dat := { s.dat with
            outPos := s.dat.outPos + min s.dat.copyLen (s.outLen.toNat - s.dat.outPos)
            count := s.dat.count + 1 } } := by
  obtain ⟨hcopied, hpos⟩ := backCopy_spec s.outBase s.dat.copyLen hm h1 h s.outLen.isLt
  refine ⟨_, hcopied, ?_⟩
  rw [finishCopy, if_neg (Nat.not_lt.mpr h)]
  simp only [hpos]
  exact datItemDone_eq_afterItem ht

/-- Settles O28: every row of R158 is one meaning, `distanceCode`, whose copy is `backCopy_spec`. -/
theorem distanceCodesCopyBack : Obligations.DistanceCodesCopyBack := by
  refine ⟨fun s hinv ht hp c hc => ?_, fun s d hp ht => ?invalid⟩
  case invalid => exact (inPhase_at hp _).trans (congrArg Host.Outcome.next (datStop_undisturbed ht _))
  obtain ⟨h32, hbase⟩ := distanceTable_aligned c hc
  rw [exec_distance hc, execDistance, inPhase_at hp]
  refine ⟨fun hshort => by rw [distanceCode_of_short ht hshort], ?_⟩
  rintro hk _ dist _ rfl hdist rfl
  rw [distanceCode_of_le h32 hbase hk, ← hdist]
  refine ⟨fun hfar => ?before, fun hnear => ?copy⟩
  case before => exact congrArg Host.Outcome.next (finishCopy_of_lt ht hfar)
  case copy =>
    obtain ⟨m, hcopied, hdone⟩ := finishCopy_of_le
      (s := { s with reader := if c.2.2 = 0 then s.reader else afterDrop s.mem s.reader c.2.2 }) hinv.mem ht
      (hdist ▸ Nat.succ_pos _) hnear
    exact ⟨m, congrArg Host.Outcome.next hdone, hcopied.copies, hcopied.frame⟩

end Sys2Proof.Machine
end

section
/-! PROOFS. TEX_FORMAT (43_texture_formats.md R380 to R389). The idea: the model derives the block's geometry from the
flags and pixel_size_bits of a FourCC; over the nine rows of the table this is what R385 lists, and the rest is the same
arithmetic for every size. -/

namespace Sys2Proof.Machine

/-! ### The look-up of a FourCC -/

theorem findFourcc_row : ∀ f ∈ formatRows, findFourcc f.fourcc fourccTable = some (f.flags, f.pixelBits) := by decide

/-- A value that is in no row of R380 is not recognised. -/
theorem findFourcc_unknown {w : Word} (h : ∀ f ∈ formatRows, w ≠ f.fourcc) : findFourcc w fourccTable = none := by
  have hkeys : ∀ x ∈ fourccTable, ∃ f ∈ formatRows, x.1 = f.fourcc := by decide
  cases hfound : findFourcc w fourccTable with
  | none => rfl
  | some v =>
    obtain ⟨f, hf, hw⟩ := hkeys _ (findFourcc_mem hfound)
    exact absurd hw (h f hf)

/-! ### The record -/

/-- The geometry R382 to R384 derive from a row's flags and pixel_size_bits is the one R385 lists. -/
theorem derived_geometry_row : ∀ f ∈ formatRows,
    f.pixelBits * 2 = f.bytesPerBlock ∧ hasTwoComponents f.flags = f.twoComponents ∧
      f.bytesPerBlock / (if f.twoComponents then 2 else 1) = f.bytesPerComponent := by decide

theorem formatRecord_row {f : FormatRow} (hf : f ∈ formatRows) (w h : Word) :
    formatRecord w h f.flags f.pixelBits = f.record w h := by
  obtain ⟨hblock, htwo, hcomponent⟩ := derived_geometry_row f hf
  rw [formatRecord, hblock, htwo, hcomponent]
  rfl

/-! ### The views -/

/-- R387, R389: a number too large for a word shows as the largest word. -/
theorem saturate_eq_min (n : Nat) : saturate n = BitVec.ofNat 32 (min n 0xFFFFFFFF) := by
  unfold saturate
  split
  next h => rw [Nat.min_eq_left (by omega)]
  next h => rw [Nat.min_eq_right (by omega)]; rfl

/-- A byte-wide field of TEX_GEOM in its place. -/
theorem ofNat8_shiftLeft {n k : Nat} (h : n < 2 ^ 8) :
    (BitVec.ofNat 8 n).setWidth 32 <<< k = BitVec.ofNat 32 (n * 2 ^ k) := by
  apply BitVec.eq_of_toNat_eq
  simp [Nat.shiftLeft_eq, Nat.mod_eq_of_lt (show n < 256 from h)]

/-- A field below bit k beside one from bit k on: to or them is to add them. -/
theorem ofNat_or_high {k low : Nat} (n : Nat) (h : low < 2 ^ k) :
    BitVec.ofNat 32 low ||| BitVec.ofNat 32 (n * 2 ^ k) = BitVec.ofNat 32 (low + n * 2 ^ k) := by
  rw [← BitVec.ofNat_or, Nat.or_comm, Nat.mul_comm n, ← Nat.two_pow_add_eq_or_of_lt h, Nat.add_comm]

/-- TEX_GEOM is its fields side by side (10_state.md R30). -/
theorem geomWord_eq_sum {f : Format} (hp : f.pixelBits < 2 ^ 8) (hb : f.bytesPerBlock < 2 ^ 8)
    (hc : f.bytesPerComponent < 2 ^ 8) :
    f.geomWord = BitVec.ofNat 32 (f.pixelBits + f.bytesPerBlock * 2 ^ 8 + f.bytesPerComponent * 2 ^ 16 +
      if f.twoComponents then 2 ^ 24 else 0) := by
  have hflag : flagWord f.twoComponents 24 = BitVec.ofNat 32 (f.twoComponents.toNat * 2 ^ 24) := by
    cases f.twoComponents <;> rfl
  have hbit : (if f.twoComponents then 2 ^ 24 else 0) = f.twoComponents.toNat * 2 ^ 24 := by
    cases f.twoComponents <;> rfl
  have hpixel := ofNat8_shiftLeft (k := 0) hp
  rw [BitVec.shiftLeft_zero, pow_zero, Nat.mul_one] at hpixel
  rw [Format.geomWord, hflag, hbit, hpixel, ofNat8_shiftLeft hb, ofNat8_shiftLeft hc, ofNat_or_high _ hp,
    ofNat_or_high _ (by omega), ofNat_or_high _ (by omega)]

/-- Every row's fields fit in a byte of TEX_GEOM. -/
theorem formatRows_bytes : ∀ f ∈ formatRows,
    f.pixelBits < 2 ^ 8 ∧ f.bytesPerBlock < 2 ^ 8 ∧ f.bytesPerComponent < 2 ^ 8 := by decide

/-! ### The command -/

theorem texFormat_of_none {s : State} (h : findFourcc s.texFourcc fourccTable = none) :
    texFormat s = s.raiseError .invalidFourcc := by rw [texFormat, h]

theorem texFormat_of_some {s : State} {flags : BitVec 10} {ps : Nat}
    (h : findFourcc s.texFourcc fourccTable = some (flags, ps)) :
    texFormat s = State.succeed
      { s with
        fmt := formatRecord s.texWidth s.texHeight flags ps
        result0 := saturate (formatRecord s.texWidth s.texHeight flags ps).outputSize } := by rw [texFormat, h]

theorem exec_texFormat_unknown {s : State} (hp : s.phase = .idle) (h : ∀ f ∈ formatRows, s.texFourcc ≠ f.fourcc) :
    exec .texFormat s = .next (s.completed 0x03 4 0) :=
  (command_idle hp _ _).trans
    (congrArg Host.Outcome.next (texFormat_of_none (s := s.accept 0x03) (findFourcc_unknown h)))

theorem exec_texFormat_row {s : State} (hp : s.phase = .idle) {f : FormatRow} (hf : f ∈ formatRows)
    (h : s.texFourcc = f.fourcc) :
    exec .texFormat s = .next
      { s.completed 0x03 0 0 with
        fmt := f.record s.texWidth s.texHeight
        result0 := BitVec.ofNat 32 (min (f.bytesPerBlock * blockCount s.texWidth s.texHeight) 0xFFFFFFFF) } := by
  have hfound : findFourcc s.texFourcc fourccTable = some (f.flags, f.pixelBits) := h ▸ findFourcc_row f hf
  have hrun := texFormat_of_some (s := s.accept 0x03) hfound
  rw [formatRecord_row hf] at hrun
  rw [← saturate_eq_min]
  exact (command_idle hp _ _).trans (congrArg Host.Outcome.next hrun)

/-- Settles O19: the look-up finds a row or none, and each view shows its field of the row's record. -/
theorem texFormatComputesRecord : Obligations.TexFormatComputesRecord := by
  refine fun s hp => ⟨exec_texFormat_unknown hp, fun f hf h =>
    ⟨_, exec_texFormat_row hp hf h, rfl, ?flags, ?blocks, ?geom⟩⟩
  case flags => exact (BitVec.ofNat_toNat ..).symm
  case blocks => exact saturate_eq_min _
  case geom =>
    obtain ⟨hpixel, hblock, hcomponent⟩ := formatRows_bytes f hf
    exact geomWord_eq_sum (f := f.record s.texWidth s.texHeight) hpixel hblock hcomponent

end Sys2Proof.Machine
end

section
/-! PROOFS. The texture stream between its runs (44_texture_inflater.md R404 to R415, R444 to R446). The idea: the model
looks for the next clear block by stepping over the set ones, the statements filter the blocks that are left; both name
the same block, so in an undisturbed job each test between two elements leads where the rules say. -/

namespace Sys2Proof.Machine

/-! ### The clear blocks -/

theorem clearFrom_end (bits : List Bool) (n : Nat) : clearFrom bits n n = [] := by
  rw [clearFrom, Nat.sub_self]
  rfl

theorem clearFrom_of_set {bits : List Bool} {n pos : Nat} (hpos : pos < n) (h : bits.getD pos false = true) :
    clearFrom bits n pos = clearFrom bits n (pos + 1) := by
  rw [clearFrom, show n - pos = n - (pos + 1) + 1 by omega, List.range'_succ,
    List.filter_cons_of_neg (by simp only [h]; decide), clearFrom]

theorem clearFrom_of_clear {bits : List Bool} {n pos : Nat} (hpos : pos < n) (h : bits.getD pos false = false) :
    clearFrom bits n pos = pos :: clearFrom bits n (pos + 1) := by
  rw [clearFrom, show n - pos = n - (pos + 1) + 1 by omega, List.range'_succ,
    List.filter_cons_of_pos (by simp only [h]; decide), clearFrom]

theorem mem_clearFrom {bits : List Bool} {n pos i : Nat} (h : i ∈ clearFrom bits n pos) : pos ≤ i ∧ i < n := by
  have hrange := List.mem_range'_1.mp (List.mem_of_mem_filter h)
  omega

/-- Setting a block behind does not change what is clear ahead. -/
theorem clearFrom_set {bits : List Bool} {n pos i : Nat} (hi : i < pos) :
    clearFrom (bits.set i true) n pos = clearFrom bits n pos := by
  refine List.filter_congr fun j hj => ?_
  have hrange := List.mem_range'_1.mp hj
  rw [List.getD_eq_getElem?_getD, List.getElem?_set_ne (by omega), ← List.getD_eq_getElem?_getD]

/-- The block the model's walk stops at is the first clear one. -/
theorem nextClear_eq_headD {bits : List Bool} {n fuel pos : Nat} (h : pos + fuel = n) :
    nextClear bits fuel pos = (clearFrom bits n pos).headD n := by
  induction fuel generalizing pos with
  | zero =>
    obtain rfl : pos = n := h
    rw [clearFrom_end]
    rfl
  | succ fuel ih =>
    rw [nextClear]
    cases hbit : bits.getD pos false with
    | true => rw [clearFrom_of_set (by omega) hbit, if_pos rfl, ih (by omega)]
    | false =>
      rw [clearFrom_of_clear (by omega) hbit]
      rfl

theorem headD_clearFrom_lt_iff {bits : List Bool} {n pos : Nat} :
    (clearFrom bits n pos).headD n < n ↔ clearFrom bits n pos ≠ [] := by
  cases hclear : clearFrom bits n pos with
  | nil => simp
  | cons i l =>
    have hi := mem_clearFrom (hclear ▸ List.mem_cons_self : i ∈ clearFrom bits n pos)
    simp [hi.2]

/-! ### The residue -/

theorem hasColourResidue_iff (f : Format) : f.hasColourResidue = true ↔ ¬ f.flags &&& 0x210 = 0 := by
  unfold Format.hasColourResidue Format.color Format.bicolor
  generalize f.flags = x
  revert x
  decide

theorem hasAlphaResidue_iff (f : Format) :
    f.hasAlphaResidue = true ↔ f.flags &&& 0x60 = 0x20 ∨ f.flags &&& 0x200 ≠ 0 := by
  unfold Format.hasAlphaResidue Format.alpha Format.deducedAlpha Format.bicolor
  generalize f.flags = x
  revert x
  decide

theorem texFinish_undisturbed {s : State} (ht : s.touched = false) :
    s.texFinish = State.finished 0 0 s.textureBytes s :=
  endJob_undisturbed ht _ _ _

/-- The colour residue from the block the job stands at (44_texture_inflater.md R446). -/
theorem seekColour_eq_colourResidue {s : State} (ht : s.touched = false) (hpos : s.tex.pos ≤ s.fmt.nBlocks) :
    seekColour s = s.colourResidue s.tex.pos := by
  have hnext := nextClear_eq_headD (bits := s.tex.colorSet) (fuel := s.blocksLeft) (pos := s.tex.pos)
    (Nat.add_sub_cancel' hpos)
  have hleft := headD_clearFrom_lt_iff (bits := s.tex.colorSet) (n := s.fmt.nBlocks) (pos := s.tex.pos)
  simp only [seekColour, State.colourResidue, hnext, hasColourResidue_iff, hleft]
  by_cases hflags : s.fmt.flags &&& 0x210 = 0
  · rw [if_neg fun h => h.1 hflags, if_pos hflags, texFinish_undisturbed ht]
  · rw [if_neg hflags]
    cases clearFrom s.tex.colorSet s.fmt.nBlocks s.tex.pos with
    | nil => rw [if_neg fun h => h.2 rfl, texFinish_undisturbed ht]
    | cons i l => rw [if_pos ⟨hflags, List.cons_ne_nil _ _⟩]; rfl

/-- The alpha residue from the block the job stands at (44_texture_inflater.md R445). -/
theorem seekAlpha_eq_alphaResidue {s : State} (ht : s.touched = false) (hpos : s.tex.pos ≤ s.fmt.nBlocks) :
    seekAlpha s = s.alphaResidue s.tex.pos := by
  have hnext := nextClear_eq_headD (bits := s.tex.alphaSet) (fuel := s.blocksLeft) (pos := s.tex.pos)
    (Nat.add_sub_cancel' hpos)
  have hleft := headD_clearFrom_lt_iff (bits := s.tex.alphaSet) (n := s.fmt.nBlocks) (pos := s.tex.pos)
  have hcolour : seekColour { s with tex := { s.tex with pos := 0 } } = s.colourResidue 0 :=
    seekColour_eq_colourResidue (s := { s with tex := { s.tex with pos := 0 } }) ht (Nat.zero_le _)
  simp only [seekAlpha, State.alphaResidue, hnext, hasAlphaResidue_iff, hleft, hcolour]
  by_cases hflags : s.fmt.flags &&& 0x60 = 0x20 ∨ s.fmt.flags &&& 0x200 ≠ 0
  · rw [if_pos hflags]
    cases clearFrom s.tex.alphaSet s.fmt.nBlocks s.tex.pos with
    | nil => rw [if_neg fun h => h.2 rfl]
    | cons i l => rw [if_pos ⟨hflags, List.cons_ne_nil _ _⟩]; rfl
  · rw [if_neg fun h => hflags h.1, if_neg hflags]

/-! ### After a pass and after a run -/

theorem nextPass_eq_afterPass {s : State} (ht : s.touched = false) (hr : s.reader.Good) : nextPass s = s.afterPass := by
  unfold nextPass State.afterPass
  split
  · rw [enterResidue, (alignReachesWordBoundary s.mem s.reader hr).2]
    exact seekAlpha_eq_alphaResidue
      (s := { s with reader := alignedReader s.reader, tex := { s.tex with pos := 0, second := false } }) ht
      (Nat.zero_le _)
  · rfl

theorem nextRun_eq_afterRun {s : State} (ht : s.touched = false) (hr : s.reader.Good) : nextRun s = s.afterRun := by
  rw [nextRun, State.afterRun, nextPass_eq_afterPass ht hr]

/-! ### The header, the flags, the count codes -/

/-- Settles O29: the header is two register writes and the choice of the passes, then what follows a pass. -/
theorem texHeaderSelectsPasses : Obligations.TexHeaderSelectsPasses := by
  intro s size flags hinv ht hp
  have hpending : flags.setWidth 4 = BitVec.ofNat 4 (flags.toNat % 16) := by
    apply BitVec.eq_of_toNat_eq
    rw [BitVec.toNat_setWidth, BitVec.toNat_ofNat, Nat.mod_mod]
  rw [← hpending]
  exact (inPhase_at hp _).trans (congrArg Host.Outcome.next (nextPass_eq_afterPass ht hinv.reader))

theorem exec_texCount {c : Instr × Nat} (hc : c ∈ countTable) (s : State) : exec c.1 s = execCount c.2 s := by
  fin_cases hc <;> rfl

/-- Settles O30: a flag is cleared and its pass begun; every count code is one meaning, `execCount`. -/
theorem flagsAndCountCodes : Obligations.FlagsAndCountCodes := by
  refine ⟨fun s hinv ht hp => ⟨?white, inPhase_at hp _, inPhase_at hp _, inPhase_at hp _⟩, fun s hp c hc => ?count⟩
  case white => exact (inPhase_at hp _).trans (congrArg Host.Outcome.next (nextRun_eq_afterRun ht hinv.reader))
  case count => exact (exec_texCount hc s).trans (inPhase_at hp _)

end Sys2Proof.Machine
end

section
/-! PROOFS. The plain-colour block (44_texture_inflater.md R431 to R441, R443), over every colour. The idea: the model's
channel is the spec's pair of T1 and comp, the end points step up from T1 by at most 1 and not at all at the top of the
range, so every packed field stays in its bits and packing is a sum; the index then follows from which channels
differ. -/

namespace Sys2Proof.Machine

/-! ### One channel -/

theorem channelParts_red_blue (c : Nat) : channelParts 3 5 0x11 c = ((channel5 c).base, (channel5 c).comp) := by
  simp only [channelParts, Nat.shiftRight_eq_div_pow, Nat.shiftLeft_eq]
  rfl

theorem channelParts_green (c : Nat) : channelParts 2 6 0x1111 c = ((channel6 c).base, (channel6 c).comp) := by
  simp only [channelParts, Nat.shiftRight_eq_div_pow, Nat.shiftLeft_eq]
  rfl

theorem endPoints_eq_ends (p : Nat × Nat) : endPoints p = ((channelOf p.1 p.2).v1, (channelOf p.1 p.2).v2) := by
  apply Prod.ext <;> simp only [endPoints, channelOf, chooseEnds] <;> split_ifs <;> omega

/-- What the first approximation of red or blue leaves, nothing at the top of its range (44_texture_inflater.md
R443). -/
theorem rebuild5_approx5 {c : Nat} (hc : c < 256) :
    rebuild5 (approx5 c) ≤ c ∧ c - rebuild5 (approx5 c) ≤ 8 ∧ approx5 c < 32 ∧
      (approx5 c + 1 = 32 → c - rebuild5 (approx5 c) = 0) := by
  unfold rebuild5 approx5
  omega

/-- What the first approximation of green leaves, nothing at the top of its range (44_texture_inflater.md R443). -/
theorem rebuild6_approx6 {c : Nat} (hc : c < 256) :
    rebuild6 (approx6 c) ≤ c ∧ c - rebuild6 (approx6 c) ≤ 4 ∧ approx6 c < 64 ∧
      (approx6 c + 1 = 64 → c - rebuild6 (approx6 c) = 0) := by
  unfold rebuild6 approx6
  omega

/-- The mask of green has a bit above its range, so it never holds (44_texture_inflater.md R433). -/
theorem approx6_mask {c : Nat} (hc : c < 256) : approx6 c &&& 0x1111 ≠ 0x1111 := by
  have hrange := (rebuild6_approx6 hc).2.2.1
  have hand : approx6 c &&& 0x1111 ≤ approx6 c := Nat.and_le_left
  omega

theorem remainderScale_of_exact {c rebuilt : Nat} (t mask : Nat) (h : c - rebuilt = 0) :
    remainderScale c rebuilt t mask = 0 := by
  rw [remainderScale, h, Nat.mul_zero, Nat.zero_div]

/-- The remainder scales of a remainder up to 8 (44_texture_inflater.md R433, R443). -/
theorem remainderScale_mem {c rebuilt : Nat} (t mask : Nat) (h : c - rebuilt ≤ 8) :
    remainderScale c rebuilt t mask ∈ [0, 1, 3, 4, 5, 6, 7, 8, 9, 10, 12, 13] := by
  unfold remainderScale
  generalize c - rebuilt = d at h
  split <;> interval_cases d <;> decide

/-- The remainder scales of a remainder up to 4 where the mask test fails (44_texture_inflater.md R433, R443). -/
theorem remainderScale_mem_of_not_mask {c rebuilt t mask : Nat} (h : c - rebuilt ≤ 4) (hmask : t &&& mask ≠ mask) :
    remainderScale c rebuilt t mask ∈ [0, 1, 3, 4, 6] := by
  unfold remainderScale
  rw [if_neg hmask]
  generalize c - rebuilt = d at h
  interval_cases d <;> decide

/-- End points stay in the range of T1 if they do not step up at its top (44_texture_inflater.md R434). -/
theorem chooseEnds_lt {t comp limit : Nat} (ht : t < limit) (htop : t + 1 = limit → comp = 0) :
    (chooseEnds t comp).1 < limit ∧ (chooseEnds t comp).2 < limit := by
  unfold chooseEnds
  split_ifs <;> dsimp only <;> omega

theorem channel5_ends_lt {c : Nat} (hc : c < 256) : (channel5 c).v1 < 32 ∧ (channel5 c).v2 < 32 := by
  obtain ⟨_, _, hrange, htop⟩ := rebuild5_approx5 hc
  exact chooseEnds_lt hrange fun h => remainderScale_of_exact _ _ (htop h)

theorem channel6_ends_lt {c : Nat} (hc : c < 256) : (channel6 c).v1 < 64 ∧ (channel6 c).v2 < 64 := by
  obtain ⟨_, _, hrange, htop⟩ := rebuild6_approx6 hc
  exact chooseEnds_lt hrange fun h => remainderScale_of_exact _ _ (htop h)

/-! ### The channels that differ -/

theorem differing_length (l : List (Nat × Nat)) :
    (l.filter fun p => (endPoints p).1 != (endPoints p).2).length =
      (l.map fun p => channelCount (channelOf p.1 p.2)).sum := by
  induction l with
  | nil => rfl
  | cons p l ih =>
    rw [List.filter_cons, List.map_cons, List.sum_cons, ← ih, endPoints_eq_ends]
    by_cases h : (channelOf p.1 p.2).v1 = (channelOf p.1 p.2).v2
    · simp [h, channelCount]
    · simp [h, channelCount, Nat.add_comm]

theorem differing_weight (l : List (Nat × Nat)) :
    ((l.filter fun p => (endPoints p).1 != (endPoints p).2).map fun p =>
        if (endPoints p).1 = p.1 then p.2 else 12 - p.2).sum =
      (l.map fun p => channelWeight (channelOf p.1 p.2)).sum := by
  induction l with
  | nil => rfl
  | cons p l ih =>
    rw [List.filter_cons, List.map_cons, List.sum_cons, ← ih, endPoints_eq_ends]
    by_cases h : (channelOf p.1 p.2).v1 = (channelOf p.1 p.2).v2
    · simp [h, channelWeight]
    · simp [h, channelWeight, endPoints_eq_ends p]
      rfl

/-! ### The parts of a block -/

/-- R436 to R440 from the packed end points, the sum of the weights and the number of channels that differ. -/
def weighedParts (color1 color2 sum tv2 : Nat) (deduced : Bool) : PlainParts :=
  let tv1 := averageWeight sum tv2
  let special := deduced && (tv1 == 5 || tv1 == 6 || tv2 != 0)
  let e := nudgeEnds tv2 special { color1 := color1, color2 := color2, tv1 := tv1 }
  orderedParts special e.color1 e.color2 e.tv1

theorem averageWeight_eq (tv1 tv2 : Nat) : averageWeight tv1 tv2 = if tv2 = 0 then tv1 else (tv1 + tv2 / 2) / tv2 := by
  rcases Nat.eq_zero_or_pos tv2 with rfl | h
  · rfl
  · rw [averageWeight, if_pos h, if_neg h.ne']

theorem orderedParts_nudgeEnds (tv2 : Nat) (special : Bool) (e : Ends) :
    orderedParts special (nudgeEnds tv2 special e).color1 (nudgeEnds tv2 special e).color2
        (nudgeEnds tv2 special e).tv1 =
      if tv2 = 0 ∨ special = true then orderedParts special e.color1 e.color2 e.tv1
      else if e.color2 = 0xFFFF then orderedParts special (e.color1 - 1) e.color2 12
      else orderedParts special e.color1 (e.color2 + 1) 0 := by
  have hnudge : tv2 = 0 ∨ special = true ↔ ¬ (0 < tv2 ∧ special = false) := by cases special <;> simp
  simp only [nudgeEnds, hnudge, ite_not]
  split_ifs <;> rfl

/-- The sum that packs an end point (44_texture_inflater.md R435). -/
def packSum (r g b : Nat) : Nat := r + g * 32 + b * 2048

/-- The parts of three channels, each its T1 and comp. -/
def channelsParts (r g b : Nat × Nat) (deduced : Bool) : PlainParts :=
  weighedParts (packSum (endPoints r).1 (endPoints g).1 (endPoints b).1)
    (packSum (endPoints r).2 (endPoints g).2 (endPoints b).2)
    (([r, g, b].filter fun p => (endPoints p).1 != (endPoints p).2).map fun p =>
      if (endPoints p).1 = p.1 then p.2 else 12 - p.2).sum
    ([r, g, b].filter fun p => (endPoints p).1 != (endPoints p).2).length deduced

theorem plainParts_eq_channelsParts (r g b : Nat) (deduced : Bool) :
    plainParts r g b deduced =
      channelsParts (channelParts 3 5 0x11 r) (channelParts 2 6 0x1111 g) (channelParts 3 5 0x11 b) deduced := by
  rw [channelsParts, weighedParts, orderedParts_nudgeEnds, averageWeight_eq]
  rfl

theorem plainParts_eq_weighedParts (r g b : Nat) (deduced : Bool) :
    plainParts r g b deduced =
      weighedParts (packSum (channel5 r).v1 (channel6 g).v1 (channel5 b).v1)
        (packSum (channel5 r).v2 (channel6 g).v2 (channel5 b).v2)
        (channelWeight (channel5 r) + channelWeight (channel6 g) + channelWeight (channel5 b))
        (channelCount (channel5 r) + channelCount (channel6 g) + channelCount (channel5 b)) deduced := by
  rw [plainParts_eq_channelsParts, channelParts_red_blue, channelParts_green, channelParts_red_blue, channelsParts,
    differing_weight, differing_length]
  simp only [endPoints_eq_ends, List.map_cons, List.map_nil, List.sum_cons, List.sum_nil, ← Nat.add_assoc, Nat.add_zero]
  rfl

/-! ### Packing -/

/-- The parts of a block stay in their bits (44_texture_inflater.md R441). -/
structure PlainParts.Fits (p : PlainParts) : Prop where
  color1 : p.color1 < 2 ^ 16
  color2 : p.color2 < 2 ^ 16
  idx : p.idx ≤ 3

theorem or_shiftLeft_eq_add {low k : Nat} (high : Nat) (h : low < 2 ^ k) :
    low ||| (high <<< k) = low + high * 2 ^ k := by
  rw [Nat.or_comm, ← Nat.shiftLeft_add_eq_or_of_lt h, Nat.shiftLeft_eq, Nat.add_comm]

theorem packColour_eq_packSum {r g : Nat} (b : Nat) (hr : r < 32) (hg : g < 64) : packColour r g b = packSum r g b := by
  rw [packColour, or_shiftLeft_eq_add b (k := 6) hg, or_shiftLeft_eq_add _ (k := 5) hr, packSum]
  omega

theorem packSum_lt {r g b : Nat} (hr : r < 32) (hg : g < 64) (hb : b < 32) : packSum r g b < 2 ^ 16 := by
  unfold packSum
  omega

theorem packBlock_eq_block {e : Ends} (idx : Nat) (h1 : e.color1 < 2 ^ 16) (h2 : e.color2 < 2 ^ 16) :
    packBlock e idx = PlainParts.block { color1 := e.color1, color2 := e.color2, idx := idx } := by
  rw [packBlock, or_shiftLeft_eq_add _ h1, or_shiftLeft_eq_add _ (by omega)]
  rfl

/-- The nudge keeps the end points in 16 bits (44_texture_inflater.md R438). -/
theorem nudgeEnds_lt (tv2 : Nat) (special : Bool) {e : Ends} (h1 : e.color1 < 2 ^ 16) (h2 : e.color2 < 2 ^ 16) :
    (nudgeEnds tv2 special e).color1 < 2 ^ 16 ∧ (nudgeEnds tv2 special e).color2 < 2 ^ 16 := by
  unfold nudgeEnds
  split_ifs with hnudge htop
  · exact ⟨lt_of_le_of_lt (Nat.sub_le _ _) h1, h2⟩
  · exact ⟨h1, lt_of_le_of_ne h2 fun h => htop (Nat.succ.inj h)⟩
  · exact ⟨h1, h2⟩

theorem orderedParts_fits (special : Bool) {color1 color2 : Nat} (tv1 : Nat) (h1 : color1 < 2 ^ 16)
    (h2 : color2 < 2 ^ 16) : (orderedParts special color1 color2 tv1).Fits where
  color1 := max_lt h1 h2
  color2 := lt_of_le_of_lt (min_le_left _ _) h1
  idx := by
    simp only [orderedParts]
    split_ifs <;> decide

/-- Ordering the end points and taking the index is what R439 and R440 say. -/
theorem packBlock_orderEnds (special : Bool) {e : Ends} (h1 : e.color1 < 2 ^ 16) (h2 : e.color2 < 2 ^ 16) :
    packBlock (orderEnds e) (texelIndex special (orderEnds e).tv1) =
      (orderedParts special e.color1 e.color2 e.tv1).block := by
  by_cases h : e.color1 ≤ e.color2
  · rw [orderEnds, if_pos h, packBlock_eq_block _ h2 h1, orderedParts, max_eq_right h, min_eq_left h, if_pos h,
      texelIndex]
  · have hle : e.color2 ≤ e.color1 := Nat.le_of_not_le h
    rw [orderEnds, if_neg h, packBlock_eq_block _ h1 h2, orderedParts, max_eq_left hle, min_eq_right hle, if_neg h,
      texelIndex]

theorem plainParts_fits {r g b : Nat} (hr : r < 256) (hg : g < 256) (hb : b < 256) (deduced : Bool) :
    (plainParts r g b deduced).Fits := by
  obtain ⟨hr1, hr2⟩ := channel5_ends_lt hr
  obtain ⟨hg1, hg2⟩ := channel6_ends_lt hg
  obtain ⟨hb1, hb2⟩ := channel5_ends_lt hb
  obtain ⟨h1, h2⟩ := nudgeEnds_lt _ _ (e := { color1 := _, color2 := _, tv1 := _ }) (packSum_lt hr1 hg1 hb1)
    (packSum_lt hr2 hg2 hb2)
  rw [plainParts_eq_weighedParts]
  exact orderedParts_fits _ _ h1 h2

/-- The model's block is the spec's, for every colour (44_texture_inflater.md R432 to R441). -/
theorem plainBlock_eq_block {r g b : Nat} (hr : r < 256) (hg : g < 256) (hb : b < 256) (deduced : Bool) :
    plainBlock r g b deduced = (plainParts r g b deduced).block := by
  obtain ⟨hr1, hr2⟩ := channel5_ends_lt hr
  obtain ⟨hg1, hg2⟩ := channel6_ends_lt hg
  obtain ⟨hb1, hb2⟩ := channel5_ends_lt hb
  rw [plainParts_eq_weighedParts, plainBlock, blockOf, packColour_eq_packSum _ hr1 hg1, packColour_eq_packSum _ hr2 hg2]
  obtain ⟨h1, h2⟩ := nudgeEnds_lt _ _ (e := { color1 := _, color2 := _, tv1 := _ }) (packSum_lt hr1 hg1 hb1)
    (packSum_lt hr2 hg2 hb2)
  exact packBlock_orderEnds _ h1 h2

/-- The three fields of a block, as digits of its number. -/
theorem block_digits (v : BitVec 64) :
    (v.extractLsb' 0 16).toNat = v.toNat % 2 ^ 16 ∧ (v.extractLsb' 16 16).toNat = v.toNat / 2 ^ 16 % 2 ^ 16 ∧
      (v.extractLsb' 32 32).toNat = v.toNat / 2 ^ 32 % 2 ^ 32 := by
  simp only [BitVec.extractLsb'_toNat, Nat.shiftRight_eq_div_pow, Nat.pow_zero, Nat.div_one, and_self]

theorem digits_of_sum {n a b x : Nat} (ha : a < 2 ^ 16) (hb : b < 2 ^ 16) (hx : x < 2 ^ 32)
    (h : n = a + b * 2 ^ 16 + x * 2 ^ 32) : n % 2 ^ 16 = a ∧ n / 2 ^ 16 % 2 ^ 16 = b ∧ n / 2 ^ 32 % 2 ^ 32 = x :=
  ⟨by omega, by omega, by omega⟩

theorem PlainParts.Fits.fields {p : PlainParts} (h : p.Fits) :
    (p.block.extractLsb' 0 16).toNat = p.color1 ∧ (p.block.extractLsb' 16 16).toNat = p.color2 ∧
      (p.block.extractLsb' 32 32).toNat = p.idx * 0x55555555 := by
  obtain ⟨h1, h2, h3⟩ := h
  have hx : p.idx * 0x55555555 < 2 ^ 32 := by omega
  have hsum : p.block.toNat = p.color1 + p.color2 * 2 ^ 16 + p.idx * 0x55555555 * 2 ^ 32 :=
    toNat_ofNat_of_lt (by omega)
  obtain ⟨hd1, hd2, hd3⟩ := block_digits p.block
  obtain ⟨hs1, hs2, hs3⟩ := digits_of_sum h1 h2 hx hsum
  exact ⟨hd1.trans hs1, hd2.trans hs2, hd3.trans hs3⟩

/-! ### The index -/

theorem channelCount_eq_zero {c : Channel} : channelCount c = 0 ↔ c.v1 = c.v2 := by simp [channelCount]

theorem channelWeight_of_equal {c : Channel} (h : c.v1 = c.v2) : channelWeight c = 0 := if_pos h

/-- Two equal end points need no interpolation, with or without DEDUCED_ALPHA (44_texture_inflater.md R443). -/
theorem weighedParts_equal (color : Nat) (deduced : Bool) :
    weighedParts color color 0 0 deduced = { color1 := color, color2 := color, idx := 1 } := by
  cases deduced <;> simp [weighedParts, nudgeEnds, orderedParts, averageWeight]

/-- With DEDUCED_ALPHA a colour that needs interpolation takes index 2 (44_texture_inflater.md R437, R443). -/
theorem weighedParts_deduced_idx (color1 color2 sum : Nat) {tv2 : Nat} (h : tv2 ≠ 0) :
    (weighedParts color1 color2 sum tv2 true).idx = 2 := by
  simp [weighedParts, orderedParts, h]

/-- Without it the nudge makes one end point the colour, so every texel takes that end point (44_texture_inflater.md
R438, R443). -/
theorem weighedParts_nudged_idx {color1 : Nat} (color2 sum : Nat) {tv2 : Nat} (h1 : color1 < 2 ^ 16) (h : tv2 ≠ 0) :
    (weighedParts color1 color2 sum tv2 false).idx = 0 ∨ (weighedParts color1 color2 sum tv2 false).idx = 1 := by
  simp only [weighedParts, orderedParts_nudgeEnds, Bool.false_and, h, Bool.false_eq_true, or_self, if_false]
  by_cases htop : color2 = 0xFFFF
  · left
    rw [if_pos htop, orderedParts, if_pos (show color1 - 1 ≤ color2 by omega)]
    rfl
  · rw [if_neg htop, orderedParts]
    by_cases hle : color1 ≤ color2 + 1
    · right
      rw [if_pos hle]
      rfl
    · left
      rw [if_neg hle]
      rfl

theorem channelCounts_eq_zero {r g b : Channel} :
    channelCount r + channelCount g + channelCount b = 0 ↔ r.v1 = r.v2 ∧ g.v1 = g.v2 ∧ b.v1 = b.v2 := by
  simp only [Nat.add_eq_zero_iff, channelCount_eq_zero, and_assoc]

theorem plainParts_of_equal {r g b : Nat} (deduced : Bool)
    (h : (channel5 r).v1 = (channel5 r).v2 ∧ (channel6 g).v1 = (channel6 g).v2 ∧ (channel5 b).v1 = (channel5 b).v2) :
    (plainParts r g b deduced).color1 = (plainParts r g b deduced).color2 ∧ (plainParts r g b deduced).idx = 1 := by
  have hcounts := channelCounts_eq_zero.mpr h
  obtain ⟨hr, hg, hb⟩ := h
  rw [plainParts_eq_weighedParts, hr, hg, hb, hcounts, channelWeight_of_equal hr, channelWeight_of_equal hg,
    channelWeight_of_equal hb, weighedParts_equal]
  exact ⟨rfl, rfl⟩

theorem plainParts_deduced_idx {r g b : Nat}
    (h : ¬((channel5 r).v1 = (channel5 r).v2 ∧ (channel6 g).v1 = (channel6 g).v2 ∧ (channel5 b).v1 = (channel5 b).v2)) :
    (plainParts r g b true).idx = 2 := by
  rw [plainParts_eq_weighedParts]
  exact weighedParts_deduced_idx _ _ _ (mt channelCounts_eq_zero.mp h)

theorem plainParts_nudged_idx {r g b : Nat} (hr : r < 256) (hg : g < 256) (hb : b < 256)
    (h : ¬((channel5 r).v1 = (channel5 r).v2 ∧ (channel6 g).v1 = (channel6 g).v2 ∧ (channel5 b).v1 = (channel5 b).v2)) :
    (plainParts r g b false).idx = 0 ∨ (plainParts r g b false).idx = 1 := by
  rw [plainParts_eq_weighedParts]
  exact weighedParts_nudged_idx _ _ (packSum_lt (channel5_ends_lt hr).1 (channel6_ends_lt hg).1 (channel5_ends_lt hb).1)
    (mt channelCounts_eq_zero.mp h)

/-! ### The statements -/

theorem channel5_comp_mem {c : Nat} (hc : c < 256) : (channel5 c).comp ∈ [0, 1, 3, 4, 5, 6, 7, 8, 9, 10, 12, 13] :=
  remainderScale_mem _ _ (rebuild5_approx5 hc).2.1

theorem channel6_comp_mem {c : Nat} (hc : c < 256) : (channel6 c).comp ∈ [0, 1, 3, 4, 6] :=
  remainderScale_mem_of_not_mask (rebuild6_approx6 hc).2.1 (approx6_mask hc)

/-- The values of red and blue whose mask test holds (44_texture_inflater.md R433, R443). -/
theorem approx5_mask_count : ((List.range 256).filter fun c => approx5 c &&& 0x11 == 0x11).length = 60 := by decide

/-- Settles O36: the remainders are bounded by `rebuild5_approx5` and `rebuild6_approx6`, the block is the spec's by
`plainBlock_eq_block`, and the index follows from which channels differ. -/
theorem plainColourRanges : Obligations.PlainColourRanges := by
  refine ⟨fun c hc => ?channels, approx5_mask_count, fun c hc => approx6_mask hc, ?block⟩
  case channels =>
    obtain ⟨h5le, h5rem, _⟩ := rebuild5_approx5 hc
    obtain ⟨h6le, h6rem, _⟩ := rebuild6_approx6 hc
    exact ⟨h5le, h5rem, channel5_comp_mem hc, h6le, h6rem, channel6_comp_mem hc⟩
  case block =>
    rintro r hr g hg b hb _ deduced rfl
    rw [plainBlock_eq_block hr hg hb]
    obtain ⟨hcolor1, hcolor2, hindices⟩ := (plainParts_fits hr hg hb deduced).fields
    have hofIdx : ∀ k, (plainParts r g b deduced).idx = k →
        (plainParts r g b deduced).block.extractLsb' 32 32 = BitVec.ofNat 32 (k * 0x55555555) := by
      rintro _ rfl
      rw [← hindices, BitVec.ofNat_toNat, BitVec.setWidth_eq]
    refine ⟨hcolor1, hcolor2, hindices, ?nudged, ?deduced, fun hr' hg' hb' => ?equal⟩
    case nudged =>
      rintro rfl
      by_cases hequal : (channel5 r).v1 = (channel5 r).v2 ∧ (channel6 g).v1 = (channel6 g).v2 ∧
          (channel5 b).v1 = (channel5 b).v2
      · exact .inr (hofIdx 1 (plainParts_of_equal false hequal).2)
      · exact (plainParts_nudged_idx hr hg hb hequal).imp (hofIdx 0) (hofIdx 1)
    case deduced =>
      rintro rfl
      split
      · exact hofIdx 1 (plainParts_of_equal true ‹_›).2
      · exact hofIdx 2 (plainParts_deduced_idx ‹_›)
    case equal =>
      obtain ⟨hcolors, hidx⟩ := plainParts_of_equal deduced ⟨hr', hg', hb'⟩
      exact ⟨BitVec.eq_of_toNat_eq (hcolor1.trans (hcolors.trans hcolor2.symm)), hofIdx 1 hidx⟩

/-! ### The pass-start fields -/

theorem colourBlock_eq_block (order : RgbOrder) (x : BitVec 24) (deduced : Bool) :
    colourBlock order x deduced =
      match order with
      | .le24 => (plainParts (x.toNat / 65536) (x.toNat / 256 % 256) (x.toNat % 256) deduced).block
      | .seq8 => (plainParts (x.toNat % 256) (x.toNat / 256 % 256) (x.toNat / 65536) deduced).block := by
  have hlow : x.toNat % 256 < 256 := Nat.mod_lt _ (by decide)
  have hmid : x.toNat / 256 % 256 < 256 := Nat.mod_lt _ (by decide)
  have hhigh : x.toNat / 65536 < 256 := Nat.div_lt_of_lt_mul x.isLt
  cases order with
  | le24 => exact plainBlock_eq_block hhigh hmid hlow deduced
  | seq8 => exact plainBlock_eq_block hlow hmid hhigh deduced

/-- A nibble twice (44_texture_inflater.md R416). -/
theorem alphaByte_nibble {a : Byte} (ha : a.toNat < 16) : alphaByte false a = BitVec.ofNat 8 (a.toNat * 17) := by
  have hall : ∀ n < 16, BitVec.ofNat 8 n ||| (BitVec.ofNat 8 n <<< 4) = BitVec.ofNat 8 (n * 17) := by decide
  have hbyte := hall a.toNat ha
  rwa [BitVec.ofNat_toNat, BitVec.setWidth_eq] at hbyte

theorem enterRuns_eq_afterRun {s : State} (pass : Pass) (ht : s.touched = false) (hr : s.reader.Good) :
    enterRuns pass s = State.afterRun { s with tex := { s.tex with pass := pass, pos := 0 } } :=
  nextRun_eq_afterRun (s := { s with tex := { s.tex with pass := pass, pos := 0 } }) ht hr

/-- Settles O31: each field enters the runs with its pattern; the plain block is the spec's by
`colourBlock_eq_block`. -/
theorem passStartsSetPattern : Obligations.PassStartsSetPattern := by
  intro s hinv ht
  have henter : ∀ pass, enterRuns pass s = _ := fun pass => enterRuns_eq_afterRun pass ht hinv.reader
  refine ⟨fun hp a ha => ?nibble, fun hp a => ?byte, fun hp x => ?plain⟩
  case nibble =>
    rw [← alphaByte_nibble ha, ← henter]
    exact inPhase_at hp _
  case byte => exact (inPhase_at hp _).trans (congrArg Host.Outcome.next (henter _))
  case plain =>
    rintro _ _ _ block rfl rfl rfl hblock
    rw [hblock, ← henter]
    exact (inPhase_at hp _).trans (by rw [colourBlock_eq_block]; rfl)

end Sys2Proof.Machine
end

section
/-! PROOFS. What the runs of a texture job and its residue store (44_texture_inflater.md R405, R410, R418, R442, R445,
R446). The idea: a run is a sequence of the pass's writes at different blocks, which share no byte because the texture
fits in the output region, and what is clear ahead of a run does not depend on the bits it sets behind. -/

namespace Sys2Proof.Machine

/-! ### Stores of bytes -/

/-- The `n` bytes of a number, the least significant first (20_memory.md R105). -/
def bytesLE (n v : Nat) : List Byte := (List.range n).map fun j => BitVec.ofNat 8 (v / 2 ^ (8 * j))

theorem bytesLE_succ (n v : Nat) : bytesLE (n + 1) v = BitVec.ofNat 8 v :: bytesLE n (v / 256) := by
  rw [bytesLE, List.range_succ_eq_map, List.map_cons, List.map_map, bytesLE]
  refine congrArg₂ List.cons (by simp) (List.map_congr_left fun j _ => ?_)
  have hpow : 2 ^ (8 * (j + 1)) = 256 * 2 ^ (8 * j) := by rw [Nat.mul_succ, Nat.pow_add, Nat.mul_comm]
  simp only [Function.comp_apply, Nat.succ_eq_add_one, hpow, Nat.div_div_eq_div_mul]

theorem writeLE_eq_writeBytes (m : Memory) (a : Word) (n v : Nat) : m.writeLE a n v = m.writeBytes a (bytesLE n v) := by
  induction n generalizing m a v with
  | zero => rfl
  | succ n ih => rw [Memory.writeLE, ih, bytesLE_succ, Memory.writeBytes]

/-- The bytes of a write of a list. -/
theorem memory_read_writeBytes_inside {m : Memory} (l : List Byte) (a x : Word) (hl : l.length ≤ 2 ^ 32)
    (h : m.wf = true) (hx : spans a l.length x) : (m.writeBytes a l).read x = l.getD (x - a).toNat 0 := by
  induction l generalizing m a with
  | nil => simp [spans] at hx
  | cons b l ih =>
    rw [List.length_cons] at hl hx
    rw [Memory.writeBytes]
    by_cases hne : x = a
    · subst hne
      have hout : ¬spans (x + 1) l.length x := by
        have hback : (x - (x + 1)).toNat = 2 ^ 32 - 1 := by bv_omega
        rw [spans]
        omega
      rw [memory_read_writeBytes_outside _ _ _ (memory_write_wf _ _ h) hout, memory_read_write _ _ _ h, if_pos rfl,
        sub_self]
      rfl
    · obtain ⟨hin, hd⟩ := spans_succ hx hne
      rw [ih _ (by omega) (memory_write_wf _ _ h) hin, ← hd, List.getD_cons_succ]

/-- A write of a list at a place in a block holds its bytes there and nowhere else. -/
theorem blocksHold_writeBytes {s : State} (i offset : Nat) {l : List Byte} (hl : l.length ≤ 2 ^ 32)
    (h : s.mem.wf = true) : s.blocksHold (s.mem.writeBytes (s.blockAddress i offset) l) [i] offset l := by
  have hplace : ∀ j, s.byteOf i (offset + j) = s.blockAddress i offset + BitVec.ofNat 32 j := fun j => by
    rw [State.byteOf, State.blockAddress, ← Nat.add_assoc, BitVec.ofNat_add, BitVec.add_assoc]
  refine ⟨fun k hk j hj => ?_, fun a ha => ?_⟩
  · obtain rfl := List.mem_singleton.mp hk
    have hdist : (s.byteOf k (offset + j) - s.blockAddress k offset).toNat = j := by
      rw [hplace, add_sub_cancel_left, toNat_ofNat_of_lt (by omega)]
    rw [memory_read_writeBytes_inside l _ _ hl h (by rwa [spans, hdist]), hdist]
  · refine memory_read_writeBytes_outside l _ _ h fun hspan => ?_
    refine ha i (List.mem_singleton_self i) _ hspan ?_
    rw [hplace, BitVec.ofNat_toNat, BitVec.setWidth_eq, add_sub_cancel]

/-! ### Blocks -/

/-- Different blocks of a texture that fits in the address space share no byte. -/
theorem byteOf_ne {s : State} {i k x y : Nat} (hfit : s.fmt.outputSize < 2 ^ 32) (hi : i < s.fmt.nBlocks)
    (hk : k < s.fmt.nBlocks) (hx : x < s.fmt.bytesPerBlock) (hy : y < s.fmt.bytesPerBlock) (h : i ≠ k) :
    s.byteOf i x ≠ s.byteOf k y := by
  have hin : ∀ {p z : Nat}, p < s.fmt.nBlocks → z < s.fmt.bytesPerBlock → s.fmt.bytesPerBlock * p + z < 2 ^ 32 :=
    fun {p z} hp hz => lt_of_lt_of_le (b := s.fmt.bytesPerBlock * (p + 1)) (by rw [Nat.mul_succ]; omega)
      ((Nat.mul_le_mul_left _ hp).trans hfit.le)
  refine add_ofNat_ne s.outBase (hin hi hx) (hin hk hy) fun heq => h ?_
  have hquot : ∀ {p z : Nat}, z < s.fmt.bytesPerBlock → (s.fmt.bytesPerBlock * p + z) / s.fmt.bytesPerBlock = p :=
    fun {p z} hz => by rw [Nat.mul_add_div (by omega), Nat.div_eq_of_lt hz, Nat.add_zero]
  rw [← hquot hx (p := i), heq, hquot hy]

theorem setAll_append (bits : List Bool) (l k : List Nat) : setAll bits (l ++ k) = setAll (setAll bits l) k :=
  List.foldl_append

/-- Setting bits up to a block does not change what is clear behind it. -/
theorem clearFrom_setAll {bits : List Bool} {n pos : Nat} {l : List Nat} (h : ∀ i ∈ l, i < pos) :
    clearFrom (setAll bits l) n pos = clearFrom bits n pos := by
  induction l generalizing bits with
  | nil => rfl
  | cons i l ih =>
    exact (ih (bits := bits.set i true) fun k hk => h k (List.mem_cons_of_mem _ hk)).trans
      (clearFrom_set (h i List.mem_cons_self))

/-- What a pass writes in a block: its bytes, their place in the block, the bits it sets. -/
structure PassWrite where
  setsColour : Bool
  setsAlpha : Bool
  offset : Nat
  bytes : List Byte

/-- The bitmaps after the writes at these blocks. -/
def PassWrite.marked (w : PassWrite) (l : List Nat) (x : TexState) : TexState :=
  { x with
    colorSet := if w.setsColour then setAll x.colorSet l else x.colorSet
    alphaSet := if w.setsAlpha then setAll x.alphaSet l else x.alphaSet }

theorem marked_nil (w : PassWrite) (x : TexState) : w.marked [] x = x := by
  simp [PassWrite.marked, setAll]

theorem marked_append (w : PassWrite) (l k : List Nat) (x : TexState) :
    w.marked (l ++ k) x = w.marked k (w.marked l x) := by
  simp only [PassWrite.marked, setAll_append]
  cases w.setsColour <;> cases w.setsAlpha <;> rfl

/-- `t` is `s` after the writes of a pass at these blocks, standing at any block. -/
structure Wrote (w : PassWrite) (s : State) (l : List Nat) (t : State) : Prop where
  rest : t = { s with mem := t.mem, tex := { w.marked l s.tex with pos := t.tex.pos } }
  wf : t.mem.wf = true
  holds : s.blocksHold t.mem l w.offset w.bytes

theorem Wrote.nothing (w : PassWrite) {s : State} (h : s.mem.wf = true) : Wrote w s [] s :=
  ⟨by rw [marked_nil], h, fun _ hi => absurd hi List.not_mem_nil, fun _ _ => rfl⟩

theorem Wrote.withPos {w : PassWrite} {s t : State} {l : List Nat} (h : Wrote w s l t) (p : Nat) :
    Wrote w s l { t with tex := { t.tex with pos := p } } := by
  refine ⟨?_, h.wf, h.holds⟩
  rw [h.rest]

theorem Wrote.fmt {w : PassWrite} {s t : State} {l : List Nat} (h : Wrote w s l t) : t.fmt = s.fmt := by rw [h.rest]

theorem Wrote.byteOf {w : PassWrite} {s t : State} {l : List Nat} (h : Wrote w s l t) : t.byteOf = s.byteOf := by
  rw [h.rest]
  rfl

/-- The pass's bytes stay inside a block, and the texture in the address space. -/
structure PassWrite.Inside (w : PassWrite) (f : Format) : Prop where
  block : w.offset + w.bytes.length ≤ f.bytesPerBlock
  fits : f.outputSize < 2 ^ 32

/-- Writes at some blocks, then at others. -/
theorem Wrote.append {w : PassWrite} {s t u : State} {l k : List Nat} (hin : w.Inside s.fmt) (h : Wrote w s l t)
    (h' : Wrote w t k u) (hl : ∀ i ∈ l, i < s.fmt.nBlocks) (hk : ∀ i ∈ k, i < s.fmt.nBlocks)
    (hne : ∀ i ∈ l, ∀ p ∈ k, i ≠ p) : Wrote w s (l ++ k) u := by
  obtain ⟨hbytes, hframe⟩ := h.holds
  obtain ⟨hbytes', hframe'⟩ := h'.holds
  rw [h.byteOf] at hbytes' hframe'
  refine ⟨?rest, h'.wf, fun i hi j hj => ?bytes, fun a ha => ?frame⟩
  case rest =>
    rw [h'.rest, marked_append, h.rest]
    rfl
  case bytes =>
    rcases List.mem_append.mp hi with hi | hi
    · rw [hframe' _ fun p hp z hz => ?_, hbytes i hi j hj]
      have hblock := hin.block
      exact byteOf_ne hin.fits (hl i hi) (hk p hp) (by omega) (by omega) (hne i hi p hp)
    · exact hbytes' i hi j hj
  case frame =>
    rw [hframe' a fun i hi => ha i (List.mem_append_right l hi), hframe a fun i hi => ha i (List.mem_append_left k hi)]

theorem PassWrite.Inside.length_le {w : PassWrite} {f : Format} (h : w.Inside f) (hn : 0 < f.nBlocks) :
    w.bytes.length ≤ 2 ^ 32 := by
  have hblock := h.block
  have hsize : f.bytesPerBlock ≤ f.outputSize := Nat.le_mul_of_pos_right _ hn
  have hfits := h.fits
  omega

/-! ### A run -/

/-- What a pass's `put` and `target` are, for the format of the job: the write `w` at the block the job stands at, and
the bitmap it sets. -/
structure PassPut (w : PassWrite) (f : Format) (target : State → List Bool) (put : State → State) : Prop where
  inside : w.Inside f
  put_eq : ∀ s : State, s.fmt = f → put s =
    { s with
      mem := s.mem.writeBytes (s.blockAddress s.tex.pos w.offset) w.bytes
      tex := w.marked [s.tex.pos] s.tex }
  target_eq : ∀ {s t : State} {l : List Nat}, Wrote w s l t → target t = setAll (target s) l

section
variable {w : PassWrite} {f : Format} {target : State → List Bool} {put : State → State}

theorem PassPut.wrote (hput : PassPut w f target put) {s : State} (hf : s.fmt = f) (hm : s.mem.wf = true)
    (hn : 0 < f.nBlocks) : Wrote w s [s.tex.pos] (put s) := by
  rw [hput.put_eq s hf]
  exact ⟨rfl, memory_writeBytes_wf _ _ hm, blocksHold_writeBytes _ _ (hput.inside.length_le hn) hm⟩

theorem PassPut.samePos (hput : PassPut w f target put) {s : State} (hf : s.fmt = f) :
    (put s).tex.pos = s.tex.pos := by
  rw [hput.put_eq s hf]
  rfl

/-- `u` is `s` after a run's writes at `l`, with the blocks `ahead` still clear. -/
structure Ran (w : PassWrite) (target : State → List Bool) (s : State) (l ahead : List Nat) (u : State) : Prop where
  wrote : Wrote w s l u
  pos_le : u.tex.pos ≤ s.fmt.nBlocks
  ahead : clearFrom (target u) s.fmt.nBlocks u.tex.pos = ahead

/-- One block of a run, written or not, then the others. -/
theorem Ran.step {s t u : State} (hput : PassPut w s.fmt target put) {l k ahead : List Nat} (h : Wrote w s l t)
    (hl : ∀ i ∈ l, i = s.tex.pos) (hlt : s.tex.pos < s.fmt.nBlocks) (hk : ∀ i ∈ k, s.tex.pos < i ∧ i < s.fmt.nBlocks)
    (hran : Ran w target t.nextBlock k ahead u) : Ran w target s (l ++ k) ahead u := by
  have hnext : Wrote w s l t.nextBlock := h.withPos (t.tex.pos + 1)
  obtain ⟨hwrote, hpos, hahead⟩ := hran
  rw [hnext.fmt] at hpos hahead
  refine ⟨hnext.append hput.inside hwrote (fun i hi => hl i hi ▸ hlt) (fun i hi => (hk i hi).2) ?_, hpos, hahead⟩
  intro i hi p hp
  have hbehind := (hk p hp).1
  rw [hl i hi]
  exact hbehind.ne

theorem coverBlocks_ran (value : Bool) (fuel code : Nat) {s : State} (hput : PassPut w s.fmt target put)
    (hm : s.mem.wf = true) (hfuel : s.tex.pos + fuel = s.fmt.nBlocks) :
    Ran w target s (if value then coveredBlocks (target s) s.fmt.nBlocks s.tex.pos code else [])
      ((clearFrom (target s) s.fmt.nBlocks s.tex.pos).drop code) (coverBlocks target put value fuel code s) := by
  induction fuel generalizing code s with
  | zero =>
    have hend : s.tex.pos = s.fmt.nBlocks := hfuel
    have hnone : clearFrom (target s) s.fmt.nBlocks s.tex.pos = [] := by rw [hend, clearFrom_end]
    have hstay : coverBlocks target put value 0 code s = s := by cases code <;> rfl
    rw [coveredBlocks, hnone, List.take_nil, List.drop_nil, ite_self, hstay]
    exact ⟨.nothing w hm, hend.le, hnone⟩
  | succ fuel ih =>
    cases code with
    | zero =>
      rw [coverBlocks, coveredBlocks, List.take_zero, List.drop_zero, ite_self]
      exact ⟨.nothing w hm, by omega, rfl⟩
    | succ code =>
      have hlt : s.tex.pos < s.fmt.nBlocks := by omega
      have goOn : ∀ (l : List Nat) (t : State) (c : Nat), (∀ i ∈ l, i = s.tex.pos) → t.tex.pos = s.tex.pos →
          Wrote w s l t →
          Ran w target s (l ++ if value then coveredBlocks (target s) s.fmt.nBlocks (s.tex.pos + 1) c else [])
            ((clearFrom (target s) s.fmt.nBlocks (s.tex.pos + 1)).drop c)
            (coverBlocks target put value fuel c t.nextBlock) := fun l t c hl hpos hwrote => by
        have hnext : Wrote w s l t.nextBlock := hwrote.withPos (t.tex.pos + 1)
        have hclear : clearFrom (target t.nextBlock) s.fmt.nBlocks (s.tex.pos + 1) =
            clearFrom (target s) s.fmt.nBlocks (s.tex.pos + 1) := by
          rw [hput.target_eq hnext, clearFrom_setAll fun i hi => by rw [hl i hi]; omega]
        have hrest := ih c (s := t.nextBlock) (hnext.fmt.symm ▸ hput) hnext.wf
          (by rw [hnext.fmt, nextBlock_tex, hpos]; simp only; omega)
        rw [coveredBlocks, hnext.fmt, nextBlock_tex, hpos, hclear] at hrest
        refine Ran.step hput hwrote hl hlt (fun i hi => ?_) hrest
        cases value with
        | false => exact absurd hi List.not_mem_nil
        | true => exact mem_clearFrom (List.mem_of_mem_take hi)
      rw [coverBlocks, coveredBlocks]
      cases hbit : (target s).getD s.tex.pos false with
      | true =>
        rw [if_pos rfl, clearFrom_of_set hlt hbit]
        exact goOn [] s (code + 1) (by simp) rfl (.nothing w hm)
      | false =>
        rw [if_neg Bool.false_ne_true, clearFrom_of_clear hlt hbit]
        cases value with
        | false => exact goOn [] s code (by simp) rfl (.nothing w hm)
        | true => exact goOn [s.tex.pos] (put s) code (by simp) (hput.samePos rfl) (hput.wrote rfl hm (by omega))

/-- A run of a pass (44_texture_inflater.md R405). -/
theorem runBlocks_spec (value : Bool) {s : State} (hput : PassPut w s.fmt target put) (hm : s.mem.wf = true)
    (hr : s.reader.Good) (ht : s.touched = false) (hpos : s.tex.pos < s.fmt.nBlocks) {l : List Nat}
    (hl : l = if value then coveredBlocks (target s) s.fmt.nBlocks s.tex.pos s.tex.code else []) :
    ∃ m : Memory,
      runBlocks target put value s = State.afterRun
        { s with
          mem := m
          tex := { w.marked l s.tex with pos := resumeAt (target s) s.fmt.nBlocks s.tex.pos s.tex.code } } ∧
      s.blocksHold m l w.offset w.bytes := by
  obtain ⟨hwrote, hle, hahead⟩ := coverBlocks_ran value s.blocksLeft s.tex.code hput hm (Nat.add_sub_cancel' hpos.le)
  rw [← hl] at hwrote
  unfold runBlocks
  generalize coverBlocks target put value s.blocksLeft s.tex.code s = u at hwrote hle hahead
  have hresume : nextClear (target u) u.blocksLeft u.tex.pos =
      resumeAt (target s) s.fmt.nBlocks s.tex.pos s.tex.code := by
    rw [nextClear_eq_headD (n := s.fmt.nBlocks) (by rw [State.blocksLeft, hwrote.fmt]; omega), hahead, resumeAt]
  refine ⟨u.mem, ?_, hwrote.holds⟩
  simp only [hresume]
  rw [hwrote.rest]
  exact nextRun_eq_afterRun (s := { s with mem := u.mem, tex := { w.marked l s.tex with pos := _ } }) ht hr

end

/-! ### The three passes -/

theorem textureInside {s : State} (h : s.TextureGood) {w : PassWrite}
    (hw : w.offset + w.bytes.length ≤ s.fmt.bytesPerBlock) : w.Inside s.fmt := ⟨hw, lt_of_le_of_lt h.fits s.outLen.isLt⟩

theorem colourTarget_eq {w : PassWrite} (hw : w.setsColour = true) {s t : State} {l : List Nat} (h : Wrote w s l t) :
    colourTarget t = setAll (colourTarget s) l := by
  rw [h.rest]
  exact if_pos hw

theorem alphaTarget_eq {w : PassWrite} (hw : w.setsAlpha = true) {s t : State} {l : List Nat} (h : Wrote w s l t) :
    alphaTarget t = setAll (alphaTarget s) l := by
  rw [h.rest]
  exact if_pos hw

/-- The white pass (44_texture_inflater.md R410). -/
def whiteWrite : PassWrite :=
  { setsColour := true, setsAlpha := true, offset := 0, bytes := [0xFE, 0xFF, 0xFF, 0xFF, 0xFF, 0xFF, 0xFF, 0xFF] }

/-- A constant-alpha pass (44_texture_inflater.md R418). -/
def alphaWrite (f : Format) (byte : Byte) : PassWrite :=
  { setsColour := false, setsAlpha := true, offset := 0, bytes := List.replicate f.bytesPerComponent byte }

/-- The plain-colour pass (44_texture_inflater.md R442). -/
def plainWrite (f : Format) (block : BitVec 64) : PassWrite :=
  { setsColour := true, setsAlpha := false, offset := f.colourOffset, bytes := bytesLE f.bytesPerComponent block.toNat }

theorem putWhite_passPut {s : State} (h : s.TextureGood) : PassPut whiteWrite s.fmt colourTarget putWhite where
  inside := by
    obtain ⟨hsize, hend⟩ := h.component
    exact textureInside h (show 0 + 8 ≤ _ by omega)
  put_eq t _ := by
    have hbytes : bytesLE 8 0xFFFFFFFFFFFFFFFE = whiteWrite.bytes := by decide
    rw [putWhite, writeLE_eq_writeBytes, hbytes]
    generalize whiteWrite.bytes = bytes
    rfl
  target_eq := colourTarget_eq rfl

theorem putAlpha_passPut {s : State} (h : s.TextureGood) (byte : Byte) :
    PassPut (alphaWrite s.fmt byte) s.fmt alphaTarget (putAlpha byte) where
  inside := by
    obtain ⟨_, hend⟩ := h.component
    refine textureInside h ?_
    simp only [alphaWrite, List.length_replicate]
    omega
  put_eq t hf := by
    rw [← hf]
    rfl
  target_eq := alphaTarget_eq rfl

theorem putPlain_passPut {s : State} (h : s.TextureGood) (block : BitVec 64) :
    PassPut (plainWrite s.fmt block) s.fmt colourTarget (putPlain block) where
  inside := by
    refine textureInside h ?_
    rw [plainWrite, bytesLE, List.length_map, List.length_range]
    exact h.component.2.le
  put_eq t hf := by
    rw [← hf, putPlain, writeLE_eq_writeBytes]
    rfl
  target_eq := colourTarget_eq rfl

/-- What the invariant says of a run (44_texture_inflater.md R405). -/
theorem State.Inv.run {s : State} (h : s.Inv) (hp : s.phase = .texRun) : s.TextureGood ∧ s.tex.pos < s.fmt.nBlocks := by
  have hjob := h.job
  rw [State.JobGood, hp] at hjob
  exact ⟨hjob.1, hjob.2.1⟩

/-- A run element whose meaning is a pass's run does what the run does. -/
theorem exec_run {w : PassWrite} {target : State → List Bool} {put : State → State} {i : Instr} {value : Bool}
    {s : State} (hput : s.TextureGood → PassPut w s.fmt target put) (hinv : s.Inv) (ht : s.touched = false)
    (hp : s.phase = .texRun) (hexec : exec i s = inPhase .texRun s (runBlocks target put value s)) {l : List Nat}
    (hl : l = if value then coveredBlocks (target s) s.fmt.nBlocks s.tex.pos s.tex.code else []) :
    ∃ m : Memory,
      exec i s = .next (State.afterRun
        { s with
          mem := m
          tex := { w.marked l s.tex with pos := resumeAt (target s) s.fmt.nBlocks s.tex.pos s.tex.code } }) ∧
      s.blocksHold m l w.offset w.bytes := by
  obtain ⟨hgood, hpos⟩ := hinv.run hp
  obtain ⟨m, hrun, hholds⟩ := runBlocks_spec value (hput hgood) hinv.mem hinv.reader ht hpos hl
  exact ⟨m, hexec.trans ((inPhase_at hp _).trans (congrArg Host.Outcome.next hrun)), hholds⟩

theorem exec_whiteRun {s : State} (hpass : s.tex.pass = .white) (value : Bool) :
    exec (.texWhiteRun value) s = inPhase .texRun s (runBlocks colourTarget putWhite value s) := by
  change execTexWhiteRun value s = _
  rw [execTexWhiteRun, hpass]

theorem exec_alphaRun {s : State} {byte : Byte} (hpass : s.tex.pass = .alpha byte) (value notNull : Bool) :
    exec (.texAlphaRun value notNull) s =
      inPhase .texRun s (runBlocks alphaTarget (putAlpha (if notNull then byte else 0)) value s) := by
  change execTexAlphaRun value notNull s = _
  rw [execTexAlphaRun, hpass]

theorem exec_plainRun {s : State} {block : BitVec 64} (hpass : s.tex.pass = .plain block) (value : Bool) :
    exec (.texPlainRun value) s = inPhase .texRun s (runBlocks colourTarget (putPlain block) value s) := by
  change execTexPlainRun value s = _
  rw [execTexPlainRun, hpass]

/-- Settles O32: the white pass is a `PassPut`, so its run is `exec_run`. -/
theorem whiteRunWritesPattern : Obligations.WhiteRunWritesPattern :=
  fun _ value hinv ht hp hpass _ hl => exec_run putWhite_passPut hinv ht hp (exec_whiteRun hpass value) hl

/-- Settles O33: a constant-alpha pass is a `PassPut` of its pattern or of zeros. -/
theorem alphaRunWritesPattern : Obligations.AlphaRunWritesPattern :=
  fun _ value notNull _ hinv ht hp hpass _ hl =>
    exec_run (putAlpha_passPut · _) hinv ht hp (exec_alphaRun hpass value notNull) hl

/-- Settles O34: the plain-colour pass is a `PassPut` of the block's bytes at the colour half. -/
theorem plainRunWritesBlock : Obligations.PlainRunWritesBlock :=
  fun _ value block hinv ht hp hpass _ hl =>
    exec_run (putPlain_passPut · block) hinv ht hp (exec_plainRun hpass value) hl

/-! ### The residue -/

theorem bytesLE_word (v : Word) : bytesLE 4 v.toNat = wordBytes v := by
  have hbyte : ∀ k, BitVec.ofNat 8 (v.toNat / 2 ^ k) = v.extractLsb' k 8 := fun k => by
    rw [← Nat.shiftRight_eq_div_pow]
    rfl
  simp only [bytesLE, hbyte]
  rfl

/-- What a residue word needs of the search for the next one: it is the statements' residue from the next block on,
which does not depend on the block the job stood at. -/
structure SeekIs (seek : State → State) (residue : Nat → State → State) : Prop where
  seek_eq : ∀ t : State, t.touched = false → t.tex.pos ≤ t.fmt.nBlocks → seek t = residue t.tex.pos t
  anyPos : ∀ (p q : Nat) (t : State), residue p { t with tex := { t.tex with pos := q } } = residue p t

/-- A residue word: its store, then the block's second word or what follows the block (44_texture_inflater.md R445,
R446). -/
theorem storeResidue_spec {seek : State → State} {residue : Nat → State → State} (hseek : SeekIs seek residue)
    (offset : Nat) (word : Word) {s : State} (hm : s.mem.wf = true) (hgood : s.TextureGood)
    (hlt : s.tex.pos < s.fmt.nBlocks) (ht : s.touched = false) {half : Nat}
    (hhalf : half = if s.tex.second then 4 else 0) :
    ∃ m : Memory,
      storeResidue offset seek word s =
        (if s.tex.second then residue (s.tex.pos + 1) { s with mem := m, tex := { s.tex with second := false } }
        else { s with mem := m, tex := { s.tex with second := true } }) ∧
      s.blocksHold m [s.tex.pos] (offset + half) (wordBytes word) := by
  refine ⟨_, ?_, blocksHold_writeBytes _ _ (show 4 ≤ 2 ^ 32 by decide) hm⟩
  have hsize : 4 < s.fmt.bytesPerComponent := lt_of_lt_of_le (by decide) hgood.component.1
  rw [storeResidue, writeLE_eq_writeBytes, bytesLE_word, ← hhalf]
  generalize s.mem.writeBytes (s.blockAddress s.tex.pos (offset + half)) (wordBytes word) = m
  cases hsecond : s.tex.second with
  | false => exact if_pos ⟨rfl, hsize⟩
  | true =>
    exact (hseek.seek_eq { s with mem := m, tex := { s.tex with second := false, pos := s.tex.pos + 1 } } ht hlt).trans
      (hseek.anyPos _ (s.tex.pos + 1) { s with mem := m, tex := { s.tex with second := false } })

theorem seekAlpha_seekIs : SeekIs seekAlpha State.alphaResidue := ⟨fun _ => seekAlpha_eq_alphaResidue, fun _ _ _ => rfl⟩

theorem seekColour_seekIs : SeekIs seekColour State.colourResidue :=
  ⟨fun _ => seekColour_eq_colourResidue, fun _ _ _ => rfl⟩

theorem exec_alphaResidueWord {s : State} (hp : s.phase = .texAlphaResidue) (word : Word) :
    exec (.texResidueWord word) s = .next (storeResidue 0 seekAlpha word s) := by
  change execTexResidueWord word s = _
  rw [execTexResidueWord, hp]

theorem exec_colourResidueWord {s : State} (hp : s.phase = .texColourResidue) (word : Word) :
    exec (.texResidueWord word) s = .next (storeResidue s.fmt.colourOffset seekColour word s) := by
  change execTexResidueWord word s = _
  rw [execTexResidueWord, hp]

/-- Settles O35: both residues store a word the same way, `storeResidue_spec`, and search on from the next block. -/
theorem residueWordIsCopied : Obligations.ResidueWordIsCopied := by
  intro s word hinv ht half hhalf
  have hjob := hinv.job
  refine ⟨fun hp => ?alpha, fun hp => ?colour⟩
  case alpha =>
    rw [State.JobGood, hp] at hjob
    obtain ⟨hgood, hpos, _⟩ := hjob
    obtain ⟨m, hstore, hholds⟩ := storeResidue_spec seekAlpha_seekIs 0 word hinv.mem hgood hpos ht hhalf
    rw [Nat.zero_add] at hholds
    exact ⟨m, (exec_alphaResidueWord hp word).trans (congrArg Host.Outcome.next hstore), hholds⟩
  case colour =>
    rw [State.JobGood, hp] at hjob
    obtain ⟨hgood, hpos, _⟩ := hjob
    obtain ⟨m, hstore, hholds⟩ :=
      storeResidue_spec seekColour_seekIs s.fmt.colourOffset word hinv.mem hgood hpos ht hhalf
    exact ⟨m, (exec_colourResidueWord hp word).trans (congrArg Host.Outcome.next hstore), hholds⟩

end Sys2Proof.Machine
end

section
/-! PROOFS. The register window (10_state.md R30 to R49, 45_control.md R470, R475 to R478). Inside the window an access is
a read or a write of a register: a write to CMD runs a command, any other is lost while BUSY; while BUSY only ID and
STATUS read their values. A register of several fields is the sum of its fields in their places. -/

namespace Sys2Proof.Machine

/-! ### Accesses inside the window -/

theorem hostStep_write {offset : Nat} (h : offset < 256) (ha : offset % 4 = 0) (v : Word) (s : State) :
    hostStep (.write offset 4 v) s = s.hostWrite offset v := if_pos (accessOk_iff.mpr ⟨rfl, ha, h⟩)

theorem hostStep_read {offset : Nat} (h : offset < 256) (ha : offset % 4 = 0) (s : State) :
    hostStep (.read offset 4) s = .next (s.hostRead offset) := if_pos (accessOk_iff.mpr ⟨rfl, ha, h⟩)

/-- A write to CMD runs the command its word decodes to (30_encoding.md R185, 45_control.md R470). -/
theorem hostWrite_cmd {s : State} (hr : s.inReset = false) (v : Word) :
    s.hostWrite 0x08 v = exec (decodeCommand v) s := by simp [State.hostWrite, hr]

theorem hostWrite_idle {s : State} (hp : s.phase = .idle) (hr : s.inReset = false) {offset : Nat} (ho : offset ≠ 0x08)
    (v : Word) : s.hostWrite offset v = .next (s.writeRegister offset v) := by
  simp [State.hostWrite, hr, ho, busy_eq_false.mpr hp]

/-- A write lost while BUSY (45_control.md R475 to R477). -/
theorem hostWrite_busy {s : State} (hp : s.phase ≠ .idle) {offset : Nat} (ho : offset ≠ 0x08) (v : Word) :
    s.hostWrite offset v = .next s := by
  simp [State.hostWrite, ho, busy_eq_true.mpr hp]

theorem hostRead_idle {s : State} (hp : s.phase = .idle) (offset : Nat) :
    s.hostRead offset = { s with busData := s.readRegister offset } := by
  simp [State.hostRead, busy_eq_false.mpr hp]

theorem hostRead_busy {s : State} (hp : s.phase ≠ .idle) (offset : Nat) : s.hostRead offset = s.readBusy offset := by
  simp [State.hostRead, busy_eq_true.mpr hp]

/-- Settles O37: the transaction is due by `step_hostDue`, and a write to CMD is the command by `hostWrite_cmd`. -/
theorem stepRunsCommand : Obligations.StepRunsCommand := by
  intro s e rest v hbus hop hr hdue
  rw [step_hostDue hbus hdue, hop, hostStep_write (by decide) rfl]
  exact hostWrite_cmd (s := { s with bus := rest }) hr v

/-! ### Writes -/

/-- The results, the views and the reserved offsets take nothing (45_control.md R477). -/
theorem writeRegister_readOnly {offset : Nat} (h : 0x34 ≤ offset) (v : Word) (s : State) :
    s.writeRegister offset v = s := by
  unfold State.writeRegister
  split <;> try omega
  rfl

theorem hostStep_write_idle {s t : State} (hp : s.phase = .idle) (hr : s.inReset = false) {offset : Nat} {v : Word}
    (h : s.writeRegister offset v = t) (ho : offset < 256 ∧ offset % 4 = 0 ∧ offset ≠ 0x08) :
    hostStep (.write offset 4 v) s = .next t := by
  obtain ⟨hlt, ha, hcmd⟩ := ho
  rw [hostStep_write hlt ha, hostWrite_idle hp hr hcmd, h]

/-- Settles O43: a write of an idle core is `writeRegister`, row by row; a busy core loses it. -/
theorem registerWrites : Obligations.RegisterWrites := by
  intro s v
  refine ⟨fun hp hr => ?idle, fun hp o ho ha hcmd => (hostStep_write ho ha v s).trans (hostWrite_busy hp hcmd v)⟩
  have row {o : Nat} {t : State} : s.writeRegister o v = t → o < 256 ∧ o % 4 = 0 ∧ o ≠ 0x08 →
      hostStep (.write o 4 v) s = .next t := hostStep_write_idle hp hr
  refine ⟨row rfl (by decide), fun hset => row (if_pos hset) (by decide), fun hclear => ?kept, row rfl (by decide),
    row rfl (by decide), row rfl (by decide), row rfl (by decide), row rfl (by decide), row rfl (by decide),
    row rfl (by decide), row rfl (by decide), row rfl (by decide), row rfl (by decide), fun o ho ha hview => ?readOnly⟩
  case kept => exact row (if_neg (Bool.eq_false_iff.mp hclear)) (by decide)
  case readOnly => exact row (writeRegister_readOnly hview v s) ⟨ho, ha, by omega⟩

/-! ### Registers of several fields -/

theorem flagWord_eq_ofNat (b : Bool) (k : Nat) : flagWord b k = BitVec.ofNat 32 (b.toNat * 2 ^ k) := by
  cases b
  · simp [flagWord]
  · apply BitVec.eq_of_toNat_eq; simp [flagWord, Nat.shiftLeft_eq]

theorem setWidth_shiftLeft_eq_ofNat (b : Byte) (k : Nat) :
    b.setWidth 32 <<< k = BitVec.ofNat 32 (b.toNat * 2 ^ k) := by
  rw [← ofNat8_shiftLeft b.isLt, BitVec.ofNat_toNat, BitVec.setWidth_eq]

/-- STATUS is its fields side by side (10_state.md R34). -/
theorem statusWord_toNat (s : State) :
    s.statusWord.toNat = s.busy.toNat + s.status.done.toNat * 2 ^ 1 + s.status.ign.toNat * 2 ^ 2 +
      s.status.err.toNat * 2 ^ 8 + s.status.stop.toNat * 2 ^ 16 := by
  have hbusy := s.busy.toNat_le
  have hdone := s.status.done.toNat_le
  have hign := s.status.ign.toNat_le
  have herr := s.status.err.isLt
  have hstop := s.status.stop.isLt
  rw [State.statusWord, flagWord_eq_ofNat, flagWord_eq_ofNat, flagWord_eq_ofNat, setWidth_shiftLeft_eq_ofNat,
    setWidth_shiftLeft_eq_ofNat, ofNat_or_high _ (by omega), ofNat_or_high _ (by omega), ofNat_or_high _ (by omega),
    ofNat_or_high _ (by omega), BitVec.toNat_ofNat, Nat.mod_eq_of_lt (by omega), pow_zero, Nat.mul_one]

/-- A bit of a word, by arithmetic. -/
theorem getLsbD_eq_of_toNat {v : Word} {i : Nat} {b : Bool} (h : v.toNat / 2 ^ i % 2 = b.toNat) : v.getLsbD i = b := by
  rw [BitVec.getLsbD, Nat.testBit_eq_decide_div_mod_eq, h]
  cases b <;> rfl

/-- A field of a word, by arithmetic. -/
theorem extractLsb'_eq_of_toNat {v : Word} {i k : Nat} {x : BitVec k} (h : v.toNat / 2 ^ i % 2 ^ k = x.toNat) :
    v.extractLsb' i k = x := by
  apply BitVec.eq_of_toNat_eq
  rw [BitVec.extractLsb'_toNat, Nat.shiftRight_eq_div_pow, h]

theorem statusWord_fields (s : State) :
    s.statusWord.getLsbD 0 = s.busy ∧ s.statusWord.getLsbD 1 = s.status.done ∧ s.statusWord.getLsbD 2 = s.status.ign ∧
      s.statusWord.extractLsb' 3 5 = 0 ∧ s.statusWord.extractLsb' 8 8 = s.status.err ∧
      s.statusWord.extractLsb' 16 8 = s.status.stop ∧ s.statusWord.extractLsb' 24 8 = 0 := by
  have hword := statusWord_toNat s
  have hbusy := s.busy.toNat_le
  have hdone := s.status.done.toNat_le
  have hign := s.status.ign.toNat_le
  have herr := s.status.err.isLt
  have hstop := s.status.stop.isLt
  have hnone5 : (0 : BitVec 5).toNat = 0 := rfl
  have hnone8 : (0 : Byte).toNat = 0 := rfl
  refine ⟨getLsbD_eq_of_toNat ?_, getLsbD_eq_of_toNat ?_, getLsbD_eq_of_toNat ?_, extractLsb'_eq_of_toNat ?_,
    extractLsb'_eq_of_toNat ?_, extractLsb'_eq_of_toNat ?_, extractLsb'_eq_of_toNat ?_⟩ <;> omega

theorem ctrlWord_fields (s : State) : s.ctrlWord.getLsbD 0 = s.ie ∧ s.ctrlWord.extractLsb' 1 31 = 0 := by
  unfold State.ctrlWord
  cases s.ie <;> decide

/-- TEX_GEOM of any record: each field shows its low byte (10_state.md R30). -/
theorem geomWord_eq_sum_mod (f : Format) :
    f.geomWord = BitVec.ofNat 32
      (f.pixelBits % 2 ^ 8 + f.bytesPerBlock % 2 ^ 8 * 2 ^ 8 + f.bytesPerComponent % 2 ^ 8 * 2 ^ 16 +
        if f.twoComponents then 2 ^ 24 else 0) := by
  have hbyte (n : Nat) : BitVec.ofNat 8 n = BitVec.ofNat 8 (n % 2 ^ 8) := by simp [BitVec.toNat_eq]
  have hlt (n : Nat) : n % 2 ^ 8 < 2 ^ 8 := Nat.mod_lt _ (by decide)
  rw [← geomWord_eq_sum (f := { f with
    pixelBits := f.pixelBits % 2 ^ 8
    bytesPerBlock := f.bytesPerBlock % 2 ^ 8
    bytesPerComponent := f.bytesPerComponent % 2 ^ 8 }) (hlt _) (hlt _) (hlt _)]
  simp only [Format.geomWord, ← hbyte]

theorem readRegister_reserved {offset : Nat} (h : offset = 0x08 ∨ 0x74 ≤ offset) (s : State) :
    s.readRegister offset = 0 := by
  unfold State.readRegister
  split <;> try omega
  rfl


/-! ### Reads -/

/-- While BUSY only ID and STATUS are defined (45_control.md R478). -/
theorem hostStep_read_busy {s : State} (hp : s.phase ≠ .idle) {offset : Nat} (h : offset < 256) (ha : offset % 4 = 0) :
    hostStep (.read offset 4) s = .next (s.readBusy offset) := by
  rw [hostStep_read h ha, hostRead_busy hp]

/-- Settles O42: an idle read is `readRegister`, whose rows of several fields are taken apart above; a busy one is
`State.readBusy`. -/
theorem registerReads : Obligations.RegisterReads := by
  refine ⟨fun s hp offset h ha => ?idle, fun s hp offset h ha => ?busy⟩
  case idle =>
    obtain ⟨hbusy, hdone, hign, hlow, herr, hstop, hhigh⟩ := statusWord_fields s
    obtain ⟨hie, hrest⟩ := ctrlWord_fields s
    refine ⟨(hostStep_read h ha s).trans (congrArg Host.Outcome.next (hostRead_idle hp offset)), rfl,
      fun ho => readRegister_reserved ho s, hie, hrest, hbusy.trans (busy_eq_false.mpr hp), hdone, hign, hlow, herr, hstop,
      hhigh, rfl, rfl, fun hbits => ?bits, fun hskip => ?none, fun n hskip => ?nth, fun hskip => ?every,
      (BitVec.ofNat_toNat ..).symm, saturate_eq_min _, geomWord_eq_sum_mod s.fmt, (BitVec.ofNat_toNat ..).symm⟩
    case bits =>
      change (BitVec.ofNat 7 s.reader.bits).setWidth 32 = _
      exact BitVec.setWidth_ofNat_of_le_of_lt (by decide) (by omega)
    case none | nth | every =>
      change (skipCodeOf s.reader.skip).setWidth 32 = _
      rw [hskip]
      exact (BitVec.ofNat_toNat ..).symm
  case busy =>
    have hread := hostStep_read_busy hp h ha
    refine ⟨fun ho => hread.trans (by rw [ho]; rfl), fun ho => ⟨hread.trans (by rw [ho]; rfl), ?_⟩, fun hid hstatus => ?_⟩
    · exact (statusWord_fields s).1.trans (busy_eq_true.mpr hp)
    · rw [hread, State.readBusy, if_neg hid, if_neg hstatus]

end Sys2Proof.Machine
end

section
/-! PROOFS. What no instruction writes (45_control.md R471, R477, R481, 41_huffman.md R282). The idea: a command is
accepted or ignored, its body and every element work on the job's and the commands' own state alone, and that frame holds
the latched word, IGN, the arguments, the dictionary, the parameters and the host's side. -/

namespace Sys2Proof.Machine

/-! ### The frame of a body -/

/-- `t` is `s` but for what the bodies of the commands and the elements work on; IGN and the latched word stay. -/
def BodyOnly (s t : State) : Prop :=
  t = { s with
    status := { t.status with ign := s.status.ign }
    result0 := t.result0
    result1 := t.result1
    outCount := t.outCount
    texCflags := t.texCflags
    texDsize := t.texDsize
    datHdr := t.datHdr
    reader := t.reader
    sym := t.sym
    copy := t.copy
    builder := t.builder
    phase := t.phase
    dat := t.dat
    tex := t.tex
    fmt := t.fmt
    mem := t.mem
    memAtStart := t.memAtStart
    touched := t.touched
    held := t.held
    free := t.free }

theorem BodyOnly.cmd {s t : State} (h : BodyOnly s t) : t.cmd = s.cmd := by rw [h]
theorem BodyOnly.ign {s t : State} (h : BodyOnly s t) : t.status.ign = s.status.ign := by rw [h]

theorem BodyOnly.trans {s t u : State} (h : BodyOnly s t) (k : BodyOnly t u) : BodyOnly s u := by
  unfold BodyOnly at *
  rw [k, h]

theorem JobOnly.bodyOnly {s t : State} (h : JobOnly s t) : BodyOnly s t := by
  unfold JobOnly at h
  unfold BodyOnly
  rw [h]

/-- The end of a job, disturbed or not, keeps IGN (45_control.md R473). -/
theorem endJob_bodyOnly (err stop : Byte) (count : Word) (s : State) : BodyOnly s (s.endJob err stop count) := by
  unfold State.endJob
  split <;> rfl

theorem JobStep.bodyOnly {s t : State} (h : JobStep s t) : BodyOnly s t := by
  cases h with
  | goesOn frame _ => exact frame.bodyOnly
  | ends frame _ count => exact frame.bodyOnly.trans (endJob_bodyOnly _ _ count _)

/-- The acceptance of a job is part of its body. -/
theorem startJob_bodyOnly {s t : State} (h : JobStep s.startJob t) : BodyOnly s t :=
  BodyOnly.trans (t := s.startJob) rfl h.bodyOnly

/-! ### The bodies of the commands -/

theorem texFormat_bodyOnly (s : State) : BodyOnly s (texFormat s) := by
  unfold texFormat
  split <;> rfl

theorem brInit_bodyOnly (s : State) : BodyOnly s (brInit s) := by
  unfold brInit
  repeat' split
  all_goals rfl

theorem brPeek_bodyOnly (s : State) : BodyOnly s (brPeek s) := by
  unfold brPeek
  split <;> rfl

theorem brRead_bodyOnly (s : State) : BodyOnly s (brRead s) := by
  unfold brRead
  repeat' split
  all_goals rfl

theorem brDrop_bodyOnly (s : State) : BodyOnly s (brDrop s) := by
  unfold brDrop
  repeat' split
  all_goals rfl

theorem brTake_bodyOnly (s : State) : BodyOnly s (brTake s) := by
  unfold brTake
  repeat' split
  all_goals rfl

theorem hbAdd_bodyOnly (s : State) : BodyOnly s (hbAdd s) := by
  unfold hbAdd
  split <;> rfl

theorem hbBuild_bodyOnly (s : State) : BodyOnly s (hbBuild s) := by
  have hset (which : DatTree) (t : Tree) : BodyOnly s (s.setTree which t) := (setTree_jobOnly s which t).bodyOnly
  unfold hbBuild
  split
  · rfl
  · split
    · exact (hset _ _).trans rfl
    · exact (hset _ _).trans rfl

theorem htDecode_bodyOnly (s : State) : BodyOnly s (htDecode s) := by
  unfold htDecode
  repeat' split
  all_goals rfl

theorem htCode_bodyOnly (s : State) : BodyOnly s (htCode s) := by
  unfold htCode
  repeat' split
  all_goals rfl

/-! ### Every instruction -/

/-- A command latches its own word and runs a body (30_encoding.md R141, 45_control.md R470). -/
theorem exec_command {i : Instr} (hk : (encode i).1 = .command) :
    ∃ run : State → State, (∀ s, BodyOnly s (run s)) ∧ ∀ s, exec i s = command (BitVec.ofNat 32 (encode i).2) run s := by
  cases i
  case nop => exact ⟨State.succeed, fun _ => rfl, fun _ => rfl⟩
  case illegalCommand word =>
    refine ⟨State.raiseError .badCommand, fun _ => rfl, fun s => ?_⟩
    rw [encode, BitVec.ofNat_toNat, BitVec.setWidth_eq]
    rfl
  case inflateDat => exact ⟨startDat, fun s => startJob_bodyOnly (startDat_jobStep s), fun _ => rfl⟩
  case inflateTexture => exact ⟨startTexture, fun s => startJob_bodyOnly (startTexture_jobStep s), fun _ => rfl⟩
  case texFormat => exact ⟨texFormat, texFormat_bodyOnly, fun _ => rfl⟩
  case brInit => exact ⟨brInit, brInit_bodyOnly, fun _ => rfl⟩
  case brPeek => exact ⟨brPeek, brPeek_bodyOnly, fun _ => rfl⟩
  case brRead => exact ⟨brRead, brRead_bodyOnly, fun _ => rfl⟩
  case brDrop => exact ⟨brDrop, brDrop_bodyOnly, fun _ => rfl⟩
  case brTake => exact ⟨brTake, brTake_bodyOnly, fun _ => rfl⟩
  case hbClear => exact ⟨hbClear, fun _ => rfl, fun _ => rfl⟩
  case hbAdd => exact ⟨hbAdd, hbAdd_bodyOnly, fun _ => rfl⟩
  case hbBuild => exact ⟨hbBuild, hbBuild_bodyOnly, fun _ => rfl⟩
  case htDecode => exact ⟨htDecode, htDecode_bodyOnly, fun _ => rfl⟩
  case htCode => exact ⟨htCode, htCode_bodyOnly, fun _ => rfl⟩
  case texAlphaStart wide alpha => cases wide <;> cases hk
  all_goals cases hk

/-- Every command word is the encoding of its instruction (30_encoding.md R141, R142). -/
theorem encode_decodeCommand (v : Word) : encode (decodeCommand v) = (.command, v.toNat) := by
  have hdecode : decode .command v.toNat = .ok (decodeCommand v) := by
    rw [decode, BitVec.ofNat_toNat, BitVec.setWidth_eq]
  exact (encodingReadsDecoded .command v.toNat _ v.isLt hdecode).2

/-- A command word is offered with the word itself latched, and a body that keeps it. -/
theorem exec_decodeCommand_body (v : Word) :
    ∃ run : State → State, (∀ s, BodyOnly s (run s)) ∧ ∀ s, exec (decodeCommand v) s = command v run s := by
  obtain ⟨run, hbody, hrun⟩ := exec_command (congrArg Prod.fst (encode_decodeCommand v))
  rw [encode_decodeCommand, BitVec.ofNat_toNat, BitVec.setWidth_eq] at hrun
  exact ⟨run, hbody, hrun⟩

/-- Settles O2: busy, the command is ignored; idle, its acceptance latches the word and clears IGN, and its body keeps
both. -/
theorem busyCommandIsIgnored : Obligations.BusyCommandIsIgnored := by
  intro v s
  obtain ⟨run, hbody, hrun⟩ := exec_decodeCommand_body v
  refine ⟨fun hp => (hrun s).trans (command_busy hp v run), fun hp => ?_⟩
  exact ⟨_, (hrun s).trans (command_idle hp v run), (hbody (s.accept v)).ign, (hbody (s.accept v)).cmd⟩

/-- An instruction works on the state of the bodies, after a command's acceptance or refusal has set the latched word and
STATUS. -/
theorem exec_bodyOnly {i : Instr} {s t : State} (e : exec i s = .next t) :
    ∃ (v : Word) (status : Status), BodyOnly { s with cmd := v, status := status } t := by
  by_cases hk : (encode i).1 = .command
  · obtain ⟨run, hbody, hrun⟩ := exec_command hk
    rw [hrun] at e
    by_cases hp : s.phase = .idle
    · rw [command_idle hp] at e
      cases e
      exact ⟨_, _, hbody (s.accept _)⟩
    · rw [command_busy hp] at e
      cases e
      exact ⟨s.cmd, s.ignore.status, rfl⟩
  · exact ⟨s.cmd, s.status, (exec_element_jobStep hk e).bodyOnly⟩

/-- Settles O47: none of the fields is one that a body or an acceptance works on. -/
theorem instructionsKeepArguments : Obligations.InstructionsKeepArguments := by
  intro i s t e
  obtain ⟨v, status, h⟩ := exec_bodyOnly e
  rw [h]
  exact ⟨rfl, rfl, rfl, rfl, rfl, rfl, rfl, rfl, rfl, rfl, rfl, rfl, rfl, rfl, rfl, rfl, rfl⟩

/-! ### Elements offered to an idle core -/

/-- A stream element has no meaning on an idle core (log entry 15): its place is one of a running job; a run's element
faults in a pass of another kind as well. -/
theorem exec_element_idle {i : Instr} (hk : (encode i).1 ≠ .command) {s : State} (hp : s.phase = .idle) :
    exec i s = .fault .outOfPhase := by
  cases i
  case nop | inflateDat | inflateTexture | texFormat | brInit | brPeek | brRead | brDrop | brTake | hbClear | hbAdd |
      hbBuild | htDecode | htCode | illegalCommand => exact absurd rfl hk
  case datNSymbols count => rw [exec, execDatNSymbols, hp]
  case datDescSkip r => rw [exec, execDatDescSkip, hp]
  case datDescAdd r len => rw [exec, execDatDescAdd, hp]
  case texResidueWord word => rw [exec, execTexResidueWord, hp]
  case texWhiteRun | texAlphaRun | texPlainRun =>
    simp only [exec, execTexWhiteRun, execTexAlphaRun, execTexPlainRun]
    split
    · exact inPhase_off (by simp [hp]) _
    · rfl
  all_goals exact inPhase_off (by simp [hp]) _

/-- Settles O59: `step_asleep`, and every element's place is off the idle phase. -/
theorem idleMachineWaits : Obligations.IdleMachineWaits :=
  fun _ hp => ⟨step_asleep hp, fun _ hk => exec_element_idle hk hp⟩

end Sys2Proof.Machine
end

section
/-! PROOFS. The argument checks of the jobs (60_exceptions.md R512 to R514). The five region checks of the model are those
of the rules, two regions that overlap being two that share an address; a job whose check fails is refused, one whose
checks pass is accepted. A recognised FourCC adds the checks of size and capacity. -/

namespace Sys2Proof.Machine

/-! ### The region checks -/

theorem regionWraps_iff {base len : Word} : regionWraps base len = true ↔ 2 ^ 32 < base.toNat + len.toNat :=
  decide_eq_true_iff

/-- Two regions that are not empty overlap exactly if they share an address, the higher of the two bases
(20_memory.md R103). -/
theorem regionsOverlap_iff {s : State} (hin : s.inLen ≠ 0) (hout : s.outLen ≠ 0) :
    s.regionsOverlap = true ↔ ∃ a, s.inputHolds a ∧ s.outputHolds a := by
  have hin : 0 < s.inLen.toNat := Nat.pos_of_ne_zero fun h => hin (BitVec.eq_of_toNat_eq h)
  have hout : 0 < s.outLen.toNat := Nat.pos_of_ne_zero fun h => hout (BitVec.eq_of_toNat_eq h)
  simp only [State.regionsOverlap, Bool.and_eq_true, decide_eq_true_eq, State.inputHolds, State.outputHolds]
  constructor
  · rintro ⟨hlow, hhigh⟩
    rcases Nat.le_total s.inBase.toNat s.outBase.toNat with hle | hle
    · exact ⟨s.outBase, ⟨hle, hhigh⟩, Nat.le_refl _, by omega⟩
    · exact ⟨s.inBase, ⟨Nat.le_refl _, by omega⟩, hle, hlow⟩
  · rintro ⟨a, ⟨hinLow, hinHigh⟩, houtLow, houtHigh⟩
    exact ⟨by omega, by omega⟩

section Checks

variable {s : State}

theorem checkRegions_of_inputEmpty (hin : s.inLen = 0) : s.checkRegions = some .inputBufferEmpty := if_pos hin

theorem checkRegions_of_outputEmpty (hin : s.inLen ≠ 0) (hout : s.outLen = 0) :
    s.checkRegions = some .outputBufferEmpty := by
  rw [State.checkRegions, if_neg hin, if_pos hout]

theorem checkRegions_of_inputWraps (hin : s.inLen ≠ 0) (hout : s.outLen ≠ 0)
    (hwrap : 2 ^ 32 < s.inBase.toNat + s.inLen.toNat) : s.checkRegions = some .regionWrap := by
  rw [State.checkRegions, if_neg hin, if_neg hout, if_pos (regionWraps_iff.mpr hwrap)]

theorem checkRegions_of_outputWraps (hin : s.inLen ≠ 0) (hout : s.outLen ≠ 0)
    (hfit : s.inBase.toNat + s.inLen.toNat ≤ 2 ^ 32) (hwrap : 2 ^ 32 < s.outBase.toNat + s.outLen.toNat) :
    s.checkRegions = some .regionWrap := by
  rw [State.checkRegions, if_neg hin, if_neg hout, if_neg (mt regionWraps_iff.mp (Nat.not_lt.mpr hfit)),
    if_pos (regionWraps_iff.mpr hwrap)]

/-- Past the first four checks the fifth decides (60_exceptions.md R512). -/
theorem checkRegions_of_noWrap (hin : s.inLen ≠ 0) (hout : s.outLen ≠ 0)
    (hinFit : s.inBase.toNat + s.inLen.toNat ≤ 2 ^ 32) (houtFit : s.outBase.toNat + s.outLen.toNat ≤ 2 ^ 32) :
    s.checkRegions = if s.regionsOverlap then some .bufferOverlap else none := by
  rw [State.checkRegions, if_neg hin, if_neg hout, if_neg (mt regionWraps_iff.mp (Nat.not_lt.mpr hinFit)),
    if_neg (mt regionWraps_iff.mp (Nat.not_lt.mpr houtFit))]

theorem checkRegions_of_overlap (hin : s.inLen ≠ 0) (hout : s.outLen ≠ 0)
    (hinFit : s.inBase.toNat + s.inLen.toNat ≤ 2 ^ 32) (houtFit : s.outBase.toNat + s.outLen.toNat ≤ 2 ^ 32)
    (hshare : ∃ a, s.inputHolds a ∧ s.outputHolds a) : s.checkRegions = some .bufferOverlap := by
  rw [checkRegions_of_noWrap hin hout hinFit houtFit, if_pos ((regionsOverlap_iff hin hout).mpr hshare)]

theorem checkRegions_of_fit (h : s.regionsFit) : s.checkRegions = none := by
  obtain ⟨hin, hout, hinFit, houtFit, happart⟩ := h
  have hnone : ¬∃ a, s.inputHolds a ∧ s.outputHolds a := fun ⟨a, ha⟩ => happart a ha
  rw [checkRegions_of_noWrap hin hout hinFit houtFit, if_neg (mt (regionsOverlap_iff hin hout).mp hnone)]

/-! ### INFLATE_DAT and INFLATE_TEXTURE -/

theorem exec_inflateDat_refused {code : ErrCode} (hp : s.phase = .idle) (h : s.checkRegions = some code) :
    exec .inflateDat s = .next (s.refusedJob 0x01 (errNumber code)) := by
  have hcheck : (s.accept 0x01).checkRegions = some code := h
  refine (command_idle hp _ _).trans (congrArg Host.Outcome.next ?_)
  rw [startDat, hcheck]
  rfl

theorem exec_inflateDat_accepted (hp : s.phase = .idle) (h : s.checkRegions = none) :
    exec .inflateDat s = .next
      { s.accepted 0x01 .datHeader with
        dat := { s.dat with outPos := 0 }
        reader := freshReader s.mem s.inBase s.inLen 0xFFFF } := by
  have hcheck : (s.accept 0x01).checkRegions = none := h
  refine (command_idle hp _ _).trans (congrArg Host.Outcome.next ?_)
  rw [startDat, hcheck, ← readerInit_eq_freshReader]
  rfl

theorem exec_inflateTexture_refused {code : ErrCode} (hp : s.phase = .idle) (h : s.checkRegions = some code) :
    exec .inflateTexture s = .next (s.refusedJob 0x02 (errNumber code)) := by
  have hcheck : (s.accept 0x02).checkRegions = some code := h
  refine (command_idle hp _ _).trans (congrArg Host.Outcome.next ?_)
  rw [startTexture, hcheck]
  rfl

theorem exec_inflateTexture_accepted (hp : s.phase = .idle) (h : s.checkRegions = none) :
    exec .inflateTexture s = .next (s.accepted 0x02 .texFourcc) := by
  have hcheck : (s.accept 0x02).checkRegions = none := h
  refine (command_idle hp _ _).trans (congrArg Host.Outcome.next ?_)
  rw [startTexture, hcheck]
  rfl

end Checks

/-- Settles O21: each clause names the check that fails, or that none does. -/
theorem inflateDatChecksAndStarts : Obligations.InflateDatChecksAndStarts := by
  refine ⟨fun s hp => ⟨fun hin => ?inputEmpty, fun hin hout => ?outputEmpty, fun hin hout hwrap => ?inputWraps,
    fun hin hout hfit hwrap => ?outputWraps, fun hin hout hinFit houtFit hshare => ?overlap⟩,
    fun s hp hfit => exec_inflateDat_accepted hp (checkRegions_of_fit hfit)⟩
  case inputEmpty => exact exec_inflateDat_refused hp (checkRegions_of_inputEmpty hin)
  case outputEmpty => exact exec_inflateDat_refused hp (checkRegions_of_outputEmpty hin hout)
  case inputWraps => exact exec_inflateDat_refused hp (checkRegions_of_inputWraps hin hout hwrap)
  case outputWraps => exact exec_inflateDat_refused hp (checkRegions_of_outputWraps hin hout hfit hwrap)
  case overlap => exact exec_inflateDat_refused hp (checkRegions_of_overlap hin hout hinFit houtFit hshare)

/-- Settles O22: as `inflateDatChecksAndStarts`, the checks being the same. -/
theorem inflateTextureStarts : Obligations.InflateTextureStarts := by
  refine fun s hp => ⟨fun hin => ?inputEmpty, fun hin hout => ?outputEmpty, fun hin hout hwrap => ?inputWraps,
    fun hin hout hfit hwrap => ?outputWraps, fun hin hout hinFit houtFit hshare => ?overlap,
    fun hfit => exec_inflateTexture_accepted hp (checkRegions_of_fit hfit)⟩
  case inputEmpty => exact exec_inflateTexture_refused hp (checkRegions_of_inputEmpty hin)
  case outputEmpty => exact exec_inflateTexture_refused hp (checkRegions_of_outputEmpty hin hout)
  case inputWraps => exact exec_inflateTexture_refused hp (checkRegions_of_inputWraps hin hout hwrap)
  case outputWraps => exact exec_inflateTexture_refused hp (checkRegions_of_outputWraps hin hout hfit hwrap)
  case overlap => exact exec_inflateTexture_refused hp (checkRegions_of_overlap hin hout hinFit houtFit hshare)

/-! ### The FourCC of a texture job -/

/-- Every FourCC element has one meaning, at its row's flags and pixel_size_bits (43_texture_formats.md R380). -/
theorem exec_fourcc {f : FormatRow} (hf : f ∈ formatRows) (s : State) :
    exec f.instr s = inPhase .texFourcc s (selectFormat f.flags f.pixelBits s) := by
  fin_cases hf <;> rfl

/-- What a row's FourCC selects: the first check that fails, or the start of the decode on a fresh reader. -/
theorem selectFormat_row {f : FormatRow} (hf : f ∈ formatRows) (s : State) :
    selectFormat f.flags f.pixelBits s =
      if s.outLen.toNat < f.bytesPerBlock * blockCount s.texWidth s.texHeight then s.jobError .outputBufferTooSmall
      else if exceedsBlocks s.maxBlocks (blockCount s.texWidth s.texHeight) then s.jobError .tooManyBlocks
      else openTexture (f.record s.texWidth s.texHeight) s := by
  simp only [selectFormat, formatRecord_row hf]
  rfl

theorem exceedsBlocks_of_lt {cap n : Nat} (h : cap < n) : exceedsBlocks (some cap) n = true := by
  rw [exceedsBlocks, if_neg (by omega)]
  exact decide_eq_true h

/-- A capacity not exceeded, or no capacity at all (00_scope.md R12). -/
theorem exceedsBlocks_of_le {limit : Option Nat} {n : Nat} (h : ∀ cap, limit = some cap → n ≤ cap) :
    exceedsBlocks limit n = false := by
  unfold exceedsBlocks
  split
  · rfl
  · cases limit with
    | none => rfl
    | some cap => exact decide_eq_false (Nat.not_lt.mpr (h cap rfl))

theorem jobError_undisturbed {s : State} (ht : s.touched = false) (code : ErrCode) :
    s.jobError code = s.finished (errNumber code) 0 0 := endJob_undisturbed ht _ _ _

/-- Settles O20: the three outcomes of `selectFormat_row`. -/
theorem fourccOpensTexture : Obligations.FourccOpensTexture := by
  intro s hp ht f hf
  rw [exec_fourcc hf, inPhase_at hp, selectFormat_row hf]
  refine ⟨fun hsmall => ?tooSmall, fun hfits => ⟨fun cap hcap hmany => ?tooMany, fun hcapacity => ?opens⟩⟩
  case tooSmall => rw [if_pos hsmall, jobError_undisturbed ht]; rfl
  case tooMany =>
    rw [if_neg (Nat.not_lt.mpr hfits), hcap, if_pos (exceedsBlocks_of_lt hmany), jobError_undisturbed ht]
    rfl
  case opens =>
    rw [if_neg (Nat.not_lt.mpr hfits), exceedsBlocks_of_le hcapacity, ← readerInit_eq_freshReader]
    rfl

end Sys2Proof.Machine
end

section
/-! PROOFS. What reading an element of a running job gives (30_encoding.md R151, R165): the element its place's bits decode
to, in a state that differs in the reader and TEX_DSIZE alone and has the element's bits less of the stream to come, or the
end of the job, or a fault. -/

namespace Sys2Proof.Machine

/-! ### The stream still to come -/

/-- The bits of the stream still to come: the valid ones and those not yet loaded (10_state.md R50). -/
def Reader.left (r : Reader) : Nat := r.bits + 8 * r.remaining.toNat

theorem stepOver_left {r : Reader} (h : 4 ≤ r.remaining.toNat) : r.stepOver.left + 32 = r.left := by
  have hrem : (r.remaining - 4).toNat = r.remaining.toNat - 4 := by bv_omega
  simp only [Reader.left, stepOver_bits, stepOver_remaining, hrem]
  omega

theorem skipWord_left (r : Reader) : r.skipWord.left ≤ r.left := by
  rcases skipWord_cases r with e | ⟨h, _, e⟩ <;> rw [e]
  have := stepOver_left h
  omega

/-- PULL moves a word of the stream into the window, or drops one (40_bitreader.md R201). -/
theorem pull_left (m : Memory) (r : Reader) : (r.pull m).left ≤ r.left := by
  have hskip := skipWord_left r
  obtain ⟨_, rfl, ⟨_, e⟩ | ⟨hrem, e⟩⟩ := pull_cases m r
  · rw [e]
    exact hskip
  · have hmerge : ∀ (q : Reader) (v : Word), (q.merge v).left = q.left + 32 := fun q v => by
      simp only [Reader.left, merge_bits, merge_remaining]
      omega
    rw [e, hmerge, stepOver_left hrem]
    exact hskip

/-- DROP takes its bits off the stream (40_bitreader.md R205). -/
theorem drop_left {m : Memory} {r r' : Reader} {k : Nat} (e : Reader.drop m r k = .ok r') : r'.left + k ≤ r.left := by
  have hshift (hk : k ≤ r.bits) : (r.shiftOut k).left + k = r.left := by
    simp only [Reader.left, shiftOut_bits, shiftOut_remaining]
    omega
  rcases drop_cases m r k with ⟨_, e'⟩ | ⟨hk, _, e'⟩ | ⟨hk, _, e'⟩ <;> rw [e'] at e <;> cases e
  · have hpull := pull_left m (r.shiftOut k)
    have := hshift hk
    omega
  · exact (hshift hk).le

theorem take_left {m : Memory} {r r' : Reader} {k : Nat} {v : Word} (e : Reader.take m r k = .ok (v, r')) :
    r'.left + k ≤ r.left := drop_left (take_eq_ok_iff.mp e).2

theorem align32_left (m : Memory) (r : Reader) : (r.align32 m).left ≤ r.left := by
  unfold Reader.align32
  split
  · have := drop_left ‹_›
    omega
  · exact le_rfl

/-! ### The place of an element -/

/-- The place of the next element of the running job (30_encoding.md R151, R165, R169). -/
inductive StandsAt (s : State) : ElemKind → Prop
  | datHeader (phase : s.phase = .datHeader) : StandsAt s .datHeader
  | datNSymbols {which : DatTree} (phase : s.phase = .datNSymbols which) : StandsAt s .datNSymbols
  | descriptor {which : DatTree} (phase : s.phase = .datDescriptor which) : StandsAt s .descriptor
  | maxCount (phase : s.phase = .datMaxCount) : StandsAt s .maxCount
  | symSymbol (phase : s.phase = .datItem) : StandsAt s .symSymbol
  | copySymbol (phase : s.phase = .datDistance) : StandsAt s .copySymbol
  | fourcc (phase : s.phase = .texFourcc) : StandsAt s .fourcc
  | texHeader (phase : s.phase = .texHeader) : StandsAt s .texHeader
  | texFlag (phase : s.phase = .texFlag) : StandsAt s .texFlag
  | alphaStart4 (phase : s.phase = .texAlphaStart false) : StandsAt s .alphaStart4
  | alphaStart8 (phase : s.phase = .texAlphaStart true) : StandsAt s .alphaStart8
  | plainStart (phase : s.phase = .texPlainStart) : StandsAt s .plainStart
  | texCount (phase : s.phase = .texCount) : StandsAt s .texCount
  | whiteRun (phase : s.phase = .texRun) (pass : s.tex.pass = .white) : StandsAt s .whiteRun
  | alphaRun {byte : Byte} (phase : s.phase = .texRun) (pass : s.tex.pass = .alpha byte) : StandsAt s .alphaRun
  | plainRun {block : BitVec 64} (phase : s.phase = .texRun) (pass : s.tex.pass = .plain block) : StandsAt s .plainRun
  | alphaResidue (phase : s.phase = .texAlphaResidue) : StandsAt s .residueWord
  | colourResidue (phase : s.phase = .texColourResidue) : StandsAt s .residueWord

theorem StandsAt.fourcc_phase {s : State} (h : StandsAt s .fourcc) : s.phase = .texFourcc := by
  cases h
  assumption

/-! ### Reading -/

/-- `t` is `s` but for what the reading of an element changes (44_texture_inflater.md R404). -/
def ReaderOnly (s t : State) : Prop := t = { s with reader := t.reader, texDsize := t.texDsize }

theorem ReaderOnly.phase {s t : State} (h : ReaderOnly s t) : t.phase = s.phase := by rw [h]
theorem ReaderOnly.tex {s t : State} (h : ReaderOnly s t) : t.tex = s.tex := by rw [h]

theorem ReaderOnly.jobOnly {s t : State} (h : ReaderOnly s t) : JobOnly s t := by
  unfold ReaderOnly at h
  unfold JobOnly
  rw [h]

/-- Reading does not move the job. -/
theorem StandsAt.of_readerOnly {s t : State} {kind : ElemKind} (h : StandsAt s kind) (k : ReaderOnly s t) :
    StandsAt t kind := by
  rw [k]
  cases h
  case colourResidue hp => exact .colourResidue hp
  all_goals constructor <;> assumption

/-- The job ended, at the reading of an element. -/
def EndsJob (s t : State) : Prop := JobStep s t ∧ t.phase = .idle

theorem EndsJob.after {s t u : State} (k : EndsJob t u) (h : JobOnly s t) : EndsJob s u := ⟨k.1.after h, k.2⟩

/-- What reading the next element of `s` can give, if an element takes at least `n` bits. -/
inductive Fetches (n : Nat) (s : State) : Fetched → Prop
  | instr {kind : ElemKind} {v : Nat} {i : Instr} {t : State} (place : StandsAt s kind) (decodes : decode kind v = .ok i)
      (frame : ReaderOnly s t) (took : t.reader.left + n ≤ s.reader.left) : Fetches n s (.instr i t)
  | ended {t : State} (ends : EndsJob s t) : Fetches n s (.ended t)
  | fault (f : Fault) : Fetches n s (.fault f)

theorem datStop_endsJob (code : StopCode) (s : State) : EndsJob s (s.datStop code) :=
  ⟨datStop_jobStep code s, endJob_phase ..⟩

theorem texStop_endsJob (code : StopCode) (s : State) : EndsJob s (s.texStop code) :=
  ⟨.ends (t := s) rfl (.inl rfl) _, endJob_phase ..⟩

theorem jobError_endsJob (code : ErrCode) (s : State) : EndsJob s (s.jobError code) :=
  ⟨jobError_jobStep code s, endJob_phase ..⟩

section Reading

variable {n : Nat} {s t : State} {kind : ElemKind}

theorem fetchedAs_fetches (v : Nat) (place : StandsAt s kind) (frame : ReaderOnly s t)
    (took : t.reader.left + n ≤ s.reader.left) : Fetches n s (fetchedAs kind v t) := by
  rcases fetchedAs_cases kind v t with ⟨i, hd, e⟩ | ⟨r, _, e⟩ <;> rw [e]
  · exact .instr place hd frame took
  · exact .fault _

theorem fetchTake_fetches {stop : StopCode → State → State} (hstop : ∀ c u, EndsJob u (stop c u)) (k : Nat)
    {go : Word → State → Fetched} (frame : ReaderOnly s t)
    (hgo : ∀ v r, r.left + k ≤ t.reader.left → Fetches n s (go v { t with reader := r })) :
    Fetches n s (fetchTake stop k t go) := by
  unfold fetchTake
  split
  · exact hgo _ _ (take_left ‹_›)
  · exact .ended ((hstop _ t).after frame.jobOnly)

theorem fetchField_fetches {stop : StopCode → State → State} (hstop : ∀ c u, EndsJob u (stop c u))
    (place : StandsAt s kind) {k : Nat} (hn : n ≤ k) : Fetches n s (fetchField stop kind k s) :=
  fetchTake_fetches hstop k rfl fun v r hr => fetchedAs_fetches v.toNat place rfl (by simp only; omega)

theorem fetchSymbol_fetches {stop : StopCode → State → State} (hstop : ∀ c u, EndsJob u (stop c u))
    (place : StandsAt s kind) {tree : Tree} (hn : ∀ x len, windowSymbol tree s.reader = some (x, len) → n ≤ len) :
    Fetches n s (fetchSymbol stop kind tree s) := by
  unfold fetchSymbol
  rcases decodeTree_cases s.mem tree s.reader with ⟨_, e⟩ | ⟨_, _, _, _, e⟩ | ⟨x, len, r, hx, _, hdrop, e⟩ <;> rw [e]
  · exact .ended (hstop _ s)
  · exact .ended (hstop _ s)
  · have hlen := hn x len (resolve_peek tree s.reader ▸ hx)
    have htook := drop_left hdrop
    exact fetchedAs_fetches x.toNat place rfl (by simp only; omega)

theorem fetchDatHeader_fetches (hn : n ≤ 1) (hp : s.phase = .datHeader) : Fetches n s (fetchDatHeader s) :=
  fetchTake_fetches datStop_endsJob 4 rfl fun _ r hr =>
    fetchTake_fetches (t := { s with reader := r }) datStop_endsJob 4 rfl fun _ r' hr' =>
      fetchedAs_fetches _ (.datHeader hp) rfl (by simp only at *; omega)

theorem fetchTexHeader_fetches (hn : n ≤ 1) (hp : s.phase = .texHeader) : Fetches n s (fetchTexHeader s) :=
  fetchTake_fetches texStop_endsJob 32 rfl fun size r hr =>
    fetchTake_fetches (t := { s with reader := r, texDsize := size }) texStop_endsJob 32 rfl fun _ r' hr' =>
      fetchedAs_fetches _ (.texHeader hp) rfl (by simp only at *; omega)

theorem fetchAlphaRun_fetches {byte : Byte} (hn : n ≤ 1) (hp : s.phase = .texRun) (hpass : s.tex.pass = .alpha byte) :
    Fetches n s (fetchAlphaRun s) := by
  refine fetchTake_fetches texStop_endsJob 1 rfl fun value r hr => ?_
  have hstop (code : StopCode) : Fetches n s (.ended (State.texStop code { s with reader := r })) :=
    .ended ((texStop_endsJob code _).after rfl)
  simp only
  split
  · exact hstop _
  · split
    · split
      · exact hstop _
      · rename_i hdrop
        have htook := drop_left hdrop
        exact fetchedAs_fetches _ (.alphaRun hp hpass) rfl (by simp only at *; omega)
    · exact fetchedAs_fetches _ (.alphaRun hp hpass) rfl (by simp only at *; omega)

theorem fetchRun_fetches (hn : n ≤ 1) (hp : s.phase = .texRun) : Fetches n s (fetchRun s) := by
  unfold fetchRun
  cases hpass : s.tex.pass with
  | white => exact fetchField_fetches texStop_endsJob (.whiteRun hp hpass) hn
  | alpha byte => exact fetchAlphaRun_fetches hn hp hpass
  | plain block => exact fetchField_fetches texStop_endsJob (.plainRun hp hpass) hn

theorem fetchFourcc_fetches (hp : s.phase = .texFourcc) : Fetches 0 s (fetchFourcc s) := by
  unfold fetchFourcc
  split
  · exact .instr (.fourcc hp) ‹_› rfl le_rfl
  · exact .ended (jobError_endsJob _ s)

/-- A flag and a FourCC take no bits of the stream, every other element at least one if no code is empty. -/
theorem fetch_fetches (hp : s.phase ≠ .idle) (hn : n ≤ 1)
    (hselector : s.phase = .texFourcc ∨ s.phase = .texFlag → n = 0)
    (hsymbol : ∀ kind tree, s.symbolPlace = some (kind, tree) →
      ∀ x len, windowSymbol tree s.reader = some (x, len) → n ≤ len) : Fetches n s (fetch s) := by
  unfold State.symbolPlace at hsymbol
  unfold fetch
  cases hphase : s.phase <;> simp only [hphase] at hp hselector hsymbol ⊢
  case idle => exact absurd rfl hp
  case datHeader => exact fetchDatHeader_fetches hn hphase
  case datNSymbols => exact fetchField_fetches datStop_endsJob (.datNSymbols hphase) (by omega)
  case datDescriptor => exact fetchSymbol_fetches datStop_endsJob (.descriptor hphase) (hsymbol _ _ rfl)
  case datMaxCount => exact fetchField_fetches datStop_endsJob (.maxCount hphase) (by omega)
  case datItem => exact fetchSymbol_fetches datStop_endsJob (.symSymbol hphase) (hsymbol _ _ rfl)
  case datDistance => exact fetchSymbol_fetches datStop_endsJob (.copySymbol hphase) (hsymbol _ _ rfl)
  case texFourcc =>
    obtain rfl := hselector (.inl trivial)
    exact fetchFourcc_fetches hphase
  case texHeader => exact fetchTexHeader_fetches hn hphase
  case texFlag =>
    obtain rfl := hselector (.inr trivial)
    exact fetchedAs_fetches _ (.texFlag hphase) rfl le_rfl
  case texAlphaStart wide =>
    cases wide
    · exact fetchField_fetches texStop_endsJob (.alphaStart4 hphase) (by omega)
    · exact fetchField_fetches texStop_endsJob (.alphaStart8 hphase) (by omega)
  case texPlainStart => exact fetchField_fetches texStop_endsJob (.plainStart hphase) (by omega)
  case texCount => exact fetchSymbol_fetches texStop_endsJob (.texCount hphase) (hsymbol _ _ rfl)
  case texRun => exact fetchRun_fetches hn hphase
  case texAlphaResidue => exact fetchField_fetches texStop_endsJob (.alphaResidue hphase) (by omega)
  case texColourResidue => exact fetchField_fetches texStop_endsJob (.colourResidue hphase) (by omega)

end Reading

/-! ### One element of the job -/

/-- What a place's bits decode to belongs to the place, whatever bits they are. -/
theorem encode_of_decode {kind : ElemKind} {v : Nat} {i : Instr} (hd : decode kind v = .ok i) :
    (encode i).1 = kind := by
  cases kind
  case command =>
    cases hd
    exact decodeCommand_kind _
  case descriptor => exact congrArg Prod.fst (decodeDescriptor_encodesAs hd).2
  case symSymbol => exact congrArg Prod.fst (decodeSymSymbol_encodesAs hd).2
  case copySymbol => exact congrArg Prod.fst (decodeCopySymbol_encodesAs hd).2
  case texFlag => exact congrArg Prod.fst (rowOr_encodesAs flagRows_encodesAs hd).2
  case texCount => exact congrArg Prod.fst (rowOr_encodesAs countRows_encodesAs hd).2
  case fourcc => exact congrArg Prod.fst (rowOr_encodesAs fourccRows_encodesAs hd).2
  all_goals
    cases hd
    rfl

theorem StandsAt.decodes_element {s : State} {kind : ElemKind} {v : Nat} {i : Instr} (h : StandsAt s kind)
    (hd : decode kind v = .ok i) : (encode i).1 ≠ .command := by
  rw [encode_of_decode hd]
  cases h <;> decide

/-- What the running job's fetch gives at the least: nothing is asked of the bits it takes. -/
theorem fetch_fetches_zero {s : State} (hp : s.phase ≠ .idle) : Fetches 0 s (fetch s) :=
  fetch_fetches hp (Nat.zero_le _) (fun _ => rfl) fun _ _ _ _ _ _ => Nat.zero_le _

/-- A step of the running job goes on with it or ends it, at the reading of an element or behind it. -/
theorem coreStep_jobStep {s t : State} (hp : s.phase ≠ .idle) (e : coreStep s = .next t) : JobStep s t := by
  have hfetch := fetch_fetches_zero hp
  unfold coreStep at e
  cases hx : fetch s with
  | instr i u =>
    rw [hx] at hfetch e
    obtain ⟨place, hd, frame, _⟩ := hfetch
    exact (exec_element_jobStep (place.decodes_element hd) e).after frame.jobOnly
  | ended u =>
    rw [hx] at hfetch e
    cases e
    cases hfetch with
    | ended ends => exact ends.1
  | fault f =>
    rw [hx] at e
    cases e

end Sys2Proof.Machine
end

section
/-! PROOFS. The interrupt line (60_exceptions.md R530). The idea: what a command or an element leaves has DONE set exactly if
no job runs, a command clearing DONE at its acceptance and every end setting it; and no transaction of the host sets DONE
while a job runs. -/

namespace Sys2Proof.Machine

theorem irq_eq_true_iff (s : State) : s.irq = true ↔ s.ie = true ∧ s.status.done = true := Bool.and_eq_true_iff

/-- DONE says that no job runs, as it does behind every command and every element. -/
def State.Settled (s : State) : Prop := s.status.done = true ↔ s.phase = .idle

/-- While a job runs DONE is 0. -/
def State.BusyNotDone (s : State) : Prop := s.phase ≠ .idle → s.status.done = false

theorem State.Settled.busyNotDone {s : State} (h : s.Settled) : s.BusyNotDone :=
  fun hp => Bool.eq_false_iff.mpr (mt h.mp hp)

theorem State.Settled.irq_iff {s t : State} (h : t.Settled) (hie : t.ie = s.ie) :
    t.irq = true ↔ s.ie = true ∧ t.phase = .idle :=
  hie ▸ (irq_eq_true_iff t).trans (and_congr_right' h)

theorem complete_settled (err stop : Byte) (s : State) : (s.complete err stop).Settled := iff_of_true rfl rfl

/-! ### Elements -/

theorem endJob_done (err stop : Byte) (count : Word) (s : State) : (s.endJob err stop count).status.done = true := by
  unfold State.endJob
  split <;> rfl

/-- A job that ended is done (45_control.md R473). -/
theorem JobStep.done_of_idle {s t : State} (h : JobStep s t) (hp : t.phase = .idle) : t.status.done = true := by
  cases h with
  | goesOn _ busy => exact absurd hp busy
  | ends _ _ count => exact endJob_done _ _ count _

/-- A job that was not done is done exactly if it ended (45_control.md R473). -/
theorem JobStep.settled {s t : State} (h : JobStep s t) (hd : s.status.done = false) : t.Settled := by
  refine ⟨fun hdone => ?_, h.done_of_idle⟩
  cases h with
  | goesOn frame _ =>
    rw [frame.status, hd] at hdone
    cases hdone
  | ends _ _ count => exact endJob_phase _ _ count _

/-- A busy core ignores a command and runs an element. -/
theorem exec_busy_cases {i : Instr} {s t : State} (hp : s.phase ≠ .idle) (e : exec i s = .next t) :
    t = s.ignore ∨ JobStep s t := by
  by_cases hk : (encode i).1 = .command
  · obtain ⟨run, _, hrun⟩ := exec_command hk
    rw [hrun, command_busy hp] at e
    cases e
    exact .inl rfl
  · exact .inr (exec_element_jobStep hk e)

theorem exec_busy_settled {i : Instr} {s t : State} (hp : s.phase ≠ .idle) (hd : s.status.done = false)
    (e : exec i s = .next t) : t.Settled := by
  rcases exec_busy_cases hp e with rfl | h
  · exact iff_of_false (by simp [hd]) hp
  · exact h.settled hd

/-! ### Commands -/

/-- A command completes, or it is a job that was accepted; a job refused at its checks has completed (45_control.md R470,
R473). -/
theorem exec_command_settled {i : Instr} {s t : State} (hk : (encode i).1 = .command) (hp : s.phase = .idle)
    (e : exec i s = .next t) : t.Settled := by
  have body {v : Word} {run : State → State} (e : command v run s = .next t)
      (hrun : ∀ u : State, u.status.done = false → (run u).Settled) : t.Settled := by
    rw [command_idle hp] at e
    cases e
    exact hrun _ rfl
  cases i
  case nop | hbClear | illegalCommand => exact body e fun _ _ => complete_settled _ _ _
  case inflateDat => exact body e fun u hd => (startDat_jobStep u).settled hd
  case inflateTexture => exact body e fun u hd => (startTexture_jobStep u).settled hd
  case texFormat | brInit | brPeek | brRead | brDrop | brTake | hbAdd | hbBuild | htDecode | htCode =>
    refine body e fun u _ => ?_
    simp only [texFormat, brInit, brPeek, brRead, brDrop, brTake, hbAdd, hbBuild, htDecode, htCode]
    repeat' split
    all_goals exact complete_settled _ _ _
  case texAlphaStart wide alpha => cases wide <;> cases hk
  all_goals cases hk

theorem exec_decodeCommand_settled {v : Word} {s t : State} (hp : s.phase = .idle)
    (e : exec (decodeCommand v) s = .next t) : t.Settled := exec_command_settled (decodeCommand_kind v) hp e

/-! ### Host transactions -/

theorem writeRegister_phase (offset : Nat) (v : Word) (s : State) : (s.writeRegister offset v).phase = s.phase := by
  unfold State.writeRegister State.writeStatus
  repeat' split
  all_goals rfl

theorem hostWrite_busyNotDone {offset : Nat} {v : Word} {s t : State} (h : s.BusyNotDone)
    (e : s.hostWrite offset v = .next t) : t.BusyNotDone := by
  unfold State.hostWrite at e
  split at e
  · cases e
    exact h
  · split at e
    · by_cases hp : s.phase = .idle
      · exact (exec_decodeCommand_settled hp e).busyNotDone
      · exact (exec_busy_settled hp (h hp) e).busyNotDone
    · cases e
      split
      · exact h
      · have hp : s.phase = .idle := busy_eq_false.mp (Bool.eq_false_iff.mpr ‹_›)
        exact fun hbusy => absurd ((writeRegister_phase offset v s).trans hp) hbusy

/-- A read of a register changes nothing of the core. -/
theorem hostRead_busyNotDone (offset : Nat) {s : State} (h : s.BusyNotDone) : (s.hostRead offset).BusyNotDone := by
  unfold State.hostRead State.readBusy
  repeat' split
  all_goals exact h

theorem hostMemWrite_busyNotDone (a : Word) (b : Byte) {s : State} (h : s.BusyNotDone) :
    (s.hostMemWrite a b).BusyNotDone := by
  unfold State.hostMemWrite
  repeat' split
  all_goals exact h

theorem hostMemRead_busyNotDone (a : Word) {s : State} (h : s.BusyNotDone) : (s.hostMemRead a).BusyNotDone := by
  unfold State.hostMemRead
  split <;> exact h

theorem hostStep_busyNotDone {op : HostOp} {s t : State} (h : s.BusyNotDone) (e : hostStep op s = .next t) :
    t.BusyNotDone := by
  rcases hostStep_cases op s with ⟨o, n, v, k⟩ | ⟨o, n, k⟩ | ⟨a, b, k⟩ | ⟨a, k⟩ | k | k | k <;> rw [k] at e
  · unfold State.windowWrite at e
    split at e
    · exact hostWrite_busyNotDone h e
    · cases e
  · unfold State.windowRead at e
    split at e
    · cases e
      exact hostRead_busyNotDone o h
    · cases e
  · cases e
    exact hostMemWrite_busyNotDone a b h
  · cases e
    exact hostMemRead_busyNotDone a h
  · cases e
    exact fun hp => absurd rfl hp
  · cases e
    exact h
  · cases e
    exact h

theorem step_busyNotDone {s t : State} (h : s.BusyNotDone) (e : step s = .next t) : t.BusyNotDone := by
  rcases step_cases s with ⟨_, _, k⟩ | ⟨b, hp, _, k⟩ | ⟨event, rest, _, _, k⟩ <;> rw [k] at e
  · cases e
    exact h
  · exact ((coreStep_jobStep (s := { s with bus := b }) hp e).settled (h hp)).busyNotDone
  · exact hostStep_busyNotDone (s := { s with bus := rest }) h e

/-- Settles O46: what a command or an element leaves is settled, and the writes of CTRL and STATUS are those of
`registerWrites`. -/
theorem interruptFollowsDone : Obligations.InterruptFollowsDone := by
  refine ⟨irq_eq_true_iff, fun s v hp => ⟨?command, fun hr => ⟨?status, ?ctrl⟩⟩, fun i s t hp hd e => ?element,
    fun s t => step_busyNotDone⟩
  case command =>
    obtain ⟨t, e⟩ := exec_decodeCommand_next v s
    exact ⟨t, e, (exec_decodeCommand_settled hp e).irq_iff (instructionsKeepArguments _ s t e).1⟩
  case status =>
    obtain ⟨_, hclear, _⟩ := (registerWrites s 0x00000002).1 hp hr
    exact ⟨_, hclear rfl, Bool.and_false _⟩
  case ctrl =>
    obtain ⟨hctrl, _⟩ := (registerWrites s v).1 hp hr
    exact ⟨_, hctrl, irq_eq_true_iff _⟩
  case element => exact (exec_busy_settled hp hd e).irq_iff (instructionsKeepArguments i s t e).1

end Sys2Proof.Machine
end

section
/-! PROOFS. An element at its place never faults, and only takes from the stream (30_encoding.md R151, R165,
60_exceptions.md R524). The idea: the bits of a place decode to the elements that have a meaning there, and what follows an
element up to the next place ends the job or leaves the stream and the passes still to start as they are, but for the bits
it drops. -/

namespace Sys2Proof.Machine

/-! ### What follows an element -/

/-- The job ended, or it goes on behind its FourCC, no more of the stream to come and the same passes to start. -/
def Onward (s t : State) : Prop :=
  t.phase = .idle ∨ t.phase ≠ .texFourcc ∧ t.reader.left ≤ s.reader.left ∧ t.tex.pending = s.tex.pending

/-- The job ended, or it goes on behind its FourCC, no more of the stream to come. -/
def Spends (s t : State) : Prop := t.phase = .idle ∨ t.phase ≠ .texFourcc ∧ t.reader.left ≤ s.reader.left

theorem Onward.spends {s t : State} (h : Onward s t) : Spends s t :=
  h.imp_right fun ⟨hphase, hr, _⟩ => ⟨hphase, hr⟩

theorem Onward.same {s t : State} (hr : t.reader = s.reader) (hp : t.tex.pending = s.tex.pending)
    (hphase : t.phase ≠ .texFourcc := by simp) : Onward s t :=
  .inr ⟨hphase, hr ▸ le_rfl, hp⟩

theorem Onward.after {s t u : State} (k : Onward t u) (hr : t.reader.left ≤ s.reader.left)
    (hp : t.tex.pending = s.tex.pending) : Onward s u :=
  k.imp_right fun ⟨hphase, hr', hp'⟩ => ⟨hphase, hr'.trans hr, hp'.trans hp⟩

theorem endJob_onward (s t : State) (err stop : Byte) (count : Word) : Onward s (t.endJob err stop count) :=
  .inl (endJob_phase err stop count t)

/-! ### The dat stream -/

theorem datOuter_onward (s : State) : Onward s (datOuter s) := by
  unfold datOuter
  split
  · exact .same rfl rfl
  · exact endJob_onward ..

theorem datInner_onward (s : State) : Onward s (datInner s) := by
  unfold datInner
  split
  · exact .same rfl rfl
  · exact datOuter_onward s

theorem datItemDone_onward (s : State) : Onward s (datItemDone s) := (datInner_onward _).after le_rfl rfl

theorem afterTree_onward (which : DatTree) (s : State) : Onward s (afterTree which s) := by
  unfold afterTree
  split
  · exact endJob_onward ..
  · cases which with
    | sym => exact .same rfl rfl
    | copy => exact .same rfl rfl

theorem finishTree_onward (which : DatTree) (s : State) : Onward s (finishTree which s) := by
  unfold finishTree
  split
  · exact endJob_onward ..
  · cases which with
    | sym => exact (afterTree_onward _ _).after le_rfl rfl
    | copy => exact (afterTree_onward _ _).after le_rfl rfl

theorem datDescriptorNext_onward (which : DatTree) (s : State) : Onward s (datDescriptorNext which s) := by
  unfold datDescriptorNext
  split
  · exact .same rfl rfl
  · exact finishTree_onward which s

/-- The extra bits of an item are taken off the stream. -/
theorem datTake_onward (k : Nat) (s : State) {go : Word → State → State} (hgo : ∀ v t, Onward t (go v t)) :
    Onward s (datTake k s go) := by
  rcases datTake_cases k s go with ⟨_, e⟩ | ⟨_, r, hdrop, e⟩ <;> rw [e]
  · exact endJob_onward ..
  · have htook := drop_left hdrop
    exact (hgo _ { s with reader := r }).after (by simp only; omega) rfl

theorem lengthCode_onward (base extra : Nat) (s : State) : Onward s (lengthCode base extra s) := by
  unfold lengthCode
  split
  · exact .same rfl rfl
  · exact datTake_onward _ s fun _ _ => .same rfl rfl

theorem finishCopy_onward (dist : Nat) (s : State) : Onward s (finishCopy dist s) := by
  unfold finishCopy
  split
  · exact endJob_onward ..
  · exact (datItemDone_onward _).after le_rfl rfl

theorem distanceCode_onward (base extra : Nat) (s : State) : Onward s (distanceCode base extra s) := by
  unfold distanceCode
  split
  · exact finishCopy_onward _ s
  · exact datTake_onward _ s fun _ t => finishCopy_onward _ t

/-! ### The texture stream -/

theorem seekColour_onward (s : State) : Onward s (seekColour s) := by
  simp only [seekColour]
  split
  · exact .same rfl rfl
  · exact endJob_onward ..

theorem seekAlpha_onward (s : State) : Onward s (seekAlpha s) := by
  simp only [seekAlpha]
  split
  · exact .same rfl rfl
  · exact (seekColour_onward _).after le_rfl rfl

theorem nextPass_onward (s : State) : Onward s (nextPass s) := by
  unfold nextPass
  split
  · exact (seekAlpha_onward _).after (align32_left s.mem s.reader) rfl
  · exact .same rfl rfl

theorem nextRun_onward (s : State) : Onward s (nextRun s) := by
  unfold nextRun
  split
  · exact .same rfl rfl
  · exact nextPass_onward s

theorem enterRuns_onward (pass : Pass) (s : State) : Onward s (enterRuns pass s) := (nextRun_onward _).after le_rfl rfl

theorem BlocksOnly.reader {s t : State} (h : BlocksOnly s t) : t.reader = s.reader := by rw [h.rest]
theorem BlocksOnly.pending {s t : State} (h : BlocksOnly s t) : t.tex.pending = s.tex.pending := by rw [h.rest]

theorem runBlocks_onward {target : State → List Bool} {put : State → State} (hput : ∀ s, BlocksOnly s (put s))
    (value : Bool) (s : State) : Onward s (runBlocks target put value s) := by
  have hblocks := coverBlocks_only (target := target) hput value s.blocksLeft s.tex.code s
  exact (nextRun_onward _).after (hblocks.reader ▸ le_rfl) hblocks.pending

theorem storeResidue_onward (offset : Nat) {seek : State → State} (hseek : ∀ t, Onward t (seek t)) (word : Word)
    {s : State} (hp : s.phase ≠ .texFourcc) : Onward s (storeResidue offset seek word s) := by
  simp only [storeResidue]
  split
  · exact .same rfl rfl hp
  · exact (hseek _).after le_rfl rfl

/-! ### The rows of the tables -/

theorem lengthRows_in_table : ∀ x ∈ lengthRows, ∃ c ∈ lengthTable, c.1 = x.2 := by decide
theorem distanceRows_in_table : ∀ x ∈ distanceRows, ∃ c ∈ distanceTable, c.1 = x.2 := by decide
theorem countRows_in_table : ∀ x ∈ countRows, ∃ c ∈ countTable, c.1 = x.2 := by decide
theorem fourccRows_in_table : ∀ x ∈ fourccRows, ∃ f ∈ formatRows, f.instr = x.2 := by decide

theorem rowOr_mem {reject : Reject} {table : List (Nat × Instr)} {v : Nat} {i : Instr}
    (h : rowOr reject table v = .ok i) : (v, i) ∈ table := findRow_mem (rowOr_eq_ok_iff.mp h)

/-! ### Every element at its place -/

/-- An element that runs at its place, taking from the stream or ending the job. -/
def RunsAt (i : Instr) (s : State) : Prop := ∃ t, exec i s = .next t ∧ Spends s t

theorem RunsAt.of_eq {i : Instr} {s t : State} (e : exec i s = .next t) (h : Spends s t) : RunsAt i s := ⟨t, e, h⟩

section AtPlace

variable {s : State} {i : Instr} {v : Nat}

theorem descriptor_runsAt {which : DatTree} (hp : s.phase = .datDescriptor which)
    (hd : decodeDescriptor v = .ok i) : RunsAt i s := by
  unfold decodeDescriptor at hd
  split at hd
  · cases hd
  · split at hd <;> cases hd
    · exact .of_eq (exec_datDescSkip hp _) ((datDescriptorNext_onward _ _).after le_rfl rfl).spends
    · refine .of_eq (exec_datDescAdd hp _ _ rfl) ?_
      split
      · exact ((datDescriptorNext_onward _ _).after le_rfl rfl).spends
      · exact .inl (endJob_phase ..)

theorem symSymbol_runsAt (hp : s.phase = .datItem) (hd : decodeSymSymbol v = .ok i) : RunsAt i s := by
  unfold decodeSymSymbol at hd
  split at hd
  · cases hd
    exact .of_eq (inPhase_at hp _) ((datItemDone_onward _).after le_rfl rfl).spends
  · obtain ⟨c, hc, rfl⟩ := lengthRows_in_table _ (rowOr_mem hd)
    exact .of_eq ((exec_length hc s).trans (inPhase_at hp _)) (lengthCode_onward _ _ s).spends

theorem copySymbol_runsAt (hp : s.phase = .datDistance) (hd : decodeCopySymbol v = .ok i) : RunsAt i s := by
  unfold decodeCopySymbol at hd
  split at hd
  · obtain ⟨c, hc, rfl⟩ := distanceRows_in_table _ (rowOr_mem hd)
    exact .of_eq ((exec_distance hc s).trans (inPhase_at hp _)) (distanceCode_onward _ _ s).spends
  · split at hd <;> cases hd
    exact .of_eq (inPhase_at hp _) (.inl (endJob_phase ..))

theorem texCount_runsAt (hp : s.phase = .texCount) (hd : decode .texCount v = .ok i) : RunsAt i s := by
  obtain ⟨c, hc, rfl⟩ := countRows_in_table _ (rowOr_mem hd)
  exact .of_eq ((exec_texCount hc s).trans (inPhase_at hp _)) (.inr ⟨by simp [startRun], le_rfl⟩)

theorem datNSymbols_runsAt {which : DatTree} (hp : s.phase = .datNSymbols which) (n : BitVec 16) :
    RunsAt (.datNSymbols n) s := by
  refine .of_eq (exec_datNSymbols hp n) ?_
  split
  · exact .inl (endJob_phase ..)
  · exact ((datDescriptorNext_onward _ _).after le_rfl rfl).spends

/-- A flag begins its pass: the flag is no longer to be started (44_texture_inflater.md R406). -/
theorem exec_texFlag_at (hp : s.phase = .texFlag) (hd : decode .texFlag v = .ok i) :
    ∃ k t, k < 4 ∧ v = 2 ^ k ∧ exec i s = .next t ∧ Onward (s.clearFlag k) t := by
  have hrow := rowOr_mem hd
  simp only [flagRows, List.mem_cons, Prod.mk.injEq, List.not_mem_nil, or_false] at hrow
  obtain ⟨rfl, rfl⟩ | ⟨rfl, rfl⟩ | ⟨rfl, rfl⟩ | ⟨rfl, rfl⟩ := hrow
  · exact ⟨0, _, by decide, rfl, inPhase_at hp _, enterRuns_onward _ _⟩
  · exact ⟨1, _, by decide, rfl, inPhase_at hp _, .same rfl rfl⟩
  · exact ⟨2, _, by decide, rfl, inPhase_at hp _, .same rfl rfl⟩
  · exact ⟨3, _, by decide, rfl, inPhase_at hp _, .same rfl rfl⟩

theorem texFlag_runsAt (hp : s.phase = .texFlag) (hd : decode .texFlag v = .ok i) : RunsAt i s := by
  obtain ⟨k, t, _, _, e, h⟩ := exec_texFlag_at hp hd
  exact ⟨t, e, h.spends⟩

theorem whiteRun_runsAt (hp : s.phase = .texRun) (hpass : s.tex.pass = .white) (value : Bool) :
    RunsAt (.texWhiteRun value) s :=
  .of_eq ((exec_whiteRun hpass value).trans (inPhase_at hp _)) (runBlocks_onward putWhite_only value s).spends

theorem alphaRun_runsAt {byte : Byte} (hp : s.phase = .texRun) (hpass : s.tex.pass = .alpha byte)
    (value notNull : Bool) : RunsAt (.texAlphaRun value notNull) s :=
  .of_eq ((exec_alphaRun hpass value notNull).trans (inPhase_at hp _))
    (runBlocks_onward (putAlpha_only _) value s).spends

theorem plainRun_runsAt {block : BitVec 64} (hp : s.phase = .texRun) (hpass : s.tex.pass = .plain block)
    (value : Bool) : RunsAt (.texPlainRun value) s :=
  .of_eq ((exec_plainRun hpass value).trans (inPhase_at hp _)) (runBlocks_onward (putPlain_only block) value s).spends

/-- The FourCC opens the stream, so it takes nothing from it; it leads to the texture header or to the end of the job
(60_exceptions.md R513). -/
theorem exec_fourcc_at (hp : s.phase = .texFourcc) (hd : decode .fourcc v = .ok i) :
    ∃ t, exec i s = .next t ∧ (t.phase = .idle ∨ t.phase = .texHeader) := by
  obtain ⟨f, hf, rfl⟩ := fourccRows_in_table _ (rowOr_mem hd)
  refine ⟨_, (exec_fourcc hf s).trans (inPhase_at hp _), ?_⟩
  rw [selectFormat_row hf]
  split
  · exact .inl (endJob_phase ..)
  · split
    · exact .inl (endJob_phase ..)
    · exact .inr rfl

/-- Every element that its place's bits decode to runs there, the FourCC aside. -/
theorem runsAt_of_place {kind : ElemKind} (place : StandsAt s kind) (hd : decode kind v = .ok i) (hk : kind ≠ .fourcc) :
    RunsAt i s := by
  cases place with
  | datHeader hp =>
    cases hd
    exact .of_eq (inPhase_at hp _) ((datOuter_onward _).after le_rfl rfl).spends
  | datNSymbols hp =>
    cases hd
    exact datNSymbols_runsAt hp _
  | descriptor hp => exact descriptor_runsAt hp hd
  | maxCount hp =>
    cases hd
    exact .of_eq (inPhase_at hp _) ((datInner_onward _).after le_rfl rfl).spends
  | symSymbol hp => exact symSymbol_runsAt hp hd
  | copySymbol hp => exact copySymbol_runsAt hp hd
  | fourcc hp => exact absurd rfl hk
  | texHeader hp =>
    cases hd
    exact .of_eq (inPhase_at hp _) ((nextPass_onward _).spends)
  | texFlag hp => exact texFlag_runsAt hp hd
  | alphaStart4 hp =>
    cases hd
    exact .of_eq (inPhase_at hp _) (enterRuns_onward _ s).spends
  | alphaStart8 hp =>
    cases hd
    exact .of_eq (inPhase_at hp _) (enterRuns_onward _ s).spends
  | plainStart hp =>
    cases hd
    exact .of_eq (inPhase_at hp _) (enterRuns_onward _ s).spends
  | texCount hp => exact texCount_runsAt hp hd
  | whiteRun hp hpass =>
    cases hd
    exact whiteRun_runsAt hp hpass _
  | alphaRun hp hpass =>
    cases hd
    exact alphaRun_runsAt hp hpass _ _
  | plainRun hp hpass =>
    cases hd
    exact plainRun_runsAt hp hpass _
  | alphaResidue hp =>
    cases hd
    exact .of_eq (exec_alphaResidueWord hp _) (storeResidue_onward _ seekAlpha_onward _ (by simp [hp])).spends
  | colourResidue hp =>
    cases hd
    exact .of_eq (exec_colourResidueWord hp _) (storeResidue_onward _ seekColour_onward _ (by simp [hp])).spends

/-- An element that its place's bits decode to has a meaning there. -/
theorem exec_at_place {kind : ElemKind} (place : StandsAt s kind) (hd : decode kind v = .ok i) :
    ∃ t, exec i s = .next t := by
  by_cases hk : kind = .fourcc
  · subst hk
    obtain ⟨t, e, _⟩ := exec_fourcc_at place.fourcc_phase hd
    exact ⟨t, e⟩
  · obtain ⟨t, e, _⟩ := runsAt_of_place place hd hk
    exact ⟨t, e⟩

end AtPlace

/-! ### A step never faults -/

/-- An element of the running job is read and run, or the job ends at its reading (60_exceptions.md R524). -/
theorem coreStep_next {s : State} (h : s.Inv) (hp : s.phase ≠ .idle) : ∃ t, coreStep s = .next t := by
  have hfetch := fetch_fetches_zero hp
  have hgood := fetch_good h hp
  unfold coreStep
  cases hx : fetch s with
  | instr i u =>
    rw [hx] at hfetch
    obtain ⟨place, hd, frame, _⟩ := hfetch
    exact exec_at_place (place.of_readerOnly frame) hd
  | ended u => exact ⟨u, rfl⟩
  | fault f =>
    rw [hx] at hgood
    exact hgood.elim

/-- The transaction is an access to the register window, of this size at this offset, by the offset or by the host
address (20_memory.md R100). -/
def HostOp.Accesses (s : State) (offset bytes : Nat) (op : HostOp) : Prop :=
  (∃ v, op = .write offset bytes v) ∨ op = .read offset bytes ∨
    ∃ a : Word, offset = (a - s.regBase).toNat ∧ ((∃ v, op = .writeAt a bytes v) ∨ op = .readAt a bytes)

theorem windowWrite_answers (offset bytes : Nat) (v : Word) (s : State) :
    (∃ t, s.windowWrite offset bytes v = .next t) ∨
      s.windowWrite offset bytes v = .refused (.registerAccess offset bytes) := by
  unfold State.windowWrite
  split
  · exact .inl (hostWrite_next offset v s)
  · exact .inr rfl

theorem windowRead_answers (offset bytes : Nat) (s : State) :
    (∃ t, s.windowRead offset bytes = .next t) ∨
      s.windowRead offset bytes = .refused (.registerAccess offset bytes) := by
  unfold State.windowRead
  split
  · exact .inl ⟨_, rfl⟩
  · exact .inr rfl

/-- A transaction of the host is refused only as an access the window does not take (10_state.md R30). -/
theorem hostStep_answers (op : HostOp) (s : State) :
    (∃ t, hostStep op s = .next t) ∨
      ∃ offset bytes, hostStep op s = .refused (.registerAccess offset bytes) ∧ op.Accesses s offset bytes := by
  cases op with
  | write offset bytes v =>
    exact (windowWrite_answers offset bytes v s).imp_right fun e => ⟨offset, bytes, e, .inl ⟨v, rfl⟩⟩
  | read offset bytes =>
    exact (windowRead_answers offset bytes s).imp_right fun e => ⟨offset, bytes, e, .inr (.inl rfl)⟩
  | writeAt a bytes v =>
    by_cases hreach : s.reachesWindow a bytes = true
    · rw [hostStep_writeAt_reaching hreach]
      exact (windowWrite_answers _ bytes v s).imp_right fun e =>
        ⟨_, bytes, e, .inr (.inr ⟨a, rfl, .inl ⟨v, rfl⟩⟩)⟩
    · exact .inl ⟨s, if_neg hreach⟩
  | readAt a bytes =>
    by_cases hreach : s.reachesWindow a bytes = true
    · rw [hostStep_readAt_reaching hreach]
      exact (windowRead_answers _ bytes s).imp_right fun e => ⟨_, bytes, e, .inr (.inr ⟨a, rfl, .inr rfl⟩)⟩
    · exact .inl ⟨s, if_neg hreach⟩
  | memWrite a b => exact .inl ⟨_, rfl⟩
  | memRead a => exact .inl ⟨_, rfl⟩
  | reset asserted => exact .inl ⟨_, rfl⟩

/-- Settles O55: an idle step, an element by `coreStep_next`, a transaction by `hostStep_answers`. -/
theorem stepNeverFaults : Obligations.StepNeverFaults := by
  intro s h
  rcases step_cases s with ⟨_, _, k⟩ | ⟨b, hp, _, k⟩ | ⟨e, rest, hbus, _, k⟩ <;> rw [k]
  · exact .inl ⟨s, rfl⟩
  · exact .inl (coreStep_next (bus_inv h b) hp)
  · refine (hostStep_answers e.op { s with bus := rest }).imp_right fun ⟨o, n, hrefused, haccess⟩ => ?_
    exact ⟨e, rest, o, n, hbus, hrefused, haccess⟩

end Sys2Proof.Machine
end

section
/-! PROOFS. Every running job ends (42_dat_inflater.md R347, 44_texture_inflater.md R452, 60_exceptions.md R524). The idea: an
element takes at least one bit off the stream, or is a flag, of which at most four are to be started, or is the FourCC, which
opens the stream once; so a number falls with every step of the job. -/

namespace Sys2Proof.Machine

/-! ### The work left -/

/-- A bound on the steps a job is still to make: before its FourCC any stream can follow; then 16 for each bit of the stream
to come, more than the four flags are as a number. -/
def State.work (s : State) : Nat :=
  if s.phase = .texFourcc then 2 ^ 40 else 16 * s.reader.left + s.tex.pending.toNat

theorem work_of_open {s : State} (h : s.phase ≠ .texFourcc) :
    s.work = 16 * s.reader.left + s.tex.pending.toNat := if_neg h

/-- Behind the FourCC the work is below the work before it. -/
theorem work_lt_of_open {s : State} (h : s.Inv) (hp : s.phase ≠ .texFourcc) : s.work < 2 ^ 40 := by
  have hfew := h.reader.few
  have hrem := s.reader.remaining.isLt
  have hpending := s.tex.pending.isLt
  rw [work_of_open hp, Reader.left]
  omega

/-! ### One element -/

/-- A step of the job ends it, or leaves less work. -/
def Progress (s t : State) : Prop := t.phase = .idle ∨ t.work < s.work

/-- The FourCC opens the stream, once. -/
theorem coreStep_fourcc_progress {s t : State} (h : s.Inv) (hp : s.phase = .texFourcc) (e : coreStep s = .next t) :
    Progress s t := by
  have hinv := coreStep_inv h (by simp [hp]) e
  have hfetch : fetch s = fetchFourcc s := by simp only [fetch, hp]
  rw [coreStep, hfetch, fetchFourcc] at e
  cases hd : decode .fourcc s.texFourcc.toNat with
  | ok i =>
    rw [hd] at e
    obtain ⟨u, hu, hend⟩ := exec_fourcc_at hp hd
    obtain rfl : u = t := Host.Outcome.next.inj (hu.symm.trans e)
    refine hend.imp_right fun hheader => ?_
    have hbefore : s.work = 2 ^ 40 := if_pos hp
    rw [hbefore]
    exact work_lt_of_open hinv (by simp [hheader])
  | error r =>
    rw [hd] at e
    cases e
    exact .inl (endJob_phase ..)

/-- The flag whose pass begins is the lowest one set, so clearing it lowers the number of the flags. -/
theorem clearFlag_lt : ∀ p : BitVec 4, p ≠ 0 → ∀ k < 4, lowestFlag p = 2 ^ k → (p &&& ~~~(1#4 <<< k)).toNat < p.toNat := by
  decide

/-- A flag takes nothing from the stream, but there is one flag less. -/
theorem coreStep_flag_progress {s t : State} (h : s.Inv) (hp : s.phase = .texFlag) (e : coreStep s = .next t) :
    Progress s t := by
  have hpending : s.tex.pending ≠ 0 := by
    have hjob := h.job
    simp only [State.JobGood, hp] at hjob
    exact hjob.2
  have hfetch : fetch s = fetchedAs .texFlag (lowestFlag s.tex.pending) s := by simp only [fetch, hp]
  rw [coreStep, hfetch] at e
  rcases fetchedAs_cases .texFlag (lowestFlag s.tex.pending) s with ⟨i, hd, hf⟩ | ⟨r, _, hf⟩ <;> rw [hf] at e
  · obtain ⟨k, u, hk, hflag, hu, honward⟩ := exec_texFlag_at hp hd
    obtain rfl : u = t := Host.Outcome.next.inj (hu.symm.trans e)
    refine honward.imp_right fun ⟨hopen, hleft, hcleared⟩ => ?_
    have hless := clearFlag_lt s.tex.pending hpending k hk hflag
    rw [work_of_open hopen, work_of_open (by simp [hp]), hcleared]
    exact Nat.add_lt_add_of_le_of_lt (Nat.mul_le_mul_left 16 hleft) hless
  · cases e

/-- No code of a tree that the core holds is empty (10_state.md R55, R56). -/
theorem symbolPlace_length {s : State} (h : s.Inv) {kind : ElemKind} {tree : Tree}
    (hplace : s.symbolPlace = some (kind, tree)) {x : Symbol} {len : Nat}
    (hx : windowSymbol tree s.reader = some (x, len)) : 1 ≤ len := by
  have hgood : ∃ limit, 0 < limit ∧ tree.Good limit := by
    unfold State.symbolPlace at hplace
    split at hplace <;> cases hplace
    · exact ⟨256, by decide, h.datDict⟩
    · exact ⟨285, by decide, h.sym⟩
    · exact ⟨285, by decide, h.copy⟩
    · exact ⟨285, by decide, texDict_good⟩
  obtain ⟨limit, hpos, htree⟩ := hgood
  exact (resolve_good htree hpos hx).2.1

/-- Any other element takes at least a bit of the stream. -/
theorem coreStep_element_progress {s t : State} (h : s.Inv) (hp : s.phase ≠ .idle) (hfourcc : s.phase ≠ .texFourcc)
    (hflag : s.phase ≠ .texFlag) (e : coreStep s = .next t) : Progress s t := by
  have hfetch : Fetches 1 s (fetch s) :=
    fetch_fetches hp le_rfl (fun hselector => absurd hselector (by simp [hfourcc, hflag]))
      fun _ _ hplace _ _ hx => symbolPlace_length h hplace hx
  unfold coreStep at e
  cases hx : fetch s with
  | instr i u =>
    rw [hx] at hfetch e
    obtain ⟨place, hd, frame, took⟩ := hfetch
    have hplace := place.of_readerOnly frame
    obtain ⟨w, hw, hspends⟩ := runsAt_of_place hplace hd
      (by rintro rfl; exact hfourcc place.fourcc_phase)
    obtain rfl : w = t := Host.Outcome.next.inj (hw.symm.trans e)
    refine hspends.imp_right fun ⟨hopen, hleft⟩ => ?_
    have hpending := w.tex.pending.isLt
    rw [work_of_open hopen, work_of_open hfourcc]
    omega
  | ended u =>
    rw [hx] at hfetch e
    cases e
    cases hfetch with
    | ended ends => exact .inl ends.2
  | fault f =>
    rw [hx] at e
    cases e

/-- Every step of the job ends it or leaves less work. -/
theorem coreStep_progress {s t : State} (h : s.Inv) (hp : s.phase ≠ .idle) (e : coreStep s = .next t) :
    Progress s t := by
  by_cases hfourcc : s.phase = .texFourcc
  · exact coreStep_fourcc_progress h hfourcc e
  · by_cases hflag : s.phase = .texFlag
    · exact coreStep_flag_progress h hflag e
    · exact coreStep_element_progress h hp hfourcc hflag e

/-! ### The run of a job -/

/-- One step more at the front of a run. -/
theorem runSteps_succ {s t : State} (e : step s = .next t) (n : Nat) : runSteps (n + 1) s = runSteps n t := by
  rw [runSteps, e]

/-- Settles O57, by induction on the work left: the step of a job without pending transactions is its next element, which
keeps the invariant and the empty list, and ends the job, done, or leaves less work. -/
theorem everyJobCompletes : Obligations.EveryJobCompletes := by
  intro s
  induction hwork : s.work using Nat.strong_induction_on generalizing s with
  | _ work ih =>
    intro h hp hbus
    have hstep : step s = coreStep s := by
      have hs : { s with bus := [] } = s := by rw [← hbus]
      rw [step_hostWaits hp (.inl ⟨hbus, rfl⟩), hs]
    obtain ⟨t, e⟩ := coreStep_next h hp
    have hjob := coreStep_jobStep hp e
    rw [← hstep] at e
    by_cases hend : t.phase = .idle
    · exact ⟨1, t, runSteps_succ e 0, hend, hjob.done_of_idle hend⟩
    · have hless : t.work < work := hwork ▸ (coreStep_progress h hp (hstep ▸ e)).resolve_left hend
      have hquiet : t.bus = [] := by rw [hjob.bodyOnly, hbus]
      obtain ⟨n, u, hrun, hdone⟩ := ih t.work hless t rfl (stepKeepsInvariant s t h e) hend hquiet
      exact ⟨n + 1, u, (runSteps_succ e n).trans hrun, hdone⟩

end Sys2Proof.Machine
end

section
/-! PROOFS. What a job leaves in memory where the host disturbs or resets it (93_implementation_defined.md U19, U20, log
entries 11 and 12): a held write is read back like a direct one, the last at an address counting, and a blend takes each
byte from one of two memories. -/

namespace Sys2Proof.Machine

/-! ### The regions -/

theorem inOutput_iff {s : State} {a : Word} : s.inOutput a = true ↔ s.outputHolds a := by
  simp [State.inOutput, inRegion, State.outputHolds]

theorem inInput_iff {s : State} {a : Word} : s.inInput a = true ↔ s.inputHolds a := by
  simp [State.inInput, inRegion, State.inputHolds]

/-! ### Held writes -/

theorem heldByte_append (a : Word) (b : Byte) (l r : List (Word × Byte)) :
    heldByte a b (l ++ r) = heldByte a (heldByte a b l) r := by
  induction l generalizing b with
  | nil => rfl
  | cons x l ih => exact ih _

/-- Without a held write at an address its byte stands. -/
theorem heldByte_of_not_held {a : Word} {l : List (Word × Byte)} (h : ∀ x ∈ l, x.1 ≠ a) (b : Byte) :
    heldByte a b l = b := by
  induction l with
  | nil => rfl
  | cons x l ih =>
    obtain ⟨hx, hl⟩ := List.forall_mem_cons.mp h
    rw [heldByte, if_neg hx, ih hl]

/-- The last held write at an address gives its byte. -/
theorem heldByte_of_last {a : Word} {after : List (Word × Byte)} (h : ∀ x ∈ after, x.1 ≠ a) (before : List (Word × Byte))
    (w b : Byte) : heldByte a b (before ++ (a, w) :: after) = w := by
  rw [heldByte_append, heldByte, if_pos rfl, heldByte_of_not_held h]

/-- What the held writes leave is what a host read sees in mid job (log entry 11). -/
theorem applyHeld_read {m : Memory} (l : List (Word × Byte)) (a : Word) (h : m.wf = true) :
    (applyHeld m l).read a = heldByte a (m.read a) l := by
  induction l generalizing m with
  | nil => rfl
  | cons x l ih =>
    obtain ⟨k, b⟩ := x
    simp only [applyHeld, heldByte, ih (memory_write_wf k b h), memory_read_write k a b h, eq_comm (a := a)]

/-! ### Blended memories -/

theorem memory_key_lt {m : Memory} (h : m.wf = true) : ∀ c ∈ m, c.1 < 2 ^ 32 := by
  induction m with
  | nil => exact List.forall_mem_nil _
  | cons x m ih =>
    obtain ⟨hk, _, _, hrest⟩ := (memory_wf_cons x.1 x.2 m).mp h
    exact List.forall_mem_cons.mpr ⟨hk, ih hrest⟩

/-- A blend gives the listed addresses that are not picked their older byte. -/
theorem lookupByte_blend {m : Memory} (pick : Nat → Bool) (old : Memory) {l : List Nat} (hl : ∀ a ∈ l, a < 2 ^ 32)
    (h : m.wf = true) (x : Nat) :
    lookupByte (Memory.blend pick old m l) x =
      if x ∈ l ∧ pick x = false then lookupByte old x else lookupByte m x := by
  induction l generalizing m with
  | nil => simp [Memory.blend]
  | cons a l ih =>
    obtain ⟨ha, hrest⟩ := List.forall_mem_cons.mp hl
    rw [Memory.blend]
    by_cases hpick : pick a = true
    · rw [if_pos hpick, ih hrest h]
      grind
    · rw [if_neg hpick, ih hrest (storeByte_wf _ ha h), lookupByte_storeByte x h]
      grind

end Sys2Proof.Machine
end

section
/-! PROOFS. Reset (70_reset_and_hazards.md R600 to R602, log entries 12 and 23): its assertion leaves the reset state with
the abandoned job's memory blended, the clause `asserted` of the invariant keeps a held reset at the reset values, and these
give what every register reads. -/

namespace Sys2Proof.Machine

/-- Settles O54: nothing runs at reset, memory is empty, and no tree or builder holds a symbol but DAT_DICT, which is good
whatever its list is. -/
theorem invariantAtReset : Obligations.InvariantAtReset :=
  idle_inv ⟨reset_mem_wf, rfl, resetReader_good, emptyTree_good _, emptyTree_good _, dictTree_good _, emptyBuilder_good,
    fun _ => rfl, rfl⟩ rfl rfl

/-! ### The memory an abandoned job leaves -/

theorem writtenAddresses_lt {s : State} (h : s.Inv) : ∀ a ∈ s.writtenAddresses, a < 2 ^ 32 := by
  intro a ha
  obtain ⟨hlisted, _⟩ := List.mem_filter.mp ha
  obtain ⟨c, hc, rfl⟩ := List.mem_map.mp hlisted
  exact (List.mem_append.mp hc).elim (memory_key_lt h.memAtStart c) (memory_key_lt h.mem c)

theorem outputHolds_of_written {s : State} {a : Word} (h : a.toNat ∈ s.writtenAddresses) : s.outputHolds a := by
  have hin := (List.mem_filter.mp h).2
  rw [BitVec.ofNat_toNat, BitVec.setWidth_eq] at hin
  exact inOutput_iff.mp hin

theorem memAfterReset_idle {s : State} (hp : s.phase = .idle) : s.memAfterReset = s.mem := by
  rw [State.memAfterReset, busy_eq_false.mpr hp]
  rfl

/-- The bytes after a reset that abandons an undisturbed job (93_implementation_defined.md U19, log entry 12). -/
theorem memAfterReset_read {s : State} (h : s.Inv) (hp : s.phase ≠ .idle) (ht : s.touched = false) (a : Word) :
    s.memAfterReset.read a =
      if a.toNat ∈ s.writtenAddresses ∧ Config.freeChoice s.free a.toNat = false then s.memAtStart.read a
      else s.mem.read a := by
  have hblend : s.memAfterReset = Memory.blend (Config.freeChoice s.free) s.memAtStart s.mem s.writtenAddresses := by
    simp [State.memAfterReset, busy_eq_true.mpr hp, ht]
  rw [hblend]
  exact lookupByte_blend _ _ (writtenAddresses_lt h) h.mem _

theorem memAfterReset_outside {s : State} (h : s.Inv) (hp : s.phase ≠ .idle) (ht : s.touched = false) {a : Word}
    (ha : ¬s.outputHolds a) : s.memAfterReset.read a = s.mem.read a := by
  rw [memAfterReset_read h hp ht, if_neg fun hold => ha (outputHolds_of_written hold.1)]

theorem memAfterReset_old_or_new {s : State} (h : s.Inv) (hp : s.phase ≠ .idle) (ht : s.touched = false) (a : Word) :
    s.memAfterReset.read a = s.mem.read a ∨ s.memAfterReset.read a = s.memAtStart.read a := by
  rw [memAfterReset_read h hp ht]
  split
  · exact .inr rfl
  · exact .inl rfl

/-! ### The registers at reset -/

/-- Every register but ID reads 0 at reset (70_reset_and_hazards.md R601). -/
theorem readRegister_reset {offset : Nat} (h : offset ≠ 0) : State.reset.readRegister offset = 0 := by
  unfold State.readRegister
  split
  · contradiction
  all_goals decide

theorem readRegister_underReset (s : State) (offset : Nat) :
    s.underReset.readRegister offset = if offset = 0 then 0x43325747 else 0 := by
  have hsame : s.underReset.readRegister offset = State.reset.readRegister offset := rfl
  by_cases h : offset = 0
  · rw [hsame, if_pos h, h]
    rfl
  · rw [hsame, if_neg h, readRegister_reset h]

/-! ### While reset is asserted -/

theorem hostWrite_underReset {s : State} (hr : s.inReset = true) (offset : Nat) (v : Word) :
    s.hostWrite offset v = .next s := if_pos hr

theorem hostRead_underReset {s : State} (h : s.Inv) (hr : s.inReset = true) (offset : Nat) :
    s.hostRead offset = { s with busData := if offset = 0 then 0x43325747 else 0 } := by
  have hs := h.asserted hr
  have hp : s.phase = .idle := by rw [hs]; rfl
  have hvalue : s.readRegister offset = if offset = 0 then 0x43325747 else 0 := by
    rw [hs, readRegister_underReset]
  rw [hostRead_idle hp, hvalue]

/-- Settles O45: a due assertion is `State.assertReset`, its memory by `memAfterReset_outside` and
`memAfterReset_old_or_new`; a held reset is `State.underReset` by the invariant. -/
theorem resetRestoresState : Obligations.ResetRestoresState := by
  refine ⟨fun s e rest h hbus hdue => ⟨fun hop => ?asserted, fun hop => ?released⟩,
    fun s v h hr => ⟨?idle, ?low, fun offset ho ha => ⟨?lost, ?read⟩⟩,
    rfl, fun offset _ hne => readRegister_reset hne, rfl, rfl, rfl⟩
  case asserted =>
    refine ⟨s.memAfterReset, if s.busy then s.free + 1 else s.free, ?_, memAfterReset_idle, fun hp ht =>
      ⟨fun a => memAfterReset_outside h hp ht, memAfterReset_old_or_new h hp ht⟩⟩
    rw [step_hostDue hbus hdue, hop]
    rfl
  case released =>
    rw [step_hostDue hbus hdue, hop]
    rfl
  case idle => rw [h.asserted hr]; rfl
  case low => rw [h.asserted hr]; rfl
  case lost => rw [hostStep_write ho ha, hostWrite_underReset hr]
  case read => rw [hostStep_read ho ha, hostRead_underReset h hr]

end Sys2Proof.Machine
end

section
/-! PROOFS. Disturbed jobs (70_reset_and_hazards.md R620, 93_implementation_defined.md U20, log entry 11): what a host access
to memory does by the region its address is in, and what the end of a disturbed job leaves. -/

namespace Sys2Proof.Machine

/-! ### Host accesses to memory -/

theorem hostMemWrite_output {s : State} (hp : s.phase ≠ .idle) {a : Word} (ha : s.outputHolds a) (b : Byte) :
    s.hostMemWrite a b = { s with touched := true } := by
  simp [State.hostMemWrite, busy_eq_true.mpr hp, inOutput_iff.mpr ha]

theorem hostMemWrite_input {s : State} (hp : s.phase ≠ .idle) {a : Word} (hout : ¬s.outputHolds a) (hin : s.inputHolds a)
    (b : Byte) : s.hostMemWrite a b = { s with touched := true, held := s.held ++ [(a, b)] } := by
  simp [State.hostMemWrite, busy_eq_true.mpr hp, inOutput_iff, hout, inInput_iff.mpr hin]

/-- Elsewhere, and while idle, a host write lands at once. -/
theorem hostMemWrite_elsewhere {s : State} {a : Word} (h : s.phase = .idle ∨ (¬s.outputHolds a ∧ ¬s.inputHolds a))
    (b : Byte) : s.hostMemWrite a b = { s with mem := s.mem.write a b } := by
  rcases h with hp | ⟨hout, hin⟩
  · simp [State.hostMemWrite, busy_eq_false.mpr hp]
  · simp [State.hostMemWrite, inOutput_iff, hout, inInput_iff, hin]

theorem hostMemRead_output {s : State} (hp : s.phase ≠ .idle) {a : Word} (ha : s.outputHolds a) :
    s.hostMemRead a =
      { s with
        busData := (Config.freeByte s.free a.toNat).setWidth 32
        free := s.free + 1
        touched := true } := by
  simp [State.hostMemRead, busy_eq_true.mpr hp, inOutput_iff.mpr ha]

/-- Elsewhere, and while idle, a host read sees memory with the host's own held writes. -/
theorem hostMemRead_elsewhere {s : State} {a : Word} (h : s.phase = .idle ∨ ¬s.outputHolds a) :
    s.hostMemRead a = { s with busData := (heldByte a (s.mem.read a) s.held).setWidth 32 } := by
  have hfree : (s.busy && s.inOutput a) = false := by
    rw [Bool.and_eq_false_iff, busy_eq_false, ← Bool.not_eq_true (s.inOutput a), inOutput_iff]
    exact h
  simp [State.hostMemRead, hfree]

/-! ### The end of a disturbed job -/

theorem endJob_disturbed_finished {s : State} (ht : s.touched = true) (err stop : Byte) (count : Word) :
    s.endJob err stop count =
      { s.finished err (Config.freeStop s.free) (Config.freeCount s.free) with
        mem := s.disturb.mem
        touched := false
        held := []
        free := s.free + 1 } := endJob_disturbed ht err stop count

/-- A disturbed job is a running one, so its regions are checked. -/
theorem State.Inv.regions_of_touched {s : State} (h : s.Inv) (ht : s.touched = true) : s.checkRegions = none :=
  h.regions fun hp => by simp [h.quiet hp] at ht

theorem disturb_mem_read {s : State} (h : s.Inv) (a : Word) :
    s.disturb.mem.read a =
      heldByte a ((Memory.fill (Config.freeByte s.free) s.mem s.outBase s.outLen.toNat).read a) s.held :=
  applyHeld_read _ _ (memory_fill_wf _ _ _ h.mem)

/-- The free bytes stay in the output region, which does not wrap (20_memory.md R102). -/
theorem disturb_mem_read_outside {s : State} (h : s.Inv) (ht : s.touched = true) {a : Word} (ha : ¬s.outputHolds a)
    (hheld : ∀ x ∈ s.held, x.1 ≠ a) : s.disturb.mem.read a = s.mem.read a := by
  have hspan : ¬spans s.outBase s.outLen.toNat a := fun hs =>
    ha (outputHolds_of_spans (k := 0) (n := s.outLen.toNat) (h.regions_of_touched ht) (by omega) (by simpa using hs))
  rw [disturb_mem_read h, heldByte_of_not_held hheld, memory_read_fill_outside _ _ _ _ h.mem hspan]

/-- Settles O58: the accesses region by region, then the end of the job, whose memory is the free bytes with the held writes
upon them. -/
theorem disturbedJobStillCompletes : Obligations.DisturbedJobStillCompletes := by
  refine ⟨fun s a b h => ⟨fun hp ha => congrArg _ (hostMemWrite_output hp ha b),
    fun hp hout hin => congrArg _ (hostMemWrite_input hp hout hin b), fun helse => ?stored,
    fun hp ha => congrArg _ (hostMemRead_output hp ha), fun helse => ?returned⟩, fun s err stop count h ht => ?ended⟩
  case stored =>
    have hread := fun x => memory_read_write a x b h.mem
    exact ⟨s.mem.write a b, congrArg _ (hostMemWrite_elsewhere helse b), (hread a).trans (if_pos rfl),
      fun x hx => (hread x).trans (if_neg hx)⟩
  case returned =>
    refine ⟨heldByte a (s.mem.read a) s.held, congrArg _ (hostMemRead_elsewhere helse), fun hnone => ?_,
      fun before w after hlast hafter => by rw [hlast, heldByte_of_last hafter]⟩
    refine heldByte_of_not_held (hnone.elim (fun hp => ?_) id) _
    rw [h.held (h.quiet hp)]
    exact List.forall_mem_nil _
  case ended =>
    refine ⟨_, _, _, endJob_disturbed_finished ht err stop count, fun a => disturb_mem_read_outside h ht,
      fun before a w after hlast hafter => ?_⟩
    rw [disturb_mem_read h, hlast, heldByte_of_last hafter]

end Sys2Proof.Machine
end
